-- ==== Sys2Proof/Word.lean ====
section
/-! DEFINITION. The word types of CABAC-CORE (00_scope.md R9): bit vectors where the spec has bits. -/

namespace Sys2Proof

/-- Eight bits: a byte of the store, an OP, A, B or C field (30_encoding.md R90). -/
abbrev Byte := BitVec 8

/-- Thirty-two bits: the D field, the response data, a bit position (30_encoding.md R90, R91). -/
abbrev Word := BitVec 32

/-- One command word of format C64 (30_encoding.md R90). -/
abbrev CmdWord := BitVec 64

end Sys2Proof
end

