-- ==== Sys2Proof/Syntax.lean ====
section
/-! DEFINITION. The 36 commands of CABAC-CORE as syntax: one constructor per row of spec/opcode_table.json
(30_encoding.md R94), with the operands of R95 already taken out of the word. -/

namespace Sys2Proof

/-- How a syntax command moves its bits (44_syntax.md R220): RAW, EP or CTX. The value 3 is reserved (R98). -/
inductive Path where
  | raw
  | ep
  | ctx
  deriving DecidableEq, Repr, Inhabited

/-- A command with its operands (30_encoding.md R94, R95). Signed operands (`slope`, `offset`, the `value` of
SE_WR_SVLC) are kept as the bits of the word and read as two's complement by the meaning. -/
inductive Instr where
  | nop
  | sysReset
  | sysRdreg (reg : Byte)
  | ctxInit (ctx qp : Byte) (slope offset : BitVec 16)
  | ctxSet (ctx : Byte) (state : BitVec 6) (mps : Bool)
  | ctxGet (ctx : Byte)
  | encStart
  | encBin (ctx : Byte) (bin : Bool)
  | encBinEp (bin : Bool)
  | encBinTrm (bin : Bool)
  | encFinish
  | decStart
  | decBin (ctx : Byte)
  | decBinEp
  | decBinTrm
  | bbInit (count : Bool)
  | bbWrite (n : Byte) (bits : Word)
  | bbRead (n : Byte)
  | bbGetWritten
  | bbResetBits
  | bbRdSeek (pos : Word)
  | bbGetByte (index : Word)
  | bbSubOpen (nbytes : Word)
  | bbSubClose
  | seWrFlc (n : Byte) (path : Path) (value : Word)
  | seWrUvlc (path : Path) (value : Word)
  | seWrSvlc (path : Path) (value : Word)
  | seWrTu (ctx max : Byte) (path : Path) (spanm1 : BitVec 6) (sym : Byte)
  | seWrTrail
  | seWrFf8 (value : Word)
  | seRdFlc (n : Byte) (path : Path)
  | seRdUvlc (path : Path)
  | seRdSvlc (path : Path)
  | seRdTu (ctx max : Byte) (path : Path) (spanm1 : BitVec 6)
  | seRdTrail
  | seRdFf8
  deriving DecidableEq, Repr, Inhabited

end Sys2Proof
end

