-- ==== Sys2Proof/WellFormed.lean ====
section
/-! DEFINITION. Which command terms are commands: the path constraints of 30_encoding.md R98. Operand values out
of range (n = 33, qp = 52, ctx >= NCTX) are legal encodings with an illegal value (R96) and are no matter of form. -/

namespace Sys2Proof

/-- FLC, UVLC and SVLC take RAW or EP (R98). -/
def Path.rawOrEp : Path → Bool
  | .raw => true
  | .ep => true
  | .ctx => false

/-- Truncated unary takes EP, then with no context operand and no span, or CTX (R98). -/
def Path.tuLegal : Path → Byte → BitVec 6 → Bool
  | .raw, _, _ => false
  | .ep, c, spanm1 => c == 0 && spanm1 == 0
  | .ctx, _, _ => true

/-- The path constraints of 30_encoding.md R98, command by command. -/
def Instr.wellFormed : Instr → Bool
  | .nop => true
  | .sysReset => true
  | .sysRdreg _ => true
  | .ctxInit _ _ _ _ => true
  | .ctxSet _ _ _ => true
  | .ctxGet _ => true
  | .encStart => true
  | .encBin _ _ => true
  | .encBinEp _ => true
  | .encBinTrm _ => true
  | .encFinish => true
  | .decStart => true
  | .decBin _ => true
  | .decBinEp => true
  | .decBinTrm => true
  | .bbInit _ => true
  | .bbWrite _ _ => true
  | .bbRead _ => true
  | .bbGetWritten => true
  | .bbResetBits => true
  | .bbRdSeek _ => true
  | .bbGetByte _ => true
  | .bbSubOpen _ => true
  | .bbSubClose => true
  | .seWrFlc _ path _ => path.rawOrEp
  | .seWrUvlc path _ => path.rawOrEp
  | .seWrSvlc path _ => path.rawOrEp
  | .seWrTu ctx _ path spanm1 _ => path.tuLegal ctx spanm1
  | .seWrTrail => true
  | .seWrFf8 _ => true
  | .seRdFlc _ path => path.rawOrEp
  | .seRdUvlc path => path.rawOrEp
  | .seRdSvlc path => path.rawOrEp
  | .seRdTu ctx _ path spanm1 => path.tuLegal ctx spanm1
  | .seRdTrail => true
  | .seRdFf8 => true

end Sys2Proof
end

