-- ==== Sys2Proof/Decode.lean ====
section
/-! DEFINITION. Decoding a command word by 30_encoding.md R102, total on every 64-bit word, refusing by name; after
it the encoder, written from the same table (R90, R94, R95, R96, R98). -/

namespace Sys2Proof

/-- Why a word is no command (all three are ERR_ILLEGAL, 60_exceptions.md R272): OP not in R94 (R97); a bit set
outside the row's mask (R96); a path the command does not allow (R98). -/
inductive Reject where
  | unassignedOp
  | reservedBits
  | badPath
  deriving DecidableEq, Repr

/-- What decoding a word answers. -/
inductive Decoded where
  | ok (i : Instr)
  | illegal (r : Reject)
  deriving DecidableEq, Repr

/-- The five fields of format C64 (30_encoding.md R90). -/
structure Fields where
  op : Byte
  a : Byte
  b : Byte
  c : Byte
  d : Word
  deriving DecidableEq, Repr

namespace Fields

/-- The fields of a word: OP 63:56, A 55:48, B 47:40, C 39:32, D 31:0 (R90). -/
def ofWord (w : CmdWord) : Fields :=
  ⟨w.extractLsb' 56 8, w.extractLsb' 48 8, w.extractLsb' 40 8, w.extractLsb' 32 8, w.extractLsb' 0 32⟩

/-- The word made of the five fields (R90). -/
def toWord (f : Fields) : CmdWord := f.op ++ f.a ++ f.b ++ f.c ++ f.d

/-! Operand assembly (30_encoding.md R95). -/

/-- `slope` = D[15:0]. -/
def slope (f : Fields) : BitVec 16 := f.d.extractLsb' 0 16

/-- `offset` = D[31:16]. -/
def offset (f : Fields) : BitVec 16 := f.d.extractLsb' 16 16

/-- `state` = D[5:0] of CTX_SET. -/
def cellState (f : Fields) : BitVec 6 := f.d.extractLsb' 0 6

/-- `mps` = D[6] of CTX_SET. -/
def cellMps (f : Fields) : Bool := f.d.getLsbD 6

/-- `bin` = D[0]. -/
def bin (f : Fields) : Bool := f.d.getLsbD 0

/-- `sym` = D[7:0]. -/
def sym (f : Fields) : Byte := f.d.extractLsb' 0 8

/-- `count` = C[0]. -/
def countBit (f : Fields) : Bool := f.c.getLsbD 0

/-- SPANM1 = C[7:2]. -/
def spanm1 (f : Fields) : BitVec 6 := f.c.extractLsb' 2 6

/-- `path` = C[1:0]: 0 RAW, 1 EP, 2 CTX; 3 is reserved and no path (R98). -/
def path (f : Fields) : Option Path :=
  if f.c.extractLsb' 0 2 = 0 then some .raw
  else if f.c.extractLsb' 0 2 = 1 then some .ep
  else if f.c.extractLsb' 0 2 = 2 then some .ctx
  else none

end Fields

/-- One row of the opcode map: OP, the bits of A, B, C and D that may be 1 (30_encoding.md R96), and the operands
(R94, R95). The operands are absent when the path field holds the reserved value 3. -/
structure Row where
  op : Byte
  useA : Byte
  useB : Byte
  useC : Byte
  useD : Word
  build : Fields → Option Instr

/-- A bit is set outside the row's mask (30_encoding.md R96, R102 step 2). -/
def Row.reserved (r : Row) (f : Fields) : Bool :=
  (f.a &&& ~~~r.useA) != 0 || (f.b &&& ~~~r.useB) != 0 || (f.c &&& ~~~r.useC) != 0 || (f.d &&& ~~~r.useD) != 0

/-- The system rows of 30_encoding.md R94 and R96. -/
def systemRows : List Row :=
  [⟨0x00, 0x00, 0x00, 0x00, 0x00000000, fun _ => some .nop⟩,
   ⟨0x01, 0x00, 0x00, 0x00, 0x00000000, fun _ => some .sysReset⟩,
   ⟨0x02, 0xFF, 0x00, 0x00, 0x00000000, fun f => some (.sysRdreg f.a)⟩]

/-- The context rows of 30_encoding.md R94 and R96. -/
def contextRows : List Row :=
  [⟨0x10, 0xFF, 0xFF, 0x00, 0xFFFFFFFF, fun f => some (.ctxInit f.a f.b f.slope f.offset)⟩,
   ⟨0x11, 0xFF, 0x00, 0x00, 0x0000007F, fun f => some (.ctxSet f.a f.cellState f.cellMps)⟩,
   ⟨0x12, 0xFF, 0x00, 0x00, 0x00000000, fun f => some (.ctxGet f.a)⟩]

/-- The encoder rows of 30_encoding.md R94 and R96. -/
def encoderRows : List Row :=
  [⟨0x20, 0x00, 0x00, 0x00, 0x00000000, fun _ => some .encStart⟩,
   ⟨0x21, 0xFF, 0x00, 0x00, 0x00000001, fun f => some (.encBin f.a f.bin)⟩,
   ⟨0x22, 0x00, 0x00, 0x00, 0x00000001, fun f => some (.encBinEp f.bin)⟩,
   ⟨0x23, 0x00, 0x00, 0x00, 0x00000001, fun f => some (.encBinTrm f.bin)⟩,
   ⟨0x24, 0x00, 0x00, 0x00, 0x00000000, fun _ => some .encFinish⟩]

/-- The decoder rows of 30_encoding.md R94 and R96. -/
def decoderRows : List Row :=
  [⟨0x30, 0x00, 0x00, 0x00, 0x00000000, fun _ => some .decStart⟩,
   ⟨0x31, 0xFF, 0x00, 0x00, 0x00000000, fun f => some (.decBin f.a)⟩,
   ⟨0x32, 0x00, 0x00, 0x00, 0x00000000, fun _ => some .decBinEp⟩,
   ⟨0x33, 0x00, 0x00, 0x00, 0x00000000, fun _ => some .decBinTrm⟩]

/-- The bit-buffer rows of 30_encoding.md R94 and R96. -/
def bitBufferRows : List Row :=
  [⟨0x40, 0x00, 0x00, 0x01, 0x00000000, fun f => some (.bbInit f.countBit)⟩,
   ⟨0x41, 0xFF, 0x00, 0x00, 0xFFFFFFFF, fun f => some (.bbWrite f.a f.d)⟩,
   ⟨0x42, 0xFF, 0x00, 0x00, 0x00000000, fun f => some (.bbRead f.a)⟩,
   ⟨0x43, 0x00, 0x00, 0x00, 0x00000000, fun _ => some .bbGetWritten⟩,
   ⟨0x44, 0x00, 0x00, 0x00, 0x00000000, fun _ => some .bbResetBits⟩,
   ⟨0x45, 0x00, 0x00, 0x00, 0xFFFFFFFF, fun f => some (.bbRdSeek f.d)⟩,
   ⟨0x46, 0x00, 0x00, 0x00, 0xFFFFFFFF, fun f => some (.bbGetByte f.d)⟩,
   ⟨0x47, 0x00, 0x00, 0x00, 0xFFFFFFFF, fun f => some (.bbSubOpen f.d)⟩,
   ⟨0x48, 0x00, 0x00, 0x00, 0x00000000, fun _ => some .bbSubClose⟩]

/-- The syntax write rows of 30_encoding.md R94 and R96. -/
def syntaxWriteRows : List Row :=
  [⟨0x50, 0xFF, 0x00, 0x03, 0xFFFFFFFF, fun f => f.path.map fun p => .seWrFlc f.a p f.d⟩,
   ⟨0x51, 0x00, 0x00, 0x03, 0xFFFFFFFF, fun f => f.path.map fun p => .seWrUvlc p f.d⟩,
   ⟨0x52, 0x00, 0x00, 0x03, 0xFFFFFFFF, fun f => f.path.map fun p => .seWrSvlc p f.d⟩,
   ⟨0x53, 0xFF, 0xFF, 0xFF, 0x000000FF, fun f => f.path.map fun p => .seWrTu f.a f.b p f.spanm1 f.sym⟩,
   ⟨0x54, 0x00, 0x00, 0x00, 0x00000000, fun _ => some .seWrTrail⟩,
   ⟨0x55, 0x00, 0x00, 0x00, 0xFFFFFFFF, fun f => some (.seWrFf8 f.d)⟩]

/-- The syntax read rows of 30_encoding.md R94 and R96. -/
def syntaxReadRows : List Row :=
  [⟨0x60, 0xFF, 0x00, 0x03, 0x00000000, fun f => f.path.map fun p => .seRdFlc f.a p⟩,
   ⟨0x61, 0x00, 0x00, 0x03, 0x00000000, fun f => f.path.map fun p => .seRdUvlc p⟩,
   ⟨0x62, 0x00, 0x00, 0x03, 0x00000000, fun f => f.path.map fun p => .seRdSvlc p⟩,
   ⟨0x63, 0xFF, 0xFF, 0xFF, 0x00000000, fun f => f.path.map fun p => .seRdTu f.a f.b p f.spanm1⟩,
   ⟨0x64, 0x00, 0x00, 0x00, 0x00000000, fun _ => some .seRdTrail⟩,
   ⟨0x65, 0x00, 0x00, 0x00, 0x00000000, fun _ => some .seRdFf8⟩]

/-- The 36 assigned opcodes (30_encoding.md R94). -/
def opcodeRows : List Row :=
  systemRows ++ contextRows ++ encoderRows ++ decoderRows ++ bitBufferRows ++ syntaxWriteRows ++ syntaxReadRows

/-- Steps 2 to 4 of 30_encoding.md R102 for a word whose OP is the row's: the reserved bits, the path constraint,
the operands. -/
def Row.decode (r : Row) (f : Fields) : Decoded :=
  if r.reserved f then .illegal .reservedBits
  else match r.build f with
    | none => .illegal .badPath
    | some i => if i.wellFormed then .ok i else .illegal .badPath

/-- Decoding by 30_encoding.md R102, on the fields. -/
def decodeFields (f : Fields) : Decoded :=
  match opcodeRows.find? fun r => r.op == f.op with
  | none => .illegal .unassignedOp
  | some r => r.decode f

/-- Decoding a command word (30_encoding.md R102). No state changes how a word is decoded (R99). -/
def decode (w : CmdWord) : Decoded := decodeFields (Fields.ofWord w)

/-- The OP byte of a command word: bits 63:56 (30_encoding.md R90), what FAULT_OP records (10_state.md R25). -/
def opByte (w : CmdWord) : Byte := (Fields.ofWord w).op

/-- The opcode of a command (30_encoding.md R94). -/
def Instr.op : Instr → Byte
  | .nop => 0x00
  | .sysReset => 0x01
  | .sysRdreg _ => 0x02
  | .ctxInit _ _ _ _ => 0x10
  | .ctxSet _ _ _ => 0x11
  | .ctxGet _ => 0x12
  | .encStart => 0x20
  | .encBin _ _ => 0x21
  | .encBinEp _ => 0x22
  | .encBinTrm _ => 0x23
  | .encFinish => 0x24
  | .decStart => 0x30
  | .decBin _ => 0x31
  | .decBinEp => 0x32
  | .decBinTrm => 0x33
  | .bbInit _ => 0x40
  | .bbWrite _ _ => 0x41
  | .bbRead _ => 0x42
  | .bbGetWritten => 0x43
  | .bbResetBits => 0x44
  | .bbRdSeek _ => 0x45
  | .bbGetByte _ => 0x46
  | .bbSubOpen _ => 0x47
  | .bbSubClose => 0x48
  | .seWrFlc _ _ _ => 0x50
  | .seWrUvlc _ _ => 0x51
  | .seWrSvlc _ _ => 0x52
  | .seWrTu _ _ _ _ _ => 0x53
  | .seWrTrail => 0x54
  | .seWrFf8 _ => 0x55
  | .seRdFlc _ _ => 0x60
  | .seRdUvlc _ => 0x61
  | .seRdSvlc _ => 0x62
  | .seRdTu _ _ _ _ => 0x63
  | .seRdTrail => 0x64
  | .seRdFf8 => 0x65

/-- The value of the path field C[1:0] (30_encoding.md R98). -/
def Path.code : Path → BitVec 2
  | .raw => 0
  | .ep => 1
  | .ctx => 2

/-- A single bit as the least significant bit of D. -/
def bitField (b : Bool) : Word := (BitVec.ofBool b).setWidth 32

/-- The path alone in C (SPANM1 = 0). -/
def pathField (p : Path) : Byte := (0 : BitVec 6) ++ p.code

/-- The A, B, C and D fields of a command (30_encoding.md R94, R95); a field that is not used is 0 (R96). -/
def Instr.fields (i : Instr) : Fields :=
  match i with
  | .nop => ⟨i.op, 0, 0, 0, 0⟩
  | .sysReset => ⟨i.op, 0, 0, 0, 0⟩
  | .sysRdreg reg => ⟨i.op, reg, 0, 0, 0⟩
  | .ctxInit ctx qp slope offset => ⟨i.op, ctx, qp, 0, offset ++ slope⟩
  | .ctxSet ctx state mps => ⟨i.op, ctx, 0, 0, (0 : BitVec 25) ++ (BitVec.ofBool mps ++ state)⟩
  | .ctxGet ctx => ⟨i.op, ctx, 0, 0, 0⟩
  | .encStart => ⟨i.op, 0, 0, 0, 0⟩
  | .encBin ctx bin => ⟨i.op, ctx, 0, 0, bitField bin⟩
  | .encBinEp bin => ⟨i.op, 0, 0, 0, bitField bin⟩
  | .encBinTrm bin => ⟨i.op, 0, 0, 0, bitField bin⟩
  | .encFinish => ⟨i.op, 0, 0, 0, 0⟩
  | .decStart => ⟨i.op, 0, 0, 0, 0⟩
  | .decBin ctx => ⟨i.op, ctx, 0, 0, 0⟩
  | .decBinEp => ⟨i.op, 0, 0, 0, 0⟩
  | .decBinTrm => ⟨i.op, 0, 0, 0, 0⟩
  | .bbInit count => ⟨i.op, 0, 0, (BitVec.ofBool count).setWidth 8, 0⟩
  | .bbWrite n bits => ⟨i.op, n, 0, 0, bits⟩
  | .bbRead n => ⟨i.op, n, 0, 0, 0⟩
  | .bbGetWritten => ⟨i.op, 0, 0, 0, 0⟩
  | .bbResetBits => ⟨i.op, 0, 0, 0, 0⟩
  | .bbRdSeek pos => ⟨i.op, 0, 0, 0, pos⟩
  | .bbGetByte index => ⟨i.op, 0, 0, 0, index⟩
  | .bbSubOpen nbytes => ⟨i.op, 0, 0, 0, nbytes⟩
  | .bbSubClose => ⟨i.op, 0, 0, 0, 0⟩
  | .seWrFlc n path value => ⟨i.op, n, 0, pathField path, value⟩
  | .seWrUvlc path value => ⟨i.op, 0, 0, pathField path, value⟩
  | .seWrSvlc path value => ⟨i.op, 0, 0, pathField path, value⟩
  | .seWrTu ctx max path spanm1 sym => ⟨i.op, ctx, max, spanm1 ++ path.code, sym.setWidth 32⟩
  | .seWrTrail => ⟨i.op, 0, 0, 0, 0⟩
  | .seWrFf8 value => ⟨i.op, 0, 0, 0, value⟩
  | .seRdFlc n path => ⟨i.op, n, 0, pathField path, 0⟩
  | .seRdUvlc path => ⟨i.op, 0, 0, pathField path, 0⟩
  | .seRdSvlc path => ⟨i.op, 0, 0, pathField path, 0⟩
  | .seRdTu ctx max path spanm1 => ⟨i.op, ctx, max, spanm1 ++ path.code, 0⟩
  | .seRdTrail => ⟨i.op, 0, 0, 0, 0⟩
  | .seRdFf8 => ⟨i.op, 0, 0, 0, 0⟩

/-- The command word of an instruction (30_encoding.md R90, R94, R95). -/
def encode (i : Instr) : CmdWord := i.fields.toWord

/-- The instruction the decoder reads from the table's word `w` of `nbits` bits. A command is one 64-bit word on
`cmd[63:0]` (30_encoding.md R90, R92), so the table's numbering is the word's own; bits above `nbits` are 0. -/
def decodeTableWord (nbits w : Nat) : Option Instr :=
  match decode (BitVec.ofNat 64 (w % 2 ^ nbits)) with
  | .ok i => some i
  | .illegal _ => none

end Sys2Proof
end

