-- ==== Sys2Proof/Config.lean ====
section
/-! DEFINITION. What an instance fixes (00_scope.md R7, R8) and the free values that stand for what the spec
leaves unspecified (60_exceptions.md R282). The default values of the parameters are in Machine/Tables.lean. -/

namespace Sys2Proof

/-- One context cell (10_state.md R22): `state` 0..63 and the most-probable-symbol bit. -/
structure CtxCell where
  state : BitVec 6
  mps : Bool
  deriving DecidableEq, Repr, Inhabited

/-- The lifecycle of an engine (10_state.md R23, R26); the value 3 of the two-bit field never occurs. -/
inductive Engine where
  | unstarted
  | coding
  | terminated
  deriving DecidableEq, Repr, Inhabited

/-- The parameters of an instance (00_scope.md R7): the model is written once for every value; the three tables
are parameters too (R8). WORD_W is 32 and no field. Log entry 1. -/
structure Config where
  nctx : Nat
  cap0 : Nat
  capMax : Nat
  qpMax : Nat
  rangeTabLps : Vector (Vector Byte 4) 64
  transLps : Vector (BitVec 6) 64
  transMps : Vector (BitVec 6) 64
  deriving DecidableEq, Repr

namespace Config

/-- A power of two that is at most 2^27, the largest capacity of 00_scope.md R7. -/
def isCapacity (n : Nat) : Bool := (List.range 28).any fun k => n == 2 ^ k

/-- Side condition (b) of 40_context.md R128: 2 <= RANGE_TAB_LPS[s][q] <= 128 + 64 x q. (Side condition (a),
every transition entry at most 63, holds by the width of the entries.) -/
def rangesLegal (t : Vector (Vector Byte 4) 64) : Bool :=
  t.toList.all fun row =>
    (2 ≤ row[0].toNat && row[0].toNat ≤ 128) && (2 ≤ row[1].toNat && row[1].toNat ≤ 192) &&
    (2 ≤ row[2].toNat && row[2].toNat ≤ 256) && (2 ≤ row[3].toNat && row[3].toNat ≤ 320)

/-- The legal parameter values of 00_scope.md R7 with the side conditions of 40_context.md R128. -/
def legal (c : Config) : Bool :=
  (1 ≤ c.nctx && c.nctx ≤ 256) && (isCapacity c.cap0 && isCapacity c.capMax && c.cap0 ≤ c.capMax) &&
  c.qpMax ≤ 255 && rangesLegal c.rangeTabLps

/-- FREE VALUE (60_exceptions.md R282): the registers and flags after a fault are unspecified. -/
structure FreeRegs where
  encState : Engine
  encTrm : Bool
  encLow : BitVec 32
  encRange : BitVec 9
  encBitsLeft : BitVec 5
  encBufByte : Byte
  encNumBuf : BitVec 32
  decState : Engine
  decValue : BitVec 17
  decRange : BitVec 9
  decBitsNeeded : BitVec 5
  bbCap : Word
  wrPos : Word
  rdPos : Word
  subEnd : Word
  count : Bool
  subActive : Bool
  deriving DecidableEq, Repr, Inhabited

/-- FREE VALUE (R282, log entry 3): what the registers and flags hold after the fault with this number. -/
opaque freeRegs : Nat → FreeRegs

/-- FREE VALUE (R282, log entry 3): what context cell `i` holds after the fault with this number. -/
opaque freeCell : Nat → Nat → CtxCell

/-- FREE VALUE (R282, log entry 3): the bytes (index, value) of the store after the fault with this number. -/
opaque freeStore : Nat → List (Nat × Byte)

end Config

end Sys2Proof
end

