-- ==== Sys2Proof/Machine/Memory.lean ====
section
/-! DEFINITION. The store of the bit buffer as plain data (20_memory.md R60, R61): a list of (byte index, byte)
pairs with strictly rising indexes and no entry equal to 00, which an unlisted byte reads as. What lies at and beyond
BB_WR_POS is never read (10_state.md R38), so that 00 is not observable: log entry 7. -/

namespace Sys2Proof.Machine

/-- The store: byte k of the bitstream is the 8 bits at bit addresses 8k to 8k+7 (20_memory.md R61). -/
abbrev Memory := List Host.Cell

namespace Memory

/-- What an unlisted byte reads as: DESIGN CHOICE, never observable (10_state.md R38, R47; log entry 7). -/
def unlisted : Byte := 0

/-- Every index of the list is above `k`, strictly rising, and no byte is the unlisted one. -/
def wfAbove : Nat → Memory → Bool
  | _, [] => true
  | k, (a, b) :: rest => k ≤ a && b != unlisted && wfAbove (a + 1) rest

/-- The canonical form: indexes strictly rising, no entry equal to what an unlisted byte reads as. -/
def wf (m : Memory) : Bool := wfAbove 0 m

/-- Byte `k` of the store. -/
def read : Memory → Nat → Byte
  | [], _ => unlisted
  | (a, b) :: rest, k => if a = k then b else read rest k

/-- Put a byte in front of a list whose indexes are all higher; the unlisted byte is not listed. -/
def push (k : Nat) (v : Byte) (rest : Memory) : Memory := if v = unlisted then rest else (k, v) :: rest

/-- Write byte `k`, keeping the canonical form. -/
def write : Memory → Nat → Byte → Memory
  | [], k, v => push k v []
  | (a, b) :: rest, k, v =>
    if a = k then push k v rest
    else if k < a then push k v ((a, b) :: rest)
    else (a, b) :: write rest k v

/-- The byte with bit `7 - j` (the j-th in bitstream order, 20_memory.md R61) replaced. -/
def putBit (v : Byte) (j : Nat) (b : Bool) : Byte :=
  if b then v ||| BitVec.twoPow 8 (7 - j) else v &&& ~~~BitVec.twoPow 8 (7 - j)

/-- `bit(p)` (20_memory.md R60, R61): bit 7 - p mod 8 of byte p div 8. -/
def bit (m : Memory) (p : Nat) : Bool := (m.read (p / 8)).getLsbD (7 - p % 8)

/-- `bit(p) <- b`: no other bit changes. -/
def setBit (m : Memory) (p : Nat) (b : Bool) : Memory := m.write (p / 8) (putBit (m.read (p / 8)) (p % 8) b)

/-- Word `k` of the store, `W[k]` (20_memory.md R60, R61): bytes 4k to 4k+3, the first most significant. -/
def word (m : Memory) (k : Nat) : Word :=
  m.read (4 * k) ++ m.read (4 * k + 1) ++ m.read (4 * k + 2) ++ m.read (4 * k + 3)

/-- The n bits at bit addresses addr .. addr+n-1, first bit most significant (20_memory.md R63). -/
def readBits (m : Memory) (addr : Nat) : Nat → Nat
  | 0 => 0
  | n + 1 => (m.bit addr).toNat * 2 ^ n + readBits m (addr + 1) n

/-- Write the n low-order bits of v to bit addresses addr .. addr+n-1, most significant first (20_memory.md R64). -/
def writeBits (m : Memory) (addr : Nat) : Nat → Nat → Memory
  | 0, _ => m
  | n + 1, v => writeBits (m.setBit addr (v.testBit n)) (addr + 1) n v

/-- A canonical memory that holds the given bytes, whatever their order. -/
def ofCells (cells : List Host.Cell) : Memory := cells.foldl (fun m c => m.write c.1 c.2) []

end Memory

end Sys2Proof.Machine
end

