-- ==== Sys2Proof/Machine/Tables.lean ====
section
/-! DEFINITION. The default values of the parameters (00_scope.md R7) and the default tables (40_context.md R126,
R127). The spec supplies the tables and QP_MAX from general knowledge (93_implementation_defined.md G1, G2, G7):
only State.reset uses them; every other definition takes the parameters from the state. Log entry 2. -/

namespace Sys2Proof

namespace Config

/-- Rows 0 to 15 of the default RANGE_TAB_LPS (40_context.md R126). -/
def rangeRows0 : List (Vector Byte 4) :=
  [#v[128, 176, 208, 240], #v[128, 167, 197, 227], #v[128, 158, 187, 216], #v[123, 150, 178, 205],
   #v[116, 142, 169, 195], #v[111, 135, 160, 185], #v[105, 128, 152, 175], #v[100, 122, 144, 166],
   #v[95, 116, 137, 158], #v[90, 110, 130, 150], #v[85, 104, 123, 142], #v[81, 99, 117, 135],
   #v[77, 94, 111, 128], #v[73, 89, 105, 122], #v[69, 85, 100, 116], #v[66, 80, 95, 110]]

/-- Rows 16 to 31 of the default RANGE_TAB_LPS (40_context.md R126). -/
def rangeRows1 : List (Vector Byte 4) :=
  [#v[62, 76, 90, 104], #v[59, 72, 86, 99], #v[56, 69, 81, 94], #v[53, 65, 77, 89],
   #v[51, 62, 73, 85], #v[48, 59, 69, 80], #v[46, 56, 66, 76], #v[43, 53, 63, 72],
   #v[41, 50, 59, 69], #v[39, 48, 56, 65], #v[37, 45, 54, 62], #v[35, 43, 51, 59],
   #v[33, 41, 48, 56], #v[32, 39, 46, 53], #v[30, 37, 43, 50], #v[29, 35, 41, 48]]

/-- Rows 32 to 47 of the default RANGE_TAB_LPS (40_context.md R126). -/
def rangeRows2 : List (Vector Byte 4) :=
  [#v[27, 33, 39, 45], #v[26, 31, 37, 43], #v[24, 30, 35, 41], #v[23, 28, 33, 39],
   #v[22, 27, 32, 37], #v[21, 26, 30, 35], #v[20, 24, 29, 33], #v[19, 23, 27, 31],
   #v[18, 22, 26, 30], #v[17, 21, 25, 28], #v[16, 20, 23, 27], #v[15, 19, 22, 25],
   #v[14, 18, 21, 24], #v[14, 17, 20, 23], #v[13, 16, 19, 22], #v[12, 15, 18, 21]]

/-- Rows 48 to 63 of the default RANGE_TAB_LPS (40_context.md R126). -/
def rangeRows3 : List (Vector Byte 4) :=
  [#v[12, 14, 17, 20], #v[11, 14, 16, 19], #v[11, 13, 15, 18], #v[10, 12, 15, 17],
   #v[10, 12, 14, 16], #v[9, 11, 13, 15], #v[9, 11, 12, 14], #v[8, 10, 12, 14],
   #v[8, 9, 11, 13], #v[7, 9, 11, 12], #v[7, 9, 10, 12], #v[7, 8, 10, 11],
   #v[6, 8, 9, 11], #v[6, 7, 9, 10], #v[6, 7, 8, 9], #v[2, 2, 2, 2]]

/-- The default RANGE_TAB_LPS (40_context.md R126). -/
def defaultRangeTabLps : Vector (Vector Byte 4) 64 :=
  ⟨(rangeRows0 ++ rangeRows1 ++ rangeRows2 ++ rangeRows3).toArray, rfl⟩

/-- States 0 to 31 of the default TRANS_LPS (40_context.md R127). -/
def transLpsTable0 : List (BitVec 6) :=
  [0, 0, 1, 2, 2, 4, 4, 5, 6, 7, 8, 9, 9, 11, 11, 12,
   13, 13, 15, 15, 16, 16, 18, 18, 19, 19, 21, 21, 22, 22, 23, 24]

/-- States 32 to 63 of the default TRANS_LPS (40_context.md R127). -/
def transLpsTable1 : List (BitVec 6) :=
  [24, 25, 26, 26, 27, 27, 28, 29, 29, 30, 30, 30, 31, 32, 32, 33,
   33, 33, 34, 34, 35, 35, 35, 36, 36, 36, 37, 37, 37, 38, 38, 63]

/-- The default TRANS_LPS (40_context.md R127). -/
def defaultTransLpsTable : Vector (BitVec 6) 64 := ⟨(transLpsTable0 ++ transLpsTable1).toArray, rfl⟩

/-- States 0 to 31 of the default TRANS_MPS (40_context.md R127). -/
def transMpsTable0 : List (BitVec 6) :=
  [1, 2, 3, 4, 5, 6, 7, 8, 9, 10, 11, 12, 13, 14, 15, 16,
   17, 18, 19, 20, 21, 22, 23, 24, 25, 26, 27, 28, 29, 30, 31, 32]

/-- States 32 to 63 of the default TRANS_MPS (40_context.md R127). -/
def transMpsTable1 : List (BitVec 6) :=
  [33, 34, 35, 36, 37, 38, 39, 40, 41, 42, 43, 44, 45, 46, 47, 48,
   49, 50, 51, 52, 53, 54, 55, 56, 57, 58, 59, 60, 61, 62, 62, 63]

/-- The default TRANS_MPS (40_context.md R127). -/
def defaultTransMpsTable : Vector (BitVec 6) 64 := ⟨(transMpsTable0 ++ transMpsTable1).toArray, rfl⟩

/-- The default parameters (00_scope.md R7): NCTX 256, CAP0 1024 words, CAP_MAX 2^22 words, QP_MAX 51. -/
def default : Config where
  nctx := 256
  cap0 := 1024
  capMax := 2 ^ 22
  qpMax := 51
  rangeTabLps := defaultRangeTabLps
  transLps := defaultTransLpsTable
  transMps := defaultTransMpsTable

end Config

end Sys2Proof
end

