-- ==== Sys2Proof/Machine/State.lean ====
section
/-! DEFINITION. The state of one CABAC-CORE instance (10_state.md R20), its ports (30_encoding.md R92), the reasons
a step can stop, and the state after reset (10_state.md R47, 70_reset_and_hazards.md R300). -/

namespace Sys2Proof.Machine

/-- The fault causes of the core (60_exceptions.md R270). Taking one is a next state of the machine (R281). -/
inductive Cause where
  | illegal
  | param
  | index
  | state
  | exhausted
  | pattern
  | resource
  | overflow
  deriving DecidableEq, Repr, Inhabited

/-- What a fault records (10_state.md R24, R25; 60_exceptions.md R281): FAULT holds the cause and its class, a
function of the cause; FAULT_OP the OP byte of the command. -/
structure FaultRecord where
  cause : Cause
  op : Byte
  deriving DecidableEq, Repr, Inhabited

/-- The response to one command (30_encoding.md R91): FAULTCODE (none = NONE) and DATA. -/
structure Response where
  fault : Option Cause
  data : Word
  deriving DecidableEq, Repr, Inhabited

/-- Where the model stops because the spec gives no effect. None of these is a fault of the core (those are `Cause`),
and none is reached from reset (log entries 10 and 11). All are SAFE: the model stops. -/
inductive Fault where
  /-- An assignment to a register that cannot hold the value (00_scope.md R10 calls it illegal), a negative count, or a
  PutBits outside 0 <= n <= 32, v < 2^n (20_memory.md R66). Raised by the assignments, `countOf` and `putBits` of
  Machine/Ops.lean. Safe. -/
  | unfit
  /-- MemRead at a bit address that was not written: 20_memory.md R63 leaves it undefined. Raised by `memRead`. Safe. -/
  | unwritten
  /-- A context index below NCTX that the cell list does not hold (10_state.md R22 gives NCTX cells). Raised by
  `readCtx`. Safe. -/
  | noCell
  deriving DecidableEq, Repr, Inhabited

/-- Why an instruction has no meaning in the model. -/
inductive Refusal where
  /-- An instruction without a meaning yet; raised by `exec` only. Safe. -/
  | notModelled (mnemonic : String)
  deriving DecidableEq, Repr, Inhabited

/-- The state: everything 10_state.md R20 lists, the ports of 30_encoding.md R92, the parameters (constant,
00_scope.md R7) and the model's own counter of free values. -/
structure State where
  /-- The parameters of the instance: constant, not state by R49 (log entry 1). -/
  cfg : Config
  /-- CTX[0 .. NCTX-1] (10_state.md R22). -/
  ctx : List CtxCell
  /-- ENC_STATE (R26). -/
  encState : Engine
  /-- ENC_TRM (R26): the terminating bin has been coded and the flush is owed. -/
  encTrm : Bool
  /-- ENC_LOW (R28). -/
  encLow : BitVec 32
  /-- ENC_RANGE (R29). -/
  encRange : BitVec 9
  /-- ENC_BITSLEFT (R30). -/
  encBitsLeft : BitVec 5
  /-- ENC_BUFBYTE (R32). -/
  encBufByte : Byte
  /-- ENC_NUMBUF (R33). -/
  encNumBuf : BitVec 32
  /-- DEC_STATE (R26). -/
  decState : Engine
  /-- DEC_VALUE (R34). -/
  decValue : BitVec 17
  /-- DEC_RANGE (R35). -/
  decRange : BitVec 9
  /-- DEC_BITSNEEDED (R36), two's complement. -/
  decBitsNeeded : BitVec 5
  /-- The store of the bit buffer (R38). -/
  store : Memory
  /-- BB_CAP (R39). -/
  bbCap : Word
  /-- BB_WR_POS (R40). -/
  wrPos : Word
  /-- BB_RD_POS (R40). -/
  rdPos : Word
  /-- BB_SUB_END (R42); after BB_SUB_CLOSE it keeps its value (43_bitbuffer.md R198, log entry 8). -/
  subEnd : Word
  /-- COUNT (R43): counting mode. -/
  count : Bool
  /-- SUB_ACTIVE (R42): a sub-stream window is open. -/
  subActive : Bool
  /-- FAULT and FAULT_OP (R24, R25): none when both are 0. -/
  fault : Option FaultRecord
  /-- Input `rst_n` (30_encoding.md R92): false is low, that is, reset. -/
  rstN : Bool
  /-- The command words the host has to offer, oldest first: `cmd` is the head, `cmd_valid` that there is one. -/
  cmds : List CmdWord
  /-- Input `rsp_ready`. -/
  rspReady : Bool
  /-- The response on offer: `rsp_valid` is that there is one. -/
  rsp : Option Response
  /-- The MODEL's own: how many faults have drawn free values (log entries 3 and 4). -/
  freeCount : Nat
  deriving DecidableEq, Repr

namespace State

/-- An instance with the given parameters right after reset, `rst_n` high again, nothing offered on either port
(log entry 5). -/
def resetOf (c : Config) : State where
  cfg := c
  ctx := List.replicate c.nctx ⟨0, false⟩
  encState := .unstarted
  encTrm := false
  encLow := 0
  encRange := 0
  encBitsLeft := 0
  encBufByte := 0
  encNumBuf := 0
  decState := .unstarted
  decValue := 0
  decRange := 0
  decBitsNeeded := 0
  store := []
  bbCap := BitVec.ofNat 32 c.cap0
  wrPos := 0
  rdPos := 0
  subEnd := 0
  count := false
  subActive := false
  fault := none
  rstN := true
  cmds := []
  rspReady := true
  rsp := none
  freeCount := 0

/-- The machine right after reset with the default parameters (10_state.md R47, 00_scope.md R7). -/
def reset : State := resetOf Config.default

end State

end Sys2Proof.Machine
end

