-- ==== Sys2Proof/Machine/Flags.lean ====
section
/-! DEFINITION. The status and fault registers, assembled on every read (10_state.md R23 to R25), the fault codes and
classes (60_exceptions.md R270), and the output ports that are functions of the state (30_encoding.md R92). -/

namespace Sys2Proof.Machine

/-- CAUSE (60_exceptions.md R270). -/
def Cause.code : Cause → Byte
  | .illegal => 1
  | .param => 2
  | .index => 3
  | .state => 4
  | .exhausted => 5
  | .pattern => 6
  | .resource => 7
  | .overflow => 8

/-- CLASS (60_exceptions.md R270): 1 stream corruption, 2 programmer error, 3 resource exhaustion. -/
def Cause.cls : Cause → BitVec 2
  | .illegal => 2
  | .param => 2
  | .index => 2
  | .state => 2
  | .exhausted => 1
  | .pattern => 1
  | .resource => 3
  | .overflow => 3

/-- The two-bit field of an engine state (10_state.md R23): 0 UNSTARTED, 1 CODING, 2 TERMINATED. -/
def engineField : Engine → BitVec 2
  | .unstarted => 0
  | .coding => 1
  | .terminated => 2

namespace State

/-- STATUS.FAULTED (10_state.md R23, R26). -/
def faulted (s : State) : Bool := s.fault.isSome

/-- STATUS (10_state.md R23): bits 1:0 ENC_STATE, 3:2 DEC_STATE, 4 COUNT, 5 SUB_ACTIVE, 6 ENC_TRM, 7 FAULTED, 31:8
zero. -/
def status (s : State) : Word :=
  (0 : BitVec 24) ++ (BitVec.ofBool s.faulted ++ BitVec.ofBool s.encTrm ++ BitVec.ofBool s.subActive ++
    BitVec.ofBool s.count ++ engineField s.decState ++ engineField s.encState)

/-- FAULT (10_state.md R24): bits 7:0 CAUSE, 9:8 CLASS, 31:10 zero. -/
def faultWord (s : State) : Word :=
  match s.fault with
  | none => 0
  | some r => (0 : BitVec 22) ++ (r.cause.cls ++ r.cause.code)

/-- FAULT_OP (10_state.md R25): bits 7:0 the OP byte of the command that raised the recorded fault. -/
def faultOpWord (s : State) : Word :=
  match s.fault with
  | none => 0
  | some r => r.op.setWidth 32

/-- Output `fault_irq` (60_exceptions.md R286): a level equal to STATUS.FAULTED. -/
def faultIrq (s : State) : Bool := s.faulted

/-- Output `cmd_ready` (30_encoding.md R92): not in reset (70_reset_and_hazards.md R300), and the response to the
command before has been taken. -/
def cmdReady (s : State) : Bool := s.rstN && s.rsp.isNone

/-- Output `rsp_valid` (30_encoding.md R92). -/
def rspValid (s : State) : Bool := s.rsp.isSome

end State

/-- FAULTCODE, the wires `rsp_fault` (30_encoding.md R91): 0 (NONE) or the cause. -/
def Response.faultCode (r : Response) : Byte :=
  match r.fault with
  | none => 0
  | some c => c.code

end Sys2Proof.Machine
end

