-- ==== Sys2Proof/Machine/Operands.lean ====
section
/-! DEFINITION. Operand forms: signed operands (30_encoding.md R95), bits of a value, the contexts of a truncated
unary code (44_syntax.md R227), and the register map of SYS_RDREG (10_state.md R44). -/

namespace Sys2Proof.Machine

/-- `span = SPANM1 + 1`, 1..64 (30_encoding.md R95). -/
def span (spanm1 : BitVec 6) : Nat := spanm1.toNat + 1

/-- The context of bin number `k` of a truncated unary code: `ctx + min(k, span - 1)` (44_syntax.md R227). -/
def tuCtx (ctx : Byte) (spanm1 : BitVec 6) (k : Nat) : Nat := ctx.toNat + min k (span spanm1 - 1)

/-- The n low-order bits of an operand (20_memory.md R65): `v & ((1 << n) - 1)`. -/
def lowBits (v : Word) (n : Nat) : Nat := v.toNat % 2 ^ n

/-- The registers SYS_RDREG can read (10_state.md R44). -/
inductive Reg where
  | status
  | fault
  | faultOp
  | cfgNctx
  | cfgCap0
  | cfgCapMax
  | cfgQpMax
  | encLow
  | encRange
  | encBitsLeft
  | encBufByte
  | encNumBuf
  | decValue
  | decRange
  | decBitsNeeded
  | bbWrPos
  | bbRdPos
  | bbCap
  | bbSubEnd
  | bbWrWord
  | bbWrAvail
  | bbRdWord
  | bbRdAvail
  deriving DecidableEq, Repr, Inhabited

/-- The register a number names; every number not listed is unassigned (10_state.md R44). -/
def regOfNumber (n : Byte) : Option Reg :=
  match n.toNat with
  | 0x00 => some .status
  | 0x01 => some .fault
  | 0x02 => some .faultOp
  | 0x04 => some .cfgNctx
  | 0x05 => some .cfgCap0
  | 0x06 => some .cfgCapMax
  | 0x07 => some .cfgQpMax
  | 0x10 => some .encLow
  | 0x11 => some .encRange
  | 0x12 => some .encBitsLeft
  | 0x13 => some .encBufByte
  | 0x14 => some .encNumBuf
  | 0x20 => some .decValue
  | 0x21 => some .decRange
  | 0x22 => some .decBitsNeeded
  | 0x30 => some .bbWrPos
  | 0x31 => some .bbRdPos
  | 0x32 => some .bbCap
  | 0x33 => some .bbSubEnd
  | 0x34 => some .bbWrWord
  | 0x35 => some .bbWrAvail
  | 0x36 => some .bbRdWord
  | 0x37 => some .bbRdAvail
  | _ => none

/-- The word index of a cursor (10_state.md R41): the position shifted right by 5. -/
def cursorWord (pos : Word) : Word := pos >>> 5

/-- The bits available in a cursor's current word (10_state.md R41): 32 - (pos & 31), 1..32. -/
def cursorAvail (pos : Word) : Word := 32 - (pos &&& 31)

/-- The contents of a register, extended to 32 bits (10_state.md R44): unsigned registers by zeros, DEC_BITSNEEDED by
its sign. A read has no side effect (45_system.md R262). -/
def readReg (s : State) (r : Reg) : Word :=
  match r with
  | .status => s.status
  | .fault => s.faultWord
  | .faultOp => s.faultOpWord
  | .cfgNctx => BitVec.ofNat 32 s.cfg.nctx
  | .cfgCap0 => BitVec.ofNat 32 s.cfg.cap0
  | .cfgCapMax => BitVec.ofNat 32 s.cfg.capMax
  | .cfgQpMax => BitVec.ofNat 32 s.cfg.qpMax
  | .encLow => s.encLow
  | .encRange => s.encRange.setWidth 32
  | .encBitsLeft => s.encBitsLeft.setWidth 32
  | .encBufByte => s.encBufByte.setWidth 32
  | .encNumBuf => s.encNumBuf
  | .decValue => s.decValue.setWidth 32
  | .decRange => s.decRange.setWidth 32
  | .decBitsNeeded => s.decBitsNeeded.signExtend 32
  | .bbWrPos => s.wrPos
  | .bbRdPos => s.rdPos
  | .bbCap => s.bbCap
  | .bbSubEnd => s.subEnd
  | .bbWrWord => cursorWord s.wrPos
  | .bbWrAvail => cursorAvail s.wrPos
  | .bbRdWord => cursorWord s.rdPos
  | .bbRdAvail => cursorAvail s.rdPos

end Sys2Proof.Machine
end

