-- ==== Sys2Proof/Machine/Ops.lean ====
section
/-! DEFINITION. The named operations every command uses, in the spec's own pseudocode (00_scope.md R10, R11): `raise`,
register assignment, MemRead, PutBits and GetBits (20_memory.md R63 to R69), reading and writing a context cell; then
taking a fault (60_exceptions.md R281), the response (30_encoding.md R91) and reset, which is the only way out of a
fault (R284). -/

namespace Sys2Proof.Machine

/-- Why the pseudocode of a command ends early: `raise ERR_X` (60_exceptions.md R281), or a step to which the spec
gives no meaning, at which the model stops (`Fault`). -/
inductive Stop where
  | raise (c : Cause)
  | halt (f : Fault)
  deriving DecidableEq, Repr

/-- The pseudocode of a command: it reads and changes the state from top to bottom (00_scope.md R11); what it has
changed before a `raise` stays changed (60_exceptions.md R281). -/
abbrev Cmd (α : Type) := EStateM Stop State α

/-- `raise ERR_X`. -/
def raise {α : Type} (c : Cause) : Cmd α := throw (.raise c)

/-- The model stops. -/
def halt {α : Type} (f : Fault) : Cmd α := throw (.halt f)

/-- `if cond: raise ERR_X`. -/
def raiseIf (cond : Bool) (c : Cause) : Cmd Unit := if cond then raise c else pure ()

/-- The body run `n` times. -/
def repeatCmd (body : Cmd Unit) : Nat → Cmd Unit
  | 0 => pure ()
  | n + 1 => do
    body
    repeatCmd body n

/-! Register assignment. `REG <- e` with e an unbounded integer is legal only when the register can hold e
(00_scope.md R10); otherwise the model stops (log entry 10). -/

/-- An assignment that stands if `fits`. -/
def assign (fits : Bool) (upd : State → State) : Cmd Unit := fun s =>
  if fits then .ok () (upd s) else .error (.halt .unfit) s

/-- `0 <= e < 2^w`: an unsigned register of w bits can hold e. -/
def fitsU (w : Nat) (e : Int) : Bool := 0 ≤ e && e < 2 ^ w

/-- ENC_LOW <- e (10_state.md R28, 32 bits). -/
def setEncLow (e : Int) : Cmd Unit := assign (fitsU 32 e) fun s => { s with encLow := BitVec.ofInt 32 e }

/-- ENC_RANGE <- e (R29, 9 bits). -/
def setEncRange (e : Int) : Cmd Unit := assign (fitsU 9 e) fun s => { s with encRange := BitVec.ofInt 9 e }

/-- ENC_BITSLEFT <- e (R30, 5 bits). -/
def setEncBitsLeft (e : Int) : Cmd Unit := assign (fitsU 5 e) fun s => { s with encBitsLeft := BitVec.ofInt 5 e }

/-- ENC_BUFBYTE <- e (R32, 8 bits). -/
def setEncBufByte (e : Int) : Cmd Unit := assign (fitsU 8 e) fun s => { s with encBufByte := BitVec.ofInt 8 e }

/-- ENC_NUMBUF <- e (R33, 32 bits). -/
def setEncNumBuf (e : Int) : Cmd Unit := assign (fitsU 32 e) fun s => { s with encNumBuf := BitVec.ofInt 32 e }

/-- DEC_VALUE <- e (R34, 17 bits). -/
def setDecValue (e : Int) : Cmd Unit := assign (fitsU 17 e) fun s => { s with decValue := BitVec.ofInt 17 e }

/-- DEC_RANGE <- e (R35, 9 bits). -/
def setDecRange (e : Int) : Cmd Unit := assign (fitsU 9 e) fun s => { s with decRange := BitVec.ofInt 9 e }

/-- DEC_BITSNEEDED <- e (R36, 5 bits signed). -/
def setDecBitsNeeded (e : Int) : Cmd Unit :=
  assign (-16 ≤ e && e < 16) fun s => { s with decBitsNeeded := BitVec.ofInt 5 e }

/-- BB_WR_POS <- e (R40, 32 bits). -/
def setWrPos (e : Int) : Cmd Unit := assign (fitsU 32 e) fun s => { s with wrPos := BitVec.ofInt 32 e }

/-- BB_RD_POS <- e (R40, 32 bits). -/
def setRdPos (e : Int) : Cmd Unit := assign (fitsU 32 e) fun s => { s with rdPos := BitVec.ofInt 32 e }

/-- BB_CAP <- e (R39, 32 bits). -/
def setBbCap (e : Int) : Cmd Unit := assign (fitsU 32 e) fun s => { s with bbCap := BitVec.ofInt 32 e }

/-- BB_SUB_END <- e (R42, 32 bits). -/
def setSubEnd (e : Int) : Cmd Unit := assign (fitsU 32 e) fun s => { s with subEnd := BitVec.ofInt 32 e }

/-! Flags, context cells and the store. -/

/-- ENC_STATE <- e (10_state.md R26). -/
def setEncState (e : Engine) : Cmd Unit := modify fun s => { s with encState := e }

/-- ENC_TRM <- b (R26). -/
def setEncTrm (b : Bool) : Cmd Unit := modify fun s => { s with encTrm := b }

/-- DEC_STATE <- e (R26). -/
def setDecState (e : Engine) : Cmd Unit := modify fun s => { s with decState := e }

/-- COUNT <- b (R43). -/
def setCount (b : Bool) : Cmd Unit := modify fun s => { s with count := b }

/-- SUB_ACTIVE <- b (R42). -/
def setSubActive (b : Bool) : Cmd Unit := modify fun s => { s with subActive := b }

/-- `CTX[i]` (00_scope.md R11). -/
def readCtx (i : Nat) : Cmd CtxCell := fun s =>
  match s.ctx[i]? with
  | some c => .ok c s
  | none => .error (.halt .noCell) s

/-- `CTX[i] <- c` (00_scope.md R11). -/
def writeCtx (i : Nat) (c : CtxCell) : Cmd Unit := modify fun s => { s with ctx := s.ctx.set i c }

/-- `MemRead(addr, n)` (20_memory.md R63): used only for bits that were written; elsewhere the rule leaves it
undefined and the model stops (log entry 11). -/
def memRead (addr : Int) (n : Nat) : Cmd Nat := fun s =>
  if 0 ≤ addr && addr + n ≤ s.wrPos.toNat then .ok (s.store.readBits addr.toNat n) s
  else .error (.halt .unwritten) s

/-- The capacity after growth (20_memory.md R66, R67): doubled while `need` bits do not fit, none when doubling would
pass CAP_MAX. 28 doublings take any capacity above 0 past the largest CAP_MAX (log entry 12). -/
def grownCap (need capMax : Nat) : Nat → Nat → Option Nat
  | 0, cap => if need ≤ 32 * cap then some cap else none
  | k + 1, cap =>
    if need ≤ 32 * cap then some cap
    else if 2 * cap > capMax then none
    else grownCap need capMax k (2 * cap)

/-- Growth inside PutBits (20_memory.md R67): the words keep their indexes and values. -/
def growFor (need : Nat) : Cmd Unit := do
  let s ← get
  match grownCap need s.cfg.capMax 28 s.bbCap.toNat with
  | none => raise .resource
  | some cap => setBbCap cap

/-- A count that must not be negative (a number of bits, a shift distance): 00_scope.md R10 gives a negative one no
meaning, and the model stops (log entry 10). -/
def countOf (e : Int) : Cmd Nat := if 0 ≤ e then pure e.toNat else halt .unfit

/-- `PutBits(v, n)` (20_memory.md R66): the single way any command adds bits to the stream. It is called with n <= 32
and v < 2^n only; the model stops otherwise (log entry 10). -/
def putBits (v n : Nat) : Cmd Unit := do
  let s ← get
  if ¬ (n ≤ 32 ∧ v < 2 ^ n) then halt .unfit
  raiseIf (s.wrPos.toNat + n ≥ 2 ^ 32) .overflow
  if s.count = false then
    growFor (s.wrPos.toNat + n)
    modify fun t => { t with store := t.store.writeBits s.wrPos.toNat n v }
  setWrPos (s.wrPos.toNat + n)

/-- `RdLimit()` (20_memory.md R69). -/
def State.rdLimit (s : State) : Nat := if s.subActive then s.subEnd.toNat else s.wrPos.toNat

/-- `GetBits(n)` (20_memory.md R68): the single way any command takes bits at the read cursor. -/
def getBits (n : Nat) : Cmd Nat := do
  let s ← get
  raiseIf s.count .state
  raiseIf (s.rdPos.toNat + n > s.rdLimit) .exhausted
  let v ← memRead s.rdPos.toNat n
  setRdPos (s.rdPos.toNat + n)
  return v

/-! The end of a command: the response, the fault, reset. -/

/-- The response on offer (30_encoding.md R91, R92). -/
def State.offer (s : State) (r : Response) : State := { s with rsp := some r }

/-- A command completed: response (NONE, data) (30_encoding.md R91). -/
def State.respond (s : State) (data : Word) : State := s.offer ⟨none, data⟩

/-- The state after a fault (60_exceptions.md R282): the context memory, the registers, the flags and the store are
unspecified, so each is a free value; the parameters, the fault registers and the ports are not. Log entry 3. -/
def State.unspecified (s : State) : State :=
  let f := Config.freeRegs s.freeCount
  { s with
    ctx := (List.range s.cfg.nctx).map (Config.freeCell s.freeCount)
    encState := f.encState, encTrm := f.encTrm, encLow := f.encLow, encRange := f.encRange
    encBitsLeft := f.encBitsLeft, encBufByte := f.encBufByte, encNumBuf := f.encNumBuf
    decState := f.decState, decValue := f.decValue, decRange := f.decRange, decBitsNeeded := f.decBitsNeeded
    store := Memory.ofCells (Config.freeStore s.freeCount)
    bbCap := f.bbCap, wrPos := f.wrPos, rdPos := f.rdPos, subEnd := f.subEnd
    count := f.count, subActive := f.subActive
    freeCount := s.freeCount + 1 }

/-- Taking a fault (60_exceptions.md R281): FAULT and FAULT_OP record it if none is recorded, the response is
(ERR_X, 0), and what else the state holds is unspecified from then on (R282). -/
def State.takeFault (s : State) (op : Byte) (c : Cause) : State :=
  { s.unspecified with
    fault := if s.fault.isNone then some ⟨c, op⟩ else s.fault
    rsp := some ⟨some c, 0⟩ }

/-- The answer to a word that is not served while a fault is recorded (60_exceptions.md R283): the recorded code, no
state change. -/
def State.refuseFaulted (s : State) (r : FaultRecord) : State := s.offer ⟨some r.cause, 0⟩

/-- The core after the reset event (10_state.md R47, 70_reset_and_hazards.md R300): every piece of state of R20 at its
reset value, whatever it was. It is the only exit from the fault state (60_exceptions.md R284). The parameters, the
ports and the model's counter are not R47's and stay. -/
def State.resetCore (s : State) : State :=
  { s with
    ctx := List.replicate s.cfg.nctx ⟨0, false⟩
    encState := .unstarted, encTrm := false
    encLow := 0, encRange := 0, encBitsLeft := 0, encBufByte := 0, encNumBuf := 0
    decState := .unstarted, decValue := 0, decRange := 0, decBitsNeeded := 0
    store := [], bbCap := BitVec.ofNat 32 s.cfg.cap0
    wrPos := 0, rdPos := 0, subEnd := 0, count := false, subActive := false
    fault := none }

/-- Run the pseudocode of the command with this OP to its response: `return v` completes it, `raise` takes the fault
(60_exceptions.md R281), and where the spec gives no meaning the model stops. -/
def answer (op : Byte) (body : Cmd Word) (s : State) : Host.Outcome State Fault Refusal :=
  match body s with
  | .ok data t => .next (t.respond data)
  | .error (.raise c) t => .next (t.takeFault op c)
  | .error (.halt f) _ => .fault f

end Sys2Proof.Machine
end

