-- ==== Sys2Proof/Machine/BitBuffer.lean ====
section
/-! DEFINITION. The bit buffer commands (43_bitbuffer.md): BB_INIT, BB_WRITE, BB_READ, BB_GET_WRITTEN, BB_RESET_BITS,
BB_RD_SEEK, BB_GET_BYTE, BB_SUB_OPEN, BB_SUB_CLOSE. -/

namespace Sys2Proof.Machine

/-- Empty the buffer: both cursors 0, no window (43_bitbuffer.md R190, R194). -/
def emptyBuffer : Cmd Unit := do
  setWrPos 0
  setRdPos 0
  setSubActive false
  setSubEnd 0

/-- BB_INIT (43_bitbuffer.md R190). -/
def execBbInit (count : Bool) (s : State) : Host.Outcome State Fault Refusal :=
  answer 0x40 (do
    raiseIf (s.encState == .coding || s.decState == .coding) .state
    setCount count
    setBbCap s.cfg.cap0
    emptyBuffer
    return 0) s

/-- BB_WRITE (43_bitbuffer.md R191). -/
def execBbWrite (n : Byte) (bits : Word) (s : State) : Host.Outcome State Fault Refusal :=
  answer 0x41 (do
    raiseIf (n.toNat > 32) .param
    raiseIf (s.encState == .coding) .state
    putBits (lowBits bits n.toNat) n.toNat
    return 0) s

/-- BB_READ (43_bitbuffer.md R192). -/
def execBbRead (n : Byte) (s : State) : Host.Outcome State Fault Refusal :=
  answer 0x42 (do
    raiseIf (n.toNat > 32) .param
    raiseIf (s.decState == .coding || s.count) .state
    return BitVec.ofNat 32 (← getBits n.toNat)) s

/-- BB_GET_WRITTEN (43_bitbuffer.md R193). -/
def execBbGetWritten (s : State) : Host.Outcome State Fault Refusal :=
  answer 0x43 (do return (← get).wrPos) s

/-- BB_RESET_BITS (43_bitbuffer.md R194): COUNT and BB_CAP stay. -/
def execBbResetBits (s : State) : Host.Outcome State Fault Refusal :=
  answer 0x44 (do
    raiseIf (s.encState == .coding || s.decState == .coding) .state
    emptyBuffer
    return 0) s

/-- BB_RD_SEEK (43_bitbuffer.md R195). -/
def execBbRdSeek (pos : Word) (s : State) : Host.Outcome State Fault Refusal :=
  answer 0x45 (do
    raiseIf (s.decState == .coding || s.count || s.subActive) .state
    raiseIf (pos.toNat > s.wrPos.toNat) .index
    setRdPos pos.toNat
    return 0) s

/-- BB_GET_BYTE (43_bitbuffer.md R196): no cursor moves, the window does not restrict it. -/
def execBbGetByte (index : Word) (s : State) : Host.Outcome State Fault Refusal :=
  answer 0x46 (do
    raiseIf s.count .state
    raiseIf (8 * (index.toNat + 1) > s.wrPos.toNat) .index
    return BitVec.ofNat 32 (← memRead ((8 * index.toNat : Nat)) 8)) s

/-- BB_SUB_OPEN (43_bitbuffer.md R197). -/
def execBbSubOpen (nbytes : Word) (s : State) : Host.Outcome State Fault Refusal :=
  answer 0x47 (do
    raiseIf (s.decState == .coding || s.count || s.subActive) .state
    raiseIf (s.rdPos.toNat % 8 ≠ 0) .state
    raiseIf (s.rdPos.toNat + 8 * nbytes.toNat > s.wrPos.toNat) .exhausted
    setSubEnd ((s.rdPos.toNat + 8 * nbytes.toNat : Nat))
    setSubActive true
    return 0) s

/-- BB_SUB_CLOSE (43_bitbuffer.md R198): BB_SUB_END keeps its value (log entry 8). -/
def execBbSubClose (s : State) : Host.Outcome State Fault Refusal :=
  answer 0x48 (do
    raiseIf (s.decState == .coding || !s.subActive) .state
    setRdPos s.subEnd.toNat
    setSubActive false
    return 0) s

end Sys2Proof.Machine
end

