-- ==== Sys2Proof/Machine/Context.lean ====
section
/-! DEFINITION. The context family (40_context.md): initialisation, direct access, and the adaptation step that the
context-coded bins of both engines use. -/

namespace Sys2Proof.Machine

/-- `clamp(x, lo, hi)` (00_scope.md R10). -/
def clamp (x lo hi : Int) : Int := min (max x lo) hi

/-- `preState` of 40_context.md R121: clamp(((slope * qp) >> 8) + offset, 8, 63), the shift being floor division. -/
def preState (qp : Byte) (slope offset : BitVec 16) : Nat :=
  (clamp (((slope.toInt * qp.toNat) >>> 8) + offset.toInt) 8 63).toNat

/-- The cell CTX_INIT writes (40_context.md R121): (0, 0) when slope and offset are both 0; else mps 1 and state
preState when preState >= 36, mps 0 and state 71 - preState when not. -/
def initCell (qp : Byte) (slope offset : BitVec 16) : CtxCell :=
  if slope.toInt = 0 ∧ offset.toInt = 0 then ⟨0, false⟩
  else if preState qp slope offset ≥ 36 then ⟨BitVec.ofNat 6 (preState qp slope offset), true⟩
  else ⟨BitVec.ofNat 6 (71 - preState qp slope offset), false⟩

/-- The cell after an MPS event (40_context.md R124). -/
def adaptMps (c : Config) (cell : CtxCell) : CtxCell := ⟨c.transMps[cell.state.toNat]'cell.state.isLt, cell.mps⟩

/-- The cell after an LPS event (40_context.md R125): mps flips at state 0. -/
def adaptLps (c : Config) (cell : CtxCell) : CtxCell :=
  ⟨c.transLps[cell.state.toNat]'cell.state.isLt, if cell.state.toNat = 0 then !cell.mps else cell.mps⟩

/-- `UpdateMPS(i)` (40_context.md R124). -/
def updateMps (i : Nat) : Cmd Unit := do
  let cell ← readCtx i
  writeCtx i (adaptMps (← get).cfg cell)

/-- `UpdateLPS(i)` (40_context.md R125). -/
def updateLps (i : Nat) : Cmd Unit := do
  let cell ← readCtx i
  writeCtx i (adaptLps (← get).cfg cell)

/-- `RANGE_TAB_LPS[s][(range >> 6) & 3]` (40_context.md R126, 41_encoder.md R144): the LPS width. -/
def lpsWidth (c : Config) (st : BitVec 6) (range : Nat) : Nat :=
  ((c.rangeTabLps[st.toNat]'st.isLt)[range / 64 % 4]'(Nat.mod_lt _ (by decide))).toNat

/-- CTX_INIT (40_context.md R121); ERR_PARAM is checked before ERR_INDEX. -/
def execCtxInit (ctx qp : Byte) (slope offset : BitVec 16) (s : State) : Host.Outcome State Fault Refusal :=
  answer 0x10 (do
    raiseIf (qp.toNat > s.cfg.qpMax) .param
    raiseIf (ctx.toNat ≥ s.cfg.nctx) .index
    writeCtx ctx.toNat (initCell qp slope offset)
    return 0) s

/-- CTX_SET (40_context.md R122). -/
def execCtxSet (ctx : Byte) (state : BitVec 6) (mps : Bool) (s : State) : Host.Outcome State Fault Refusal :=
  answer 0x11 (do
    raiseIf (ctx.toNat ≥ s.cfg.nctx) .index
    writeCtx ctx.toNat ⟨state, mps⟩
    return 0) s

/-- CTX_GET (40_context.md R123): `(mps << 6) | state`. -/
def execCtxGet (ctx : Byte) (s : State) : Host.Outcome State Fault Refusal :=
  answer 0x12 (do
    raiseIf (ctx.toNat ≥ s.cfg.nctx) .index
    let cell ← readCtx ctx.toNat
    return (0 : BitVec 25) ++ (BitVec.ofBool cell.mps ++ cell.state)) s

end Sys2Proof.Machine
end

