-- ==== Sys2Proof/Machine/Encoder.lean ====
section
/-! DEFINITION. The arithmetic encoder (41_encoder.md): the interval, the write-out with carry propagation, and the
commands ENC_START, ENC_BIN, ENC_BIN_EP, ENC_BIN_TRM, ENC_FINISH. -/

namespace Sys2Proof.Machine

/-- How often `r` must still be doubled to reach 256, at most `k` times. -/
def doublings : Nat → Nat → Nat
  | 0, _ => 0
  | k + 1, r => if r ≥ 256 then 0 else doublings k (2 * r) + 1

/-- `NumRenorm(r)` (41_encoder.md R141): the smallest n with (r << n) >= 256, for 1 <= r <= 255. Computed, not
looked up. -/
def numRenorm (r : Nat) : Nat := doublings 8 r

/-- The body of the release loop of WriteOut and ENC_FINISH (41_encoder.md R142, R147): one held 0xFF byte goes out
as `v` and ENC_NUMBUF falls by 1. -/
def releaseOne (v : Nat) : Cmd Unit := do
  putBits v 8
  setEncNumBuf (((← get).encNumBuf.toNat : Int) - 1)

/-- `while ENC_NUMBUF > 1` of WriteOut and ENC_FINISH: ENC_NUMBUF - 1 rounds, since each takes 1 off. -/
def releaseRun (v : Nat) : Cmd Unit := do
  repeatCmd (releaseOne v) ((← get).encNumBuf.toNat - 1)

/-- `WriteOut()` (41_encoder.md R142): the lead byte and its carry leave ENC_LOW; a lead 0xFF is held, any other lead
releases the held run. -/
def writeOut : Cmd Unit := do
  let s ← get
  let lead := s.encLow.toNat / 2 ^ (24 - s.encBitsLeft.toNat)
  setEncBitsLeft (s.encBitsLeft.toNat + 8)
  setEncLow ((s.encLow.toNat % 2 ^ (32 - (s.encBitsLeft.toNat + 8)) : Nat))
  if lead = 0xFF then
    raiseIf (s.encNumBuf.toNat = 2 ^ 32 - 1) .overflow
    setEncNumBuf (s.encNumBuf.toNat + 1)
  else if s.encNumBuf.toNat > 0 then
    let carry := lead / 2 ^ 8
    putBits ((s.encBufByte.toNat + carry) % 2 ^ 8) 8
    setEncBufByte ((lead % 2 ^ 8 : Nat))
    releaseRun ((0xFF + carry) % 2 ^ 8)
  else
    setEncNumBuf 1
    setEncBufByte ((lead % 2 ^ 8 : Nat))

/-- `TestWriteOut()` (41_encoder.md R142). -/
def testWriteOut : Cmd Unit := do
  if (← get).encBitsLeft.toNat < 12 then writeOut

/-- `EncBin(i, b)` (41_encoder.md R144). The context is read before it is adapted. -/
def encBin (i : Nat) (b : Bool) : Cmd Unit := do
  let cell ← readCtx i
  let s ← get
  let lps := lpsWidth s.cfg cell.state s.encRange.toNat
  setEncRange ((s.encRange.toNat : Int) - lps)
  let s ← get
  if b ≠ cell.mps then
    let n := numRenorm lps
    setEncLow (((s.encLow.toNat + s.encRange.toNat) * 2 ^ n : Nat))
    setEncRange ((lps * 2 ^ n : Nat))
    updateLps i
    setEncBitsLeft ((s.encBitsLeft.toNat : Int) - n)
    testWriteOut
  else
    updateMps i
    if s.encRange.toNat < 256 then
      setEncLow ((s.encLow.toNat * 2 : Nat))
      setEncRange ((s.encRange.toNat * 2 : Nat))
      setEncBitsLeft ((s.encBitsLeft.toNat : Int) - 1)
      testWriteOut

/-- `EncEP(b)` (41_encoder.md R145). -/
def encEp (b : Bool) : Cmd Unit := do
  let s ← get
  setEncLow ((s.encLow.toNat * 2 : Nat))
  if b then setEncLow (((← get).encLow.toNat + s.encRange.toNat : Nat))
  setEncBitsLeft ((s.encBitsLeft.toNat : Int) - 1)
  testWriteOut

/-- The engine check of every encoder bin command and of the EP and CTX writes (41_encoder.md R144 to R146,
44_syntax.md R222): CODING and no terminating bin yet. -/
def requireEncoding : Cmd Unit := do
  let s ← get
  raiseIf (s.encState != .coding || s.encTrm) .state

/-- ENC_START (41_encoder.md R143). -/
def execEncStart (s : State) : Host.Outcome State Fault Refusal :=
  answer 0x20 (do
    raiseIf (s.encState == .coding) .state
    raiseIf (s.wrPos.toNat % 8 ≠ 0) .state
    setEncLow 0
    setEncRange 510
    setEncBitsLeft 23
    setEncNumBuf 0
    setEncBufByte 0xFF
    setEncTrm false
    setEncState .coding
    return 0) s

/-- ENC_BIN (41_encoder.md R144); ERR_INDEX is checked before ERR_STATE. -/
def execEncBin (ctx : Byte) (bin : Bool) (s : State) : Host.Outcome State Fault Refusal :=
  answer 0x21 (do
    raiseIf (ctx.toNat ≥ s.cfg.nctx) .index
    requireEncoding
    encBin ctx.toNat bin
    return 0) s

/-- ENC_BIN_EP (41_encoder.md R145). -/
def execEncBinEp (bin : Bool) (s : State) : Host.Outcome State Fault Refusal :=
  answer 0x22 (do
    requireEncoding
    encEp bin
    return 0) s

/-- ENC_BIN_TRM (41_encoder.md R146). ENC_STATE stays CODING. -/
def execEncBinTrm (bin : Bool) (s : State) : Host.Outcome State Fault Refusal :=
  answer 0x23 (do
    requireEncoding
    setEncRange ((s.encRange.toNat : Int) - 2)
    let t ← get
    if bin then
      setEncLow (((t.encLow.toNat + t.encRange.toNat) * 2 ^ 7 : Nat))
      setEncRange 256
      setEncBitsLeft ((t.encBitsLeft.toNat : Int) - 7)
      setEncTrm true
      testWriteOut
    else if t.encRange.toNat < 256 then
      setEncLow ((t.encLow.toNat * 2 : Nat))
      setEncRange ((t.encRange.toNat * 2 : Nat))
      setEncBitsLeft ((t.encBitsLeft.toNat : Int) - 1)
      testWriteOut
    return 0) s

/-- The zeros from bit position `pos` to the next byte boundary: `while pos mod 8 != 0` takes this many rounds. -/
def alignCount (pos : Nat) : Nat := (8 - pos % 8) % 8

/-- `while BB_WR_POS mod 8 != 0: PutBits(0, 1)` (41_encoder.md R147, 44_syntax.md R228). -/
def padZeros : Cmd Unit := do
  repeatCmd (putBits 0 1) (alignCount (← get).wrPos.toNat)

/-- ENC_FINISH (41_encoder.md R147): the carry, the held bytes, the bits left in ENC_LOW, the stop bit and the zeros. -/
def execEncFinish (s : State) : Host.Outcome State Fault Refusal :=
  answer 0x24 (do
    raiseIf (s.encState != .coding || !s.encTrm) .state
    let k := 32 - s.encBitsLeft.toNat
    if s.encLow.toNat / 2 ^ k ≠ 0 then
      putBits ((s.encBufByte.toNat + 1) % 2 ^ 8) 8
      releaseRun 0x00
      setEncLow ((s.encLow.toNat : Int) - 2 ^ k)
    else
      if s.encNumBuf.toNat > 0 then putBits s.encBufByte.toNat 8
      releaseRun 0xFF
    let left ← countOf (24 - (s.encBitsLeft.toNat : Int))
    putBits ((← get).encLow.toNat / 2 ^ 8) left
    putBits 1 1
    padZeros
    setEncNumBuf 0
    setEncTrm false
    setEncState .terminated
    return 0) s

end Sys2Proof.Machine
end

