-- ==== Sys2Proof/Machine/Decoder.lean ====
section
/-! DEFINITION. The arithmetic decoder (42_decoder.md): DEC_START, DEC_BIN, DEC_BIN_EP, DEC_BIN_TRM. -/

namespace Sys2Proof.Machine

/-- `DecReadByte()` (42_decoder.md R171). -/
def decReadByte : Cmd Nat := getBits 8

/-- One doubling of the decoder with the refill that every 8th needs (the MPS branch of 42_decoder.md R173, R175): the
range becomes `scaled >> 6`, that is, twice the range. -/
def decDouble (scaled : Nat) : Cmd Unit := do
  let s ← get
  setDecRange ((scaled / 2 ^ 6 : Nat))
  setDecValue ((s.decValue.toNat + s.decValue.toNat : Nat))
  setDecBitsNeeded (s.decBitsNeeded.toInt + 1)
  if (← get).decBitsNeeded.toInt = 0 then
    setDecBitsNeeded (-8)
    let byte ← decReadByte
    setDecValue (((← get).decValue.toNat + byte : Nat))

/-- `DecBin(i)` (42_decoder.md R173). -/
def decBin (i : Nat) : Cmd Bool := do
  let cell ← readCtx i
  let s ← get
  let lps := lpsWidth s.cfg cell.state s.decRange.toNat
  setDecRange ((s.decRange.toNat : Int) - lps)
  let s ← get
  let scaled := s.decRange.toNat * 2 ^ 7
  if s.decValue.toNat < scaled then
    updateMps i
    if scaled < 256 * 2 ^ 7 then decDouble scaled
    return cell.mps
  else
    let n := numRenorm lps
    setDecValue (((s.decValue.toNat - scaled) * 2 ^ n : Nat))
    setDecRange ((lps * 2 ^ n : Nat))
    updateLps i
    setDecBitsNeeded (s.decBitsNeeded.toInt + n)
    let t ← get
    if t.decBitsNeeded.toInt ≥ 0 then
      let byte ← decReadByte
      setDecValue ((t.decValue.toNat + byte * 2 ^ t.decBitsNeeded.toInt.toNat : Nat))
      setDecBitsNeeded (t.decBitsNeeded.toInt - 8)
    return !cell.mps

/-- `DecEP()` (42_decoder.md R174). -/
def decEp : Cmd Bool := do
  let s ← get
  setDecValue ((s.decValue.toNat + s.decValue.toNat : Nat))
  setDecBitsNeeded (s.decBitsNeeded.toInt + 1)
  if (← get).decBitsNeeded.toInt ≥ 0 then
    setDecBitsNeeded (-8)
    let byte ← decReadByte
    setDecValue (((← get).decValue.toNat + byte : Nat))
  let t ← get
  let scaled := t.decRange.toNat * 2 ^ 7
  if t.decValue.toNat ≥ scaled then
    setDecValue ((t.decValue.toNat - scaled : Nat))
    return true
  else
    return false

/-- The engine check of every decoder bin command and of the EP and CTX reads (42_decoder.md R173 to R175,
44_syntax.md R222). -/
def requireDecoding : Cmd Unit := do
  raiseIf ((← get).decState != .coding) .state

/-- A bin as response data (30_encoding.md R91). -/
def binData (b : Bool) : Word := BitVec.ofNat 32 b.toNat

/-- DEC_START (42_decoder.md R172): two bytes loaded, the first not 0xFF. -/
def execDecStart (s : State) : Host.Outcome State Fault Refusal :=
  answer 0x30 (do
    raiseIf (s.decState == .coding || s.count) .state
    raiseIf (s.rdPos.toNat % 8 ≠ 0) .state
    raiseIf (s.rdPos.toNat + 16 > s.rdLimit) .exhausted
    setDecRange 510
    setDecBitsNeeded (-8)
    let hi ← decReadByte
    let lo ← decReadByte
    raiseIf (hi * 2 ^ 8 + lo ≥ 510 * 2 ^ 7) .pattern
    setDecValue ((hi * 2 ^ 8 + lo : Nat))
    setDecState .coding
    return 0) s

/-- DEC_BIN (42_decoder.md R173); ERR_INDEX is checked before ERR_STATE. -/
def execDecBin (ctx : Byte) (s : State) : Host.Outcome State Fault Refusal :=
  answer 0x31 (do
    raiseIf (ctx.toNat ≥ s.cfg.nctx) .index
    requireDecoding
    return binData (← decBin ctx.toNat)) s

/-- DEC_BIN_EP (42_decoder.md R174). -/
def execDecBinEp (s : State) : Host.Outcome State Fault Refusal :=
  answer 0x32 (do
    requireDecoding
    return binData (← decEp)) s

/-- DEC_BIN_TRM (42_decoder.md R175): on 1 the tail of the last fetched byte is checked and the segment closed. -/
def execDecBinTrm (s : State) : Host.Outcome State Fault Refusal :=
  answer 0x33 (do
    requireDecoding
    setDecRange ((s.decRange.toNat : Int) - 2)
    let t ← get
    let scaled := t.decRange.toNat * 2 ^ 7
    if t.decValue.toNat ≥ scaled then
      let last ← memRead ((t.rdPos.toNat : Int) - 8) 8
      let k ← countOf (8 + t.decBitsNeeded.toInt)
      raiseIf (last * 2 ^ k % 2 ^ 8 ≠ 0x80) .pattern
      setDecState .terminated
      return binData true
    else
      if scaled < 256 * 2 ^ 7 then decDouble scaled
      return binData false) s

end Sys2Proof.Machine
end

