-- ==== Sys2Proof/Machine/SyntaxRead.lean ====
section
/-! DEFINITION. The syntax read commands (44_syntax.md R221, R222, R234 to R239): SE_RD_FLC, SE_RD_UVLC, SE_RD_SVLC,
SE_RD_TU, SE_RD_TRAIL, SE_RD_FF8. -/

namespace Sys2Proof.Machine

/-- `Take(path, i)` (44_syntax.md R221): one bit comes in. -/
def take (path : Path) (i : Nat) : Cmd Bool :=
  match path with
  | .raw => do return (← getBits 1) == 1
  | .ep => decEp
  | .ctx => decBin i

/-- `CheckRd(path)` (44_syntax.md R222 step 4). -/
def checkRd (path : Path) : Cmd Unit :=
  match path with
  | .raw => do
    let s ← get
    raiseIf (s.decState == .coding || s.count) .state
  | .ep => requireDecoding
  | .ctx => requireDecoding

/-- `RdFlc(path, n)` (44_syntax.md R234), on top of the bits `v` already taken. -/
def rdFlc (path : Path) : Nat → Nat → Cmd Nat
  | 0, v => pure v
  | n + 1, v => do
    let b ← take path 0
    rdFlc path n (2 * v + b.toNat)

/-- The zeros of an Exp-Golomb prefix (44_syntax.md R235), `l` of them taken: ERR_PATTERN once no more are allowed. -/
def rdPrefix (path : Path) : Nat → Nat → Cmd Nat
  | 0, _ => raise .pattern
  | k + 1, l => do
    let b ← take path 0
    if b then pure l else rdPrefix path k (l + 1)

/-- `RdUvlc(path)` (44_syntax.md R235): at most 31 zeros; the 32nd raises ERR_PATTERN. -/
def rdUvlc (path : Path) : Cmd Nat := do
  let l ← rdPrefix path 32 0
  let suffix ← rdFlc path l 0
  return 2 ^ l - 1 + suffix

/-- The value SE_RD_SVLC recovers from a code (44_syntax.md R236). -/
def unzigzag (c : Nat) : Int := if c % 2 = 1 then ((c + 1) / 2 : Nat) else -((c / 2 : Nat) : Int)

/-- The ones of a truncated unary code (44_syntax.md R237), `sym` of them taken and at most `room` more to come. -/
def rdOnes (path : Path) (ctx : Byte) (spanm1 : BitVec 6) : Nat → Nat → Cmd Nat
  | 0, sym => pure sym
  | room + 1, sym => do
    let b ← take path (tuCtx ctx spanm1 sym)
    if b then rdOnes path ctx spanm1 room (sym + 1) else pure sym

/-- The zeros of the trailing bits (44_syntax.md R238), `n` of them. -/
def rdZeros : Nat → Cmd Unit
  | 0 => pure ()
  | n + 1 => do
    let b ← getBits 1
    raiseIf (b ≠ 0) .pattern
    rdZeros n

/-- The bytes of an 0xFF-extended code (44_syntax.md R239) on top of the sum `v`; `k` whole bytes lie before the read
limit, so that with none left GetBits raises ERR_EXHAUSTED. -/
def rdFf8 : Nat → Nat → Cmd Nat
  | 0, _ => raise .exhausted
  | k + 1, v => do
    let b ← getBits 8
    raiseIf (v + b ≥ 2 ^ 32) .pattern
    if b ≠ 0xFF then pure (v + b) else rdFf8 k (v + b)

/-- SE_RD_FLC (44_syntax.md R234). -/
def execSeRdFlc (n : Byte) (path : Path) (s : State) : Host.Outcome State Fault Refusal :=
  answer 0x60 (do
    raiseIf (!path.rawOrEp) .illegal
    raiseIf (n.toNat > 32) .param
    checkRd path
    return BitVec.ofNat 32 (← rdFlc path n.toNat 0)) s

/-- SE_RD_UVLC (44_syntax.md R235). -/
def execSeRdUvlc (path : Path) (s : State) : Host.Outcome State Fault Refusal :=
  answer 0x61 (do
    raiseIf (!path.rawOrEp) .illegal
    checkRd path
    return BitVec.ofNat 32 (← rdUvlc path)) s

/-- SE_RD_SVLC (44_syntax.md R236): the value in 32-bit two's complement. -/
def execSeRdSvlc (path : Path) (s : State) : Host.Outcome State Fault Refusal :=
  answer 0x62 (do
    raiseIf (!path.rawOrEp) .illegal
    checkRd path
    return BitVec.ofInt 32 (unzigzag (← rdUvlc path))) s

/-- SE_RD_TU (44_syntax.md R237). -/
def execSeRdTu (ctx max : Byte) (path : Path) (spanm1 : BitVec 6) (s : State) : Host.Outcome State Fault Refusal :=
  answer 0x63 (do
    raiseIf (!path.tuLegal ctx spanm1) .illegal
    raiseIf (path == .ctx && ctx.toNat + spanm1.toNat ≥ s.cfg.nctx) .index
    checkRd path
    return BitVec.ofNat 32 (← rdOnes path ctx spanm1 max.toNat 0)) s

/-- SE_RD_TRAIL (44_syntax.md R238): a one, then zeros to the next byte boundary. -/
def execSeRdTrail (s : State) : Host.Outcome State Fault Refusal :=
  answer 0x64 (do
    checkRd .raw
    let one ← getBits 1
    raiseIf (one ≠ 1) .pattern
    rdZeros (alignCount (← get).rdPos.toNat)
    return 0) s

/-- SE_RD_FF8 (44_syntax.md R239). -/
def execSeRdFf8 (s : State) : Host.Outcome State Fault Refusal :=
  answer 0x65 (do
    checkRd .raw
    return BitVec.ofNat 32 (← rdFf8 ((s.rdLimit - s.rdPos.toNat) / 8) 0)) s

end Sys2Proof.Machine
end

