-- ==== Sys2Proof/Machine/SyntaxWrite.lean ====
section
/-! DEFINITION. The syntax write commands (44_syntax.md R220 to R229): SE_WR_FLC, SE_WR_UVLC, SE_WR_SVLC, SE_WR_TU,
SE_WR_TRAIL, SE_WR_FF8. -/

namespace Sys2Proof.Machine

/-- `Emit(path, b, i)` (44_syntax.md R221): one bit goes out. -/
def emit (path : Path) (b : Bool) (i : Nat) : Cmd Unit :=
  match path with
  | .raw => putBits b.toNat 1
  | .ep => encEp b
  | .ctx => encBin i b

/-- `CheckWr(path)` (44_syntax.md R222 step 4). -/
def checkWr (path : Path) : Cmd Unit :=
  match path with
  | .raw => do raiseIf ((← get).encState == .coding) .state
  | .ep => requireEncoding
  | .ctx => requireEncoding

/-- `WrFlc(path, v, n)` (44_syntax.md R224): the n low bits of v, most significant first. -/
def wrFlc (path : Path) (v : Nat) : Nat → Cmd Unit
  | 0 => pure ()
  | n + 1 => do
    emit path (v.testBit n) 0
    wrFlc path v n

/-- `WrUvlc(path, v)` (44_syntax.md R225): L zeros, a one, and the L bits of v + 1 below its leading one. -/
def wrUvlc (path : Path) (v : Nat) : Cmd Unit := do
  let l := (v + 1).log2
  repeatCmd (emit path false 0) l
  emit path true 0
  wrFlc path (v + 1 - 2 ^ l) l

/-- The zig-zag map of SE_WR_SVLC (44_syntax.md R226). -/
def zigzag (v : Int) : Nat := (if v ≤ 0 then -2 * v else 2 * v - 1).toNat

/-- The ones of a truncated unary code, from bin number `k` on (44_syntax.md R227). -/
def wrOnes (path : Path) (ctx : Byte) (spanm1 : BitVec 6) : Nat → Nat → Cmd Unit
  | 0, _ => pure ()
  | n + 1, k => do
    emit path true (tuCtx ctx spanm1 k)
    wrOnes path ctx spanm1 n (k + 1)

/-- SE_WR_FLC (44_syntax.md R224). A path that is not allowed makes the command illegal (30_encoding.md R98). -/
def execSeWrFlc (n : Byte) (path : Path) (value : Word) (s : State) : Host.Outcome State Fault Refusal :=
  answer 0x50 (do
    raiseIf (!path.rawOrEp) .illegal
    raiseIf (n.toNat > 32) .param
    checkWr path
    wrFlc path (lowBits value n.toNat) n.toNat
    return 0) s

/-- SE_WR_UVLC (44_syntax.md R225). -/
def execSeWrUvlc (path : Path) (value : Word) (s : State) : Host.Outcome State Fault Refusal :=
  answer 0x51 (do
    raiseIf (!path.rawOrEp) .illegal
    raiseIf (value.toNat > 0xFFFFFFFE) .param
    checkWr path
    wrUvlc path value.toNat
    return 0) s

/-- SE_WR_SVLC (44_syntax.md R226). -/
def execSeWrSvlc (path : Path) (value : Word) (s : State) : Host.Outcome State Fault Refusal :=
  answer 0x52 (do
    raiseIf (!path.rawOrEp) .illegal
    raiseIf (value == 0x80000000) .param
    checkWr path
    wrUvlc path (zigzag value.toInt)
    return 0) s

/-- SE_WR_TU (44_syntax.md R227); ERR_PARAM, ERR_INDEX, ERR_STATE in this order. -/
def execSeWrTu (ctx max : Byte) (path : Path) (spanm1 : BitVec 6) (sym : Byte) (s : State) :
    Host.Outcome State Fault Refusal :=
  answer 0x53 (do
    raiseIf (!path.tuLegal ctx spanm1) .illegal
    raiseIf (sym.toNat > max.toNat) .param
    raiseIf (path == .ctx && ctx.toNat + spanm1.toNat ≥ s.cfg.nctx) .index
    checkWr path
    wrOnes path ctx spanm1 sym.toNat 0
    if sym.toNat < max.toNat then emit path false (tuCtx ctx spanm1 sym.toNat)
    return 0) s

/-- SE_WR_TRAIL (44_syntax.md R228): a one, then zeros to the next byte boundary. -/
def execSeWrTrail (s : State) : Host.Outcome State Fault Refusal :=
  answer 0x54 (do
    checkWr .raw
    putBits 1 1
    padZeros
    return 0) s

/-- SE_WR_FF8 (44_syntax.md R229): value div 255 bytes 0xFF, then the byte value mod 255. -/
def execSeWrFf8 (value : Word) (s : State) : Host.Outcome State Fault Refusal :=
  answer 0x55 (do
    checkWr .raw
    repeatCmd (putBits 0xFF 8) (value.toNat / 255)
    putBits (value.toNat % 255) 8
    return 0) s

end Sys2Proof.Machine
end

