-- ==== Sys2Proof/Machine/System.lean ====
section
/-! DEFINITION. The system commands (45_system.md): NOP, SYS_RESET, SYS_RDREG. -/

namespace Sys2Proof.Machine

/-- NOP (45_system.md R260): `return 0`. -/
def execNop (s : State) : Host.Outcome State Fault Refusal := answer 0x00 (pure 0) s

/-- SYS_RESET (45_system.md R261): every piece of state takes its reset value. -/
def execSysReset (s : State) : Host.Outcome State Fault Refusal :=
  answer 0x01 (do modify State.resetCore; return 0) s

/-- SYS_RDREG (45_system.md R262): ERR_INDEX for an unassigned number, else the register. -/
def execSysRdreg (reg : Byte) (s : State) : Host.Outcome State Fault Refusal :=
  answer 0x02 (do
    match regOfNumber reg with
    | none => raise .index
    | some r => return readReg (← get) r) s

end Sys2Proof.Machine
end

