-- ==== Sys2Proof/Machine/Dispatch.lean ====
section
/-! DEFINITION. The meaning of every command (30_encoding.md R94): one arm per row of the opcode table. -/

namespace Sys2Proof.Machine

def exec (i : Instr) (s : State) : Host.Outcome State Fault Refusal :=
  match i with
  | .nop => Sys2Proof.Machine.execNop s
  | .sysReset => Sys2Proof.Machine.execSysReset s
  | .sysRdreg reg => Sys2Proof.Machine.execSysRdreg reg s
  | .ctxInit ctx qp slope offset => Sys2Proof.Machine.execCtxInit ctx qp slope offset s
  | .ctxSet ctx state mps => Sys2Proof.Machine.execCtxSet ctx state mps s
  | .ctxGet ctx => Sys2Proof.Machine.execCtxGet ctx s
  | .encStart => Sys2Proof.Machine.execEncStart s
  | .encBin ctx bin => Sys2Proof.Machine.execEncBin ctx bin s
  | .encBinEp bin => Sys2Proof.Machine.execEncBinEp bin s
  | .encBinTrm bin => Sys2Proof.Machine.execEncBinTrm bin s
  | .encFinish => Sys2Proof.Machine.execEncFinish s
  | .decStart => Sys2Proof.Machine.execDecStart s
  | .decBin ctx => Sys2Proof.Machine.execDecBin ctx s
  | .decBinEp => Sys2Proof.Machine.execDecBinEp s
  | .decBinTrm => Sys2Proof.Machine.execDecBinTrm s
  | .bbInit count => Sys2Proof.Machine.execBbInit count s
  | .bbWrite n bits => Sys2Proof.Machine.execBbWrite n bits s
  | .bbRead n => Sys2Proof.Machine.execBbRead n s
  | .bbGetWritten => Sys2Proof.Machine.execBbGetWritten s
  | .bbResetBits => Sys2Proof.Machine.execBbResetBits s
  | .bbRdSeek pos => Sys2Proof.Machine.execBbRdSeek pos s
  | .bbGetByte index => Sys2Proof.Machine.execBbGetByte index s
  | .bbSubOpen nbytes => Sys2Proof.Machine.execBbSubOpen nbytes s
  | .bbSubClose => Sys2Proof.Machine.execBbSubClose s
  | .seWrFlc n path value => Sys2Proof.Machine.execSeWrFlc n path value s
  | .seWrUvlc path value => Sys2Proof.Machine.execSeWrUvlc path value s
  | .seWrSvlc path value => Sys2Proof.Machine.execSeWrSvlc path value s
  | .seWrTu ctx max path spanm1 sym => Sys2Proof.Machine.execSeWrTu ctx max path spanm1 sym s
  | .seWrTrail => Sys2Proof.Machine.execSeWrTrail s
  | .seWrFf8 value => Sys2Proof.Machine.execSeWrFf8 value s
  | .seRdFlc n path => Sys2Proof.Machine.execSeRdFlc n path s
  | .seRdUvlc path => Sys2Proof.Machine.execSeRdUvlc path s
  | .seRdSvlc path => Sys2Proof.Machine.execSeRdSvlc path s
  | .seRdTu ctx max path spanm1 => Sys2Proof.Machine.execSeRdTu ctx max path spanm1 s
  | .seRdTrail => Sys2Proof.Machine.execSeRdTrail s
  | .seRdFf8 => Sys2Proof.Machine.execSeRdFf8 s

end Sys2Proof.Machine
end

