-- ==== Sys2Proof/Machine/Port.lean ====
section
/-! DEFINITION. The command port (30_encoding.md R92), dispatch while a fault is recorded (60_exceptions.md R283) and
the reset input (70_reset_and_hazards.md R300). -/

namespace Sys2Proof.Machine

/-- The words served while a fault is recorded (60_exceptions.md R283): SYS_RESET with all operand bits 0, and
SYS_RDREG of STATUS, FAULT or FAULT_OP. -/
def servedWhileFaulted (w : CmdWord) : Bool :=
  let f := Fields.ofWord w
  (f.op == 0x01 && f.a == 0 && f.b == 0 && f.c == 0 && f.d == 0) ||
  (f.op == 0x02 && (f.a == 0x00 || f.a == 0x01 || f.a == 0x02) && f.b == 0 && f.c == 0 && f.d == 0)

/-- A word is executed as the command it decodes to (30_encoding.md R102); an illegal word raises ERR_ILLEGAL with its
own OP byte in FAULT_OP (60_exceptions.md R272, R281). -/
def execWord (w : CmdWord) (s : State) : Host.Outcome State Fault Refusal :=
  match decode w with
  | .ok i => exec i s
  | .illegal _ => .next (s.takeFault (opByte w) .illegal)

/-- The core serves one command word; before anything else it tests FAULT (60_exceptions.md R283). -/
def serve (w : CmdWord) (s : State) : Host.Outcome State Fault Refusal :=
  match s.fault with
  | none => execWord w s
  | some r => if servedWhileFaulted w then execWord w s else .next (s.refuseFaulted r)

/-- While `rst_n` is low (70_reset_and_hazards.md R300): every piece of state takes its reset value, no command is
accepted, and the one in flight is abandoned without a response. What the host has to offer is the host's and stays. -/
def State.heldInReset (s : State) : State := { s.resetCore with rsp := none }

/-- One event at a rising edge of `clk` (30_encoding.md R92): the reset event; or the host takes the response on offer
when it is ready; or, with no response on offer, the core takes the next command, runs it and offers its response; or
nothing. Log entry 5. -/
def clockEdge (s : State) : Host.Outcome State Fault Refusal :=
  if s.rstN = false then .next s.heldInReset
  else match s.rsp with
    | some _ => .next (if s.rspReady then { s with rsp := none } else s)
    | none =>
      match s.cmds with
      | [] => .next s
      | w :: rest => serve w { s with cmds := rest }

/-- The host offers one more command word, before those it has to offer already. -/
def State.offerCommand (s : State) (w : CmdWord) : State := { s with cmds := w :: s.cmds }

/-- The port made ready to take a command in the very next step: out of reset, no response on offer. -/
def State.portReady (s : State) : State := { s with rstN := true, rsp := none }

end Sys2Proof.Machine
end

