-- ==== Sys2Proof/Machine/Step.lean ====
section
/-! DEFINITION. One step of the machine, and how the host places the next command. -/

namespace Sys2Proof.Machine

/-- One step: one event at the ports (30_encoding.md R92, 70_reset_and_hazards.md R320: a command is one atomic step). -/
def step (s : State) : Host.Outcome State Fault Refusal := clockEdge s

/-- `s` with the word `w` of `nbits` bits on the command port, so that the very next step takes and runs it: the core
fetches nothing (10_state.md R21), the host offers the word (log entry 6). -/
def State.withFetchWord (s : State) (nbits w : Nat) : State :=
  s.portReady.offerCommand (BitVec.ofNat 64 (w % 2 ^ nbits))

end Sys2Proof.Machine
end

