-- ==== Sys2Proof/Safety.lean ====
section
/-! DEFINITION. The terms in which claims about the machine are made: what holds between commands (the ranges the spec
derives for the registers), when output and input have room, how the encoder's write-out looks from outside, running a
list of commands, and the opcode table as published. -/

namespace Sys2Proof.Machine

/-- How often a context bin doubles the interval (41_encoder.md R144): NumRenorm(lps) for an LPS, for an MPS once if
what is left of the range is below 256. `range` is the range before the bin, of either engine. -/
def binShift (lps range : Nat) (mpsBin : Bool) : Nat :=
  if mpsBin then (if range - lps < 256 then 1 else 0) else numRenorm lps

/-- The width of the part of the interval a context bin selects, before renormalisation (41_encoder.md R144). -/
def binWidth (lps range : Nat) (mpsBin : Bool) : Nat := if mpsBin then range - lps else lps

/-- The cell after a bin (40_context.md R124, R125). -/
def adapted (c : Config) (cell : CtxCell) (mpsBin : Bool) : CtxCell :=
  if mpsBin then adaptMps c cell else adaptLps c cell

namespace State

/-- Between commands, while ENC_STATE = CODING (10_state.md R28 to R30, 41_encoder.md R140, R142, R147, 20_memory.md
R71): the ranges of ENC_RANGE and ENC_BITSLEFT; the interval fits the free bits of ENC_LOW; with nothing held back no
carry can come (R147); with bytes held back the carry stays small and the held byte is not 0xFF (R142); after the
terminating bin at most 19 bits are left; the write cursor is byte-aligned. -/
abbrev EncOk (s : State) : Prop :=
  s.encState = .coding →
    256 ≤ s.encRange.toNat ∧ s.encRange.toNat ≤ 510 ∧ 12 ≤ s.encBitsLeft.toNat ∧ s.encBitsLeft.toNat ≤ 23 ∧
    (s.encNumBuf.toNat = 0 → s.encLow.toNat + s.encRange.toNat ≤ 510 * 2 ^ (23 - s.encBitsLeft.toNat)) ∧
    (0 < s.encNumBuf.toNat → s.encBitsLeft.toNat ≤ 19 ∧ s.encBufByte ≠ 0xFF ∧
      s.encLow.toNat + s.encRange.toNat ≤ 2 ^ (32 - s.encBitsLeft.toNat) + 510 * 2 ^ (19 - s.encBitsLeft.toNat)) ∧
    (s.encTrm = true → s.encBitsLeft.toNat ≤ 19) ∧ s.wrPos.toNat % 8 = 0

/-- ENC_TRM is set only while ENC_STATE = CODING (10_state.md R26). -/
abbrev TrmOk (s : State) : Prop := s.encTrm = true → s.encState = .coding

/-- Between commands, while DEC_STATE = CODING (10_state.md R34 to R36, 42_decoder.md R170, R171): the ranges of
DEC_RANGE and DEC_BITSNEEDED, the invariants (I1) and (I2) of R170, the read cursor on a byte boundary with at least
the two bytes of DEC_START behind it, and the buffer in real mode. -/
abbrev DecOk (s : State) : Prop :=
  s.decState = .coding →
    256 ≤ s.decRange.toNat ∧ s.decRange.toNat ≤ 510 ∧ -8 ≤ s.decBitsNeeded.toInt ∧ s.decBitsNeeded.toInt ≤ -1 ∧
    s.decValue.toNat < s.decRange.toNat * 2 ^ 7 ∧ s.decValue.toNat % 2 ^ (8 + s.decBitsNeeded.toInt).toNat = 0 ∧
    s.rdPos.toNat % 8 = 0 ∧ 16 ≤ s.rdPos.toNat ∧ s.count = false

/-- The cursors and the window (10_state.md R39, R40, R42): BB_RD_POS <= BB_WR_POS; in real mode the written bits fit
the capacity; the capacity is a power of two between CAP0 and CAP_MAX; an open window is byte-aligned at its end and
lies between the cursors. -/
abbrev BufferOk (s : State) : Prop :=
  s.rdPos.toNat ≤ s.wrPos.toNat ∧ (s.count = false → s.wrPos.toNat ≤ 32 * s.bbCap.toNat) ∧
  (Config.isCapacity s.bbCap.toNat = true ∧ s.cfg.cap0 ≤ s.bbCap.toNat ∧ s.bbCap.toNat ≤ s.cfg.capMax) ∧
  (s.subActive = true → s.subEnd.toNat % 8 = 0 ∧ s.rdPos.toNat ≤ s.subEnd.toNat ∧ s.subEnd.toNat ≤ s.wrPos.toNat)

/-- What holds in every state, faulted or not: legal parameters, NCTX cells, the store in canonical form. -/
abbrev Formed (s : State) : Prop :=
  s.cfg.legal = true ∧ s.ctx.length = s.cfg.nctx ∧ s.store.wf = true

/-- What holds between commands while no fault is recorded. -/
abbrev Sound (s : State) : Prop := s.EncOk ∧ s.TrmOk ∧ s.DecOk ∧ s.BufferOk

/-- The invariant of the machine: after a fault nothing is promised of the registers (60_exceptions.md R282). -/
abbrev Inv (s : State) : Prop := s.Formed ∧ (s.fault = none → s.Sound)

/-- A state the core can be in between commands with no fault recorded. -/
abbrev Live (s : State) : Prop := s.Inv ∧ s.fault = none

/-- The next `n` bits can be appended: no position passes 2^32 - 1 and, in real mode, CAP_MAX words are enough
(20_memory.md R66). -/
abbrev Room (s : State) (n : Nat) : Prop :=
  s.wrPos.toNat + n < 2 ^ 32 ∧ (s.count = false → s.wrPos.toNat + n ≤ 32 * s.cfg.capMax)

/-- Which fault an output step without room raises (20_memory.md R66; 60_exceptions.md R278, R279): ERR_OVERFLOW where
the largest position is reached first, in counting mode and with a CAP_MAX of 2^27 words, which end at bit 2^32; else
ERR_RESOURCE. -/
def outCause (s : State) : Cause := if s.count = true ∨ 2 ^ 27 ≤ s.cfg.capMax then .overflow else .resource

/-- The fault TestWriteOut (41_encoder.md R142) raises in `s` with ENC_LOW = `low` and ENC_BITSLEFT = `bl`, if any: a
lead byte 0xFF that the counter of held bytes cannot count, or held bytes to release without room for them. -/
def outFault (s : State) (low bl : Nat) : Option Cause :=
  if 12 ≤ bl then none
  else if low / 2 ^ (24 - bl) = 0xFF then (if s.encNumBuf.toNat + 1 < 2 ^ 32 then none else some .overflow)
  else if s.Room (8 * s.encNumBuf.toNat) then none else some s.outCause

/-- Room for what `k` bins may write out: each resolves at most one byte (41_encoder.md R142). -/
abbrev EncRoom (s : State) (k : Nat) : Prop :=
  s.Room (8 * (s.encNumBuf.toNat + k)) ∧ s.encNumBuf.toNat + k + 1 < 2 ^ 32

/-- The port takes a command in the next step (30_encoding.md R92): out of reset, no response on offer. -/
abbrev Ready (s : State) : Prop := s.rstN = true ∧ s.rsp = none

/-- The encoder can code a bin (41_encoder.md R144 to R146). -/
abbrev Encoding (s : State) : Prop := s.encState = .coding ∧ s.encTrm = false

/-- At least `n` bits lie before the read limit (20_memory.md R68, R69). -/
abbrev Avail (s : State) (n : Nat) : Prop := s.rdPos.toNat + n ≤ s.rdLimit

/-- BB_CAP from `s` to `t` (20_memory.md R67): it is doubled as few times as BB_WR_POS needs, and counting mode leaves
it alone. -/
def Grown (s t : State) : Prop :=
  (s.count = true → t.bbCap = s.bbCap) ∧
  (s.count = false → ∃ k, t.bbCap.toNat = s.bbCap.toNat * 2 ^ k ∧ (k = 0 ∨ 16 * t.bbCap.toNat < t.wrPos.toNat))

/-- The encoder after TestWriteOut (41_encoder.md R142) ran from `s` with ENC_LOW = `low` and ENC_BITSLEFT = `bl`: with
12 bits or more left nothing goes out; else a lead byte leaves ENC_LOW, is held if it is 0xFF, becomes the first held
byte if there is none, and else releases the held run with its carry. -/
def WroteOut (s : State) (low bl : Nat) (t : State) : Prop :=
  if 12 ≤ bl then
    t.encLow.toNat = low ∧ t.encBitsLeft.toNat = bl ∧ t.encNumBuf = s.encNumBuf ∧ t.encBufByte = s.encBufByte ∧
    t.wrPos = s.wrPos ∧ t.store = s.store ∧ t.bbCap = s.bbCap
  else
    t.encLow.toNat = low % 2 ^ (24 - bl) ∧ t.encBitsLeft.toNat = bl + 8 ∧
    (if low / 2 ^ (24 - bl) = 0xFF then
      t.encNumBuf.toNat = s.encNumBuf.toNat + 1 ∧ t.encBufByte = s.encBufByte ∧
      t.wrPos = s.wrPos ∧ t.store = s.store ∧ t.bbCap = s.bbCap
    else
      t.encNumBuf.toNat = 1 ∧ t.encBufByte.toNat = low / 2 ^ (24 - bl) % 256 ∧
      (if s.encNumBuf.toNat = 0 then t.wrPos = s.wrPos ∧ t.store = s.store ∧ t.bbCap = s.bbCap
      else
        t.wrPos.toNat = s.wrPos.toNat + 8 * s.encNumBuf.toNat ∧ s.Grown t ∧
        (s.count = true → t.store = s.store) ∧
        (s.count = false → ∀ k,
          (t.store.read k).toNat =
            if k = s.wrPos.toNat / 8 then (s.encBufByte.toNat + low / 2 ^ (24 - bl) / 256) % 256
            else if s.wrPos.toNat / 8 < k ∧ k < s.wrPos.toNat / 8 + s.encNumBuf.toNat then
              (0xFF + low / 2 ^ (24 - bl) / 256) % 256
            else (s.store.read k).toNat)))

/-- The next byte of the bitstream, at the read cursor of a decoder (byte-aligned by 42_decoder.md R171). -/
def nextByte (s : State) : Nat := s.store.readBits s.rdPos.toNat 8

/-- `t`'s decoder registers and read cursor after a shift of the value `v` by `n` with the byte it fetches when
DEC_BITSNEEDED reaches 0 (42_decoder.md R173, R174); `s` is the state the bin started from. -/
structure Refilled (s : State) (v n : Nat) (t : State) : Prop where
  value : t.decValue.toNat =
    v * 2 ^ n + if 0 ≤ s.decBitsNeeded.toInt + n then s.nextByte * 2 ^ (s.decBitsNeeded.toInt + n).toNat else 0
  bits : t.decBitsNeeded.toInt = s.decBitsNeeded.toInt + n - if 0 ≤ s.decBitsNeeded.toInt + n then 8 else 0
  pos : t.rdPos.toNat = s.rdPos.toNat + if 0 ≤ s.decBitsNeeded.toInt + n then 8 else 0
  avail : 0 ≤ s.decBitsNeeded.toInt + n → s.Avail 8

/-- `t` is `s` but for the encoder's registers, what the encoder appends to the bit buffer, and the response (NONE, 0)
now on offer. -/
def EncoderFrame (s t : State) : Prop :=
  t = { s with
    encTrm := t.encTrm, encLow := t.encLow, encRange := t.encRange, encBitsLeft := t.encBitsLeft
    encBufByte := t.encBufByte, encNumBuf := t.encNumBuf
    store := t.store, bbCap := t.bbCap, wrPos := t.wrPos, rsp := some ⟨none, 0⟩ }

/-- The same, with the context cells. -/
def EncoderCtxFrame (s t : State) : Prop :=
  t = { s with
    ctx := t.ctx
    encTrm := t.encTrm, encLow := t.encLow, encRange := t.encRange, encBitsLeft := t.encBitsLeft
    encBufByte := t.encBufByte, encNumBuf := t.encNumBuf
    store := t.store, bbCap := t.bbCap, wrPos := t.wrPos, rsp := some ⟨none, 0⟩ }

/-- `t` is `s` but for the decoder's registers, the read cursor, and the response (NONE, `data`) now on offer. -/
def DecoderFrame (s t : State) (data : Word) : Prop :=
  t = { s with
    decState := t.decState, decValue := t.decValue, decRange := t.decRange, decBitsNeeded := t.decBitsNeeded
    rdPos := t.rdPos, rsp := some ⟨none, data⟩ }

/-- The same, with the context cells. -/
def DecoderCtxFrame (s t : State) (data : Word) : Prop :=
  t = { s with
    ctx := t.ctx
    decState := t.decState, decValue := t.decValue, decRange := t.decRange, decBitsNeeded := t.decBitsNeeded
    rdPos := t.rdPos, rsp := some ⟨none, data⟩ }

/-- `t` is `s` with the n low bits of `v` appended at the write cursor, most significant first, and the response
(NONE, 0) on offer: BB_WR_POS moves by n in both modes; in real mode bit addresses BB_WR_POS .. BB_WR_POS+n-1 hold the
bits, every other bit is as before and the capacity has grown as far as they need; in counting mode the store and the
capacity are as before (20_memory.md R64, R66, R67, R70). -/
def Appended (s : State) (n v : Nat) (t : State) : Prop :=
  t = { s with store := t.store, bbCap := t.bbCap, wrPos := t.wrPos, rsp := some ⟨none, 0⟩ } ∧
  t.wrPos.toNat = s.wrPos.toNat + n ∧ s.Grown t ∧ (s.count = true → t.store = s.store) ∧
  (s.count = false → t.wrPos.toNat ≤ 32 * t.bbCap.toNat ∧ ∀ p, t.store.bit p =
    if s.wrPos.toNat ≤ p ∧ p < s.wrPos.toNat + n then v.testBit (n - 1 - (p - s.wrPos.toNat)) else s.store.bit p)

/-- `t` is `s` with `n` bits taken at the read cursor and the response (NONE, `data`) on offer (20_memory.md R68). -/
def Taken (s : State) (n : Nat) (data : Word) (t : State) : Prop :=
  t = { s with rdPos := t.rdPos, rsp := some ⟨none, data⟩ } ∧ t.rdPos.toNat = s.rdPos.toNat + n

end State

/-- Commands run one after the other, each response taken before the next command: the data they return and the state
after them; none as soon as one answers with a fault (or the model stops). -/
def runData : List Instr → State → Option (List Word × State)
  | [], s => some ([], s)
  | i :: rest, s =>
    match exec i s with
    | .next t =>
      match t.rsp with
      | some ⟨none, d⟩ => (runData rest t).map fun r => (d :: r.1, r.2)
      | _ => none
    | _ => none

/-- The cause of the first command of a list that answers with a fault, if one does. -/
def runCause : List Instr → State → Option Cause
  | [], _ => none
  | i :: rest, s =>
    match exec i s with
    | .next t =>
      match t.rsp with
      | some ⟨none, _⟩ => runCause rest t
      | some ⟨some c, _⟩ => some c
      | none => none
    | _ => none

/-- A list of numbers below 2^n_j, n_j bits each, as one number, the first most significant. -/
def concat : List (Nat × Nat) → Nat
  | [] => 0
  | (_, v) :: rest => v * 2 ^ (rest.map (·.1)).sum + concat rest

/-- Single bits returned by bin commands as one number, the first most significant. -/
def bitsValue (ds : List Word) : Nat := concat (ds.map fun d => (1, d.toNat))

/-- The n low bits of `v`, most significant first. -/
def bitsOf (n v : Nat) : List Bool := (List.range n).map fun k => v.testBit (n - 1 - k)

/-- The command answers with the fault `c` and its own OP byte (60_exceptions.md R281). -/
def raises (i : Instr) (s : State) (c : Cause) : Prop := exec i s = .next (s.takeFault i.op c)

/-! Syntax commands (44_syntax.md). -/

/-- The read engine is in the state a path needs (44_syntax.md R222). -/
def State.canRead (s : State) : Path → Bool
  | .raw => s.decState != .coding && !s.count
  | .ep => s.decState == .coding
  | .ctx => s.decState == .coding

/-- The command has the effect of the bin commands `bins` (44_syntax.md R223) and response (NONE, 0); where one of them
answers with a fault, the command answers with that cause; none does if there is room for what that many bins may write
out. -/
def CodesAs (i : Instr) (bins : List Instr) (s : State) : Prop :=
  (s.EncRoom bins.length → ∃ r, runData bins s = some r) ∧
  match runData bins s with
  | some r => exec i s = .next { r.2 with rsp := some ⟨none, 0⟩ }
  | none => ∃ c, runCause bins s = some c ∧ raises i s c

/-- The command puts the n-bit string `v` out on a path (44_syntax.md R220 to R223): on RAW the bits are appended, on EP
each is a bypass bin. -/
def WritesCode (i : Instr) (path : Path) (n v : Nat) (s : State) : Prop :=
  match path with
  | .raw =>
    if s.encState = .coding then raises i s .state
    else if s.Room n then ∃ t, exec i s = .next t ∧ s.Appended n v t
    else raises i s s.outCause
  | _ => if s.Encoding then CodesAs i ((bitsOf n v).map .encBinEp) s else raises i s .state

/-- The next `k` bits on a path as a number, and the state after them (44_syntax.md R221, R223): on RAW from the store at
the read cursor, on EP the bins that DEC_BIN_EP returns; none when they run out. -/
def takeBits (path : Path) (k : Nat) (s : State) : Option (Nat × State) :=
  match path with
  | .raw =>
    if s.Avail k then
      some (s.store.readBits s.rdPos.toNat k, { s with rdPos := BitVec.ofNat 32 (s.rdPos.toNat + k) })
    else none
  | _ => (runData (List.replicate k .decBinEp) s).map fun r => (bitsValue r.1, r.2)

/-- The command completes with `data`, leaving the state `t` but for the response. -/
def returns (i : Instr) (s : State) (data : Word) (t : State) : Prop :=
  exec i s = .next { t with rsp := some ⟨none, data⟩ }

/-- Reading an Exp-Golomb code (44_syntax.md R235) with `f` from the number `value` to DATA. For every prefix length
L <= 31: 2L + 1 bits that are x, with 2^L <= x < 2^(L+1), give value x - 1; ERR_EXHAUSTED where the bits run out in the
suffix, or in the prefix; ERR_PATTERN after 32 zeros. -/
def ReadsCode (i : Instr) (path : Path) (f : Nat → Word) (s : State) : Prop :=
  (∀ l ≤ 31, ∀ x t, takeBits path (2 * l + 1) s = some (x, t) → 2 ^ l ≤ x → x < 2 ^ (l + 1) →
    returns i s (f (x - 1)) t) ∧
  (∀ l ≤ 31, ∀ t, takeBits path (l + 1) s = some (1, t) → takeBits path (2 * l + 1) s = none →
    raises i s .exhausted) ∧
  (∀ k < 32, ∀ t, takeBits path k s = some (0, t) → takeBits path (k + 1) s = none → raises i s .exhausted) ∧
  (∀ t, takeBits path 32 s = some (0, t) → raises i s .pattern)

/-- The bin commands of a truncated unary code (44_syntax.md R227): on CTX, bin number k has context
ctx + min(k, SPANM1). -/
def tuWrites (path : Path) (ctx : Byte) (spanm1 : BitVec 6) (bins : List Bool) : List Instr :=
  bins.zipIdx.map fun bk => match path with
    | .ctx => .encBin (BitVec.ofNat 8 (ctx.toNat + min bk.2 spanm1.toNat)) bk.1
    | _ => .encBinEp bk.1

/-- The first `k` bin commands of reading it (44_syntax.md R237). -/
def tuReads (path : Path) (ctx : Byte) (spanm1 : BitVec 6) (k : Nat) : List Instr :=
  (List.range k).map fun j => match path with
    | .ctx => .decBin (BitVec.ofNat 8 (ctx.toNat + min j spanm1.toNat))
    | _ => .decBinEp

/-! Which commands do what. -/

/-- The read commands: those that take bits from the store, move the read cursor or peek (20_memory.md R70). -/
def readsStore : Instr → Bool
  | .nop => false
  | .sysReset => false
  | .sysRdreg _ => false
  | .ctxInit _ _ _ _ => false
  | .ctxSet _ _ _ => false
  | .ctxGet _ => false
  | .encStart => false
  | .encBin _ _ => false
  | .encBinEp _ => false
  | .encBinTrm _ => false
  | .encFinish => false
  | .decStart => true
  | .decBin _ => true
  | .decBinEp => true
  | .decBinTrm => true
  | .bbInit _ => false
  | .bbWrite _ _ => false
  | .bbRead _ => true
  | .bbGetWritten => false
  | .bbResetBits => false
  | .bbRdSeek _ => true
  | .bbGetByte _ => true
  | .bbSubOpen _ => true
  | .bbSubClose => true
  | .seWrFlc _ _ _ => false
  | .seWrUvlc _ _ => false
  | .seWrSvlc _ _ => false
  | .seWrTu _ _ _ _ _ => false
  | .seWrTrail => false
  | .seWrFf8 _ => false
  | .seRdFlc _ _ => true
  | .seRdUvlc _ => true
  | .seRdSvlc _ => true
  | .seRdTu _ _ _ _ => true
  | .seRdTrail => true
  | .seRdFf8 => true

/-- The commands whose rule returns nothing, that is, 0 (30_encoding.md R94, column "returns"). -/
def returnsNothing : Instr → Bool
  | .nop => true
  | .sysReset => true
  | .sysRdreg _ => false
  | .ctxInit _ _ _ _ => true
  | .ctxSet _ _ _ => true
  | .ctxGet _ => false
  | .encStart => true
  | .encBin _ _ => true
  | .encBinEp _ => true
  | .encBinTrm _ => true
  | .encFinish => true
  | .decStart => true
  | .decBin _ => false
  | .decBinEp => false
  | .decBinTrm => false
  | .bbInit _ => true
  | .bbWrite _ _ => true
  | .bbRead _ => false
  | .bbGetWritten => false
  | .bbResetBits => true
  | .bbRdSeek _ => true
  | .bbGetByte _ => false
  | .bbSubOpen _ => true
  | .bbSubClose => true
  | .seWrFlc _ _ _ => true
  | .seWrUvlc _ _ => true
  | .seWrSvlc _ _ => true
  | .seWrTu _ _ _ _ _ => true
  | .seWrTrail => true
  | .seWrFf8 _ => true
  | .seRdFlc _ _ => false
  | .seRdUvlc _ => false
  | .seRdSvlc _ => false
  | .seRdTu _ _ _ _ => false
  | .seRdTrail => true
  | .seRdFf8 => false

/-- The commands that empty the buffer. -/
def empties : Instr → Bool
  | .nop => false
  | .sysReset => true
  | .sysRdreg _ => false
  | .ctxInit _ _ _ _ => false
  | .ctxSet _ _ _ => false
  | .ctxGet _ => false
  | .encStart => false
  | .encBin _ _ => false
  | .encBinEp _ => false
  | .encBinTrm _ => false
  | .encFinish => false
  | .decStart => false
  | .decBin _ => false
  | .decBinEp => false
  | .decBinTrm => false
  | .bbInit _ => true
  | .bbWrite _ _ => false
  | .bbRead _ => false
  | .bbGetWritten => false
  | .bbResetBits => true
  | .bbRdSeek _ => false
  | .bbGetByte _ => false
  | .bbSubOpen _ => false
  | .bbSubClose => false
  | .seWrFlc _ _ _ => false
  | .seWrUvlc _ _ => false
  | .seWrSvlc _ _ => false
  | .seWrTu _ _ _ _ _ => false
  | .seWrTrail => false
  | .seWrFf8 _ => false
  | .seRdFlc _ _ => false
  | .seRdUvlc _ => false
  | .seRdSvlc _ => false
  | .seRdTu _ _ _ _ => false
  | .seRdTrail => false
  | .seRdFf8 => false

/-- The commands that neither read nor write any context cell (10_state.md R22), SYS_RESET apart: all but the context
family, the context bins and the truncated unary codes. -/
def contextFree : Instr → Bool
  | .nop => true
  | .sysReset => false
  | .sysRdreg _ => true
  | .ctxInit _ _ _ _ => false
  | .ctxSet _ _ _ => false
  | .ctxGet _ => false
  | .encStart => true
  | .encBin _ _ => false
  | .encBinEp _ => true
  | .encBinTrm _ => true
  | .encFinish => true
  | .decStart => true
  | .decBin _ => false
  | .decBinEp => true
  | .decBinTrm => true
  | .bbInit _ => true
  | .bbWrite _ _ => true
  | .bbRead _ => true
  | .bbGetWritten => true
  | .bbResetBits => true
  | .bbRdSeek _ => true
  | .bbGetByte _ => true
  | .bbSubOpen _ => true
  | .bbSubClose => true
  | .seWrFlc _ _ _ => true
  | .seWrUvlc _ _ => true
  | .seWrSvlc _ _ => true
  | .seWrTu _ _ _ _ _ => false
  | .seWrTrail => true
  | .seWrFf8 _ => true
  | .seRdFlc _ _ => true
  | .seRdUvlc _ => true
  | .seRdSvlc _ => true
  | .seRdTu _ _ _ _ => false
  | .seRdTrail => true
  | .seRdFf8 => true

/-! Coded segments (41_encoder.md R148, 42_decoder.md R176). -/

/-- A bin of a coded segment before its terminating bin. -/
inductive Bin where
  | context (ctx : Byte) (bin : Bool)
  | bypass (bin : Bool)
  | goOn
  deriving DecidableEq, Repr

/-- The command that encodes it; `goOn` is the terminate bin with value 0. -/
def Bin.encode : Bin → Instr
  | .context ctx bin => .encBin ctx bin
  | .bypass bin => .encBinEp bin
  | .goOn => .encBinTrm false

/-- The command that decodes it. -/
def Bin.decode : Bin → Instr
  | .context ctx _ => .decBin ctx
  | .bypass _ => .decBinEp
  | .goOn => .decBinTrm

/-- Its value. -/
def Bin.value : Bin → Bool
  | .context _ bin => bin
  | .bypass bin => bin
  | .goOn => false

/-- The coder of 41_encoder.md R148 with unbounded-precision `low`: the interval is
[low, low + range) x 2^-(9 + doublings); no byte ever leaves `low`, so there is nothing to carry into. -/
structure Ideal where
  low : Nat
  range : Nat
  doublings : Nat
  ctx : List CtxCell
  deriving DecidableEq, Repr

namespace Ideal

/-- The initial interval [0, 510) x 2^-9 (41_encoder.md R140). -/
def start (ctx : List CtxCell) : Ideal := ⟨0, 510, 0, ctx⟩

/-- One bin (41_encoder.md R144 to R146). -/
def code (c : Config) (d : Ideal) : Bin → Ideal
  | .context ctx bin =>
    match d.ctx[ctx.toNat]? with
    | none => d
    | some cell =>
      let mpsBin := bin == cell.mps
      let lps := lpsWidth c cell.state d.range
      let n := binShift lps d.range mpsBin
      ⟨(d.low + if mpsBin then 0 else d.range - lps) * 2 ^ n, binWidth lps d.range mpsBin * 2 ^ n, d.doublings + n,
        d.ctx.set ctx.toNat (adapted c cell mpsBin)⟩
  | .bypass bin => ⟨2 * d.low + if bin then d.range else 0, d.range, d.doublings + 1, d.ctx⟩
  | .goOn =>
    if d.range - 2 < 256 then ⟨2 * d.low, 2 * (d.range - 2), d.doublings + 1, d.ctx⟩
    else { d with range := d.range - 2 }

/-- The arithmetic bits of the segment, as one number of `length` bits: the top of the sub-interval of width 2 that the
terminating bin selects, shifted by 7, without the low 8 bits (41_encoder.md R146, R147). -/
def bits (d : Ideal) : Nat := (d.low + (d.range - 2)) * 2 ^ 7 / 2 ^ 8

/-- 9 bits at the start, one more per doubling, 7 for the terminating bin, 8 that are not written. -/
def length (d : Ideal) : Nat := 9 + d.doublings + 7 - 8

end Ideal

/-- The commands of a whole segment: ENC_START, the bins, ENC_BIN_TRM bin=1, ENC_FINISH (42_decoder.md R176). -/
def encodeSegment (bins : List Bin) : List Instr :=
  .encStart :: bins.map Bin.encode ++ [.encBinTrm true, .encFinish]

/-- The commands that decode it: DEC_START, the bins, DEC_BIN_TRM (42_decoder.md R176). -/
def decodeSegment (bins : List Bin) : List Instr := .decStart :: bins.map Bin.decode ++ [.decBinTrm]

/-! The opcode table as published (spec/opcode_table.json; 30_encoding.md R94 to R96, R98). -/

/-- The constraint of a row on the path field (30_encoding.md R98). -/
inductive Constraint where
  | free
  | rawOrEp
  | tu
  deriving DecidableEq, Repr

/-- C[1:0] of the word. -/
def pathField? (w : CmdWord) : BitVec 2 := w.extractLsb' 32 2

/-- The constraint holds of the word: C[1:0] in RAW, EP; or C[1:0] in EP, CTX, and with EP A = 0 and C[7:2] = 0. -/
def Constraint.holds : Constraint → CmdWord → Bool
  | .free, _ => true
  | .rawOrEp, w => pathField? w == 0 || pathField? w == 1
  | .tu, w => (pathField? w == 1 && w.extractLsb' 48 8 == 0 && w.extractLsb' 34 6 == 0) || pathField? w == 2

/-- The path the field names where the constraint of the row holds. -/
def pathOf (w : CmdWord) : Path :=
  if pathField? w = 0 then .raw else if pathField? w = 1 then .ep else .ctx

/-- A published row, with the operands of 30_encoding.md R95 as slices of the word. -/
structure PublishedRow where
  pattern : CmdWord
  mask : CmdWord
  constraint : Constraint
  operands : CmdWord → Instr

/-- The system rows. -/
def publishedSystem : List PublishedRow :=
  [⟨0x0000000000000000, 0xFFFFFFFFFFFFFFFF, .free, fun _ => .nop⟩,
   ⟨0x0100000000000000, 0xFFFFFFFFFFFFFFFF, .free, fun _ => .sysReset⟩,
   ⟨0x0200000000000000, 0xFF00FFFFFFFFFFFF, .free, fun w => .sysRdreg (w.extractLsb' 48 8)⟩]

/-- The context rows. -/
def publishedContext : List PublishedRow :=
  [⟨0x1000000000000000, 0xFF0000FF00000000, .free,
      fun w => .ctxInit (w.extractLsb' 48 8) (w.extractLsb' 40 8) (w.extractLsb' 0 16) (w.extractLsb' 16 16)⟩,
   ⟨0x1100000000000000, 0xFF00FFFFFFFFFF80, .free,
      fun w => .ctxSet (w.extractLsb' 48 8) (w.extractLsb' 0 6) (w.getLsbD 6)⟩,
   ⟨0x1200000000000000, 0xFF00FFFFFFFFFFFF, .free, fun w => .ctxGet (w.extractLsb' 48 8)⟩]

/-- The encoder rows. -/
def publishedEncoder : List PublishedRow :=
  [⟨0x2000000000000000, 0xFFFFFFFFFFFFFFFF, .free, fun _ => .encStart⟩,
   ⟨0x2100000000000000, 0xFF00FFFFFFFFFFFE, .free, fun w => .encBin (w.extractLsb' 48 8) (w.getLsbD 0)⟩,
   ⟨0x2200000000000000, 0xFFFFFFFFFFFFFFFE, .free, fun w => .encBinEp (w.getLsbD 0)⟩,
   ⟨0x2300000000000000, 0xFFFFFFFFFFFFFFFE, .free, fun w => .encBinTrm (w.getLsbD 0)⟩,
   ⟨0x2400000000000000, 0xFFFFFFFFFFFFFFFF, .free, fun _ => .encFinish⟩]

/-- The decoder rows. -/
def publishedDecoder : List PublishedRow :=
  [⟨0x3000000000000000, 0xFFFFFFFFFFFFFFFF, .free, fun _ => .decStart⟩,
   ⟨0x3100000000000000, 0xFF00FFFFFFFFFFFF, .free, fun w => .decBin (w.extractLsb' 48 8)⟩,
   ⟨0x3200000000000000, 0xFFFFFFFFFFFFFFFF, .free, fun _ => .decBinEp⟩,
   ⟨0x3300000000000000, 0xFFFFFFFFFFFFFFFF, .free, fun _ => .decBinTrm⟩]

/-- The bit-buffer rows. -/
def publishedBitBuffer : List PublishedRow :=
  [⟨0x4000000000000000, 0xFFFFFFFEFFFFFFFF, .free, fun w => .bbInit (w.getLsbD 32)⟩,
   ⟨0x4100000000000000, 0xFF00FFFF00000000, .free, fun w => .bbWrite (w.extractLsb' 48 8) (w.extractLsb' 0 32)⟩,
   ⟨0x4200000000000000, 0xFF00FFFFFFFFFFFF, .free, fun w => .bbRead (w.extractLsb' 48 8)⟩,
   ⟨0x4300000000000000, 0xFFFFFFFFFFFFFFFF, .free, fun _ => .bbGetWritten⟩,
   ⟨0x4400000000000000, 0xFFFFFFFFFFFFFFFF, .free, fun _ => .bbResetBits⟩,
   ⟨0x4500000000000000, 0xFFFFFFFF00000000, .free, fun w => .bbRdSeek (w.extractLsb' 0 32)⟩,
   ⟨0x4600000000000000, 0xFFFFFFFF00000000, .free, fun w => .bbGetByte (w.extractLsb' 0 32)⟩,
   ⟨0x4700000000000000, 0xFFFFFFFF00000000, .free, fun w => .bbSubOpen (w.extractLsb' 0 32)⟩,
   ⟨0x4800000000000000, 0xFFFFFFFFFFFFFFFF, .free, fun _ => .bbSubClose⟩]

/-- The syntax write rows. -/
def publishedWrite : List PublishedRow :=
  [⟨0x5000000000000000, 0xFF00FFFC00000000, .rawOrEp,
      fun w => .seWrFlc (w.extractLsb' 48 8) (pathOf w) (w.extractLsb' 0 32)⟩,
   ⟨0x5100000000000000, 0xFFFFFFFC00000000, .rawOrEp, fun w => .seWrUvlc (pathOf w) (w.extractLsb' 0 32)⟩,
   ⟨0x5200000000000000, 0xFFFFFFFC00000000, .rawOrEp, fun w => .seWrSvlc (pathOf w) (w.extractLsb' 0 32)⟩,
   ⟨0x5300000000000000, 0xFF000000FFFFFF00, .tu,
      fun w => .seWrTu (w.extractLsb' 48 8) (w.extractLsb' 40 8) (pathOf w) (w.extractLsb' 34 6) (w.extractLsb' 0 8)⟩,
   ⟨0x5400000000000000, 0xFFFFFFFFFFFFFFFF, .free, fun _ => .seWrTrail⟩,
   ⟨0x5500000000000000, 0xFFFFFFFF00000000, .free, fun w => .seWrFf8 (w.extractLsb' 0 32)⟩]

/-- The syntax read rows. -/
def publishedRead : List PublishedRow :=
  [⟨0x6000000000000000, 0xFF00FFFCFFFFFFFF, .rawOrEp, fun w => .seRdFlc (w.extractLsb' 48 8) (pathOf w)⟩,
   ⟨0x6100000000000000, 0xFFFFFFFCFFFFFFFF, .rawOrEp, fun w => .seRdUvlc (pathOf w)⟩,
   ⟨0x6200000000000000, 0xFFFFFFFCFFFFFFFF, .rawOrEp, fun w => .seRdSvlc (pathOf w)⟩,
   ⟨0x6300000000000000, 0xFF000000FFFFFFFF, .tu,
      fun w => .seRdTu (w.extractLsb' 48 8) (w.extractLsb' 40 8) (pathOf w) (w.extractLsb' 34 6)⟩,
   ⟨0x6400000000000000, 0xFFFFFFFFFFFFFFFF, .free, fun _ => .seRdTrail⟩,
   ⟨0x6500000000000000, 0xFFFFFFFFFFFFFFFF, .free, fun _ => .seRdFf8⟩]

/-- The published table. -/
def published : List PublishedRow :=
  publishedSystem ++ publishedContext ++ publishedEncoder ++ publishedDecoder ++ publishedBitBuffer ++
    publishedWrite ++ publishedRead

/-- The command is row r: `(w & r.mask) = r.match` and its constraints hold (30_encoding.md R102). -/
def PublishedRow.is (r : PublishedRow) (w : CmdWord) : Bool := w &&& r.mask == r.pattern && r.constraint.holds w

/-! Reset. -/

/-- Every piece of state has the value of 10_state.md R47, the derived ones included. -/
structure State.AtReset (t : State) : Prop where
  ctx : t.ctx.length = t.cfg.nctx ∧ ∀ i < t.cfg.nctx, t.ctx[i]? = some ⟨0, false⟩
  engines : t.encState = .unstarted ∧ t.decState = .unstarted ∧ t.encTrm = false
  encoder : t.encLow = 0 ∧ t.encRange = 0 ∧ t.encBitsLeft = 0 ∧ t.encBufByte = 0 ∧ t.encNumBuf = 0
  decoder : t.decValue = 0 ∧ t.decRange = 0 ∧ t.decBitsNeeded = 0
  buffer : t.wrPos = 0 ∧ t.rdPos = 0 ∧ t.subEnd = 0 ∧ t.bbCap.toNat = t.cfg.cap0
  flags : t.count = false ∧ t.subActive = false
  fault : t.faultWord = 0 ∧ t.faultOpWord = 0 ∧ t.fault = none
  derived : t.status = 0 ∧ readReg t .bbWrWord = 0 ∧ readReg t .bbRdWord = 0 ∧ readReg t .bbWrAvail = 32 ∧
    readReg t .bbRdAvail = 32

end Sys2Proof.Machine
end

