-- ==== Sys2Proof/Certificates/Slice0/Obligations.lean ====
section
/-! DEFINITION. The statements about CABAC-CORE for the provers, rule by rule of the spec. A statement about one command
is a statement about every state between commands (`Live`, or a weaker premise where that is enough) and every operand:
which fault it answers with when a check fails, in the order of its rule, and else the whole next state. `raises` and
`takeFault` are what `TakingAFault` says. -/

section Statements

open Sys2Proof Sys2Proof.Machine

/-! Encoding (30_encoding.md). -/

/-- Decoding and encoding agree: every command of every family, with every operand at every value its field admits, is
read back from its own word (30_encoding.md R90, R94, R95, R98). -/
def Obligations.DecodeEncodeRoundTrip : Prop :=
  ∀ i : Instr, i.wellFormed = true → decode (encode i) = .ok i

/-- A word that decodes is the word of what it decodes to: no two words are one command, no bit is ignored
(30_encoding.md R96), and what is decoded keeps the path constraints (R98). -/
def Obligations.EncodeDecodedWord : Prop :=
  ∀ (w : CmdWord) (i : Instr), decode w = .ok i → i.wellFormed = true ∧ encode i = w

/-- Words the spec writes out with their commands, one of every family. -/
def Obligations.SampleWords : Prop :=
  decode 0x0235000000000000 = .ok (.sysRdreg 0x35) ∧
  decode 0x10001E0000010018 = .ok (.ctxInit 0 30 24 1) ∧
  decode 0x110500000000007E = .ok (.ctxSet 5 62 true) ∧
  decode 0x2100000000000001 = .ok (.encBin 0 true) ∧
  decode 0x2300000000000001 = .ok (.encBinTrm true) ∧
  decode 0x3100000000000000 = .ok (.decBin 0) ∧
  decode 0x4000000100000000 = .ok (.bbInit true) ∧
  decode 0x410400000000000B = .ok (.bbWrite 4 0xB) ∧
  decode 0x52000000FFFFFFFD = .ok (.seWrSvlc .raw 0xFFFFFFFD) ∧
  decode 0x5304050A00000003 = .ok (.seWrTu 4 5 .ctx 2 3) ∧
  decode 0x6003000100000000 = .ok (.seRdFlc 3 .ep) ∧
  decode 0x6304050A00000000 = .ok (.seRdTu 4 5 .ctx 2)

/-- 30_encoding.md R102, on the published table: at most one row matches a word; a word that row r matches is row r's
command with the operands of R95; a word that no row matches is illegal; and illegality is reported as ERR_ILLEGAL
before anything else, whatever the state while no fault is recorded. -/
def Obligations.DecodeProcedure : Prop :=
  ∀ w : CmdWord,
    (published.filter fun r => r.is w).length ≤ 1 ∧
    (∀ r ∈ published, r.is w = true → decode w = .ok (r.operands w)) ∧
    ((∀ r ∈ published, r.is w = false) →
      (∀ i, decode w ≠ .ok i) ∧
      ∀ s : State, s.fault = none → serve w s = .next (s.takeFault (w.extractLsb' 56 8) .illegal))

/-- 60_exceptions.md R272: while no fault is recorded ERR_ILLEGAL is the answer exactly to a word with an unassigned OP,
with a bit set that its row's mask fixes, or with a path its row's constraint excludes; that depends on the word alone;
and there is such a word for every opcode. -/
def Obligations.IllegalWords : Prop :=
  (∀ (w : CmdWord) (s : State), s.Live →
    ((∃ d, ∃ t, serve w s = .next t ∧ t.rsp = some ⟨some .illegal, d⟩) ↔
      ((∀ r ∈ published, r.pattern.extractLsb' 56 8 ≠ w.extractLsb' 56 8) ∨
        (∃ r ∈ published, r.pattern.extractLsb' 56 8 = w.extractLsb' 56 8 ∧
          (w &&& r.mask ≠ r.pattern ∨ r.constraint.holds w = false))))) ∧
  ∀ op : Byte, ∃ w : CmdWord, w.extractLsb' 56 8 = op ∧ ∀ s : State, s.fault = none →
    serve w s = .next (s.takeFault op .illegal)

/-! The ports, the steps, the faults (30_encoding.md R91, R92; 60_exceptions.md; 70_reset_and_hazards.md). -/

/-- A step runs the decoded command: with the port ready and no fault recorded, the word on offer is run as the command
it decodes to, from the state without that word on offer; and the very next step after `withFetchWord` runs the word
placed. Nothing is added around it: there is no program counter (10_state.md R21). -/
def Obligations.StepRunsDecoded : Prop :=
  (∀ (s : State) (i : Instr) (w : CmdWord) (rest : List CmdWord), s.Ready → s.fault = none → s.cmds = w :: rest →
    decode w = .ok i → step s = exec i { s with cmds := rest }) ∧
  ∀ (s : State) (i : Instr), i.wellFormed = true → s.fault = none →
    step (s.withFetchWord 64 (encode i).toNat) = exec i { s with rstN := true, rsp := none }

/-- The handshake of 30_encoding.md R92 as the model splits it into steps (log entry 5): `cmd_ready` is up exactly out of
reset with no response on offer; a response is held until `rsp_ready`, and taking it changes nothing else; with nothing
to do nothing changes; a word leaves the host's queue only when `cmd_ready` is up, one at a time, and its response is
then on offer, so that commands never overlap. -/
def Obligations.Handshake : Prop :=
  (∀ s : State, s.cmdReady = true ↔ s.rstN = true ∧ s.rsp = none) ∧
  (∀ (s : State) (r : Response), s.rstN = true → s.rsp = some r →
    step s = .next (if s.rspReady then { s with rsp := none } else s)) ∧
  (∀ s : State, s.Ready → s.cmds = [] → step s = .next s) ∧
  (∀ s t : State, step s = .next t → t.cmds = s.cmds ∨
    (s.cmdReady = true ∧ (∃ w, s.cmds = w :: t.cmds) ∧ t.rspValid = true ∧ t.cmdReady = false))

/-- 30_encoding.md R91: every word taken gets exactly one response, in the same step; FAULTCODE is 0 exactly when the
command completed; DATA is 0 whenever FAULTCODE is not 0 and for every command whose rule returns nothing. What DATA is
for the others is stated with each. -/
def Obligations.OneResponsePerCommand : Prop :=
  ∀ (s : State) (w : CmdWord) (rest : List CmdWord), s.Inv → s.Ready → s.cmds = w :: rest →
    ∃ (t : State) (r : Response), step s = .next t ∧ t.rsp = some r ∧ t.cmds = rest ∧
      (r.faultCode = 0 ↔ r.fault = none) ∧ (r.fault ≠ none → r.data = 0) ∧
      (r.fault = none → ∃ i, decode w = .ok i ∧ (returnsNothing i = true → r.data = 0)) ∧
      (∀ c, r.fault = some c → ∃ op, t.fault = some ⟨c, op⟩)

/-- 60_exceptions.md R283, dispatch while a fault is recorded: SYS_RESET with all operand bits 0 is executed; SYS_RDREG of
STATUS, FAULT or FAULT_OP is executed and returns the register; every other word changes nothing and is answered with
the recorded code; FAULT and FAULT_OP keep describing the first fault until the reset. -/
def Obligations.FaultedDispatch : Prop :=
  ∀ (s : State) (r : FaultRecord) (w : CmdWord) (rest : List CmdWord), s.Inv → s.Ready → s.fault = some r →
    s.cmds = w :: rest →
    (w = 0x0100000000000000 → ∃ t, step s = .next t ∧ t.AtReset ∧ t.cmds = rest ∧ t.rsp = some ⟨none, 0⟩) ∧
    (w = 0x0200000000000000 → step s = .next { s with cmds := rest, rsp := some ⟨none, s.status⟩ }) ∧
    (w = 0x0201000000000000 → step s = .next { s with cmds := rest, rsp := some ⟨none, s.faultWord⟩ }) ∧
    (w = 0x0202000000000000 → step s = .next { s with cmds := rest, rsp := some ⟨none, s.faultOpWord⟩ }) ∧
    (w ≠ 0x0100000000000000 → w ≠ 0x0200000000000000 → w ≠ 0x0201000000000000 → w ≠ 0x0202000000000000 →
      step s = .next { s with cmds := rest, rsp := some ⟨some r.cause, 0⟩ }) ∧
    ∀ t, step s = .next t → w ≠ 0x0100000000000000 → t.fault = some r

/-- 60_exceptions.md R284: no step leaves the fault state except reset, by SYS_RESET or by the reset input, and that
clears FAULT and FAULT_OP together with everything else; any other step keeps the record, and no second fault is
recorded. -/
def Obligations.FaultIsFinal : Prop :=
  ∀ (s t : State) (r : FaultRecord), s.Inv → s.fault = some r → step s = .next t →
    t.fault = some r ∨
    (t.AtReset ∧ (s.rstN = false ∨ (s.Ready ∧ ∃ rest, s.cmds = 0x0100000000000000 :: rest)))

/-- 60_exceptions.md R281, R282: a command that does not complete records its cause and its own OP byte, STATUS.FAULTED
and the interrupt line are up, and the response is (ERR_X, 0). The parameters and the ports stay; everything else is
then unspecified, so that the state is one and the same whatever the command had changed before (log entry 3). A
command that completes records nothing. -/
def Obligations.TakingAFault : Prop :=
  ∀ (s t : State) (i : Instr), s.fault = none → exec i s = .next t →
    (t.fault = none ∧ ∃ d, t.rsp = some ⟨none, d⟩) ∨
    ∃ c, t.fault = some ⟨c, i.op⟩ ∧ t.rsp = some ⟨some c, 0⟩ ∧ t.status.getLsbD 7 = true ∧ t.faultIrq = true ∧
      (t.faultWord.extractLsb' 0 8 = c.code ∧ t.faultWord.extractLsb' 8 2 = c.cls) ∧
      t.faultOpWord.extractLsb' 0 8 = i.op ∧
      (t.cfg = s.cfg ∧ t.rstN = s.rstN ∧ t.cmds = s.cmds ∧ t.rspReady = s.rspReady) ∧ t = s.takeFault i.op c

/-- 60_exceptions.md R270, with 10_state.md R24: the FAULT register is 0 while no fault is recorded, else the code of the
cause in bits 7:0 and its class, a function of the cause, in bits 9:8; FAULTCODE in a response is the same code; codes
9 to 255 are never produced. -/
def Obligations.FaultCodes : Prop :=
  (∀ s : State, s.fault = none → s.faultWord = 0 ∧ s.faultOpWord = 0) ∧
  (∀ (s : State) (op : Byte) (d : Word),
    (s.fault = some ⟨.illegal, op⟩ → s.faultWord = 0x201) ∧ (s.fault = some ⟨.param, op⟩ → s.faultWord = 0x202) ∧
    (s.fault = some ⟨.index, op⟩ → s.faultWord = 0x203) ∧ (s.fault = some ⟨.state, op⟩ → s.faultWord = 0x204) ∧
    (s.fault = some ⟨.exhausted, op⟩ → s.faultWord = 0x105) ∧ (s.fault = some ⟨.pattern, op⟩ → s.faultWord = 0x106) ∧
    (s.fault = some ⟨.resource, op⟩ → s.faultWord = 0x307) ∧ (s.fault = some ⟨.overflow, op⟩ → s.faultWord = 0x308) ∧
    ∀ c, s.fault = some ⟨c, op⟩ → s.faultWord.extractLsb' 0 8 = (⟨some c, d⟩ : Response).faultCode ∧
      s.faultOpWord.toNat = op.toNat) ∧
  ∀ r : Response, r.faultCode.toNat ≤ 8

/-- 10_state.md R23: the fields of STATUS, whatever the state; and fault_irq is its bit 7 (60_exceptions.md R286). -/
def Obligations.StatusRegister : Prop :=
  ∀ s : State,
    (s.status.extractLsb' 0 2).toNat =
      (match s.encState with | .unstarted => 0 | .coding => 1 | .terminated => 2) ∧
    (s.status.extractLsb' 2 2).toNat =
      (match s.decState with | .unstarted => 0 | .coding => 1 | .terminated => 2) ∧
    s.status.getLsbD 4 = s.count ∧ s.status.getLsbD 5 = s.subActive ∧ s.status.getLsbD 6 = s.encTrm ∧
    (s.status.getLsbD 7 = true ↔ s.faultWord.extractLsb' 0 8 ≠ 0) ∧ s.status.extractLsb' 8 24 = 0 ∧
    s.faultIrq = s.status.getLsbD 7

/-- 70_reset_and_hazards.md R300, 10_state.md R47, 45_system.md R261: the reset event happens in two ways with identical
effect, SYS_RESET in any state, served whether or not a fault is recorded, and `rst_n` low: every piece of state takes
the value of R47. The parameters are not affected. While `rst_n` is low no command is accepted; that the response on offer
is then dropped, while the host's words on offer and the inputs stay, is the model's choice (log entry 18), not a sentence
of the spec. A SYS_RESET word with an operand bit set is illegal, and while a fault is recorded it is not served. -/
def Obligations.ResetEvent : Prop :=
  ∀ s : State, s.cfg.legal = true →
    (∃ t, exec .sysReset s = .next t ∧ serve 0x0100000000000000 s = .next t ∧ t.AtReset ∧ t.rsp = some ⟨none, 0⟩ ∧
      (t.cfg = s.cfg ∧ t.rstN = s.rstN ∧ t.cmds = s.cmds ∧ t.rspReady = s.rspReady) ∧
      (s.rstN = false → s.cmdReady = false ∧ step s = .next { t with rsp := none })) ∧
    ∀ w : CmdWord, w.extractLsb' 56 8 = 0x01 → w ≠ 0x0100000000000000 →
      (s.fault = none → serve w s = .next (s.takeFault 0x01 .illegal)) ∧
      ∀ r, s.fault = some r → serve w s = .next { s with rsp := some ⟨some r.cause, 0⟩ }

/-- 45_system.md R260: NOP is the all-zero word, returns 0 and changes nothing; with an operand bit set it is illegal;
while a fault is recorded it is answered with the recorded code. -/
def Obligations.NopEffect : Prop :=
  ∀ s : State,
    exec .nop s = .next { s with rsp := some ⟨none, 0⟩ } ∧ decode 0x0000000000000000 = .ok .nop ∧
    (∀ w : CmdWord, w.extractLsb' 56 8 = 0 → w ≠ 0 → s.fault = none → serve w s = .next (s.takeFault 0 .illegal)) ∧
    ∀ r, s.fault = some r → serve 0 s = .next { s with rsp := some ⟨some r.cause, 0⟩ }

/-- 10_state.md R44, R41, R27 and 45_system.md R262: SYS_RDREG returns the register of every listed number, extended to
32 bits, changing nothing; every number not listed raises ERR_INDEX. The parameters never change. -/
def Obligations.RegisterMap : Prop :=
  (∀ s : State, s.cfg.legal = true →
    let reads : Byte → (Word → Prop) → Prop := fun n p =>
      ∃ v, p v ∧ exec (.sysRdreg n) s = .next { s with rsp := some ⟨none, v⟩ }
    reads 0x00 (· = s.status) ∧ reads 0x01 (· = s.faultWord) ∧ reads 0x02 (· = s.faultOpWord) ∧
    reads 0x04 (·.toNat = s.cfg.nctx) ∧ reads 0x05 (·.toNat = s.cfg.cap0) ∧ reads 0x06 (·.toNat = s.cfg.capMax) ∧
    reads 0x07 (·.toNat = s.cfg.qpMax) ∧
    reads 0x10 (·.toNat = s.encLow.toNat) ∧ reads 0x11 (·.toNat = s.encRange.toNat) ∧
    reads 0x12 (·.toNat = s.encBitsLeft.toNat) ∧ reads 0x13 (·.toNat = s.encBufByte.toNat) ∧
    reads 0x14 (·.toNat = s.encNumBuf.toNat) ∧
    reads 0x20 (·.toNat = s.decValue.toNat) ∧ reads 0x21 (·.toNat = s.decRange.toNat) ∧
    reads 0x22 (·.toInt = s.decBitsNeeded.toInt) ∧
    reads 0x30 (·.toNat = s.wrPos.toNat) ∧ reads 0x31 (·.toNat = s.rdPos.toNat) ∧
    reads 0x32 (·.toNat = s.bbCap.toNat) ∧ reads 0x33 (·.toNat = s.subEnd.toNat) ∧
    reads 0x34 (·.toNat = s.wrPos.toNat / 32) ∧ reads 0x35 (·.toNat = 32 - s.wrPos.toNat % 32) ∧
    reads 0x36 (·.toNat = s.rdPos.toNat / 32) ∧ reads 0x37 (·.toNat = 32 - s.rdPos.toNat % 32)) ∧
  (∀ (s : State) (n : Byte),
    n ∉ [0x00, 0x01, 0x02, 0x04, 0x05, 0x06, 0x07, 0x10, 0x11, 0x12, 0x13, 0x14, 0x20, 0x21, 0x22, 0x30, 0x31, 0x32,
      0x33, 0x34, 0x35, 0x36, 0x37] → raises (.sysRdreg n) s .index) ∧
  ∀ s t : State, step s = .next t → t.cfg = s.cfg

/-! Contexts (40_context.md). -/

/-- 40_context.md R121: CTX_INIT writes one cell from qp, slope and offset, in exact integers with a floor shift; qp is
checked before the index; the cell is (0, 0) or has a state in 36..63. -/
def Obligations.CtxInit : Prop :=
  ∀ (s : State) (ctx qp : Byte) (slope offset : BitVec 16),
    let pre : Int := min (max (slope.toInt * qp.toNat / 256 + offset.toInt) 8) 63
    let writes : CtxCell → Prop := fun cell =>
      exec (.ctxInit ctx qp slope offset) s =
        .next { s with ctx := s.ctx.set ctx.toNat cell, rsp := some ⟨none, 0⟩ }
    if s.cfg.qpMax < qp.toNat then raises (.ctxInit ctx qp slope offset) s .param
    else if s.cfg.nctx ≤ ctx.toNat then raises (.ctxInit ctx qp slope offset) s .index
    else if slope = 0 ∧ offset = 0 then writes ⟨0, false⟩
    else ∃ st : BitVec 6, 36 ≤ st.toNat ∧
      if 36 ≤ pre then (st.toNat : Int) = pre ∧ writes ⟨st, true⟩ else (st.toNat : Int) = 71 - pre ∧ writes ⟨st, false⟩

/-- 40_context.md R122 and R123: CTX_SET writes any of the 128 values to one cell and nothing else; CTX_GET returns
(mps << 6) | state and changes nothing; an index at or above NCTX raises ERR_INDEX. -/
def Obligations.CtxSetAndGet : Prop :=
  (∀ (s : State) (ctx : Byte) (st : BitVec 6) (mps : Bool),
    if s.cfg.nctx ≤ ctx.toNat then raises (.ctxSet ctx st mps) s .index
    else exec (.ctxSet ctx st mps) s =
      .next { s with ctx := s.ctx.set ctx.toNat ⟨st, mps⟩, rsp := some ⟨none, 0⟩ }) ∧
  ∀ (s : State) (ctx : Byte), s.Formed →
    if s.cfg.nctx ≤ ctx.toNat then raises (.ctxGet ctx) s .index
    else ∃ cell v, s.ctx[ctx.toNat]? = some cell ∧ v.toNat = 64 * cell.mps.toNat + cell.state.toNat ∧
      exec (.ctxGet ctx) s = .next { s with rsp := some ⟨none, v⟩ }

/-- 40_context.md R124 and R125, the adaptation step of both engines: after a context bin that completes, the cell used is
(TRANS_MPS[state], mps) if the bin equals mps, else (TRANS_LPS[state], mps) with mps flipped when the state before was
0; every other cell is as before. -/
def Obligations.ContextAdaptation : Prop :=
  ∀ (s t : State) (ctx : Byte) (bin : Bool) (cell : CtxCell), s.Live → s.ctx[ctx.toNat]? = some cell →
    t.fault = none →
    ((exec (.encBin ctx bin) s = .next t) ∨
      (exec (.decBin ctx) s = .next t ∧ t.rsp = some ⟨none, if bin then 1 else 0⟩)) →
    (∀ j, j ≠ ctx.toNat → t.ctx[j]? = s.ctx[j]?) ∧
    ∃ next : CtxCell, t.ctx[ctx.toNat]? = some next ∧
      (bin = cell.mps → s.cfg.transMps[cell.state.toNat]? = some next.state ∧ next.mps = cell.mps) ∧
      (bin ≠ cell.mps → s.cfg.transLps[cell.state.toNat]? = some next.state ∧
        next.mps = if cell.state = 0 then !cell.mps else cell.mps)

/-- 10_state.md R22: the bypass and terminate bins and every RAW or EP path command, and every other command that is not
one of the context family, the context bins or the truncated unary codes on the CTX path, neither read nor write any
cell: run from two states that differ in the cells alone, they answer alike, and the cells are as they were. (After a
fault the cells are unspecified, and the answers are one and the same.) -/
def Obligations.ContextIsolation : Prop :=
  ∀ (s t : State) (i : Instr) (cells : List CtxCell),
    (contextFree i = true ∨ (∃ ctx max spanm1 sym, i = .seWrTu ctx max .ep spanm1 sym) ∨
      (∃ ctx max spanm1, i = .seRdTu ctx max .ep spanm1)) →
    s.fault = none → exec i s = .next t →
    if t.fault = none then t.ctx = s.ctx ∧ exec i { s with ctx := cells } = .next { t with ctx := cells }
    else exec i { s with ctx := cells } = .next t

/-! The encoder (41_encoder.md). -/

/-- 41_encoder.md R141: NumRenorm(r) is the smallest n with (r << n) >= 256, with the values the rule lists. -/
def Obligations.NumRenorm : Prop :=
  ∀ r, 1 ≤ r → r ≤ 255 →
    (256 ≤ r * 2 ^ numRenorm r ∧ ∀ n, 256 ≤ r * 2 ^ n → numRenorm r ≤ n) ∧
    numRenorm r = if 128 ≤ r then 1 else if 64 ≤ r then 2 else if 32 ≤ r then 3 else if 16 ≤ r then 4
      else if 8 ≤ r then 5 else if 4 ≤ r then 6 else if 2 ≤ r then 7 else 8

/-- 41_encoder.md R143: ENC_START is refused while the encoder is CODING and at an unaligned write cursor; else it sets
the encoder's registers and flags and nothing else. -/
def Obligations.EncStart : Prop :=
  ∀ s : State,
    if s.encState = .coding ∨ s.wrPos.toNat % 8 ≠ 0 then raises .encStart s .state
    else exec .encStart s = .next { s with
      encLow := 0, encRange := 510, encBitsLeft := 23, encNumBuf := 0, encBufByte := 0xFF, encTrm := false
      encState := .coding, rsp := some ⟨none, 0⟩ }

/-- 41_encoder.md R144: ENC_BIN narrows the interval to the part its bin selects, renormalises it, adapts the cell and
writes out what is complete; only the encoder's registers, that cell, the bit buffer's written end and the response
change. ERR_INDEX is checked before ERR_STATE; a write-out that fails answers with its fault. -/
def Obligations.EncBin : Prop :=
  ∀ (s : State) (ctx : Byte) (bin : Bool), s.Live →
    if s.cfg.nctx ≤ ctx.toNat then raises (.encBin ctx bin) s .index
    else if ¬ s.Encoding then raises (.encBin ctx bin) s .state
    else ∃ cell, s.ctx[ctx.toNat]? = some cell ∧
      let mpsBin := bin == cell.mps
      let lps := lpsWidth s.cfg cell.state s.encRange.toNat
      let n := binShift lps s.encRange.toNat mpsBin
      let low := (s.encLow.toNat + if mpsBin then 0 else s.encRange.toNat - lps) * 2 ^ n
      let left := s.encBitsLeft.toNat - n
      match s.outFault low left with
      | some c => raises (.encBin ctx bin) s c
      | none => ∃ t, exec (.encBin ctx bin) s = .next t ∧ s.EncoderCtxFrame t ∧ t.encTrm = false ∧
        t.ctx = s.ctx.set ctx.toNat (adapted s.cfg cell mpsBin) ∧
        t.encRange.toNat = binWidth lps s.encRange.toNat mpsBin * 2 ^ n ∧ s.WroteOut low left t

/-- 41_encoder.md R145: ENC_BIN_EP doubles ENC_LOW, adds ENC_RANGE for a 1, and writes out what is complete; ENC_RANGE,
the contexts and everything but the encoder's registers and the bit buffer's written end stay. -/
def Obligations.EncBinEp : Prop :=
  ∀ (s : State) (bin : Bool), s.Live →
    if ¬ s.Encoding then raises (.encBinEp bin) s .state
    else
      let low := 2 * s.encLow.toNat + if bin then s.encRange.toNat else 0
      let left := s.encBitsLeft.toNat - 1
      match s.outFault low left with
      | some c => raises (.encBinEp bin) s c
      | none => ∃ t, exec (.encBinEp bin) s = .next t ∧ s.EncoderFrame t ∧ t.encTrm = false ∧
        t.encRange = s.encRange ∧ s.WroteOut low left t

/-- 41_encoder.md R146: ENC_BIN_TRM takes the upper sub-interval of width 2 for a 1, shifted by 7, and sets ENC_TRM with
the encoder still CODING; for a 0 it takes the rest, doubled only below 256. No context is touched. -/
def Obligations.EncBinTrm : Prop :=
  ∀ (s : State) (bin : Bool), s.Live →
    if ¬ s.Encoding then raises (.encBinTrm bin) s .state
    else
      let range := s.encRange.toNat - 2
      let n := if bin then 7 else if 256 ≤ range then 0 else 1
      let low := (s.encLow.toNat + if bin then range else 0) * 2 ^ n
      let left := s.encBitsLeft.toNat - n
      match s.outFault low left with
      | some c => raises (.encBinTrm bin) s c
      | none => ∃ t, exec (.encBinTrm bin) s = .next t ∧ s.EncoderFrame t ∧ t.encTrm = bin ∧
        t.encRange.toNat = (if bin then 2 else range) * 2 ^ n ∧ s.WroteOut low left t

/-- 41_encoder.md R147: ENC_FINISH appends the held bytes with a pending carry added in, the bits of ENC_LOW above bit 7,
the stop bit and the zeros to the byte boundary; the encoder is then TERMINATED, ENC_NUMBUF and ENC_TRM are 0, ENC_LOW
has lost its carry, and everything else of the core stays. -/
def Obligations.EncFinish : Prop :=
  ∀ s : State, s.Live →
    if ¬ (s.encState = .coding ∧ s.encTrm = true) then raises .encFinish s .state
    else
      let left := 24 - s.encBitsLeft.toNat
      let held := s.encNumBuf.toNat
      let heldValue := if held = 0 then 0 else s.encBufByte.toNat * 256 ^ (held - 1) + (256 ^ (held - 1) - 1)
      let pad := (8 - (left + 1) % 8) % 8
      let value := ((heldValue * 2 ^ left + s.encLow.toNat / 2 ^ 8) * 2 + 1) * 2 ^ pad
      if s.Room (8 * held + left + 1 + pad) then
        ∃ t, exec .encFinish s = .next t ∧ t.wrPos.toNat % 8 = 0 ∧
          State.Appended { s with
            encLow := BitVec.ofNat 32 (s.encLow.toNat % 2 ^ (32 - s.encBitsLeft.toNat)), encNumBuf := 0
            encTrm := false, encState := .terminated } (8 * held + left + 1 + pad) value t
      else raises .encFinish s s.outCause

/-- 41_encoder.md R148: carry propagation. Whenever a segment is encoded in real mode without a fault, the bytes in the
store are those of a coder with unbounded-precision `low`: its arithmetic bits, the stop bit, zeros to the byte
boundary, whatever carries ran through whatever runs of held 0xFF bytes. -/
def Obligations.CarryPropagation : Prop :=
  ∀ (s t : State) (bins : List Bin) (ds : List Word), s.Live → s.count = false →
    runData (encodeSegment bins) s = some (ds, t) →
    let d := bins.foldl (Ideal.code s.cfg) (Ideal.start s.ctx)
    let pad := (8 - (d.length + 1) % 8) % 8
    t.wrPos.toNat = s.wrPos.toNat + d.length + 1 + pad ∧ t.wrPos.toNat % 8 = 0 ∧
    t.store.readBits s.wrPos.toNat (d.length + 1 + pad) = (d.bits * 2 + 1) * 2 ^ pad ∧
    (∀ p < s.wrPos.toNat, t.store.bit p = s.store.bit p) ∧ t.ctx = d.ctx

/-! The decoder (42_decoder.md). -/

/-- 42_decoder.md R172: DEC_START checks the engine, the mode and the alignment, then that 16 bits are there, then that
they are below 510 x 2^7, that is, that the first byte is not 0xFF; it takes them as DEC_VALUE and sets the decoder's
registers and state and the read cursor, nothing else. -/
def Obligations.DecStart : Prop :=
  ∀ s : State, s.Live →
    let value := s.store.readBits s.rdPos.toNat 16
    if s.decState = .coding ∨ s.count = true ∨ s.rdPos.toNat % 8 ≠ 0 then raises .decStart s .state
    else if ¬ s.Avail 16 then raises .decStart s .exhausted
    else if 510 * 2 ^ 7 ≤ value then s.store.readBits s.rdPos.toNat 8 = 0xFF ∧ raises .decStart s .pattern
    else s.store.readBits s.rdPos.toNat 8 ≠ 0xFF ∧ exec .decStart s = .next { s with
      decRange := 510, decBitsNeeded := -8, decValue := BitVec.ofNat 17 value, decState := .coding
      rdPos := BitVec.ofNat 32 (s.rdPos.toNat + 16), rsp := some ⟨none, 0⟩ }

/-- 42_decoder.md R173: DEC_BIN returns mps if DEC_VALUE lies in the lower sub-interval and the other bit if not,
narrows and renormalises the interval as the encoder does, fetches a byte when DEC_BITSNEEDED reaches 0 and adapts the
cell; only the decoder's registers, that cell, the read cursor and the response change. When a byte is needed and none
is left it answers ERR_EXHAUSTED. ERR_INDEX is checked before ERR_STATE. -/
def Obligations.DecBin : Prop :=
  ∀ (s : State) (ctx : Byte), s.Live →
    if s.cfg.nctx ≤ ctx.toNat then raises (.decBin ctx) s .index
    else if s.decState ≠ .coding then raises (.decBin ctx) s .state
    else ∃ cell, s.ctx[ctx.toNat]? = some cell ∧
      let lps := lpsWidth s.cfg cell.state s.decRange.toNat
      let scaled := (s.decRange.toNat - lps) * 2 ^ 7
      let mpsBin := decide (s.decValue.toNat < scaled)
      let n := binShift lps s.decRange.toNat mpsBin
      if 0 ≤ s.decBitsNeeded.toInt + n ∧ ¬ s.Avail 8 then raises (.decBin ctx) s .exhausted
      else ∃ t, exec (.decBin ctx) s = .next t ∧
        s.DecoderCtxFrame t (if mpsBin = cell.mps then 1 else 0) ∧ t.decState = .coding ∧
        t.ctx = s.ctx.set ctx.toNat (adapted s.cfg cell mpsBin) ∧
        t.decRange.toNat = binWidth lps s.decRange.toNat mpsBin * 2 ^ n ∧
        s.Refilled (s.decValue.toNat - if mpsBin then 0 else scaled) n t

/-- 42_decoder.md R174: DEC_BIN_EP doubles DEC_VALUE, fetches a byte when DEC_BITSNEEDED reaches 0, compares with the
scaled range and returns the bin; DEC_RANGE, the contexts and everything else stay. -/
def Obligations.DecBinEp : Prop :=
  ∀ s : State, s.Live →
    let fetch := decide (s.decBitsNeeded.toInt = -1)
    let value := 2 * s.decValue.toNat + if fetch then s.nextByte else 0
    let scaled := s.decRange.toNat * 2 ^ 7
    if s.decState ≠ .coding then raises .decBinEp s .state
    else if fetch = true ∧ ¬ s.Avail 8 then raises .decBinEp s .exhausted
    else exec .decBinEp s = .next { s with
      decValue := BitVec.ofNat 17 (if scaled ≤ value then value - scaled else value)
      decBitsNeeded := BitVec.ofInt 5 (if fetch then -8 else s.decBitsNeeded.toInt + 1)
      rdPos := BitVec.ofNat 32 (s.rdPos.toNat + if fetch then 8 else 0)
      rsp := some ⟨none, if scaled ≤ value then 1 else 0⟩ }

/-- 42_decoder.md R175: DEC_BIN_TRM takes 2 off the range. If DEC_VALUE lies in the upper sub-interval the bin is 1: the
last byte fetched must hold the stop bit and zeros behind the bits used, else ERR_PATTERN; the decoder is then
TERMINATED and the read cursor stays. Else the bin is 0, with one doubling below 256. No context is touched. -/
def Obligations.DecBinTrm : Prop :=
  ∀ s : State, s.Live →
    let range := s.decRange.toNat - 2
    let last := s.store.readBits (s.rdPos.toNat - 8) 8
    let k := (8 + s.decBitsNeeded.toInt).toNat
    let n := if range < 256 then 1 else 0
    if s.decState ≠ .coding then raises .decBinTrm s .state
    else if range * 2 ^ 7 ≤ s.decValue.toNat then
      if last * 2 ^ k % 256 ≠ 0x80 then raises .decBinTrm s .pattern
      else exec .decBinTrm s = .next { s with
        decRange := BitVec.ofNat 9 range, decState := .terminated, rsp := some ⟨none, 1⟩ }
    else if 0 ≤ s.decBitsNeeded.toInt + (n : Nat) ∧ ¬ s.Avail 8 then raises .decBinTrm s .exhausted
    else ∃ t, exec .decBinTrm s = .next t ∧ s.DecoderFrame t 0 ∧ t.decState = .coding ∧
      t.decRange.toNat = range * 2 ^ n ∧ s.Refilled s.decValue.toNat n t

/-- 42_decoder.md R176, the inverse law: after a segment is encoded in real mode without a fault, decoding from the
position where it starts with the contexts the encoder started from raises no fault, returns every bin and finally 1,
leaves every context as the encoder left it, and leaves the read cursor at the end of the segment. -/
def Obligations.InverseLaw : Prop :=
  ∀ (s t : State) (bins : List Bin) (ds : List Word), s.Live → s.count = false → s.subActive = false →
    s.decState ≠ .coding → runData (encodeSegment bins) s = some (ds, t) →
    ∃ u, runData (decodeSegment bins) { t with ctx := s.ctx, rdPos := s.wrPos } =
        some (0 :: bins.map (fun b => if b.value then 1 else 0) ++ [1], u) ∧
      u.ctx = t.ctx ∧ u.rdPos = t.wrPos ∧ u.decState = .terminated

/-! The bit buffer (20_memory.md, 43_bitbuffer.md). -/

/-- 20_memory.md R60 and R61: bit address p is bit 31 - (p mod 32) of word p div 32, and byte k of the bitstream, its bit
7 at bit address 8k, is bits 31 - 8(k mod 4) down to 24 - 8(k mod 4) of word k div 4. -/
def Obligations.StoreOrder : Prop :=
  ∀ m : Memory,
    (∀ p, m.bit p = (m.word (p / 32)).getLsbD (31 - p % 32)) ∧
    ∀ k, m.read k = (m.word (k / 4)).extractLsb' (24 - 8 * (k % 4)) 8 ∧
      ∀ j < 8, m.bit (8 * k + j) = (m.read k).getLsbD (7 - j)

/-- 43_bitbuffer.md R190 and R194: BB_INIT and BB_RESET_BITS are refused while an engine is CODING; both empty the buffer
and discard an open window; BB_INIT also chooses the sink and returns the capacity to CAP0; the store's words, the
engines and the contexts stay. -/
def Obligations.EmptyingTheBuffer : Prop :=
  ∀ s : State, s.cfg.legal = true →
    (∀ count : Bool,
      if s.encState = .coding ∨ s.decState = .coding then raises (.bbInit count) s .state
      else exec (.bbInit count) s = .next { s with
        count := count, bbCap := BitVec.ofNat 32 s.cfg.cap0, wrPos := 0, rdPos := 0, subActive := false, subEnd := 0
        rsp := some ⟨none, 0⟩ }) ∧
    if s.encState = .coding ∨ s.decState = .coding then raises .bbResetBits s .state
    else exec .bbResetBits s = .next { s with
      wrPos := 0, rdPos := 0, subActive := false, subEnd := 0, rsp := some ⟨none, 0⟩ }

/-- 43_bitbuffer.md R191 with 20_memory.md R64, R66, R67: BB_WRITE appends the n low bits of D, most significant first;
n > 32 raises ERR_PARAM before ERR_STATE; ERR_OVERFLOW before ERR_RESOURCE when there is no room; growth doubles the
capacity as far as needed and keeps every bit. -/
def Obligations.BbWrite : Prop :=
  ∀ (s : State) (n : Byte) (bits : Word), s.Live →
    if 32 < n.toNat then raises (.bbWrite n bits) s .param
    else if s.encState = .coding then raises (.bbWrite n bits) s .state
    else if 2 ^ 32 ≤ s.wrPos.toNat + n.toNat then raises (.bbWrite n bits) s .overflow
    else if s.count = false ∧ 32 * s.cfg.capMax < s.wrPos.toNat + n.toNat then raises (.bbWrite n bits) s .resource
    else ∃ t, exec (.bbWrite n bits) s = .next t ∧ s.Appended n.toNat (bits.toNat % 2 ^ n.toNat) t

/-- 43_bitbuffer.md R192 with 20_memory.md R63, R68, R69: BB_READ takes n bits at the read cursor, first bit most
significant; n > 32 raises ERR_PARAM, a coding decoder or counting mode ERR_STATE, and too few bits before the read
limit ERR_EXHAUSTED; nothing but the read cursor changes. -/
def Obligations.BbRead : Prop :=
  ∀ (s : State) (n : Byte), s.Live →
    if 32 < n.toNat then raises (.bbRead n) s .param
    else if s.decState = .coding ∨ s.count = true then raises (.bbRead n) s .state
    else if (if s.subActive then s.subEnd.toNat else s.wrPos.toNat) < s.rdPos.toNat + n.toNat then
      raises (.bbRead n) s .exhausted
    else exec (.bbRead n) s = .next { s with
      rdPos := BitVec.ofNat 32 (s.rdPos.toNat + n.toNat)
      rsp := some ⟨none, BitVec.ofNat 32 (s.store.readBits s.rdPos.toNat n.toNat)⟩ }

/-- 43_bitbuffer.md R193, R195 and R196: BB_GET_WRITTEN returns BB_WR_POS and changes nothing; BB_RD_SEEK moves the read
cursor to any position up to BB_WR_POS; BB_GET_BYTE returns a whole written byte, in every engine state, whatever the
window, and changes nothing. -/
def Obligations.CursorsAndPeeks : Prop :=
  (∀ s : State, exec .bbGetWritten s = .next { s with rsp := some ⟨none, s.wrPos⟩ }) ∧
  (∀ (s : State) (pos : Word),
    if s.decState = .coding ∨ s.count = true ∨ s.subActive = true then raises (.bbRdSeek pos) s .state
    else if s.wrPos.toNat < pos.toNat then raises (.bbRdSeek pos) s .index
    else exec (.bbRdSeek pos) s = .next { s with rdPos := pos, rsp := some ⟨none, 0⟩ }) ∧
  ∀ (s : State) (index : Word),
    if s.count = true then raises (.bbGetByte index) s .state
    else if s.wrPos.toNat < 8 * (index.toNat + 1) then raises (.bbGetByte index) s .index
    else exec (.bbGetByte index) s = .next { s with rsp := some ⟨none, (s.store.read index.toNat).setWidth 32⟩ }

/-- 43_bitbuffer.md R197 and R198: BB_SUB_OPEN bounds reads by the end of the next nbytes bytes, from an aligned read
cursor, if that many bytes are written; BB_SUB_CLOSE puts the read cursor at that end and BB_SUB_END keeps its value
(R198's words; 10_state.md R42 says otherwise: log entry 8). -/
def Obligations.SubStreamWindow : Prop :=
  (∀ (s : State) (nbytes : Word),
    if s.decState = .coding ∨ s.count = true ∨ s.subActive = true ∨ s.rdPos.toNat % 8 ≠ 0 then
      raises (.bbSubOpen nbytes) s .state
    else if s.wrPos.toNat < s.rdPos.toNat + 8 * nbytes.toNat then raises (.bbSubOpen nbytes) s .exhausted
    else exec (.bbSubOpen nbytes) s = .next { s with
      subEnd := BitVec.ofNat 32 (s.rdPos.toNat + 8 * nbytes.toNat), subActive := true, rsp := some ⟨none, 0⟩ }) ∧
  ∀ s : State,
    if s.decState = .coding ∨ s.subActive = false then raises .bbSubClose s .state
    else exec .bbSubClose s = .next { s with rdPos := s.subEnd, subActive := false, rsp := some ⟨none, 0⟩ }

/-- 43_bitbuffer.md R199: after BB_INIT and any BB_WRITE commands that fit, and BB_RD_SEEK pos=0, any partition of the bits
into BB_READ commands returns the corresponding substrings of the one bit string; the partition of the writes returns
each value & (2^n - 1); and the cursors end at the total. -/
def Obligations.WriteThenRead : Prop :=
  ∀ (s : State) (writes : List (Byte × Word)) (reads : List Byte), s.Live → s.encState ≠ .coding →
    s.decState ≠ .coding → (∀ p ∈ writes, p.1.toNat ≤ 32) → (∀ n ∈ reads, n.toNat ≤ 32) →
    let written := writes.map fun p => (p.1.toNat, p.2.toNat % 2 ^ p.1.toNat)
    let total := (written.map (·.1)).sum
    (reads.map (·.toNat)).sum = total → total ≤ 32 * s.cfg.capMax → total < 2 ^ 32 →
    ∃ (ds : List Word) (t : State),
      runData (.bbInit false :: writes.map (fun p => .bbWrite p.1 p.2) ++ .bbRdSeek 0 :: reads.map .bbRead) s =
        some (0 :: writes.map (fun _ => 0) ++ 0 :: ds, t) ∧
      ds.length = reads.length ∧ (∀ nd ∈ reads.zip ds, nd.2.toNat < 2 ^ nd.1.toNat) ∧
      concat ((reads.map (·.toNat)).zip (ds.map (·.toNat))) = concat written ∧
      (reads = writes.map (·.1) → ds.map (·.toNat) = written.map (·.2)) ∧
      t.rdPos.toNat = total ∧ t.wrPos.toNat = total

/-- 43_bitbuffer.md R200 (00_scope.md R15): a sequence of commands with no read command that raises no fault in real mode
raises none in counting mode and gives the same BB_WR_POS after every command (the statement holds of every prefix). -/
def Obligations.CountingEqualsReal : Prop :=
  ∀ (s t : State) (commands : List Instr) (ds : List Word), s.Live →
    (∀ i ∈ commands, readsStore i = false) → runData (.bbInit false :: commands) s = some (ds, t) →
    ∃ ds' t', runData (.bbInit true :: commands) s = some (ds', t') ∧ t'.wrPos = t.wrPos

/-- 43_bitbuffer.md R201: growth is invisible. From two states that differ in BB_CAP alone, every command but SYS_RDREG of
BB_CAP answers alike, the two next states again differing in BB_CAP alone; and a command that grows the capacity keeps
every bit below BB_WR_POS. -/
def Obligations.GrowthInvisible : Prop :=
  (∀ (s t : State) (cap : Word) (i : Instr), s.Live → State.Live { s with bbCap := cap } → i ≠ .sysRdreg 0x32 →
    exec i s = .next t → ∃ cap', exec i { s with bbCap := cap } = .next { t with bbCap := cap' }) ∧
  ∀ (s t : State) (i : Instr), s.Live → exec i s = .next t → t.fault = none → s.bbCap.toNat < t.bbCap.toNat →
    s.wrPos.toNat ≤ t.wrPos.toNat ∧ ∀ p < s.wrPos.toNat, t.store.bit p = s.store.bit p

/-- 20_memory.md R65: writes are append-only. A command that completes, other than those that empty the buffer, never
moves BB_WR_POS back and never changes a bit below it. -/
def Obligations.AppendOnly : Prop :=
  ∀ (s t : State) (i : Instr), s.Live → empties i = false → exec i s = .next t → t.fault = none →
    s.wrPos.toNat ≤ t.wrPos.toNat ∧ ∀ p < s.wrPos.toNat, t.store.bit p = s.store.bit p

/-! The syntax layer (44_syntax.md). -/

/-- 44_syntax.md R224: SE_WR_FLC puts out the n low bits of D, most significant first, on the RAW or EP path. -/
def Obligations.SeWrFlc : Prop :=
  ∀ (s : State) (n : Byte) (path : Path) (value : Word), s.Live → path ≠ .ctx →
    if 32 < n.toNat then raises (.seWrFlc n path value) s .param
    else WritesCode (.seWrFlc n path value) path n.toNat (value.toNat % 2 ^ n.toNat) s

/-- 44_syntax.md R225: SE_WR_UVLC puts out v + 1 in 2L + 1 bits, L = floor(log2(v + 1)); 2^32 - 1 raises ERR_PARAM. -/
def Obligations.SeWrUvlc : Prop :=
  ∀ (s : State) (path : Path) (value : Word), s.Live → path ≠ .ctx →
    if value = 0xFFFFFFFF then raises (.seWrUvlc path value) s .param
    else ∃ l, 2 ^ l ≤ value.toNat + 1 ∧ value.toNat + 1 < 2 ^ (l + 1) ∧
      WritesCode (.seWrUvlc path value) path (2 * l + 1) (value.toNat + 1) s

/-- 44_syntax.md R226: SE_WR_SVLC puts out the unsigned code of -2v for v <= 0 and of 2v - 1 for v > 0; -2^31 raises
ERR_PARAM. -/
def Obligations.SeWrSvlc : Prop :=
  ∀ (s : State) (path : Path) (value : Word), s.Live → path ≠ .ctx →
    if value = 0x80000000 then raises (.seWrSvlc path value) s .param
    else ∃ c l : Nat, (c : Int) = (if value.toInt ≤ 0 then -2 * value.toInt else 2 * value.toInt - 1) ∧
      2 ^ l ≤ c + 1 ∧ c + 1 < 2 ^ (l + 1) ∧ WritesCode (.seWrSvlc path value) path (2 * l + 1) (c + 1) s

/-- 44_syntax.md R227: SE_WR_TU codes sym ones and, unless sym = max, a zero; on the CTX path bin number k uses context
ctx + min(k, span - 1). The checks come in the order ERR_PARAM, ERR_INDEX, ERR_STATE. -/
def Obligations.SeWrTu : Prop :=
  ∀ (s : State) (ctx max : Byte) (path : Path) (spanm1 : BitVec 6) (sym : Byte), s.Live →
    (path = .ep ∧ ctx = 0 ∧ spanm1 = 0 ∨ path = .ctx) →
    if max.toNat < sym.toNat then raises (.seWrTu ctx max path spanm1 sym) s .param
    else if path = .ctx ∧ s.cfg.nctx ≤ ctx.toNat + spanm1.toNat then raises (.seWrTu ctx max path spanm1 sym) s .index
    else if ¬ s.Encoding then raises (.seWrTu ctx max path spanm1 sym) s .state
    else CodesAs (.seWrTu ctx max path spanm1 sym)
      (tuWrites path ctx spanm1 (List.replicate sym.toNat true ++ if sym = max then [] else [false])) s

/-- 44_syntax.md R228: SE_WR_TRAIL appends a one and zeros to the next byte boundary, 1 to 8 bits. -/
def Obligations.SeWrTrail : Prop :=
  ∀ s : State, s.Live → WritesCode .seWrTrail .raw (8 - s.wrPos.toNat % 8) (2 ^ (7 - s.wrPos.toNat % 8)) s

/-- 44_syntax.md R229: SE_WR_FF8 appends value div 255 bytes 0xFF and the byte value mod 255. -/
def Obligations.SeWrFf8 : Prop :=
  ∀ (s : State) (value : Word), s.Live →
    let q := value.toNat / 255
    WritesCode (.seWrFf8 value) .raw (8 * (q + 1)) ((256 ^ q - 1) * 256 + value.toNat % 255) s

/-- 44_syntax.md R234: SE_RD_FLC takes n bits on the RAW or EP path, first bit most significant. -/
def Obligations.SeRdFlc : Prop :=
  ∀ (s : State) (n : Byte) (path : Path), s.Live → path ≠ .ctx →
    if 32 < n.toNat then raises (.seRdFlc n path) s .param
    else if s.canRead path = false then raises (.seRdFlc n path) s .state
    else (s.Avail (8 * n.toNat) → ∃ r, takeBits path n.toNat s = some r) ∧
      match takeBits path n.toNat s with
      | some r => returns (.seRdFlc n path) s (BitVec.ofNat 32 r.1) r.2
      | none => raises (.seRdFlc n path) s .exhausted

/-- 44_syntax.md R235: SE_RD_UVLC takes an Exp-Golomb code on the RAW or EP path and returns its value. -/
def Obligations.SeRdUvlc : Prop :=
  ∀ (s : State) (path : Path), s.Live → path ≠ .ctx →
    if s.canRead path = false then raises (.seRdUvlc path) s .state
    else (s.Avail (8 * 63) → ∃ r, takeBits path 63 s = some r) ∧ ReadsCode (.seRdUvlc path) path (BitVec.ofNat 32) s

/-- 44_syntax.md R236: SE_RD_SVLC takes the same code and returns (c + 1) >> 1 for odd c and -(c >> 1) for even c, in 32
bits. -/
def Obligations.SeRdSvlc : Prop :=
  ∀ (s : State) (path : Path), s.Live → path ≠ .ctx →
    if s.canRead path = false then raises (.seRdSvlc path) s .state
    else ReadsCode (.seRdSvlc path) path
      (fun c => BitVec.ofInt 32 (if c % 2 = 1 then ((c + 1) / 2 : Nat) else -((c / 2 : Nat) : Int))) s

/-- 44_syntax.md R237: SE_RD_TU takes ones until a zero or until there are max of them and returns their number; the bins
are those of R227. ERR_INDEX before ERR_STATE; ERR_EXHAUSTED when a bin needs a byte that is not there. -/
def Obligations.SeRdTu : Prop :=
  ∀ (s : State) (ctx max : Byte) (path : Path) (spanm1 : BitVec 6), s.Live →
    (path = .ep ∧ ctx = 0 ∧ spanm1 = 0 ∨ path = .ctx) →
    if path = .ctx ∧ s.cfg.nctx ≤ ctx.toNat + spanm1.toNat then raises (.seRdTu ctx max path spanm1) s .index
    else if s.decState ≠ .coding then raises (.seRdTu ctx max path spanm1) s .state
    else
      (s.Avail (8 * max.toNat) → ∃ r, runData (tuReads path ctx spanm1 max.toNat) s = some r) ∧
      (∀ k < max.toNat, ∀ t, runData (tuReads path ctx spanm1 (k + 1)) s = some (List.replicate k 1 ++ [0], t) →
        returns (.seRdTu ctx max path spanm1) s (BitVec.ofNat 32 k) t) ∧
      (∀ t, runData (tuReads path ctx spanm1 max.toNat) s = some (List.replicate max.toNat 1, t) →
        returns (.seRdTu ctx max path spanm1) s (BitVec.ofNat 32 max.toNat) t) ∧
      ∀ k < max.toNat, ∀ t, runData (tuReads path ctx spanm1 k) s = some (List.replicate k 1, t) →
        runData (tuReads path ctx spanm1 (k + 1)) s = none → raises (.seRdTu ctx max path spanm1) s .exhausted

/-- 44_syntax.md R238: SE_RD_TRAIL takes the bits to the next byte boundary, 1 to 8, which must be a one and zeros;
ERR_PATTERN at the first bit that differs, ERR_EXHAUSTED if the bits run out before. -/
def Obligations.SeRdTrail : Prop :=
  ∀ s : State, s.Live →
    let n := 8 - s.rdPos.toNat % 8
    let m := min n (s.rdLimit - s.rdPos.toNat)
    let bits := s.store.readBits s.rdPos.toNat m
    if s.canRead .raw = false then raises .seRdTrail s .state
    else if 0 < m ∧ bits ≠ 2 ^ (m - 1) then raises .seRdTrail s .pattern
    else if m < n then raises .seRdTrail s .exhausted
    else exec .seRdTrail s = .next { s with
      rdPos := BitVec.ofNat 32 (s.rdPos.toNat + n), rsp := some ⟨none, 0⟩ }

/-- 44_syntax.md R239: SE_RD_FF8 takes q bytes 0xFF and a byte r below 0xFF and returns 255q + r; a sum of 2^32 or more
raises ERR_PATTERN at the byte that reaches it, and ERR_EXHAUSTED comes where the bytes run out. -/
def Obligations.SeRdFf8 : Prop :=
  ∀ (s : State) (q : Nat), s.Live →
    if s.canRead .raw = false then raises .seRdFf8 s .state
    else s.Avail (8 * q) → s.store.readBits s.rdPos.toNat (8 * q) = 256 ^ q - 1 → 255 * q < 2 ^ 32 →
      let byte := s.store.readBits (s.rdPos.toNat + 8 * q) 8
      if ¬ s.Avail (8 * (q + 1)) then raises .seRdFf8 s .exhausted
      else if 2 ^ 32 ≤ 255 * q + byte then raises .seRdFf8 s .pattern
      else byte = 0xFF ∨ exec .seRdFf8 s = .next { s with
        rdPos := BitVec.ofNat 32 (s.rdPos.toNat + 8 * (q + 1))
        rsp := some ⟨none, BitVec.ofNat 32 (255 * q + byte)⟩ }

/-- 44_syntax.md R240 on the RAW path: from a read cursor that stands at the write cursor, in real mode with no window and
no engine coding, every value that a write command completes with is what the matching read command then returns, and
it takes exactly the bits the write moved. -/
def Obligations.SyntaxRoundTrip : Prop :=
  ∀ (s t : State) (n : Byte) (value : Word), s.Live → s.count = false → s.subActive = false →
    s.encState ≠ .coding → s.decState ≠ .coding → s.rdPos = s.wrPos →
    let back : Instr → Instr → Word → Prop := fun write read data =>
      exec write s = .next t → t.fault = none → returns read t data { t with rdPos := t.wrPos }
    back (.seWrFlc n .raw value) (.seRdFlc n .raw) (BitVec.ofNat 32 (value.toNat % 2 ^ n.toNat)) ∧
    back (.seWrUvlc .raw value) (.seRdUvlc .raw) value ∧ back (.seWrSvlc .raw value) (.seRdSvlc .raw) value ∧
    back .seWrTrail .seRdTrail 0 ∧ back (.seWrFf8 value) .seRdFf8 value

/-! The invariant of the machine. -/

/-- The machine right after reset meets the invariant. -/
def Obligations.InvariantAtReset : Prop := State.reset.Inv

/-- Every step keeps the invariant: the ranges of the encoder's and decoder's registers (10_state.md R28 to R30, R34 to
R36, 41_encoder.md R140, 42_decoder.md R170), the order of the cursors, the window and the capacity (10_state.md R39,
R40, R42), the number of cells, the parameters and the canonical form of the store. -/
def Obligations.StepKeepsInvariant : Prop :=
  ∀ s t : State, s.Inv → step s = .next t → t.Inv

/-- The model never stops between legal states: every step from a state that meets the invariant answers a next state;
every command finishes (70_reset_and_hazards.md R321), and no assignment is out of range (00_scope.md R10). -/
def Obligations.StepNeverStops : Prop :=
  ∀ s : State, s.Inv → ∃ t, step s = .next t

/-- 10_state.md R42 and 70_reset_and_hazards.md R317, over all commands: no command that completes but BB_SUB_OPEN,
BB_SUB_CLOSE and those that empty the buffer moves the window or opens or closes it, whatever is written or read; and
BB_SUB_END is 0 while no window is open, at reset and through every completed command but BB_SUB_CLOSE (43_bitbuffer.md
R198 keeps its value there: the model's choice between the two rules, log entry 8). -/
def Obligations.WindowStays : Prop :=
  (∀ s : State, s.resetCore.subActive = false ∧ s.resetCore.subEnd = 0) ∧
  ∀ (s t : State) (i : Instr), exec i s = .next t → t.fault = none →
    ((∀ nbytes, i ≠ .bbSubOpen nbytes) → i ≠ .bbSubClose → empties i = false →
      t.subActive = s.subActive ∧ t.subEnd = s.subEnd) ∧
    ((s.subActive = false → s.subEnd = 0) → i ≠ .bbSubClose → t.subActive = false → t.subEnd = 0)

end Statements
end

