-- ==== Sys2Proof/Laws/State.lean ====
section
/-! SUPPORT. What each named update of the state does to each field: one lemma per field per update. -/

namespace Sys2Proof.Machine

namespace State

@[simp] theorem offer_cfg (s : State) (r : Response) : (s.offer r).cfg = s.cfg := rfl
@[simp] theorem offer_ctx (s : State) (r : Response) : (s.offer r).ctx = s.ctx := rfl
@[simp] theorem offer_encState (s : State) (r : Response) : (s.offer r).encState = s.encState := rfl
@[simp] theorem offer_encTrm (s : State) (r : Response) : (s.offer r).encTrm = s.encTrm := rfl
@[simp] theorem offer_encLow (s : State) (r : Response) : (s.offer r).encLow = s.encLow := rfl
@[simp] theorem offer_encRange (s : State) (r : Response) : (s.offer r).encRange = s.encRange := rfl
@[simp] theorem offer_encBitsLeft (s : State) (r : Response) : (s.offer r).encBitsLeft = s.encBitsLeft := rfl
@[simp] theorem offer_encBufByte (s : State) (r : Response) : (s.offer r).encBufByte = s.encBufByte := rfl
@[simp] theorem offer_encNumBuf (s : State) (r : Response) : (s.offer r).encNumBuf = s.encNumBuf := rfl
@[simp] theorem offer_decState (s : State) (r : Response) : (s.offer r).decState = s.decState := rfl
@[simp] theorem offer_decValue (s : State) (r : Response) : (s.offer r).decValue = s.decValue := rfl
@[simp] theorem offer_decRange (s : State) (r : Response) : (s.offer r).decRange = s.decRange := rfl
@[simp] theorem offer_decBitsNeeded (s : State) (r : Response) : (s.offer r).decBitsNeeded = s.decBitsNeeded := rfl
@[simp] theorem offer_store (s : State) (r : Response) : (s.offer r).store = s.store := rfl
@[simp] theorem offer_bbCap (s : State) (r : Response) : (s.offer r).bbCap = s.bbCap := rfl
@[simp] theorem offer_wrPos (s : State) (r : Response) : (s.offer r).wrPos = s.wrPos := rfl
@[simp] theorem offer_rdPos (s : State) (r : Response) : (s.offer r).rdPos = s.rdPos := rfl
@[simp] theorem offer_subEnd (s : State) (r : Response) : (s.offer r).subEnd = s.subEnd := rfl
@[simp] theorem offer_count (s : State) (r : Response) : (s.offer r).count = s.count := rfl
@[simp] theorem offer_subActive (s : State) (r : Response) : (s.offer r).subActive = s.subActive := rfl
@[simp] theorem offer_fault (s : State) (r : Response) : (s.offer r).fault = s.fault := rfl
@[simp] theorem offer_rstN (s : State) (r : Response) : (s.offer r).rstN = s.rstN := rfl
@[simp] theorem offer_cmds (s : State) (r : Response) : (s.offer r).cmds = s.cmds := rfl
@[simp] theorem offer_rspReady (s : State) (r : Response) : (s.offer r).rspReady = s.rspReady := rfl
@[simp] theorem offer_rsp (s : State) (r : Response) : (s.offer r).rsp = some r := rfl
@[simp] theorem offer_freeCount (s : State) (r : Response) : (s.offer r).freeCount = s.freeCount := rfl

@[simp] theorem respond_cfg (s : State) (d : Word) : (s.respond d).cfg = s.cfg := rfl
@[simp] theorem respond_ctx (s : State) (d : Word) : (s.respond d).ctx = s.ctx := rfl
@[simp] theorem respond_encState (s : State) (d : Word) : (s.respond d).encState = s.encState := rfl
@[simp] theorem respond_encTrm (s : State) (d : Word) : (s.respond d).encTrm = s.encTrm := rfl
@[simp] theorem respond_encLow (s : State) (d : Word) : (s.respond d).encLow = s.encLow := rfl
@[simp] theorem respond_encRange (s : State) (d : Word) : (s.respond d).encRange = s.encRange := rfl
@[simp] theorem respond_encBitsLeft (s : State) (d : Word) : (s.respond d).encBitsLeft = s.encBitsLeft := rfl
@[simp] theorem respond_encBufByte (s : State) (d : Word) : (s.respond d).encBufByte = s.encBufByte := rfl
@[simp] theorem respond_encNumBuf (s : State) (d : Word) : (s.respond d).encNumBuf = s.encNumBuf := rfl
@[simp] theorem respond_decState (s : State) (d : Word) : (s.respond d).decState = s.decState := rfl
@[simp] theorem respond_decValue (s : State) (d : Word) : (s.respond d).decValue = s.decValue := rfl
@[simp] theorem respond_decRange (s : State) (d : Word) : (s.respond d).decRange = s.decRange := rfl
@[simp] theorem respond_decBitsNeeded (s : State) (d : Word) : (s.respond d).decBitsNeeded = s.decBitsNeeded := rfl
@[simp] theorem respond_store (s : State) (d : Word) : (s.respond d).store = s.store := rfl
@[simp] theorem respond_bbCap (s : State) (d : Word) : (s.respond d).bbCap = s.bbCap := rfl
@[simp] theorem respond_wrPos (s : State) (d : Word) : (s.respond d).wrPos = s.wrPos := rfl
@[simp] theorem respond_rdPos (s : State) (d : Word) : (s.respond d).rdPos = s.rdPos := rfl
@[simp] theorem respond_subEnd (s : State) (d : Word) : (s.respond d).subEnd = s.subEnd := rfl
@[simp] theorem respond_count (s : State) (d : Word) : (s.respond d).count = s.count := rfl
@[simp] theorem respond_subActive (s : State) (d : Word) : (s.respond d).subActive = s.subActive := rfl
@[simp] theorem respond_fault (s : State) (d : Word) : (s.respond d).fault = s.fault := rfl
@[simp] theorem respond_rstN (s : State) (d : Word) : (s.respond d).rstN = s.rstN := rfl
@[simp] theorem respond_cmds (s : State) (d : Word) : (s.respond d).cmds = s.cmds := rfl
@[simp] theorem respond_rspReady (s : State) (d : Word) : (s.respond d).rspReady = s.rspReady := rfl
@[simp] theorem respond_rsp (s : State) (d : Word) : (s.respond d).rsp = some ⟨none, d⟩ := rfl
@[simp] theorem respond_freeCount (s : State) (d : Word) : (s.respond d).freeCount = s.freeCount := rfl

@[simp] theorem refuseFaulted_cfg (s : State) (r : FaultRecord) : (s.refuseFaulted r).cfg = s.cfg := rfl
@[simp] theorem refuseFaulted_ctx (s : State) (r : FaultRecord) : (s.refuseFaulted r).ctx = s.ctx := rfl
@[simp] theorem refuseFaulted_encState (s : State) (r : FaultRecord) : (s.refuseFaulted r).encState = s.encState := rfl
@[simp] theorem refuseFaulted_encTrm (s : State) (r : FaultRecord) : (s.refuseFaulted r).encTrm = s.encTrm := rfl
@[simp] theorem refuseFaulted_encLow (s : State) (r : FaultRecord) : (s.refuseFaulted r).encLow = s.encLow := rfl
@[simp] theorem refuseFaulted_encRange (s : State) (r : FaultRecord) : (s.refuseFaulted r).encRange = s.encRange := rfl
@[simp] theorem refuseFaulted_encBitsLeft (s : State) (r : FaultRecord) : (s.refuseFaulted r).encBitsLeft = s.encBitsLeft := rfl
@[simp] theorem refuseFaulted_encBufByte (s : State) (r : FaultRecord) : (s.refuseFaulted r).encBufByte = s.encBufByte := rfl
@[simp] theorem refuseFaulted_encNumBuf (s : State) (r : FaultRecord) : (s.refuseFaulted r).encNumBuf = s.encNumBuf := rfl
@[simp] theorem refuseFaulted_decState (s : State) (r : FaultRecord) : (s.refuseFaulted r).decState = s.decState := rfl
@[simp] theorem refuseFaulted_decValue (s : State) (r : FaultRecord) : (s.refuseFaulted r).decValue = s.decValue := rfl
@[simp] theorem refuseFaulted_decRange (s : State) (r : FaultRecord) : (s.refuseFaulted r).decRange = s.decRange := rfl
@[simp] theorem refuseFaulted_decBitsNeeded (s : State) (r : FaultRecord) : (s.refuseFaulted r).decBitsNeeded = s.decBitsNeeded := rfl
@[simp] theorem refuseFaulted_store (s : State) (r : FaultRecord) : (s.refuseFaulted r).store = s.store := rfl
@[simp] theorem refuseFaulted_bbCap (s : State) (r : FaultRecord) : (s.refuseFaulted r).bbCap = s.bbCap := rfl
@[simp] theorem refuseFaulted_wrPos (s : State) (r : FaultRecord) : (s.refuseFaulted r).wrPos = s.wrPos := rfl
@[simp] theorem refuseFaulted_rdPos (s : State) (r : FaultRecord) : (s.refuseFaulted r).rdPos = s.rdPos := rfl
@[simp] theorem refuseFaulted_subEnd (s : State) (r : FaultRecord) : (s.refuseFaulted r).subEnd = s.subEnd := rfl
@[simp] theorem refuseFaulted_count (s : State) (r : FaultRecord) : (s.refuseFaulted r).count = s.count := rfl
@[simp] theorem refuseFaulted_subActive (s : State) (r : FaultRecord) : (s.refuseFaulted r).subActive = s.subActive := rfl
@[simp] theorem refuseFaulted_fault (s : State) (r : FaultRecord) : (s.refuseFaulted r).fault = s.fault := rfl
@[simp] theorem refuseFaulted_rstN (s : State) (r : FaultRecord) : (s.refuseFaulted r).rstN = s.rstN := rfl
@[simp] theorem refuseFaulted_cmds (s : State) (r : FaultRecord) : (s.refuseFaulted r).cmds = s.cmds := rfl
@[simp] theorem refuseFaulted_rspReady (s : State) (r : FaultRecord) : (s.refuseFaulted r).rspReady = s.rspReady := rfl
@[simp] theorem refuseFaulted_rsp (s : State) (r : FaultRecord) : (s.refuseFaulted r).rsp = some ⟨some r.cause, 0⟩ := rfl
@[simp] theorem refuseFaulted_freeCount (s : State) (r : FaultRecord) : (s.refuseFaulted r).freeCount = s.freeCount := rfl

@[simp] theorem unspecified_cfg (s : State) : (s.unspecified).cfg = s.cfg := rfl
@[simp] theorem unspecified_ctx (s : State) : (s.unspecified).ctx = (List.range s.cfg.nctx).map (Config.freeCell s.freeCount) := rfl
@[simp] theorem unspecified_encState (s : State) : (s.unspecified).encState = (Config.freeRegs s.freeCount).encState := rfl
@[simp] theorem unspecified_encTrm (s : State) : (s.unspecified).encTrm = (Config.freeRegs s.freeCount).encTrm := rfl
@[simp] theorem unspecified_encLow (s : State) : (s.unspecified).encLow = (Config.freeRegs s.freeCount).encLow := rfl
@[simp] theorem unspecified_encRange (s : State) : (s.unspecified).encRange = (Config.freeRegs s.freeCount).encRange := rfl
@[simp] theorem unspecified_encBitsLeft (s : State) : (s.unspecified).encBitsLeft = (Config.freeRegs s.freeCount).encBitsLeft := rfl
@[simp] theorem unspecified_encBufByte (s : State) : (s.unspecified).encBufByte = (Config.freeRegs s.freeCount).encBufByte := rfl
@[simp] theorem unspecified_encNumBuf (s : State) : (s.unspecified).encNumBuf = (Config.freeRegs s.freeCount).encNumBuf := rfl
@[simp] theorem unspecified_decState (s : State) : (s.unspecified).decState = (Config.freeRegs s.freeCount).decState := rfl
@[simp] theorem unspecified_decValue (s : State) : (s.unspecified).decValue = (Config.freeRegs s.freeCount).decValue := rfl
@[simp] theorem unspecified_decRange (s : State) : (s.unspecified).decRange = (Config.freeRegs s.freeCount).decRange := rfl
@[simp] theorem unspecified_decBitsNeeded (s : State) : (s.unspecified).decBitsNeeded = (Config.freeRegs s.freeCount).decBitsNeeded := rfl
@[simp] theorem unspecified_store (s : State) : (s.unspecified).store = Memory.ofCells (Config.freeStore s.freeCount) := rfl
@[simp] theorem unspecified_bbCap (s : State) : (s.unspecified).bbCap = (Config.freeRegs s.freeCount).bbCap := rfl
@[simp] theorem unspecified_wrPos (s : State) : (s.unspecified).wrPos = (Config.freeRegs s.freeCount).wrPos := rfl
@[simp] theorem unspecified_rdPos (s : State) : (s.unspecified).rdPos = (Config.freeRegs s.freeCount).rdPos := rfl
@[simp] theorem unspecified_subEnd (s : State) : (s.unspecified).subEnd = (Config.freeRegs s.freeCount).subEnd := rfl
@[simp] theorem unspecified_count (s : State) : (s.unspecified).count = (Config.freeRegs s.freeCount).count := rfl
@[simp] theorem unspecified_subActive (s : State) : (s.unspecified).subActive = (Config.freeRegs s.freeCount).subActive := rfl
@[simp] theorem unspecified_fault (s : State) : (s.unspecified).fault = s.fault := rfl
@[simp] theorem unspecified_rstN (s : State) : (s.unspecified).rstN = s.rstN := rfl
@[simp] theorem unspecified_cmds (s : State) : (s.unspecified).cmds = s.cmds := rfl
@[simp] theorem unspecified_rspReady (s : State) : (s.unspecified).rspReady = s.rspReady := rfl
@[simp] theorem unspecified_rsp (s : State) : (s.unspecified).rsp = s.rsp := rfl
@[simp] theorem unspecified_freeCount (s : State) : (s.unspecified).freeCount = s.freeCount + 1 := rfl

@[simp] theorem takeFault_cfg (s : State) (op : Byte) (c : Cause) : (s.takeFault op c).cfg = s.cfg := rfl
@[simp] theorem takeFault_ctx (s : State) (op : Byte) (c : Cause) : (s.takeFault op c).ctx = s.unspecified.ctx := rfl
@[simp] theorem takeFault_encState (s : State) (op : Byte) (c : Cause) : (s.takeFault op c).encState = s.unspecified.encState := rfl
@[simp] theorem takeFault_encTrm (s : State) (op : Byte) (c : Cause) : (s.takeFault op c).encTrm = s.unspecified.encTrm := rfl
@[simp] theorem takeFault_encLow (s : State) (op : Byte) (c : Cause) : (s.takeFault op c).encLow = s.unspecified.encLow := rfl
@[simp] theorem takeFault_encRange (s : State) (op : Byte) (c : Cause) : (s.takeFault op c).encRange = s.unspecified.encRange := rfl
@[simp] theorem takeFault_encBitsLeft (s : State) (op : Byte) (c : Cause) : (s.takeFault op c).encBitsLeft = s.unspecified.encBitsLeft := rfl
@[simp] theorem takeFault_encBufByte (s : State) (op : Byte) (c : Cause) : (s.takeFault op c).encBufByte = s.unspecified.encBufByte := rfl
@[simp] theorem takeFault_encNumBuf (s : State) (op : Byte) (c : Cause) : (s.takeFault op c).encNumBuf = s.unspecified.encNumBuf := rfl
@[simp] theorem takeFault_decState (s : State) (op : Byte) (c : Cause) : (s.takeFault op c).decState = s.unspecified.decState := rfl
@[simp] theorem takeFault_decValue (s : State) (op : Byte) (c : Cause) : (s.takeFault op c).decValue = s.unspecified.decValue := rfl
@[simp] theorem takeFault_decRange (s : State) (op : Byte) (c : Cause) : (s.takeFault op c).decRange = s.unspecified.decRange := rfl
@[simp] theorem takeFault_decBitsNeeded (s : State) (op : Byte) (c : Cause) : (s.takeFault op c).decBitsNeeded = s.unspecified.decBitsNeeded := rfl
@[simp] theorem takeFault_store (s : State) (op : Byte) (c : Cause) : (s.takeFault op c).store = s.unspecified.store := rfl
@[simp] theorem takeFault_bbCap (s : State) (op : Byte) (c : Cause) : (s.takeFault op c).bbCap = s.unspecified.bbCap := rfl
@[simp] theorem takeFault_wrPos (s : State) (op : Byte) (c : Cause) : (s.takeFault op c).wrPos = s.unspecified.wrPos := rfl
@[simp] theorem takeFault_rdPos (s : State) (op : Byte) (c : Cause) : (s.takeFault op c).rdPos = s.unspecified.rdPos := rfl
@[simp] theorem takeFault_subEnd (s : State) (op : Byte) (c : Cause) : (s.takeFault op c).subEnd = s.unspecified.subEnd := rfl
@[simp] theorem takeFault_count (s : State) (op : Byte) (c : Cause) : (s.takeFault op c).count = s.unspecified.count := rfl
@[simp] theorem takeFault_subActive (s : State) (op : Byte) (c : Cause) : (s.takeFault op c).subActive = s.unspecified.subActive := rfl
@[simp] theorem takeFault_fault (s : State) (op : Byte) (c : Cause) : (s.takeFault op c).fault = if s.fault.isNone then some ⟨c, op⟩ else s.fault := rfl
@[simp] theorem takeFault_rstN (s : State) (op : Byte) (c : Cause) : (s.takeFault op c).rstN = s.rstN := rfl
@[simp] theorem takeFault_cmds (s : State) (op : Byte) (c : Cause) : (s.takeFault op c).cmds = s.cmds := rfl
@[simp] theorem takeFault_rspReady (s : State) (op : Byte) (c : Cause) : (s.takeFault op c).rspReady = s.rspReady := rfl
@[simp] theorem takeFault_rsp (s : State) (op : Byte) (c : Cause) : (s.takeFault op c).rsp = some ⟨some c, 0⟩ := rfl
@[simp] theorem takeFault_freeCount (s : State) (op : Byte) (c : Cause) : (s.takeFault op c).freeCount = s.freeCount + 1 := rfl

@[simp] theorem resetCore_cfg (s : State) : (s.resetCore).cfg = s.cfg := rfl
@[simp] theorem resetCore_ctx (s : State) : (s.resetCore).ctx = List.replicate s.cfg.nctx ⟨0, false⟩ := rfl
@[simp] theorem resetCore_encState (s : State) : (s.resetCore).encState = .unstarted := rfl
@[simp] theorem resetCore_encTrm (s : State) : (s.resetCore).encTrm = false := rfl
@[simp] theorem resetCore_encLow (s : State) : (s.resetCore).encLow = 0 := rfl
@[simp] theorem resetCore_encRange (s : State) : (s.resetCore).encRange = 0 := rfl
@[simp] theorem resetCore_encBitsLeft (s : State) : (s.resetCore).encBitsLeft = 0 := rfl
@[simp] theorem resetCore_encBufByte (s : State) : (s.resetCore).encBufByte = 0 := rfl
@[simp] theorem resetCore_encNumBuf (s : State) : (s.resetCore).encNumBuf = 0 := rfl
@[simp] theorem resetCore_decState (s : State) : (s.resetCore).decState = .unstarted := rfl
@[simp] theorem resetCore_decValue (s : State) : (s.resetCore).decValue = 0 := rfl
@[simp] theorem resetCore_decRange (s : State) : (s.resetCore).decRange = 0 := rfl
@[simp] theorem resetCore_decBitsNeeded (s : State) : (s.resetCore).decBitsNeeded = 0 := rfl
@[simp] theorem resetCore_store (s : State) : (s.resetCore).store = [] := rfl
@[simp] theorem resetCore_bbCap (s : State) : (s.resetCore).bbCap = BitVec.ofNat 32 s.cfg.cap0 := rfl
@[simp] theorem resetCore_wrPos (s : State) : (s.resetCore).wrPos = 0 := rfl
@[simp] theorem resetCore_rdPos (s : State) : (s.resetCore).rdPos = 0 := rfl
@[simp] theorem resetCore_subEnd (s : State) : (s.resetCore).subEnd = 0 := rfl
@[simp] theorem resetCore_count (s : State) : (s.resetCore).count = false := rfl
@[simp] theorem resetCore_subActive (s : State) : (s.resetCore).subActive = false := rfl
@[simp] theorem resetCore_fault (s : State) : (s.resetCore).fault = none := rfl
@[simp] theorem resetCore_rstN (s : State) : (s.resetCore).rstN = s.rstN := rfl
@[simp] theorem resetCore_cmds (s : State) : (s.resetCore).cmds = s.cmds := rfl
@[simp] theorem resetCore_rspReady (s : State) : (s.resetCore).rspReady = s.rspReady := rfl
@[simp] theorem resetCore_rsp (s : State) : (s.resetCore).rsp = s.rsp := rfl
@[simp] theorem resetCore_freeCount (s : State) : (s.resetCore).freeCount = s.freeCount := rfl

@[simp] theorem heldInReset_cfg (s : State) : (s.heldInReset).cfg = s.cfg := rfl
@[simp] theorem heldInReset_ctx (s : State) : (s.heldInReset).ctx = s.resetCore.ctx := rfl
@[simp] theorem heldInReset_encState (s : State) : (s.heldInReset).encState = s.resetCore.encState := rfl
@[simp] theorem heldInReset_encTrm (s : State) : (s.heldInReset).encTrm = s.resetCore.encTrm := rfl
@[simp] theorem heldInReset_encLow (s : State) : (s.heldInReset).encLow = s.resetCore.encLow := rfl
@[simp] theorem heldInReset_encRange (s : State) : (s.heldInReset).encRange = s.resetCore.encRange := rfl
@[simp] theorem heldInReset_encBitsLeft (s : State) : (s.heldInReset).encBitsLeft = s.resetCore.encBitsLeft := rfl
@[simp] theorem heldInReset_encBufByte (s : State) : (s.heldInReset).encBufByte = s.resetCore.encBufByte := rfl
@[simp] theorem heldInReset_encNumBuf (s : State) : (s.heldInReset).encNumBuf = s.resetCore.encNumBuf := rfl
@[simp] theorem heldInReset_decState (s : State) : (s.heldInReset).decState = s.resetCore.decState := rfl
@[simp] theorem heldInReset_decValue (s : State) : (s.heldInReset).decValue = s.resetCore.decValue := rfl
@[simp] theorem heldInReset_decRange (s : State) : (s.heldInReset).decRange = s.resetCore.decRange := rfl
@[simp] theorem heldInReset_decBitsNeeded (s : State) : (s.heldInReset).decBitsNeeded = s.resetCore.decBitsNeeded := rfl
@[simp] theorem heldInReset_store (s : State) : (s.heldInReset).store = s.resetCore.store := rfl
@[simp] theorem heldInReset_bbCap (s : State) : (s.heldInReset).bbCap = s.resetCore.bbCap := rfl
@[simp] theorem heldInReset_wrPos (s : State) : (s.heldInReset).wrPos = s.resetCore.wrPos := rfl
@[simp] theorem heldInReset_rdPos (s : State) : (s.heldInReset).rdPos = s.resetCore.rdPos := rfl
@[simp] theorem heldInReset_subEnd (s : State) : (s.heldInReset).subEnd = s.resetCore.subEnd := rfl
@[simp] theorem heldInReset_count (s : State) : (s.heldInReset).count = s.resetCore.count := rfl
@[simp] theorem heldInReset_subActive (s : State) : (s.heldInReset).subActive = s.resetCore.subActive := rfl
@[simp] theorem heldInReset_fault (s : State) : (s.heldInReset).fault = none := rfl
@[simp] theorem heldInReset_rstN (s : State) : (s.heldInReset).rstN = s.rstN := rfl
@[simp] theorem heldInReset_cmds (s : State) : (s.heldInReset).cmds = s.cmds := rfl
@[simp] theorem heldInReset_rspReady (s : State) : (s.heldInReset).rspReady = s.rspReady := rfl
@[simp] theorem heldInReset_rsp (s : State) : (s.heldInReset).rsp = none := rfl
@[simp] theorem heldInReset_freeCount (s : State) : (s.heldInReset).freeCount = s.freeCount := rfl

@[simp] theorem offerCommand_cfg (s : State) (w : CmdWord) : (s.offerCommand w).cfg = s.cfg := rfl
@[simp] theorem offerCommand_ctx (s : State) (w : CmdWord) : (s.offerCommand w).ctx = s.ctx := rfl
@[simp] theorem offerCommand_encState (s : State) (w : CmdWord) : (s.offerCommand w).encState = s.encState := rfl
@[simp] theorem offerCommand_encTrm (s : State) (w : CmdWord) : (s.offerCommand w).encTrm = s.encTrm := rfl
@[simp] theorem offerCommand_encLow (s : State) (w : CmdWord) : (s.offerCommand w).encLow = s.encLow := rfl
@[simp] theorem offerCommand_encRange (s : State) (w : CmdWord) : (s.offerCommand w).encRange = s.encRange := rfl
@[simp] theorem offerCommand_encBitsLeft (s : State) (w : CmdWord) : (s.offerCommand w).encBitsLeft = s.encBitsLeft := rfl
@[simp] theorem offerCommand_encBufByte (s : State) (w : CmdWord) : (s.offerCommand w).encBufByte = s.encBufByte := rfl
@[simp] theorem offerCommand_encNumBuf (s : State) (w : CmdWord) : (s.offerCommand w).encNumBuf = s.encNumBuf := rfl
@[simp] theorem offerCommand_decState (s : State) (w : CmdWord) : (s.offerCommand w).decState = s.decState := rfl
@[simp] theorem offerCommand_decValue (s : State) (w : CmdWord) : (s.offerCommand w).decValue = s.decValue := rfl
@[simp] theorem offerCommand_decRange (s : State) (w : CmdWord) : (s.offerCommand w).decRange = s.decRange := rfl
@[simp] theorem offerCommand_decBitsNeeded (s : State) (w : CmdWord) : (s.offerCommand w).decBitsNeeded = s.decBitsNeeded := rfl
@[simp] theorem offerCommand_store (s : State) (w : CmdWord) : (s.offerCommand w).store = s.store := rfl
@[simp] theorem offerCommand_bbCap (s : State) (w : CmdWord) : (s.offerCommand w).bbCap = s.bbCap := rfl
@[simp] theorem offerCommand_wrPos (s : State) (w : CmdWord) : (s.offerCommand w).wrPos = s.wrPos := rfl
@[simp] theorem offerCommand_rdPos (s : State) (w : CmdWord) : (s.offerCommand w).rdPos = s.rdPos := rfl
@[simp] theorem offerCommand_subEnd (s : State) (w : CmdWord) : (s.offerCommand w).subEnd = s.subEnd := rfl
@[simp] theorem offerCommand_count (s : State) (w : CmdWord) : (s.offerCommand w).count = s.count := rfl
@[simp] theorem offerCommand_subActive (s : State) (w : CmdWord) : (s.offerCommand w).subActive = s.subActive := rfl
@[simp] theorem offerCommand_fault (s : State) (w : CmdWord) : (s.offerCommand w).fault = s.fault := rfl
@[simp] theorem offerCommand_rstN (s : State) (w : CmdWord) : (s.offerCommand w).rstN = s.rstN := rfl
@[simp] theorem offerCommand_cmds (s : State) (w : CmdWord) : (s.offerCommand w).cmds = w :: s.cmds := rfl
@[simp] theorem offerCommand_rspReady (s : State) (w : CmdWord) : (s.offerCommand w).rspReady = s.rspReady := rfl
@[simp] theorem offerCommand_rsp (s : State) (w : CmdWord) : (s.offerCommand w).rsp = s.rsp := rfl
@[simp] theorem offerCommand_freeCount (s : State) (w : CmdWord) : (s.offerCommand w).freeCount = s.freeCount := rfl

@[simp] theorem portReady_cfg (s : State) : (s.portReady).cfg = s.cfg := rfl
@[simp] theorem portReady_ctx (s : State) : (s.portReady).ctx = s.ctx := rfl
@[simp] theorem portReady_encState (s : State) : (s.portReady).encState = s.encState := rfl
@[simp] theorem portReady_encTrm (s : State) : (s.portReady).encTrm = s.encTrm := rfl
@[simp] theorem portReady_encLow (s : State) : (s.portReady).encLow = s.encLow := rfl
@[simp] theorem portReady_encRange (s : State) : (s.portReady).encRange = s.encRange := rfl
@[simp] theorem portReady_encBitsLeft (s : State) : (s.portReady).encBitsLeft = s.encBitsLeft := rfl
@[simp] theorem portReady_encBufByte (s : State) : (s.portReady).encBufByte = s.encBufByte := rfl
@[simp] theorem portReady_encNumBuf (s : State) : (s.portReady).encNumBuf = s.encNumBuf := rfl
@[simp] theorem portReady_decState (s : State) : (s.portReady).decState = s.decState := rfl
@[simp] theorem portReady_decValue (s : State) : (s.portReady).decValue = s.decValue := rfl
@[simp] theorem portReady_decRange (s : State) : (s.portReady).decRange = s.decRange := rfl
@[simp] theorem portReady_decBitsNeeded (s : State) : (s.portReady).decBitsNeeded = s.decBitsNeeded := rfl
@[simp] theorem portReady_store (s : State) : (s.portReady).store = s.store := rfl
@[simp] theorem portReady_bbCap (s : State) : (s.portReady).bbCap = s.bbCap := rfl
@[simp] theorem portReady_wrPos (s : State) : (s.portReady).wrPos = s.wrPos := rfl
@[simp] theorem portReady_rdPos (s : State) : (s.portReady).rdPos = s.rdPos := rfl
@[simp] theorem portReady_subEnd (s : State) : (s.portReady).subEnd = s.subEnd := rfl
@[simp] theorem portReady_count (s : State) : (s.portReady).count = s.count := rfl
@[simp] theorem portReady_subActive (s : State) : (s.portReady).subActive = s.subActive := rfl
@[simp] theorem portReady_fault (s : State) : (s.portReady).fault = s.fault := rfl
@[simp] theorem portReady_rstN (s : State) : (s.portReady).rstN = true := rfl
@[simp] theorem portReady_cmds (s : State) : (s.portReady).cmds = s.cmds := rfl
@[simp] theorem portReady_rspReady (s : State) : (s.portReady).rspReady = s.rspReady := rfl
@[simp] theorem portReady_rsp (s : State) : (s.portReady).rsp = none := rfl
@[simp] theorem portReady_freeCount (s : State) : (s.portReady).freeCount = s.freeCount := rfl

@[simp] theorem withFetchWord_cfg (s : State) (n w : Nat) : (s.withFetchWord n w).cfg = s.cfg := rfl
@[simp] theorem withFetchWord_ctx (s : State) (n w : Nat) : (s.withFetchWord n w).ctx = s.ctx := rfl
@[simp] theorem withFetchWord_encState (s : State) (n w : Nat) : (s.withFetchWord n w).encState = s.encState := rfl
@[simp] theorem withFetchWord_encTrm (s : State) (n w : Nat) : (s.withFetchWord n w).encTrm = s.encTrm := rfl
@[simp] theorem withFetchWord_encLow (s : State) (n w : Nat) : (s.withFetchWord n w).encLow = s.encLow := rfl
@[simp] theorem withFetchWord_encRange (s : State) (n w : Nat) : (s.withFetchWord n w).encRange = s.encRange := rfl
@[simp] theorem withFetchWord_encBitsLeft (s : State) (n w : Nat) : (s.withFetchWord n w).encBitsLeft = s.encBitsLeft := rfl
@[simp] theorem withFetchWord_encBufByte (s : State) (n w : Nat) : (s.withFetchWord n w).encBufByte = s.encBufByte := rfl
@[simp] theorem withFetchWord_encNumBuf (s : State) (n w : Nat) : (s.withFetchWord n w).encNumBuf = s.encNumBuf := rfl
@[simp] theorem withFetchWord_decState (s : State) (n w : Nat) : (s.withFetchWord n w).decState = s.decState := rfl
@[simp] theorem withFetchWord_decValue (s : State) (n w : Nat) : (s.withFetchWord n w).decValue = s.decValue := rfl
@[simp] theorem withFetchWord_decRange (s : State) (n w : Nat) : (s.withFetchWord n w).decRange = s.decRange := rfl
@[simp] theorem withFetchWord_decBitsNeeded (s : State) (n w : Nat) : (s.withFetchWord n w).decBitsNeeded = s.decBitsNeeded := rfl
@[simp] theorem withFetchWord_store (s : State) (n w : Nat) : (s.withFetchWord n w).store = s.store := rfl
@[simp] theorem withFetchWord_bbCap (s : State) (n w : Nat) : (s.withFetchWord n w).bbCap = s.bbCap := rfl
@[simp] theorem withFetchWord_wrPos (s : State) (n w : Nat) : (s.withFetchWord n w).wrPos = s.wrPos := rfl
@[simp] theorem withFetchWord_rdPos (s : State) (n w : Nat) : (s.withFetchWord n w).rdPos = s.rdPos := rfl
@[simp] theorem withFetchWord_subEnd (s : State) (n w : Nat) : (s.withFetchWord n w).subEnd = s.subEnd := rfl
@[simp] theorem withFetchWord_count (s : State) (n w : Nat) : (s.withFetchWord n w).count = s.count := rfl
@[simp] theorem withFetchWord_subActive (s : State) (n w : Nat) : (s.withFetchWord n w).subActive = s.subActive := rfl
@[simp] theorem withFetchWord_fault (s : State) (n w : Nat) : (s.withFetchWord n w).fault = s.fault := rfl
@[simp] theorem withFetchWord_rstN (s : State) (n w : Nat) : (s.withFetchWord n w).rstN = true := rfl
@[simp] theorem withFetchWord_cmds (s : State) (n w : Nat) : (s.withFetchWord n w).cmds = BitVec.ofNat 64 (w % 2 ^ n) :: s.cmds := rfl
@[simp] theorem withFetchWord_rspReady (s : State) (n w : Nat) : (s.withFetchWord n w).rspReady = s.rspReady := rfl
@[simp] theorem withFetchWord_rsp (s : State) (n w : Nat) : (s.withFetchWord n w).rsp = none := rfl
@[simp] theorem withFetchWord_freeCount (s : State) (n w : Nat) : (s.withFetchWord n w).freeCount = s.freeCount := rfl

end State

end Sys2Proof.Machine
end

