-- ==== Sys2Proof/Laws/Cmd.lean ====
section
/-! SUPPORT. How the pseudocode of a command runs: each primitive applied to a state, and `Sat`, what a piece of
pseudocode guarantees when it completes, when it may raise a fault, and that the model does not stop in it. -/

namespace Sys2Proof.Machine

section Run

variable {α β : Type} (s : State)

@[simp] theorem bind_run (m : Cmd α) (f : α → Cmd β) :
    (m >>= f) s = match m s with
      | .ok a t => f a t
      | .error e t => .error e t := by
  cases h : m s <;> simp [bind, EStateM.bind, h]

@[simp] theorem pure_run (a : α) : (pure a : Cmd α) s = .ok a s := rfl

@[simp] theorem get_run : (get : Cmd State) s = .ok s s := rfl

@[simp] theorem modify_run (f : State → State) : (modify f : Cmd PUnit) s = .ok ⟨⟩ (f s) := rfl

@[simp] theorem raise_run (c : Cause) : (raise c : Cmd α) s = .error (.raise c) s := rfl

@[simp] theorem halt_run (f : Fault) : (halt f : Cmd α) s = .error (.halt f) s := rfl

@[simp] theorem raiseIf_run (b : Bool) (c : Cause) :
    raiseIf b c s = if b then .error (.raise c) s else .ok () s := by cases b <;> rfl

@[simp] theorem assign_run (fits : Bool) (upd : State → State) :
    assign fits upd s = if fits then .ok () (upd s) else .error (.halt .unfit) s := rfl

theorem ite_run {p : Prop} [Decidable p] (m n : Cmd α) : (if p then m else n) s = if p then m s else n s := by
  split <;> rfl

end Run

/-- Running `m` from `s`: if it completes it answers `a` and `t` with `Q a t`; it raises the fault `c` only if `R c`; the
model does not stop in it. Irreducible: the rules below are how it is taken apart. -/
@[irreducible] def Sat {α : Type} (m : Cmd α) (s : State) (R : Cause → Prop) (Q : α → State → Prop) : Prop :=
  match m s with
  | .ok a t => Q a t
  | .error (.raise c) _ => R c
  | .error (.halt _) _ => False

section Sat

variable {α β : Type} {s : State} {R : Cause → Prop}

theorem sat_bind {m : Cmd α} {f : α → Cmd β} {Q : β → State → Prop} :
    Sat (m >>= f) s R Q ↔ Sat m s R fun a t => Sat (f a) t R Q := by
  simp only [Sat, bind_run]
  cases m s with
  | ok a t => rfl
  | error e t => cases e <;> rfl

theorem sat_pure {a : α} {Q : α → State → Prop} : Sat (pure a) s R Q ↔ Q a s := by unfold Sat; rfl

theorem sat_get {Q : State → State → Prop} : Sat get s R Q ↔ Q s s := by unfold Sat; rfl

theorem sat_modify {f : State → State} {Q : PUnit → State → Prop} : Sat (modify f) s R Q ↔ Q ⟨⟩ (f s) := by
  unfold Sat; rfl

theorem sat_raise {c : Cause} {Q : α → State → Prop} : Sat (raise c) s R Q ↔ R c := by unfold Sat; rfl

theorem sat_halt {f : Fault} {Q : α → State → Prop} : Sat (halt f) s R Q ↔ False := by
  unfold Sat; rfl

theorem sat_raiseIf {b : Bool} {c : Cause} {Q : Unit → State → Prop} :
    Sat (raiseIf b c) s R Q ↔ (b = true → R c) ∧ (b = false → Q () s) := by
  cases b <;> simp [Sat]

theorem sat_assign {fits : Bool} {upd : State → State} {Q : Unit → State → Prop} :
    Sat (assign fits upd) s R Q ↔ fits = true ∧ Q () (upd s) := by
  cases fits <;> simp [Sat]

theorem sat_ite {p : Prop} [Decidable p] {m n : Cmd α} {Q : α → State → Prop} :
    Sat (if p then m else n) s R Q ↔ (p → Sat m s R Q) ∧ (¬ p → Sat n s R Q) := by
  by_cases h : p <;> simp [h]

theorem Sat.mono {m : Cmd α} {R' : Cause → Prop} {Q Q' : α → State → Prop} (h : Sat m s R' Q') (hR : ∀ c, R' c → R c)
    (hQ : ∀ a t, Q' a t → Q a t) : Sat m s R Q := by
  unfold Sat at *
  split at h
  · exact hQ _ _ h
  · exact hR _ h
  · exact h

/-- Where no fault may be raised, the command completes. -/
theorem Sat.completes {m : Cmd α} {Q : α → State → Prop} (h : Sat m s (fun _ => False) Q) : ∃ a t, m s = .ok a t ∧ Q a t := by
  unfold Sat at h
  split at h
  · next a t e => exact ⟨a, t, e, h⟩
  · exact h.elim
  · exact h.elim

theorem Sat.of_raise {m : Cmd α} {c : Cause} {t : State} {Q : α → State → Prop} (h : Sat m s R Q)
    (e : m s = .error (.raise c) t) : R c := by
  unfold Sat at h
  rw [e] at h
  exact h

theorem Sat.of_ok {m : Cmd α} {a : α} {t : State} {Q : α → State → Prop} (h : Sat m s R Q) (e : m s = .ok a t) :
    Q a t := by
  unfold Sat at h
  rw [e] at h
  exact h

end Sat

/-! What `answer` makes of the pseudocode's end. -/

theorem answer_ok {op : Byte} {m : Cmd Word} {s t : State} {d : Word} (h : m s = .ok d t) :
    answer op m s = .next (t.respond d) := by simp [answer, h]

theorem answer_raise {op : Byte} {m : Cmd Word} {s t : State} {c : Cause} (h : m s = .error (.raise c) t) :
    answer op m s = .next (t.takeFault op c) := by simp [answer, h]

theorem answer_cases {op : Byte} {m : Cmd Word} {s t : State} (h : answer op m s = .next t) :
    (∃ d u, m s = .ok d u ∧ t = u.respond d) ∨ (∃ c u, m s = .error (.raise c) u ∧ t = u.takeFault op c) := by
  unfold answer at h
  split at h
  · next d u e => exact .inl ⟨d, u, e, by cases h; rfl⟩
  · next c u e => exact .inr ⟨c, u, e, by cases h; rfl⟩
  · cases h

end Sys2Proof.Machine
end

