-- ==== Sys2Proof/Laws/Causes.lean ====
section
/-! SUPPORT. Which fault the input procedures raise (60_exceptions.md R276), and that none of them touches COUNT. -/

namespace Sys2Proof.Machine

/-- Started in the mode COUNT = `b`, the pseudocode raises only causes that `P` allows and leaves COUNT alone. -/
@[irreducible] def Only {α : Type} (b : Bool) (P : Cause → Prop) (m : Cmd α) : Prop :=
  ∀ s, s.count = b → match m s with
    | .ok _ t => t.count = b
    | .error (.raise c) _ => P c
    | .error (.halt _) _ => True

/-- The cause of an input step in real mode (R276). -/
def inOnly (c : Cause) : Prop := c = .exhausted

section

variable {α β : Type} {b : Bool} {P : Cause → Prop}

theorem Only.raised {m : Cmd α} {s t : State} {c : Cause} (h : Only s.count P m)
    (e : m s = .error (.raise c) t) : P c := by
  unfold Only at h
  have := h s rfl
  rw [e] at this
  exact this

theorem Only.count {m : Cmd α} {s t : State} {a : α} (h : Only s.count P m) (e : m s = .ok a t) :
    t.count = s.count := by
  unfold Only at h
  have := h s rfl
  rw [e] at this
  exact this

/-- An input procedure raises nothing but ERR_EXHAUSTED in real mode. -/
theorem Only.exhausted {m : Cmd α} (h : Only false inOnly m) {s t : State} {c : Cause} (hc : s.count = false)
    (e : m s = .error (.raise c) t) : c = .exhausted := (hc ▸ h : Only s.count inOnly m).raised e

@[simp] theorem only_pure (a : α) : Only b P (pure a : Cmd α) := by unfold Only; exact fun _ h => h

@[simp] theorem only_get : Only b P (get : Cmd State) := by unfold Only; exact fun _ h => h

@[simp] theorem only_halt (f : Fault) : Only b P (halt f : Cmd α) := by unfold Only; exact fun _ _ => trivial

theorem only_bind {m : Cmd α} {f : α → Cmd β} (h : Only b P m) (g : ∀ a, Only b P (f a)) : Only b P (m >>= f) := by
  unfold Only at *
  intro s hs
  rw [bind_run]
  have h1 := h s hs
  cases e : m s with
  | ok a t =>
    rw [e] at h1
    exact g a t h1
  | error x t => rw [e] at h1; cases x <;> exact h1

/-- The state read is one in the mode the pseudocode starts in. -/
theorem only_get_bind {f : State → Cmd β} (g : ∀ s, s.count = b → Only b P (f s)) : Only b P (get >>= f) := by
  unfold Only at *
  intro s hs
  rw [bind_run]
  exact g s hs s hs

theorem only_map {m : Cmd α} {f : α → β} (h : Only b P m) : Only b P (f <$> m) := by
  rw [map_eq_pure_bind]
  exact only_bind h fun a => only_pure _

theorem only_ite {p : Prop} [Decidable p] {m n : Cmd α} (h : p → Only b P m) (g : ¬ p → Only b P n) :
    Only b P (if p then m else n) := by
  split
  · next hp => exact h hp
  · next hp => exact g hp

theorem only_raise {c : Cause} (h : P c) : Only b P (raise c : Cmd α) := by unfold Only; exact fun s _ => h

theorem only_raiseIf {q : Bool} {c : Cause} (h : q = true → P c) : Only b P (raiseIf q c) := by
  unfold raiseIf; exact only_ite (fun hq => only_raise (h hq)) fun _ => only_pure _

theorem only_assign {fits : Bool} {upd : State → State} (h : ∀ s : State, (upd s).count = s.count) :
    Only b P (assign fits upd) := by
  unfold Only
  intro s hs
  rw [assign_run]
  cases fits
  · trivial
  · exact (h s).trans hs

theorem only_modify {upd : State → State} (h : ∀ s : State, (upd s).count = s.count) :
    Only b P (modify upd : Cmd Unit) := by
  unfold Only; exact fun s hs => (h s).trans hs

theorem only_repeat {body : Cmd Unit} {n : Nat} (h : Only b P body) : Only b P (repeatCmd body n) := by
  induction n with
  | zero => exact only_pure _
  | succ n ih => exact only_bind h fun _ => ih

end

/-! The primitives. -/

section

variable {b : Bool} {P : Cause → Prop}

@[simp] theorem only_setEncLow (e : Int) : Only b P (setEncLow e) := only_assign fun _ => rfl
@[simp] theorem only_setEncRange (e : Int) : Only b P (setEncRange e) := only_assign fun _ => rfl
@[simp] theorem only_setEncBitsLeft (e : Int) : Only b P (setEncBitsLeft e) := only_assign fun _ => rfl
@[simp] theorem only_setEncBufByte (e : Int) : Only b P (setEncBufByte e) := only_assign fun _ => rfl
@[simp] theorem only_setEncNumBuf (e : Int) : Only b P (setEncNumBuf e) := only_assign fun _ => rfl
@[simp] theorem only_setDecValue (e : Int) : Only b P (setDecValue e) := only_assign fun _ => rfl
@[simp] theorem only_setDecRange (e : Int) : Only b P (setDecRange e) := only_assign fun _ => rfl
@[simp] theorem only_setDecBitsNeeded (e : Int) : Only b P (setDecBitsNeeded e) := only_assign fun _ => rfl
@[simp] theorem only_setWrPos (e : Int) : Only b P (setWrPos e) := only_assign fun _ => rfl
@[simp] theorem only_setRdPos (e : Int) : Only b P (setRdPos e) := only_assign fun _ => rfl
@[simp] theorem only_setBbCap (e : Int) : Only b P (setBbCap e) := only_assign fun _ => rfl
@[simp] theorem only_setSubEnd (e : Int) : Only b P (setSubEnd e) := only_assign fun _ => rfl
@[simp] theorem only_setEncState (e : Engine) : Only b P (setEncState e) := only_modify fun _ => rfl
@[simp] theorem only_setEncTrm (v : Bool) : Only b P (setEncTrm v) := only_modify fun _ => rfl
@[simp] theorem only_setDecState (e : Engine) : Only b P (setDecState e) := only_modify fun _ => rfl
@[simp] theorem only_setSubActive (v : Bool) : Only b P (setSubActive v) := only_modify fun _ => rfl
@[simp] theorem only_writeCtx (i : Nat) (c : CtxCell) : Only b P (writeCtx i c) := only_modify fun _ => rfl

@[simp] theorem only_readCtx (i : Nat) : Only b P (readCtx i) := by
  unfold Only
  intro s hs
  unfold readCtx
  cases s.ctx[i]? <;> simp [hs]

@[simp] theorem only_memRead (addr : Int) (n : Nat) : Only b P (memRead addr n) := by
  unfold Only
  intro s hs
  unfold memRead
  cases decide (0 ≤ addr) && decide (addr + n ≤ s.wrPos.toNat) <;> simp [hs]

@[simp] theorem only_countOf (e : Int) : Only b P (countOf e) := by
  unfold countOf; exact only_ite (fun _ => only_pure _) fun _ => only_halt _

@[simp] theorem only_updateMps (i : Nat) : Only b P (updateMps i) := by
  unfold updateMps
  repeat' first
    | with_reducible apply only_bind | with_reducible apply only_ite | with_reducible apply only_map | intro _
    | simp
@[simp] theorem only_updateLps (i : Nat) : Only b P (updateLps i) := by
  unfold updateLps
  repeat' first
    | with_reducible apply only_bind | with_reducible apply only_ite | with_reducible apply only_map | intro _
    | simp

end

/-! Input. -/

@[simp] theorem only_getBits (n : Nat) : Only false inOnly (getBits n) := by
  unfold getBits
  refine only_get_bind fun s hs => ?_
  refine only_bind (only_raiseIf fun h => ?_) fun _ => only_bind (only_raiseIf fun _ => rfl) fun _ =>
    only_bind (only_memRead _ _) fun v => only_bind (only_setRdPos _) fun _ => only_pure _
  rw [hs] at h
  cases h

@[simp] theorem only_decReadByte : Only false inOnly decReadByte := only_getBits 8

@[simp] theorem only_decDouble (n : Nat) : Only false inOnly (decDouble n) := by
  unfold decDouble
  repeat' first
    | with_reducible apply only_bind | with_reducible apply only_ite | with_reducible apply only_map | intro _
    | simp
@[simp] theorem only_decBin (i : Nat) : Only false inOnly (decBin i) := by
  unfold decBin
  repeat' first
    | with_reducible apply only_bind | with_reducible apply only_ite | with_reducible apply only_map | intro _
    | simp
@[simp] theorem only_decEp : Only false inOnly decEp := by
  unfold decEp
  repeat' first
    | with_reducible apply only_bind | with_reducible apply only_ite | with_reducible apply only_map | intro _
    | simp
@[simp] theorem only_take (p : Path) (i : Nat) : Only false inOnly (take p i) := by
  unfold take
  cases p with
  | raw => exact only_map (only_getBits _)
  | ep => exact only_decEp
  | ctx => exact only_decBin _

@[simp] theorem only_rdFlc (p : Path) (n v : Nat) : Only false inOnly (rdFlc p n v) := by
  induction n generalizing v with
  | zero => exact only_pure _
  | succ n ih => exact only_bind (only_take _ _) fun _ => ih _

@[simp] theorem only_rdOnes (p : Path) (c : Byte) (sp : BitVec 6) (n k : Nat) : Only false inOnly (rdOnes p c sp n k) := by
  induction n generalizing k with
  | zero => exact only_pure _
  | succ n ih => exact only_bind (only_take _ _) fun _ => only_ite (fun _ => ih _) fun _ => only_pure _

end Sys2Proof.Machine
end

