-- ==== Sys2Proof/Laws/Memory.lean ====
section
/-! SUPPORT. Laws of the store (20_memory.md R60 to R64): read after write, the canonical form, bits and bit strings. -/

namespace Sys2Proof.Machine

namespace Memory

@[simp] theorem read_nil (k : Nat) : read [] k = unlisted := rfl

@[simp] theorem wf_nil : wf [] = true := rfl

theorem wfAbove_cons {k a : Nat} {b : Byte} {rest : Memory} :
    wfAbove k ((a, b) :: rest) = true ↔ k ≤ a ∧ b ≠ unlisted ∧ wfAbove (a + 1) rest = true := by
  simp [wfAbove, and_assoc]

theorem wfAbove_mono {k j : Nat} {m : Memory} (h : wfAbove k m = true) (hj : j ≤ k) : wfAbove j m = true := by
  cases m with
  | nil => rfl
  | cons c rest =>
    obtain ⟨a, b⟩ := c
    rw [wfAbove_cons] at h ⊢
    exact ⟨hj.trans h.1, h.2⟩

/-- Below the lowest index nothing is listed. -/
theorem read_of_wfAbove {k j : Nat} {m : Memory} (h : wfAbove k m = true) (hj : j < k) : m.read j = unlisted := by
  induction m generalizing k with
  | nil => rfl
  | cons c rest ih =>
    obtain ⟨a, b⟩ := c
    obtain ⟨h1, -, h3⟩ := wfAbove_cons.1 h
    have hne : a ≠ j := by omega
    simpa [read, hne] using ih h3 (by omega)

theorem read_push {k j : Nat} {v : Byte} {rest : Memory} (h : wfAbove (k + 1) rest = true) :
    (push k v rest).read j = if j = k then v else rest.read j := by
  unfold push
  by_cases hv : v = unlisted
  · by_cases hj : j = k
    · subst hj; simpa [hv] using read_of_wfAbove h (by omega)
    · simp [hv, hj]
  · by_cases hj : j = k
    · simp [hv, read, hj]
    · have : k ≠ j := fun e => hj e.symm
      simp [hv, read, hj, this]

theorem wfAbove_push {i k : Nat} {v : Byte} {rest : Memory} (hik : i ≤ k) (h : wfAbove (k + 1) rest = true) :
    wfAbove i (push k v rest) = true := by
  unfold push
  split
  · exact wfAbove_mono h (by omega)
  · next hv => exact wfAbove_cons.2 ⟨hik, hv, h⟩

theorem wfAbove_write {i k : Nat} {v : Byte} {m : Memory} (h : wfAbove i m = true) (hik : i ≤ k) :
    wfAbove i (m.write k v) = true := by
  induction m generalizing i with
  | nil => exact wfAbove_push hik rfl
  | cons c rest ih =>
    obtain ⟨a, b⟩ := c
    obtain ⟨h1, h2, h3⟩ := wfAbove_cons.1 h
    unfold write
    split
    · next e => subst e; exact wfAbove_push hik h3
    · split
      · next hlt => exact wfAbove_push hik (wfAbove_cons.2 ⟨by omega, h2, h3⟩)
      · exact wfAbove_cons.2 ⟨h1, h2, ih h3 (by omega)⟩

/-- Every write keeps the canonical form. -/
theorem wf_write {m : Memory} (k : Nat) (v : Byte) (h : m.wf = true) : (m.write k v).wf = true :=
  wfAbove_write h (Nat.zero_le k)

theorem read_write_above {i k j : Nat} {v : Byte} {m : Memory} (h : wfAbove i m = true) :
    (m.write k v).read j = if j = k then v else m.read j := by
  induction m generalizing i with
  | nil => exact read_push rfl
  | cons c rest ih =>
    obtain ⟨a, b⟩ := c
    obtain ⟨h1, h2, h3⟩ := wfAbove_cons.1 h
    unfold write
    split
    · next e =>
      subst e
      rw [read_push h3]
      by_cases hj : j = a
      · simp [hj]
      · have : a ≠ j := fun e => hj e.symm
        simp [hj, read, this]
    · next hne =>
      split
      · next hlt => rw [read_push (wfAbove_cons.2 ⟨by omega, h2, h3⟩)]
      · next hlt =>
        by_cases hj : a = j
        · have : j ≠ k := by omega
          simp [read, hj, this]
        · simp [read, hj, ih h3]

/-- A read after a write: the written byte at its index, every other byte as before. -/
theorem read_write {m : Memory} (h : m.wf = true) (k j : Nat) (v : Byte) :
    (m.write k v).read j = if j = k then v else m.read j := read_write_above h

theorem wf_ofCells (cells : List Host.Cell) : (ofCells cells).wf = true := by
  unfold ofCells
  suffices ∀ m : Memory, m.wf = true → (cells.foldl (fun m c => m.write c.1 c.2) m).wf = true from this [] rfl
  induction cells with
  | nil => exact fun _ h => h
  | cons c rest ih => exact fun m h => ih _ (wf_write _ _ h)

theorem getLsbD_putBit (v : Byte) (j i : Nat) (b : Bool) (hj : j < 8) (hi : i < 8) :
    (putBit v j b).getLsbD (7 - i) = if i = j then b else v.getLsbD (7 - i) := by
  unfold putBit
  by_cases e : i = j
  · subst e
    cases b
    · simp
    · simp; omega
  · have : ¬ (7 - j = 7 - i) := by omega
    cases b
    · simp [e, this]; intro; omega
    · simp [e, this]

theorem wf_setBit {m : Memory} (p : Nat) (b : Bool) (h : m.wf = true) : (m.setBit p b).wf = true := wf_write _ _ h

/-- Setting a bit changes that bit and no other. -/
theorem bit_setBit {m : Memory} (h : m.wf = true) (p q : Nat) (b : Bool) :
    (m.setBit p b).bit q = if q = p then b else m.bit q := by
  unfold bit setBit
  rw [read_write h]
  by_cases e : q / 8 = p / 8
  · rw [if_pos e, getLsbD_putBit _ _ _ _ (Nat.mod_lt _ (by omega)) (Nat.mod_lt _ (by omega))]
    by_cases f : q = p
    · simp [f]
    · have : q % 8 ≠ p % 8 := by omega
      simp [f, this, e]
  · have : q ≠ p := fun f => e (by rw [f])
    simp [e, this]

theorem wf_writeBits {m : Memory} (addr n v : Nat) (h : m.wf = true) : (m.writeBits addr n v).wf = true := by
  induction n generalizing m addr with
  | zero => exact h
  | succ n ih => exact ih _ (wf_setBit _ _ h)

/-- MemWrite (20_memory.md R64): bit addr + i becomes v[n-1-i], no other bit changes. -/
theorem bit_writeBits {m : Memory} (h : m.wf = true) (addr n v p : Nat) :
    (m.writeBits addr n v).bit p = if addr ≤ p ∧ p < addr + n then v.testBit (n - 1 - (p - addr)) else m.bit p := by
  induction n generalizing m addr with
  | zero => simp [writeBits]
  | succ n ih =>
    rw [writeBits, ih (wf_setBit _ _ h), bit_setBit h]
    by_cases e : p = addr
    · subst e; simp
    · by_cases g : addr + 1 ≤ p ∧ p < addr + 1 + n
      · rw [if_pos g, if_pos (by omega)]; congr 1; omega
      · rw [if_neg g, if_neg e, if_neg (by omega)]

/-- Two stores with the same bits below `lim` read the same there (20_memory.md R63). -/
theorem readBits_congr {m m' : Memory} {addr n : Nat} (h : ∀ p, addr ≤ p → p < addr + n → m.bit p = m'.bit p) :
    m.readBits addr n = m'.readBits addr n := by
  induction n generalizing addr with
  | zero => rfl
  | succ n ih =>
    simp only [readBits]
    rw [h addr (by omega) (by omega), ih fun p h1 h2 => h p (by omega) (by omega)]

/-- MemRead answers a value of n bits (20_memory.md R63). -/
theorem readBits_lt (m : Memory) (addr n : Nat) : m.readBits addr n < 2 ^ n := by
  induction n generalizing addr with
  | zero => simp [readBits]
  | succ n ih =>
    have := ih (addr + 1)
    have hb : (m.bit addr).toNat ≤ 1 := Bool.toNat_le _
    simp only [readBits, Nat.pow_succ]
    nlinarith [Nat.mul_le_mul_right (2 ^ n) hb]

/-- The bits of what MemRead answers are the bits of the store, first bit most significant (20_memory.md R63). -/
theorem testBit_readBits (m : Memory) (addr n i : Nat) (hi : i < n) :
    (m.readBits addr n).testBit (n - 1 - i) = m.bit (addr + i) := by
  induction n generalizing addr i with
  | zero => omega
  | succ n ih =>
    have hlt := readBits_lt m (addr + 1) n
    simp only [readBits]
    rw [Nat.mul_comm, Nat.testBit_two_pow_mul_add _ hlt]
    cases i with
    | zero => cases m.bit addr <;> simp
    | succ i =>
      have e : n + 1 - 1 - (i + 1) = n - 1 - i := by omega
      rw [e, if_pos (by omega), ih (addr + 1) i (by omega)]
      congr 1; omega

/-- What was written is what is read back (20_memory.md R62, R63, R64). -/
theorem readBits_writeBits {m : Memory} (h : m.wf = true) (addr n v : Nat) :
    (m.writeBits addr n v).readBits addr n = v % 2 ^ n := by
  apply Nat.eq_of_testBit_eq
  intro i
  rw [Nat.testBit_mod_two_pow]
  by_cases hi : i < n
  · have := testBit_readBits (m.writeBits addr n v) addr n (n - 1 - i) (by omega)
    rw [show n - 1 - (n - 1 - i) = i by omega] at this
    rw [this, bit_writeBits h, if_pos (by omega)]
    simp only [hi, decide_true, Bool.true_and]
    congr 1; omega
  · rw [Nat.testBit_lt_two_pow ((readBits_lt _ _ _).trans_le (Nat.pow_le_pow_right (by omega) (by omega)))]
    simp [hi]

/-- A byte is its eight bits (20_memory.md R61). -/
theorem read_eq_of_bits {m m' : Memory} {k : Nat} (h : ∀ i, i < 8 → m.bit (8 * k + i) = m'.bit (8 * k + i)) :
    m.read k = m'.read k := by
  apply BitVec.eq_of_getLsbD_eq
  intro i hi
  have := h (7 - i) (by omega)
  unfold bit at this
  rw [show (8 * k + (7 - i)) / 8 = k by omega, show 7 - (8 * k + (7 - i)) % 8 = i by omega] at this
  exact this

end Memory

end Sys2Proof.Machine
end

