-- ==== Sys2Proof/Laws/Ops.lean ====
section
/-! SUPPORT. What each shared operation can do: register assignment, growth, PutBits, GetBits, the bounded loops
(20_memory.md R63 to R69). -/

namespace Sys2Proof.Machine

theorem fitsU_iff {w : Nat} {e : Int} : fitsU w e = true ↔ 0 ≤ e ∧ e < 2 ^ w := by simp [fitsU]

theorem toNat_ofInt_of_fits {w : Nat} {e : Int} (h0 : 0 ≤ e) (h1 : e < 2 ^ w) :
    (BitVec.ofInt w e).toNat = e.toNat := by
  rw [BitVec.toNat_ofInt, Int.emod_eq_of_lt h0 (by simpa using h1)]

@[simp] theorem fitsU_natCast {w n : Nat} : fitsU w (n : Int) = decide (n < 2 ^ w) := by
  rw [Bool.eq_iff_iff, fitsU_iff]
  simp only [decide_eq_true_eq]
  constructor
  · rintro ⟨-, h⟩; exact_mod_cast h
  · intro h; exact ⟨by omega, by exact_mod_cast h⟩

@[simp] theorem ofInt_natCast (w n : Nat) : BitVec.ofInt w (n : Int) = BitVec.ofNat w n := by
  apply BitVec.eq_of_toNat_eq
  simp

/-! Growth (20_memory.md R66, R67). -/

theorem isCapacity_iff {n : Nat} : Config.isCapacity n = true ↔ ∃ k, k < 28 ∧ n = 2 ^ k := by
  simp [Config.isCapacity]

theorem isCapacity_double {c m : Nat} (h : Config.isCapacity c = true) (hm : m ≤ 2 ^ 27) (hc : 2 * c ≤ m) :
    Config.isCapacity (2 * c) = true := by
  obtain ⟨k, hk, rfl⟩ := isCapacity_iff.1 h
  refine isCapacity_iff.2 ⟨k + 1, ?_, by ring⟩
  by_contra hlt
  have : 2 ^ 28 ≤ 2 * 2 ^ k := by
    rw [← pow_succ']
    exact Nat.pow_le_pow_right (by omega) (by omega)
  omega

/-- Growth answers a legal capacity in which `need` bits fit; it answers none only if CAP_MAX words are not enough. -/
theorem grownCap_spec {need capMax fuel cap : Nat} (hmax : capMax ≤ 2 ^ 27) (hM : Config.isCapacity capMax = true)
    (hcap : Config.isCapacity cap = true) (hle : cap ≤ capMax) (hfuel : 2 ^ 27 < 2 ^ fuel * cap) :
    match grownCap need capMax fuel cap with
    | some c => need ≤ 32 * c ∧ Config.isCapacity c = true ∧ cap ≤ c ∧ c ≤ capMax ∧ (need ≤ 32 * cap → c = cap) ∧
        ∃ j, c = cap * 2 ^ j ∧ (j = 0 ∨ 16 * c < need)
    | none => 32 * capMax < need := by
  induction fuel generalizing cap with
  | zero => omega
  | succ k ih =>
    unfold grownCap
    by_cases h1 : need ≤ 32 * cap
    · simp only [h1, if_true]
      exact ⟨trivial, hcap, le_rfl, hle, fun _ => trivial, 0, by simp, .inl rfl⟩
    · simp only [h1, if_false]
      by_cases h2 : 2 * cap > capMax
      · simp only [h2, if_true]
        obtain ⟨a, ha, rfl⟩ := isCapacity_iff.1 hM
        obtain ⟨b, hb, rfl⟩ := isCapacity_iff.1 hcap
        have : 2 ^ a = 2 ^ b := by
          have hab : a < b + 1 := by
            rw [← pow_succ'] at h2
            exact (Nat.pow_lt_pow_iff_right (by omega)).1 h2
          have hba : b ≤ a := (Nat.pow_le_pow_iff_right (by omega)).1 hle
          rw [show a = b by omega]
        omega
      · simp only [h2, if_false]
        have := ih (isCapacity_double hcap hmax (by omega)) (by omega) (by
          have : 2 ^ (k + 1) * cap = 2 ^ k * (2 * cap) := by ring
          omega)
        revert this
        cases grownCap need capMax k (2 * cap) with
        | none => simp
        | some c => 
          simp only
          rintro ⟨a, b, e, d, -, j, hj, hj'⟩
          refine ⟨a, b, by omega, d, fun h => h.elim, j + 1, by rw [hj]; ring, .inr ?_⟩
          rcases hj' with rfl | hj'
          · rw [hj]; omega
          · exact hj'

theorem legal_iff {c : Config} : c.legal = true ↔
    (1 ≤ c.nctx ∧ c.nctx ≤ 256) ∧ (Config.isCapacity c.cap0 = true ∧ Config.isCapacity c.capMax = true ∧
      c.cap0 ≤ c.capMax) ∧ c.qpMax ≤ 255 ∧ Config.rangesLegal c.rangeTabLps = true := by
  simp [Config.legal, and_assoc]

theorem isCapacity_le {n : Nat} (h : Config.isCapacity n = true) : 1 ≤ n ∧ n ≤ 2 ^ 27 := by
  obtain ⟨k, hk, rfl⟩ := isCapacity_iff.1 h
  exact ⟨Nat.one_le_two_pow, Nat.pow_le_pow_right (by omega) (by omega)⟩

/-- The capacity is legal and, in real mode, holds what is written (10_state.md R39, R40). -/
structure State.CapOk (s : State) : Prop where
  legal : s.cfg.legal = true
  power : Config.isCapacity s.bbCap.toNat = true
  lo : s.cfg.cap0 ≤ s.bbCap.toNat
  hi : s.bbCap.toNat ≤ s.cfg.capMax
  fit : s.count = false → s.wrPos.toNat ≤ 32 * s.bbCap.toNat

/-- A counting buffer, and one of 2^27 words, overflow; any other runs out of words (60_exceptions.md R278, R279). -/
theorem State.CapOk.overflow {s : State} (hc : s.CapOk) {n : Nat} (hn : n ≤ 32) (h : 2 ^ 32 ≤ s.wrPos.toNat + n) :
    s.outCause = .overflow ∧ ¬ s.Room n := by
  refine ⟨if_pos ?_, fun hr => by have := hr.1; omega⟩
  cases hcount : s.count with
  | true => exact .inl rfl
  | false =>
    refine .inr ?_
    obtain ⟨-, ⟨-, hM, -⟩, -, -⟩ := legal_iff.1 hc.legal
    obtain ⟨k, hk, hk'⟩ := isCapacity_iff.1 hM
    have h1 := hc.fit hcount
    have h2 := hc.hi
    have h3 : 26 < k := by
      by_contra hle
      have := Nat.pow_le_pow_right (n := 2) (by omega) (by omega : k ≤ 26)
      omega
    rw [show k = 27 by omega] at hk'
    omega

theorem State.resource_of_full {s : State} {n : Nat} (hcount : s.count = false)
    (hlt : s.wrPos.toNat + n < 2 ^ 32) (h : 32 * s.cfg.capMax < s.wrPos.toNat + n) :
    s.outCause = .resource ∧ ¬ s.Room n := by
  refine ⟨if_neg ?_, fun hr => by have := hr.2 hcount; omega⟩
  rw [hcount]
  rintro (h1 | h1)
  · cases h1
  · omega

/-- `t` is `s` after PutBits(v, n) (20_memory.md R66). -/
structure State.Put (s : State) (n v : Nat) (t : State) : Prop where
  frame : t = { s with store := t.store, bbCap := t.bbCap, wrPos := t.wrPos }
  pos : t.wrPos.toNat = s.wrPos.toNat + n
  counting : s.count = true → t.store = s.store ∧ t.bbCap = s.bbCap
  real : s.count = false → t.store = s.store.writeBits s.wrPos.toNat n v ∧ t.wrPos.toNat ≤ 32 * t.bbCap.toNat
  cap : Config.isCapacity t.bbCap.toNat = true ∧ s.bbCap.toNat ≤ t.bbCap.toNat ∧ t.bbCap.toNat ≤ s.cfg.capMax
  keep : s.count = false → s.wrPos.toNat + n ≤ 32 * s.bbCap.toNat → t.bbCap = s.bbCap
  grown : s.Grown t

/-- Growth (20_memory.md R67) makes `need` bits fit and changes BB_CAP only, or raises a fault for want of room. -/
theorem growFor_sat {s : State} {need : Nat} (hc : s.CapOk) :
    Sat (growFor need) s (fun c => c = .resource ∧ 32 * s.cfg.capMax < need) fun _ t =>
      t = { s with bbCap := t.bbCap } ∧ need ≤ 32 * t.bbCap.toNat ∧ Config.isCapacity t.bbCap.toNat = true ∧
        s.bbCap.toNat ≤ t.bbCap.toNat ∧ t.bbCap.toNat ≤ s.cfg.capMax ∧
        (need ≤ 32 * s.bbCap.toNat → t.bbCap = s.bbCap) ∧
        ∃ j, t.bbCap.toNat = s.bbCap.toNat * 2 ^ j ∧ (j = 0 ∨ 16 * t.bbCap.toNat < need) := by
  obtain ⟨hl, h1, h2, h3, -⟩ := hc
  obtain ⟨-, ⟨-, hM, -⟩, -, -⟩ := legal_iff.1 hl
  have hmax := (isCapacity_le hM).2
  have hpos := (isCapacity_le h1).1
  have hg := grownCap_spec (need := need) (fuel := 28) hmax hM h1 h3 (by omega)
  unfold growFor
  rw [sat_bind, sat_get]
  revert hg
  generalize grownCap need s.cfg.capMax 28 s.bbCap.toNat = o
  intro hg
  cases o with
  | none => exact sat_raise.2 ⟨rfl, hg⟩
  | some c =>
    have g1 := hg.1
    have g2 := hg.2.1
    have g3 := hg.2.2.1
    have g4 := hg.2.2.2.1
    have g5 := hg.2.2.2.2.1
    have g6 := hg.2.2.2.2.2
    have hc32 : c < 2 ^ 32 := by omega
    have hcv : (BitVec.ofNat 32 c).toNat = c := by rw [BitVec.toNat_ofNat]; omega
    simp only [setBbCap, sat_assign, fitsU_natCast, ofInt_natCast, hcv, decide_eq_true_eq]
    refine ⟨hc32, ?_⟩
    refine ⟨trivial, g1, g2, g3, g4, fun hk => ?_, g6⟩
    apply BitVec.eq_of_toNat_eq
    rw [hcv, g5 hk]

/-- PutBits completes, or raises a fault only for want of room (20_memory.md R66). -/
theorem putBits_sat {s : State} {v n : Nat} (hc : s.CapOk) (hn : n ≤ 32) (hv : v < 2 ^ n) :
    Sat (putBits v n) s (fun c => c = s.outCause ∧ ¬ s.Room n) fun _ t => s.Put n v t ∧ s.Room n := by
  have hcap := hc
  obtain ⟨-, h1, h2, h3, -⟩ := hc
  unfold putBits
  simp only [sat_bind, sat_get, sat_ite, sat_raiseIf, sat_halt, sat_modify, setWrPos, sat_assign,
    decide_eq_true_eq, decide_eq_false_iff_not]
  refine ⟨fun h => absurd ⟨hn, hv⟩ h, fun _ => ⟨fun h => ?_, fun hlt => ?_⟩⟩
  · obtain ⟨o1, o2⟩ := hcap.overflow hn (by omega)
    exact ⟨o1.symm, o2⟩
  have hwr : s.wrPos.toNat + n < 2 ^ 32 := by omega
  have hfit : fitsU 32 ((s.wrPos.toNat : Int) + (n : Int)) = true := by
    rw [fitsU_iff]; omega
  have hval : (BitVec.ofInt 32 ((s.wrPos.toNat : Int) + (n : Int))).toNat = s.wrPos.toNat + n := by
    rw [toNat_ofInt_of_fits (by omega) (by omega)]; omega
  refine ⟨fun hcount => ?_, fun hcount => ?_⟩
  · refine (growFor_sat hcap).mono (fun c h => ?_) fun _ t ht => ?_
    · obtain ⟨o1, o2⟩ := State.resource_of_full hcount hwr h.2
      exact ⟨h.1.trans o1.symm, o2⟩
    · obtain ⟨e, g1, g2, g3, g4, g5, g6⟩ := ht
      refine ⟨hfit, ⟨?_, hval, fun h => ?_, fun _ => ⟨?_, ?_⟩, ⟨g2, g3, g4⟩, fun _ hk => g5 hk,
        ⟨fun h => absurd (hcount.symm.trans h) (by decide), fun _ => by
          obtain ⟨j, g6, g7⟩ := g6
          exact ⟨j, g6, by rw [hval]; exact g7⟩⟩⟩, ⟨hwr, fun _ => by omega⟩⟩
      · rw [e]
      · rw [hcount] at h; cases h
      · rw [e]
      · rw [hval]; exact g1
  · have hct : s.count = true := by simpa using hcount
    refine ⟨hfit, ⟨rfl, hval, fun _ => ⟨rfl, rfl⟩, fun h => ?_, ⟨h1, le_rfl, h3⟩, fun h => ?_,
      ⟨fun _ => rfl, fun h => ?_⟩⟩, ⟨hwr, fun h => ?_⟩⟩ <;>
      · rw [hct] at h; cases h

theorem State.Grown.refl (s : State) : s.Grown s := ⟨fun _ => rfl, fun _ => ⟨0, by simp, .inl rfl⟩⟩

theorem State.Grown.trans {s t u : State} (h : s.Grown t) (g : t.Grown u) (hc : t.count = s.count)
    (hp : t.wrPos.toNat ≤ u.wrPos.toNat) : s.Grown u := by
  refine ⟨fun e => (g.1 (hc.trans e)).trans (h.1 e), fun e => ?_⟩
  obtain ⟨j, h1, h2⟩ := h.2 e
  obtain ⟨k, g1, g2⟩ := g.2 (hc.trans e)
  refine ⟨j + k, by rw [g1, h1]; ring, ?_⟩
  rcases g2 with rfl | g2
  · rcases h2 with rfl | h2
    · exact .inl rfl
    · refine .inr ?_
      rw [g1]
      omega
  · exact .inr g2

theorem State.Put.capOk {s t : State} {n v : Nat} (h : s.Put n v t) (hc : s.CapOk) : t.CapOk := by
  obtain ⟨a, b, c, d, -⟩ := hc
  obtain ⟨e, f, g⟩ := h.cap
  have hf : t.cfg = s.cfg := by rw [h.frame]
  have hn : t.count = s.count := by rw [h.frame]
  exact ⟨hf ▸ a, e, by rw [hf]; omega, by rw [hf]; exact g, fun hc => (h.real (hn ▸ hc)).2⟩

theorem State.Put.wf {s t : State} {n v : Nat} (h : s.Put n v t) (hw : s.store.wf = true) : t.store.wf = true := by
  cases hc : s.count with
  | true => rw [(h.counting hc).1]; exact hw
  | false => rw [(h.real hc).1]; exact Memory.wf_writeBits _ _ _ hw

/-- Every bit below the old write cursor is as before (20_memory.md R65). -/
theorem State.Put.below {s t : State} {n v p : Nat} (h : s.Put n v t) (hw : s.store.wf = true)
    (hp : p < s.wrPos.toNat) : t.store.bit p = s.store.bit p := by
  cases hc : s.count with
  | true => rw [(h.counting hc).1]
  | false => rw [(h.real hc).1, Memory.bit_writeBits hw, if_neg (by omega)]

/-- In real mode the appended bits are those of the value, most significant first (20_memory.md R64). -/
theorem State.Put.bit {s t : State} {n v : Nat} (h : s.Put n v t) (hw : s.store.wf = true) (hc : s.count = false)
    (p : Nat) : t.store.bit p =
      if s.wrPos.toNat ≤ p ∧ p < s.wrPos.toNat + n then v.testBit (n - 1 - (p - s.wrPos.toNat)) else s.store.bit p := by
  rw [(h.real hc).1, Memory.bit_writeBits hw]

/-- What every output does to the bit buffer (20_memory.md R65 to R67): it only appends, and the capacity stays
legal. -/
structure State.Grew (s t : State) : Prop where
  wf : s.store.wf = true → t.store.wf = true
  pos : s.wrPos.toNat ≤ t.wrPos.toNat
  below : s.store.wf = true → ∀ p, p < s.wrPos.toNat → t.store.bit p = s.store.bit p
  fit : s.count = false → s.wrPos.toNat ≤ 32 * s.bbCap.toNat → t.wrPos.toNat ≤ 32 * t.bbCap.toNat
  cap : s.CapOk → t.CapOk
  count : t.count = s.count
  cfg : t.cfg = s.cfg

theorem State.Grew.refl (s : State) : s.Grew s := ⟨id, le_rfl, fun _ _ _ => rfl, fun _ => id, id, rfl, rfl⟩

theorem State.Grew.trans {s t u : State} (h : s.Grew t) (g : t.Grew u) : s.Grew u where
  wf hw := g.wf (h.wf hw)
  pos := h.pos.trans g.pos
  below hw p hp := (g.below (h.wf hw) p (hp.trans_le h.pos)).trans (h.below hw p hp)
  fit hc hf := g.fit (h.count.trans hc) (h.fit hc hf)
  cap hc := g.cap (h.cap hc)
  count := g.count.trans h.count
  cfg := g.cfg.trans h.cfg

theorem State.Put.grew {s t : State} {n v : Nat} (h : s.Put n v t) : s.Grew t where
  wf := h.wf
  pos := by rw [h.pos]; omega
  below hw _ hp := h.below hw hp
  fit hc hf := (h.real hc).2
  cap := h.capOk
  count := by rw [h.frame]
  cfg := by rw [h.frame]

/-- A state that differs only outside the bit buffer. -/
theorem State.Grew.of_eq {s t : State} (h1 : t.store = s.store) (h2 : t.wrPos = s.wrPos) (h3 : t.bbCap = s.bbCap)
    (h4 : t.count = s.count) (h5 : t.cfg = s.cfg) : s.Grew t where
  wf := by rw [h1]; exact id
  pos := by rw [h2]
  below _ _ _ := by rw [h1]
  fit _ := by rw [h2, h3]; exact id
  cap h := by
    obtain ⟨a, b, c, d, e⟩ := h
    exact ⟨h5 ▸ a, h3 ▸ b, by rw [h3, h5]; exact c, by rw [h3, h5]; exact d, by rw [h2, h3, h4]; exact e⟩
  count := h4
  cfg := h5

/-- The fault of an output step depends on what no output changes. -/
theorem State.Grew.outCause {s t : State} (h : s.Grew t) : t.outCause = s.outCause := by
  unfold State.outCause
  rw [h.count, h.cfg]

/-- The loop rule: what each round keeps, the rounds keep. -/
theorem sat_repeat {body : Cmd Unit} {R : Cause → Prop} {n : Nat} {P : Nat → State → Prop} {s : State} (h0 : P 0 s)
    (hstep : ∀ k t, k < n → P k t → Sat body t R fun _ u => P (k + 1) u) :
    Sat (repeatCmd body n) s R fun _ t => P n t := by
  induction n generalizing s P with
  | zero => exact sat_pure.2 h0
  | succ n ih =>
    unfold repeatCmd
    rw [sat_bind]
    refine (hstep 0 s (by omega) h0).mono (fun _ => id) fun _ t ht => ?_
    exact ih (P := fun k => P (k + 1)) ht fun k u hk hu => hstep (k + 1) u (by omega) hu

/-- MemRead of written bits answers them (20_memory.md R63). -/
theorem memRead_sat {s : State} {addr n : Nat} {R : Cause → Prop} (h : addr + n ≤ s.wrPos.toNat) :
    Sat (memRead (addr : Int) n) s R fun v t => v = s.store.readBits addr n ∧ t = s := by
  have : (decide (0 ≤ (addr : Int)) && decide ((addr : Int) + n ≤ (s.wrPos.toNat : Int))) = true := by
    simp; omega
  unfold Sat memRead
  simp only [this, if_true]
  simp only [Int.toNat_natCast, and_self]

/-- The cursors and the window as far as reads need them (10_state.md R40, R42). -/
def State.ReadOk (s : State) : Prop := s.count = false ∧ s.rdLimit ≤ s.wrPos.toNat

/-- GetBits completes, or raises a fault only when too few bits are left (20_memory.md R68). -/
theorem getBits_sat {s : State} {n : Nat} (h : s.ReadOk) :
    Sat (getBits n) s (fun c => c = .exhausted ∧ ¬ s.Avail n) fun v t =>
      s.Avail n ∧ v = s.store.readBits s.rdPos.toNat n ∧ t = { s with rdPos := t.rdPos } ∧
        t.rdPos.toNat = s.rdPos.toNat + n := by
  obtain ⟨hc, hl⟩ := h
  have := s.wrPos.isLt
  unfold getBits
  simp only [sat_bind, sat_get, sat_raiseIf, hc, decide_eq_true_eq, decide_eq_false_iff_not, Bool.false_eq_true,
    false_implies, true_and, true_implies]
  refine ⟨fun h hr => by unfold State.Avail at hr; omega, fun h => ?_⟩
  refine (memRead_sat (by omega)).mono (fun _ => id) ?_
  intro v t h
  have hv := h.1
  have ht := h.2
  clear h
  subst hv ht
  have hlt : t.rdPos.toNat + n < 2 ^ 32 := by omega
  have hval : (BitVec.ofInt 32 ((t.rdPos.toNat : Int) + (n : Int))).toNat = t.rdPos.toNat + n := by
    rw [toNat_ofInt_of_fits (by omega) (by omega)]; omega
  unfold setRdPos
  rw [sat_assign, sat_pure]
  exact ⟨by rw [fitsU_iff]; omega, by unfold State.Avail; omega, rfl, by simp only [hc], hval⟩

end Sys2Proof.Machine
end

