-- ==== Sys2Proof/Laws/Context.lean ====
section
/-! SUPPORT. What reading and adapting a context cell can do, and the numbers of the LPS width and of NumRenorm
(40_context.md R124 to R128, 41_encoder.md R141). -/

namespace Sys2Proof.Machine

/-- NumRenorm is the smallest shift that brings an LPS width to 256 (41_encoder.md R141); at most 7 from 2 on. -/
theorem numRenorm_spec {r : Nat} (h1 : 1 ≤ r) (h2 : r ≤ 255) :
    256 ≤ r * 2 ^ numRenorm r ∧ r * 2 ^ numRenorm r ≤ 510 ∧ (∀ m, 256 ≤ r * 2 ^ m → numRenorm r ≤ m) ∧
      (2 ≤ r → numRenorm r ≤ 7) := by
  have key : 256 ≤ r * 2 ^ numRenorm r ∧ r * 2 ^ numRenorm r ≤ 510 ∧ (2 ≤ r → numRenorm r ≤ 7) := by
    simp only [numRenorm, doublings]
    split_ifs <;> norm_num <;> omega
  refine ⟨key.1, key.2.1, fun m hm => ?_, key.2.2⟩
  by_contra hlt
  have : r * 2 ^ (m + 1) ≤ r * 2 ^ numRenorm r := Nat.mul_le_mul_left _ (Nat.pow_le_pow_right (by omega) (by omega))
  rw [pow_succ] at this
  have := key.2.1
  nlinarith

/-- The bounds of 40_context.md R128 on every LPS width. -/
theorem lpsWidth_bounds {c : Config} (h : Config.rangesLegal c.rangeTabLps = true) (st : BitVec 6) (r : Nat) :
    2 ≤ lpsWidth c st r ∧ lpsWidth c st r ≤ 128 + 64 * (r / 64 % 4) ∧ lpsWidth c st r ≤ 255 := by
  have hm : (c.rangeTabLps[st.toNat]'st.isLt) ∈ c.rangeTabLps.toList := by
    rw [Vector.mem_toList_iff]; exact Vector.getElem_mem _
  have hl := (List.all_eq_true.1 h) _ hm
  simp only [Bool.and_eq_true, decide_eq_true_eq] at hl
  obtain ⟨⟨⟨⟨a1, a2⟩, b1, b2⟩, c1, c2⟩, d1, d2⟩ := hl
  have key : ∀ q, (hq : q < 4) → 2 ≤ ((c.rangeTabLps[st.toNat]'st.isLt)[q]'hq).toNat ∧
      ((c.rangeTabLps[st.toNat]'st.isLt)[q]'hq).toNat ≤ 128 + 64 * q := by
    intro q hq
    interval_cases q <;> constructor <;> assumption
  have := key (r / 64 % 4) (Nat.mod_lt _ (by decide))
  refine ⟨this.1, this.2, ?_⟩
  have := (((c.rangeTabLps[st.toNat]'st.isLt)[r / 64 % 4]'(Nat.mod_lt _ (by decide)))).isLt
  unfold lpsWidth
  omega

/-- In the coder's range the MPS part is at least 128, so that one doubling renormalises it (40_context.md R128). -/
theorem lpsWidth_le {c : Config} (h : Config.rangesLegal c.rangeTabLps = true) (st : BitVec 6) {r : Nat}
    (h1 : 256 ≤ r) (h2 : r ≤ 510) : lpsWidth c st r + 128 ≤ r := by
  have := (lpsWidth_bounds h st r).2.1
  omega

theorem readCtx_sat {s : State} {i : Nat} {cell : CtxCell} {R : Cause → Prop} (h : s.ctx[i]? = some cell) :
    Sat (readCtx i) s R fun c t => c = cell ∧ t = s := by
  simp [Sat, readCtx, h]

/-- UpdateMPS (40_context.md R124) changes the one cell. -/
theorem updateMps_sat {s : State} {i : Nat} {cell : CtxCell} {R : Cause → Prop} (h : s.ctx[i]? = some cell) :
    Sat (updateMps i) s R fun _ t => t = { s with ctx := s.ctx.set i (adaptMps s.cfg cell) } := by
  simp [Sat, updateMps, readCtx, writeCtx, h]

/-- UpdateLPS (40_context.md R125) changes the one cell. -/
theorem updateLps_sat {s : State} {i : Nat} {cell : CtxCell} {R : Cause → Prop} (h : s.ctx[i]? = some cell) :
    Sat (updateLps i) s R fun _ t => t = { s with ctx := s.ctx.set i (adaptLps s.cfg cell) } := by
  simp [Sat, updateLps, readCtx, writeCtx, h]

theorem getElem?_of_lt {s : State} {i : Nat} (h : i < s.ctx.length) : ∃ cell, s.ctx[i]? = some cell :=
  ⟨s.ctx[i], List.getElem?_eq_getElem h⟩

end Sys2Proof.Machine
end

