-- ==== Sys2Proof/Laws/Encoder.lean ====
section
/-! SUPPORT. What the encoder's shared procedures can do (41_encoder.md R141, R142, R144, R145): the held run, the
write-out with its carry, a context bin, a bypass bin; the ranges they keep. -/

namespace Sys2Proof.Machine

/-! Bytes appended one by one. -/

/-- PutBits of one byte at a byte boundary, seen byte by byte (20_memory.md R61, R64). -/
theorem read_writeBits_byte {m : Memory} (h : m.wf = true) {addr v : Nat} (ha : addr % 8 = 0) (k : Nat) :
    ((m.writeBits addr 8 v).read k).toNat = if k = addr / 8 then v % 256 else (m.read k).toNat := by
  by_cases e : k = addr / 8
  · rw [if_pos e]
    apply Nat.eq_of_testBit_eq
    intro i
    rw [show (256 : Nat) = 2 ^ 8 from rfl, Nat.testBit_mod_two_pow]
    by_cases hi : i < 8
    · have := Memory.bit_writeBits h addr 8 v (8 * k + (7 - i))
      rw [if_pos (by omega)] at this
      unfold Memory.bit at this
      rw [show (8 * k + (7 - i)) / 8 = k by omega, show 7 - (8 * k + (7 - i)) % 8 = i by omega,
        show 8 - 1 - (8 * k + (7 - i) - addr) = i by omega] at this
      rw [BitVec.testBit_toNat, this]
      simp [hi]
    · rw [BitVec.testBit_toNat, BitVec.getLsbD_of_ge _ _ (by omega)]
      simp [hi]
  · rw [if_neg e]
    congr 1
    apply Memory.read_eq_of_bits
    intro i hi
    rw [Memory.bit_writeBits h, if_neg (by omega)]

/-- `t` is `s` after `m` whole bytes `f 0, f 1, ..` went out at a byte boundary. -/
structure State.Bytes (s : State) (m : Nat) (f : Nat → Nat) (t : State) : Prop where
  frame : t = { s with store := t.store, bbCap := t.bbCap, wrPos := t.wrPos, encNumBuf := t.encNumBuf
                       encBufByte := t.encBufByte }
  pos : t.wrPos.toNat = s.wrPos.toNat + 8 * m
  counting : s.count = true → t.store = s.store ∧ t.bbCap = s.bbCap
  real : s.count = false → t.store.wf = true ∧ ∀ k, (t.store.read k).toNat =
    if s.wrPos.toNat / 8 ≤ k ∧ k < s.wrPos.toNat / 8 + m then f (k - s.wrPos.toNat / 8) else (s.store.read k).toNat
  fit : s.count = false → s.wrPos.toNat ≤ 32 * s.bbCap.toNat → t.wrPos.toNat ≤ 32 * t.bbCap.toNat
  cap : Config.isCapacity t.bbCap.toNat = true ∧ s.bbCap.toNat ≤ t.bbCap.toNat ∧ t.bbCap.toNat ≤ s.cfg.capMax
  grown : s.Grown t

theorem State.Bytes.capOk {s t : State} {m : Nat} {f : Nat → Nat} (h : s.Bytes m f t) (hc : s.CapOk) : t.CapOk := by
  have hf : t.cfg = s.cfg := by rw [h.frame]
  have hn : t.count = s.count := by rw [h.frame]
  exact ⟨hf ▸ hc.legal, h.cap.1, by rw [hf]; exact hc.lo.trans h.cap.2.1, by rw [hf]; exact h.cap.2.2,
    fun g => h.fit (hn ▸ g) (hc.fit (hn ▸ g))⟩

theorem State.Bytes.count_eq {s t : State} {m : Nat} {f : Nat → Nat} (h : s.Bytes m f t) : t.count = s.count := by
  rw [h.frame]

theorem State.Bytes.cfg_eq {s t : State} {m : Nat} {f : Nat → Nat} (h : s.Bytes m f t) : t.cfg = s.cfg := by
  rw [h.frame]

theorem State.bytes_refl {s : State} {f : Nat → Nat} (hc : s.CapOk) (hw : s.store.wf = true) : s.Bytes 0 f s where
  frame := rfl
  pos := rfl
  counting _ := ⟨rfl, rfl⟩
  real _ := ⟨hw, fun k => by rw [if_neg (by omega)]⟩
  fit _ h := h
  cap := ⟨hc.power, le_rfl, hc.hi⟩
  grown := State.Grown.refl s

/-- One more byte. -/
theorem State.Bytes.put {s t u : State} {m v : Nat} {f : Nat → Nat} (h : s.Bytes m f t) (ha : s.wrPos.toNat % 8 = 0)
    (hp : t.Put 8 v u) (hv : v < 256) (hf : f m = v) :
    s.Bytes (m + 1) f u where
  frame := by
    have h1 := h.frame
    have h2 := hp.frame
    rw [h2, h1]
  pos := by rw [hp.pos, h.pos]; ring
  counting hc := by
    have hct : t.count = true := by rw [h.count_eq, hc]
    rw [(hp.counting hct).1, (hp.counting hct).2]
    exact h.counting hc
  real hc := by
    have hct : t.count = false := by rw [h.count_eq, hc]
    obtain ⟨hwf, hread⟩ := h.real hc
    refine ⟨hp.wf hwf, fun k => ?_⟩
    have hpos := h.pos
    rw [(hp.real hct).1, read_writeBits_byte hwf (by omega), hread k, hpos]
    by_cases e : k = (s.wrPos.toNat + 8 * m) / 8
    · rw [if_pos e, if_pos (by omega), show k - s.wrPos.toNat / 8 = m by omega, hf, Nat.mod_eq_of_lt hv]
    · rw [if_neg e]
      by_cases g : s.wrPos.toNat / 8 ≤ k ∧ k < s.wrPos.toNat / 8 + m
      · rw [if_pos g, if_pos (by omega)]
      · rw [if_neg g, if_neg (by omega)]
  fit hc _ := by
    have hct : t.count = false := by rw [h.count_eq, hc]
    exact (hp.real hct).2
  cap := ⟨hp.cap.1, h.cap.2.1.trans hp.cap.2.1, by rw [← h.cfg_eq]; exact hp.cap.2.2⟩
  grown := h.grown.trans hp.grown h.count_eq (by rw [hp.pos]; omega)

theorem State.Bytes.grew {s t : State} {m : Nat} {f : Nat → Nat} (h : s.Bytes m f t)
    (ha : s.wrPos.toNat % 8 = 0) : s.Grew t where
  wf hw := by
    cases hcc : s.count with
    | true => rw [(h.counting hcc).1]; exact hw
    | false => exact (h.real hcc).1
  pos := by rw [h.pos]; omega
  below _ p hp := by
    cases hcc : s.count with
    | true => rw [(h.counting hcc).1]
    | false =>
      have := (h.real hcc).2 (p / 8)
      unfold Memory.bit
      rw [if_neg (by omega)] at this
      rw [BitVec.eq_of_toNat_eq this]
  fit := h.fit
  cap := h.capOk
  count := h.count_eq
  cfg := h.cfg_eq

/-- Room for `m` bytes more is what the next PutBits needs. -/
theorem State.Bytes.room {s t : State} {m : Nat} {f : Nat → Nat} (h : s.Bytes m f t) {k : Nat}
    (hr : s.Room (8 * (m + k))) : t.Room (8 * k) := by
  obtain ⟨a, b⟩ := hr
  have hpos := h.pos
  refine ⟨by rw [hpos]; omega, fun hc => ?_⟩
  have := b (by rw [← h.count_eq]; exact hc)
  rw [hpos, h.cfg_eq]; omega

/-- Bytes that went out had room. -/
theorem State.Bytes.had_room {s t : State} {m : Nat} {f : Nat → Nat} (h : s.Bytes m f t) (hc : s.CapOk) :
    s.Room (8 * m) := by
  have h1 := h.pos
  have h2 := t.wrPos.isLt
  refine ⟨by omega, fun hcc => ?_⟩
  have h3 := h.fit hcc (hc.fit hcc)
  have h4 := h.cap.2.2
  omega

/-- While a bin is being coded (10_state.md R28 to R30): as between commands, with ENC_BITSLEFT down to 5. -/
structure State.EncMid (s : State) : Prop where
  lo : 5 ≤ s.encBitsLeft.toNat
  hi : s.encBitsLeft.toNat ≤ 23
  rlo : 256 ≤ s.encRange.toNat
  rhi : s.encRange.toNat ≤ 510
  none : s.encNumBuf.toNat = 0 → s.encLow.toNat + s.encRange.toNat ≤ 510 * 2 ^ (23 - s.encBitsLeft.toNat)
  held : 0 < s.encNumBuf.toNat → s.encBitsLeft.toNat ≤ 19 ∧ s.encBufByte ≠ 0xFF ∧
    s.encLow.toNat + s.encRange.toNat ≤ 2 ^ (32 - s.encBitsLeft.toNat) + 510 * 2 ^ (19 - s.encBitsLeft.toNat)
  aligned : s.wrPos.toNat % 8 = 0

/-- The bytes of the held run as they go out: the held byte with the carry, then the 0xFF bytes with the carry
(41_encoder.md R142). -/
def State.heldByte (s : State) (carry : Nat) (i : Nat) : Nat :=
  if i = 0 then (s.encBufByte.toNat + carry) % 256 else (0xFF + carry) % 256

theorem toNat_ofInt_sub {w a b : Nat} (h : b ≤ a) (ha : a < 2 ^ w) :
    (BitVec.ofInt w ((a : Int) - (b : Int))).toNat = a - b := by
  rw [toNat_ofInt_of_fits (by omega) (by have : ((a : Int)) < 2 ^ w := by exact_mod_cast ha
                                         omega)]
  omega

/-- The release loop (41_encoder.md R142, R147): ENC_NUMBUF - 1 bytes go out and ENC_NUMBUF falls to 1. -/
theorem releaseRun_sat {s0 s : State} {v m : Nat} {f : Nat → Nat} (hc : s0.CapOk) (hv : v < 256)
    (hb : s0.Bytes m f s) (ha : s0.wrPos.toNat % 8 = 0)
    (hf : ∀ i, m ≤ i → i < m + (s.encNumBuf.toNat - 1) → f i = v) :
    Sat (releaseRun v) s (fun c => c = s0.outCause ∧ ¬ s0.Room (8 * (m + (s.encNumBuf.toNat - 1)))) fun _ t =>
      s0.Bytes (m + (s.encNumBuf.toNat - 1)) f t ∧ t.encBufByte = s.encBufByte ∧
        t.encNumBuf.toNat = min s.encNumBuf.toNat 1 := by
  unfold releaseRun
  rw [sat_bind, sat_get]
  have hnb := s.encNumBuf.isLt
  refine (sat_repeat (P := fun k t => s0.Bytes (m + k) f t ∧ t.encBufByte = s.encBufByte ∧
    t.encNumBuf.toNat = s.encNumBuf.toNat - k) ⟨hb, rfl, rfl⟩ fun k t hk ht => ?_).mono (fun _ => id) fun _ t ht => ?_
  · obtain ⟨h1, h2, h3⟩ := ht
    unfold releaseOne
    simp only [sat_bind, sat_get]
    refine (putBits_sat (h1.capOk hc) (by omega) (by omega)).mono
      (fun _ h => ⟨h.1.trans (h1.grew ha).outCause, fun hr => h.2 (h1.room (k := 1) ?_)⟩) fun _ u hu => ?_
    · exact ⟨by have := hr.1; omega, fun hcc => by have := hr.2 hcc; omega⟩
    · have hput := hu.1
      have hn : u.encNumBuf = t.encNumBuf := by rw [hput.frame]
      have hbb : u.encBufByte = t.encBufByte := by rw [hput.frame]
      have hbytes := h1.put ha hput hv (hf _ (by omega) (by omega))
      unfold setEncNumBuf
      rw [sat_assign]
      have e : (1 : Int) = ((1 : Nat) : Int) := rfl
      rw [e]
      have hval := toNat_ofInt_sub (w := 32) (a := u.encNumBuf.toNat) (b := 1) (by rw [hn, h3]; omega) u.encNumBuf.isLt
      refine ⟨?_, ⟨?_, hbytes.pos, hbytes.counting, hbytes.real, hbytes.fit, hbytes.cap, hbytes.grown⟩, ?_, ?_⟩
      · rw [fitsU_iff, hn, h3]; omega
      · have := hbytes.frame
        simp only at this ⊢
        rw [this]
      · simp only [hbb, h2]
      · refine hval.trans ?_
        rw [hn, h3]; omega
  · exact ⟨ht.1, ht.2.1, by rw [ht.2.2]; omega⟩

/-- The numbers of a write-out (41_encoder.md R142): the lead byte with its carry is below 272, it is below 0xFF when
nothing is held, and what stays in ENC_LOW fits. -/
theorem writeOut_arith {bl low r n : Nat} (h5 : 5 ≤ bl) (h12 : bl < 12) (hr0 : 0 < r) (hr : r ≤ 510)
    (h0 : n = 0 → low + r ≤ 510 * 2 ^ (23 - bl)) (h1 : 0 < n → low + r ≤ 2 ^ (32 - bl) + 510 * 2 ^ (19 - bl)) :
    low / 2 ^ (24 - bl) < 272 ∧ (n = 0 → low / 2 ^ (24 - bl) < 255) ∧ low % 2 ^ (24 - bl) < 2 ^ 32 ∧
    low % 2 ^ (24 - bl) + r ≤ 2 ^ (32 - (bl + 8)) + 510 * 2 ^ (19 - (bl + 8)) := by
  rcases Nat.eq_zero_or_pos n with hn | hn
  · replace h0 := h0 hn
    clear h1
    interval_cases bl <;> norm_num at * <;> omega
  · replace h1 := h1 hn
    clear h0
    interval_cases bl <;> norm_num at * <;> omega

/-- WriteOut (41_encoder.md R142): what it does, that it keeps the ranges, and that it fails only with the fault R142 gives it. -/
theorem writeOut_sat {s : State} (hm : s.EncMid) (hc : s.CapOk) (hw : s.store.wf = true)
    (hb : s.encBitsLeft.toNat < 12) :
    Sat writeOut s (fun c => s.outFault s.encLow.toNat s.encBitsLeft.toNat = some c) fun _ t =>
      s.outFault s.encLow.toNat s.encBitsLeft.toNat = none ∧
      s.WroteOut s.encLow.toNat s.encBitsLeft.toNat t ∧ t.EncMid ∧ 12 ≤ t.encBitsLeft.toNat ∧
      t.encBitsLeft.toNat ≤ 19 ∧ s.Grew t ∧
      t = { s with encLow := t.encLow, encBitsLeft := t.encBitsLeft, encNumBuf := t.encNumBuf
                   encBufByte := t.encBufByte, store := t.store, bbCap := t.bbCap, wrPos := t.wrPos } := by
  obtain ⟨m1, m2, m3, m4, m5, m6, m7⟩ := hm
  obtain ⟨a1, a2, a3, a4⟩ := writeOut_arith m1 hb (by omega) m4 m5 fun h => (m6 h).2.2
  have hnb := s.encNumBuf.isLt
  have e8 : (8 : Int) = ((8 : Nat) : Int) := rfl
  have e1 : (1 : Int) = ((1 : Nat) : Int) := rfl
  have e : 32 - (s.encBitsLeft.toNat + 8) = 24 - s.encBitsLeft.toNat := by omega
  unfold writeOut
  rw [sat_bind, sat_get]
  simp only [sat_bind, setEncBitsLeft, setEncLow, setEncNumBuf, setEncBufByte, sat_assign, e8, e1, ← Nat.cast_add,
    fitsU_natCast, ofInt_natCast, decide_eq_true_eq, e]
  refine ⟨by omega, a3, ?_⟩
  have vbl : (BitVec.ofNat 5 (s.encBitsLeft.toNat + 8)).toNat = s.encBitsLeft.toNat + 8 := by
    rw [BitVec.toNat_ofNat]; omega
  have vlow : (BitVec.ofNat 32 (s.encLow.toNat % 2 ^ (24 - s.encBitsLeft.toNat))).toNat =
      s.encLow.toNat % 2 ^ (24 - s.encBitsLeft.toNat) := by
    rw [BitVec.toNat_ofNat]; exact Nat.mod_eq_of_lt a3
  generalize hlead : s.encLow.toNat / 2 ^ (24 - s.encBitsLeft.toNat) = lead at a1 a2 ⊢
  simp only [sat_ite, sat_bind, sat_raiseIf, sat_assign, decide_eq_true_eq, decide_eq_false_iff_not]
  refine ⟨fun hff => ⟨fun h => ?_, fun h => ⟨by omega, ?_⟩⟩, fun hff => ⟨fun hpos => ?_, fun hz => ?_⟩⟩
  · unfold State.outFault
    rw [if_neg (by omega), hlead, if_pos hff, if_neg (by omega)]
  · have vn : (BitVec.ofNat 32 (s.encNumBuf.toNat + 1)).toNat = s.encNumBuf.toNat + 1 := by
      rw [BitVec.toNat_ofNat]; omega
    have hpos : 0 < s.encNumBuf.toNat := by
      rcases Nat.eq_zero_or_pos s.encNumBuf.toNat with hz | hz
      · exact absurd (a2 hz) (by omega)
      · exact hz
    refine ⟨?_, ?_, ⟨?_, ?_, m3, m4, fun h => ?_, fun _ => ⟨?_, (m6 hpos).2.1, ?_⟩, m7⟩, ?_, ?_, ?_, by trivial⟩
    · unfold State.outFault
      rw [if_neg (by omega), hlead, if_pos hff, if_pos (by omega)]
    · unfold State.WroteOut
      rw [if_neg (by omega), hlead, if_pos hff]
      exact ⟨vlow, vbl, vn, rfl, rfl, rfl, rfl⟩
    · simp only [vbl]; omega
    · simp only [vbl]; omega
    · simp only [vn] at h; omega
    · simp only [vbl]; omega
    · simp only [vbl, vlow]; exact a4
    · simp only [vbl]; omega
    · simp only [vbl]; omega
    · exact State.Grew.of_eq rfl rfl rfl rfl rfl
  · generalize hu : ({ s with
        encLow := BitVec.ofNat 32 (s.encLow.toNat % 2 ^ (24 - s.encBitsLeft.toNat))
        encBitsLeft := BitVec.ofNat 5 (s.encBitsLeft.toNat + 8) } : State) = u
    have u1 : u.encLow.toNat = s.encLow.toNat % 2 ^ (24 - s.encBitsLeft.toNat) := by rw [← hu]; exact vlow
    have u2 : u.encBitsLeft.toNat = s.encBitsLeft.toNat + 8 := by rw [← hu]; exact vbl
    have u3 : u.encNumBuf = s.encNumBuf := by rw [← hu]
    have u4 : u.wrPos = s.wrPos := by rw [← hu]
    have u5 : u.store = s.store := by rw [← hu]
    have u6 : u.count = s.count := by rw [← hu]
    have u7 : u.cfg = s.cfg := by rw [← hu]
    have u8 : u.bbCap = s.bbCap := by rw [← hu]
    have u9 : u.encRange = s.encRange := by rw [← hu]
    have u10 : u.encBufByte = s.encBufByte := by rw [← hu]
    have hgu : s.Grew u := State.Grew.of_eq u5 u4 u8 u6 u7
    have hcu : u.CapOk := hgu.cap hc
    have hau : u.wrPos.toNat % 8 = 0 := by rw [u4]; exact m7
    have hroom : ∀ n, u.Room n ↔ s.Room n := fun n => by unfold State.Room; rw [u4, u6, u7]
    have hout : ¬ s.Room (8 * s.encNumBuf.toNat) →
        s.outFault s.encLow.toNat s.encBitsLeft.toNat = some s.outCause := fun h => by
      unfold State.outFault
      rw [if_neg (by omega), hlead, if_neg hff, if_neg h]
    refine (putBits_sat hcu (by omega) (by omega)).mono (fun c h => ?_) fun _ t ht => ?_
    · rw [h.1, hgu.outCause]
      exact hout fun hr => h.2 ((hroom 8).2 ⟨by have := hr.1; omega, fun hcc => by have := hr.2 hcc; omega⟩)
    have hput := ht.1
    have hb1 := (State.bytes_refl (f := u.heldByte (lead / 256)) hcu (by rw [u5]; exact hw)).put hau hput (by omega)
      (by show _ = (s.encBufByte.toNat + lead / 256) % 256; unfold State.heldByte; rw [if_pos rfl, u10])
    have tn : t.encNumBuf = s.encNumBuf := by rw [hput.frame]; exact u3
    generalize htt : ({ t with encBufByte := BitVec.ofNat 8 (lead % 2 ^ 8) } : State) = t'
    have hb2 : u.Bytes (0 + 1) (u.heldByte (lead / 256)) t' := by
      rw [← htt]
      refine ⟨?_, hb1.pos, hb1.counting, hb1.real, hb1.fit, hb1.cap, hb1.grown⟩
      have := hb1.frame
      simp only at this ⊢
      rw [this]
    have tn' : t'.encNumBuf = s.encNumBuf := by rw [← htt]; exact tn
    have tbb : t'.encBufByte.toNat = lead % 256 := by
      rw [← htt]
      show (BitVec.ofNat 8 (lead % 2 ^ 8)).toNat = _
      rw [BitVec.toNat_ofNat]; omega
    refine ⟨by omega, ?_⟩
    refine (releaseRun_sat hcu (by omega) hb2 hau fun i hi _ => ?_).mono (fun c h => ?_) fun _ v hv => ?_
    · show _ = (0xFF + lead / 256) % 256
      unfold State.heldByte; rw [if_neg (by omega)]
    · rw [tn', show 0 + 1 + (s.encNumBuf.toNat - 1) = s.encNumBuf.toNat by omega] at h
      rw [h.1, hgu.outCause]
      exact hout fun hr => h.2 ((hroom _).2 hr)
    rw [tn', show 0 + 1 + (s.encNumBuf.toNat - 1) = s.encNumBuf.toNat by omega] at hv
    obtain ⟨hvb, hvbuf, hvn⟩ := hv
    rw [Nat.min_eq_right (by omega)] at hvn
    have hfr := hvb.frame
    have v1 : v.encLow = u.encLow := by rw [hfr]
    have v2 : v.encBitsLeft = u.encBitsLeft := by rw [hfr]
    have v3 : v.encRange = s.encRange := by rw [hfr]; exact u9
    have vpos : v.wrPos.toNat = s.wrPos.toNat + 8 * s.encNumBuf.toNat := by rw [hvb.pos, u4]
    have vbuf : v.encBufByte.toNat = lead % 256 := by rw [hvbuf]; exact tbb
    refine ⟨?_, ?_, ⟨?_, ?_, ?_, ?_, fun h => ?_, fun _ => ⟨?_, fun h => ?_, ?_⟩, ?_⟩, ?_, ?_, hgu.trans (hvb.grew hau),
      ?_⟩
    · unfold State.outFault
      rw [if_neg (by omega), hlead, if_neg hff, if_pos ((hroom _).1 (hvb.had_room hcu))]
    · unfold State.WroteOut
      rw [if_neg (by omega), hlead, if_neg hff, if_neg (by omega)]
      refine ⟨by rw [v1, u1], by rw [v2, u2], hvn, vbuf, vpos, ⟨fun h => ?_, fun h => ?_⟩, fun h => ?_, fun h k => ?_⟩
      · have := hvb.grown.1 (u6.trans h)
        rw [u8] at this
        exact this
      · have := hvb.grown.2 (u6.trans h)
        rw [u8] at this
        exact this
      · have := (hvb.counting (u6.trans h)).1
        rw [u5] at this
        exact this
      · rw [(hvb.real (u6.trans h)).2 k, u4, u5]
        unfold State.heldByte
        rw [u10]
        by_cases g : s.wrPos.toNat / 8 ≤ k ∧ k < s.wrPos.toNat / 8 + s.encNumBuf.toNat
        · rw [if_pos g]
          by_cases g' : k = s.wrPos.toNat / 8
          · rw [if_pos (by omega), if_pos g']
          · rw [if_neg (by omega), if_neg g', if_pos (by omega)]
        · rw [if_neg g, if_neg (by omega), if_neg (by omega)]
    · rw [v2, u2]; omega
    · rw [v2, u2]; omega
    · rw [v3]; exact m3
    · rw [v3]; exact m4
    · omega
    · rw [v2, u2]; omega
    · have := congrArg BitVec.toNat h
      rw [vbuf] at this
      have e255 : (0xFF : BitVec 8).toNat = 255 := rfl
      omega
    · rw [v1, v2, v3, u1, u2]; exact a4
    · rw [vpos]; omega
    · rw [v2, u2]; omega
    · rw [v2, u2]; omega
    · rw [hfr, ← hu]
  · have hn0 : s.encNumBuf.toNat = 0 := by omega
    have hlt : lead < 255 := a2 hn0
    have vbuf : (BitVec.ofNat 8 (lead % 2 ^ 8)).toNat = lead := by rw [BitVec.toNat_ofNat]; omega
    refine ⟨by norm_num [fitsU], by omega, ?_⟩
    have v1 : (BitVec.ofNat 32 1).toNat = 1 := rfl
    refine ⟨?_, ?_, ⟨?_, ?_, m3, m4, fun h => ?_, fun _ => ⟨?_, fun h => ?_, ?_⟩, m7⟩, ?_, ?_, ?_, by trivial⟩
    · unfold State.outFault
      rw [if_neg (by omega), hlead, if_neg hff, if_pos]
      exact ⟨by have := s.wrPos.isLt; omega, fun hcc => by have := hc.fit hcc; have := hc.hi; omega⟩
    · unfold State.WroteOut
      rw [if_neg (by omega), hlead, if_neg hff, if_pos hn0]
      exact ⟨vlow, vbl, v1, vbuf.trans (by omega), rfl, rfl, rfl⟩
    · simp only [vbl]; omega
    · simp only [vbl]; omega
    · simp only [v1] at h; omega
    · simp only [vbl]; omega
    · have := congrArg BitVec.toNat h
      simp only [vbuf] at this
      have e255 : (0xFF : BitVec 8).toNat = 255 := rfl
      omega
    · simp only [vbl, vlow]; exact a4
    · simp only [vbl]; omega
    · simp only [vbl]; omega
    · exact State.Grew.of_eq rfl rfl rfl rfl rfl

/-- `t` is `s` after TestWriteOut (41_encoder.md R142) for the values `low` and `bl` of ENC_LOW and ENC_BITSLEFT. -/
structure State.Tested (s : State) (low bl : Nat) (t : State) : Prop where
  fine : s.outFault low bl = none
  wrote : s.WroteOut low bl t
  mid : t.EncMid
  lo : 12 ≤ t.encBitsLeft.toNat
  le : bl ≤ 19 → t.encBitsLeft.toNat ≤ 19
  grew : s.Grew t

theorem testWriteOut_sat {s : State} (hm : s.EncMid) (hc : s.CapOk) (hw : s.store.wf = true) :
    Sat testWriteOut s (fun c => s.outFault s.encLow.toNat s.encBitsLeft.toNat = some c) fun _ t =>
      s.Tested s.encLow.toNat s.encBitsLeft.toNat t ∧
      t = { s with encLow := t.encLow, encBitsLeft := t.encBitsLeft, encNumBuf := t.encNumBuf
                   encBufByte := t.encBufByte, store := t.store, bbCap := t.bbCap, wrPos := t.wrPos } := by
  unfold testWriteOut
  simp only [sat_bind, sat_get, sat_ite, sat_pure]
  refine ⟨fun h => ?_, fun h => ⟨⟨?_, ?_, hm, by omega, id, State.Grew.refl s⟩, by trivial⟩⟩
  · refine (writeOut_sat hm hc hw h).mono (fun _ => id) fun _ t ht => ?_
    obtain ⟨a, b, c, d, e, f, g⟩ := ht
    exact ⟨⟨a, b, c, d, fun _ => e, f⟩, g⟩
  · unfold State.outFault
    rw [if_pos (by omega)]
  · unfold State.WroteOut
    rw [if_pos (by omega)]
    exact ⟨rfl, rfl, rfl, rfl, rfl, rfl, rfl⟩

/-- The write-out looks at the held run and the bit buffer only. -/
theorem State.WroteOut.congr {s u t : State} {low bl : Nat} (h : u.WroteOut low bl t) (h1 : u.encNumBuf = s.encNumBuf)
    (h2 : u.encBufByte = s.encBufByte) (h3 : u.wrPos = s.wrPos) (h4 : u.store = s.store) (h5 : u.bbCap = s.bbCap)
    (h6 : u.count = s.count) : s.WroteOut low bl t := by
  unfold State.WroteOut State.Grown at *
  rw [h1, h2, h3, h4, h5, h6] at h
  exact h

/-- So does its fault. -/
theorem State.outFault_congr {s u : State} {low bl : Nat} (h1 : u.encNumBuf = s.encNumBuf) (h2 : u.wrPos = s.wrPos)
    (h3 : u.count = s.count) (h4 : u.cfg = s.cfg) : u.outFault low bl = s.outFault low bl := by
  unfold State.outFault State.Room State.outCause
  rw [h1, h2, h3, h4]

/-- Renormalising by `n` keeps the ranges (41_encoder.md R140): the interval grows by 2^n as ENC_BITSLEFT falls by n. -/
theorem State.EncMid.scale {s u : State} (hm : s.EncMid) {n : Nat} (hn : n ≤ 7) (hlo : 12 ≤ s.encBitsLeft.toNat)
    (h1 : u.encBitsLeft.toNat = s.encBitsLeft.toNat - n) (h2 : 256 ≤ u.encRange.toNat) (h3 : u.encRange.toNat ≤ 510)
    (h4 : u.encLow.toNat + u.encRange.toNat ≤ (s.encLow.toNat + s.encRange.toNat) * 2 ^ n)
    (h5 : u.encNumBuf = s.encNumBuf) (h6 : u.encBufByte = s.encBufByte) (h7 : u.wrPos = s.wrPos) : u.EncMid where
  lo := by omega
  hi := by have := hm.hi; omega
  rlo := h2
  rhi := h3
  none h := by
    have := hm.none (by rw [← h5]; exact h)
    have hi := hm.hi
    rw [h1, show 23 - (s.encBitsLeft.toNat - n) = (23 - s.encBitsLeft.toNat) + n by omega, pow_add]
    nlinarith [Nat.mul_le_mul_right (2 ^ n) this]
  held h := by
    obtain ⟨a, b, c⟩ := hm.held (by rw [← h5]; exact h)
    refine ⟨by omega, by rw [h6]; exact b, ?_⟩
    rw [h1, show 32 - (s.encBitsLeft.toNat - n) = (32 - s.encBitsLeft.toNat) + n by omega,
      show 19 - (s.encBitsLeft.toNat - n) = (19 - s.encBitsLeft.toNat) + n by omega, pow_add, pow_add]
    nlinarith [Nat.mul_le_mul_right (2 ^ n) c]
  aligned := by rw [h7]; exact hm.aligned

/-- Between commands the interval is below 2^21, so that no renormalisation passes 28 bits (10_state.md R28). -/
theorem State.EncMid.low_lt {s : State} (hm : s.EncMid) (hlo : 12 ≤ s.encBitsLeft.toNat) :
    s.encLow.toNat + s.encRange.toNat ≤ 2 ^ 21 := by
  have hhi := hm.hi
  rcases Nat.eq_zero_or_pos s.encNumBuf.toNat with h | h
  · have := hm.none h
    have : 2 ^ (23 - s.encBitsLeft.toNat) ≤ 2 ^ 11 := Nat.pow_le_pow_right (by omega) (by omega)
    omega
  · obtain ⟨a, -, c⟩ := hm.held h
    have h1 : 2 ^ (32 - s.encBitsLeft.toNat) ≤ 2 ^ 20 := Nat.pow_le_pow_right (by omega) (by omega)
    have h2 : 2 ^ (19 - s.encBitsLeft.toNat) ≤ 2 ^ 7 := Nat.pow_le_pow_right (by omega) (by omega)
    omega

/-- TestWriteOut after a renormalisation by `n` in the state `u`, told from the state `s` the bin started from. -/
theorem testWriteOut_of {s u : State} (hm : s.EncMid) (hlo : 12 ≤ s.encBitsLeft.toNat) (hc : s.CapOk)
    (hw : s.store.wf = true) (n : Nat) (hn : n ≤ 7) {low bl : Nat} (hlow : u.encLow.toNat = low)
    (hbl : u.encBitsLeft.toNat = bl) (h1 : bl = s.encBitsLeft.toNat - n)
    (h2 : 256 ≤ u.encRange.toNat) (h3 : u.encRange.toNat ≤ 510)
    (h4 : low + u.encRange.toNat ≤ (s.encLow.toNat + s.encRange.toNat) * 2 ^ n)
    (h5 : u.encNumBuf = s.encNumBuf) (h6 : u.encBufByte = s.encBufByte) (h7 : u.wrPos = s.wrPos)
    (h8 : u.store = s.store) (h9 : u.bbCap = s.bbCap) (h10 : u.count = s.count) (h11 : u.cfg = s.cfg) :
    Sat testWriteOut u (fun c => s.outFault low bl = some c) fun _ t =>
      s.Tested low bl t ∧
      t = { u with encLow := t.encLow, encBitsLeft := t.encBitsLeft, encNumBuf := t.encNumBuf
                   encBufByte := t.encBufByte, store := t.store, bbCap := t.bbCap, wrPos := t.wrPos } := by
  subst hlow hbl
  have hg : s.Grew u := State.Grew.of_eq h8 h7 h9 h10 h11
  refine (testWriteOut_sat (hm.scale hn hlo h1 h2 h3 h4 h5 h6 h7) (hg.cap hc) (hg.wf hw)).mono
    (fun _ h => State.outFault_congr h5 h7 h10 h11 ▸ h) fun _ t ht => ?_
  obtain ⟨⟨a0, a, b', c, d, e⟩, f⟩ := ht
  exact ⟨⟨State.outFault_congr h5 h7 h10 h11 ▸ a0, a.congr h5 h6 h7 h8 h9 h10, b', c, d, hg.trans e⟩, f⟩

/-- EncEP (41_encoder.md R145). -/
theorem encEp_sat {s : State} {b : Bool} (hm : s.EncMid) (hlo : 12 ≤ s.encBitsLeft.toNat) (hc : s.CapOk)
    (hw : s.store.wf = true) :
    Sat (encEp b) s
      (fun c => s.outFault (2 * s.encLow.toNat + if b then s.encRange.toNat else 0) (s.encBitsLeft.toNat - 1) = some c)
      fun _ t =>
      s.Tested (2 * s.encLow.toNat + if b then s.encRange.toNat else 0) (s.encBitsLeft.toNat - 1) t ∧
      t = { s with encLow := t.encLow, encBitsLeft := t.encBitsLeft, encNumBuf := t.encNumBuf
                   encBufByte := t.encBufByte, store := t.store, bbCap := t.bbCap, wrPos := t.wrPos } := by
  have hlt := hm.low_lt hlo
  have hrlo := hm.rlo
  have hhi := hm.hi
  have e1 : (1 : Int) = ((1 : Nat) : Int) := rfl
  have hsub : (s.encBitsLeft.toNat : Int) - ((1 : Nat) : Int) = ((s.encBitsLeft.toNat - 1 : Nat) : Int) := by omega
  have vbl : (BitVec.ofNat 5 (s.encBitsLeft.toNat - 1)).toNat = s.encBitsLeft.toNat - 1 := by
    rw [BitVec.toNat_ofNat]; omega
  have v1 : (BitVec.ofNat 32 (s.encLow.toNat * 2)).toNat = s.encLow.toNat * 2 := by rw [BitVec.toNat_ofNat]; omega
  have v2 : (BitVec.ofNat 32 (s.encLow.toNat * 2 + s.encRange.toNat)).toNat =
    s.encLow.toNat * 2 + s.encRange.toNat := by rw [BitVec.toNat_ofNat]; omega
  unfold encEp
  simp only [sat_bind, sat_get, setEncLow, setEncBitsLeft, sat_assign, sat_ite, e1, hsub, fitsU_natCast,
    ofInt_natCast, decide_eq_true_eq, v1]
  refine ⟨by omega, fun hb => ⟨by omega, ⟨by omega, ?_⟩⟩, fun hb => ⟨by omega, ?_⟩⟩
  · rw [if_pos hb, show 2 * s.encLow.toNat + s.encRange.toNat = s.encLow.toNat * 2 + s.encRange.toNat by omega]
    exact testWriteOut_of hm hlo hc hw 1 (by omega) v2 vbl rfl hrlo hm.rhi (by simp only; omega)
      rfl rfl rfl rfl rfl rfl rfl
  · rw [if_neg hb, show 2 * s.encLow.toNat + 0 = s.encLow.toNat * 2 by omega]
    exact testWriteOut_of hm hlo hc hw 1 (by omega) v1 vbl rfl hrlo hm.rhi (by simp only; omega)
      rfl rfl rfl rfl rfl rfl rfl

theorem binShift_le {c : Config} (h : Config.rangesLegal c.rangeTabLps = true) (st : BitVec 6) (r : Nat) (b : Bool) :
    binShift (lpsWidth c st r) r b ≤ 7 := by
  obtain ⟨h1, -, h3⟩ := lpsWidth_bounds h st r
  unfold binShift
  split_ifs
  · omega
  · omega
  · exact (numRenorm_spec (by omega) h3).2.2.2 h1

/-- After renormalisation the range is in 256..510 again (10_state.md R29). -/
theorem binWidth_range {c : Config} (h : Config.rangesLegal c.rangeTabLps = true) (st : BitVec 6) {r : Nat}
    (h1 : 256 ≤ r) (h2 : r ≤ 510) (b : Bool) :
    256 ≤ binWidth (lpsWidth c st r) r b * 2 ^ binShift (lpsWidth c st r) r b ∧
      binWidth (lpsWidth c st r) r b * 2 ^ binShift (lpsWidth c st r) r b ≤ 510 := by
  obtain ⟨l1, -, l3⟩ := lpsWidth_bounds h st r
  have l4 := lpsWidth_le h st h1 h2
  unfold binWidth binShift
  split_ifs
  · omega
  · omega
  · have := numRenorm_spec (by omega : 1 ≤ lpsWidth c st r) l3
    exact ⟨this.1, this.2.1⟩

/-- EncBin (41_encoder.md R144). -/
theorem encBin_sat {s : State} {i : Nat} {cell : CtxCell} {b : Bool} (hcell : s.ctx[i]? = some cell) (hm : s.EncMid)
    (hlo : 12 ≤ s.encBitsLeft.toNat) (hc : s.CapOk) (hw : s.store.wf = true) :
    let lps := lpsWidth s.cfg cell.state s.encRange.toNat
    let n := binShift lps s.encRange.toNat (b == cell.mps)
    Sat (encBin i b) s
      (fun c => s.outFault ((s.encLow.toNat + if b == cell.mps then 0 else s.encRange.toNat - lps) * 2 ^ n)
        (s.encBitsLeft.toNat - n) = some c) fun _ t =>
      s.Tested ((s.encLow.toNat + if b == cell.mps then 0 else s.encRange.toNat - lps) * 2 ^ n)
        (s.encBitsLeft.toNat - n) t ∧
      t.encRange.toNat = binWidth lps s.encRange.toNat (b == cell.mps) * 2 ^ n ∧
      t = { s with ctx := s.ctx.set i (adapted s.cfg cell (b == cell.mps)), encRange := t.encRange
                   encLow := t.encLow, encBitsLeft := t.encBitsLeft, encNumBuf := t.encNumBuf
                   encBufByte := t.encBufByte, store := t.store, bbCap := t.bbCap, wrPos := t.wrPos } := by
  intro lps n
  obtain ⟨-, -, -, hrt⟩ := legal_iff.1 hc.legal
  have hlt := hm.low_lt hlo
  have hrlo := hm.rlo
  have hrhi := hm.rhi
  have hhi := hm.hi
  obtain ⟨l1, -, l3⟩ := lpsWidth_bounds hrt cell.state s.encRange.toNat
  have l4 := lpsWidth_le hrt cell.state hrlo hrhi
  have n7 : n ≤ 7 := binShift_le hrt cell.state s.encRange.toNat (b == cell.mps)
  have hwid := binWidth_range hrt cell.state hrlo hrhi (b == cell.mps)
  have hp : 2 ^ n ≤ 2 ^ 7 := Nat.pow_le_pow_right (by omega) n7
  change 256 ≤ binWidth lps s.encRange.toNat (b == cell.mps) * 2 ^ n ∧
    binWidth lps s.encRange.toNat (b == cell.mps) * 2 ^ n ≤ 510 at hwid
  unfold encBin
  rw [sat_bind]
  refine (readCtx_sat hcell).mono (fun _ => id) fun c t h => ?_
  have h1 := h.1
  have h2 := h.2
  clear h
  subst h1 h2
  have hlps : lpsWidth t.cfg c.state t.encRange.toNat = lps := rfl
  have hsub : (t.encRange.toNat : Int) - (lps : Int) = ((t.encRange.toNat - lps : Nat) : Int) := by
    have : lps ≤ t.encRange.toNat := by omega
    omega
  have vr : (BitVec.ofNat 9 (t.encRange.toNat - lps)).toNat = t.encRange.toNat - lps := by
    rw [BitVec.toNat_ofNat]; omega
  have e1 : (1 : Int) = ((1 : Nat) : Int) := rfl
  cases hb : (b == c.mps) with
  | false =>
    have hbne : b ≠ c.mps := by simpa using hb
    rw [hb] at hwid
    have hn : n = numRenorm lps := by simp only [n, hb, binShift]; rfl
    have hsub' : (t.encBitsLeft.toNat : Int) - (n : Int) = ((t.encBitsLeft.toNat - n : Nat) : Int) := by omega
    have vbl : (BitVec.ofNat 5 (t.encBitsLeft.toNat - n)).toNat = t.encBitsLeft.toNat - n := by
      rw [BitVec.toNat_ofNat]; omega
    have hlow : (t.encLow.toNat + (t.encRange.toNat - lps)) * 2 ^ n < 2 ^ 32 := by
      have : (t.encLow.toNat + (t.encRange.toNat - lps)) * 2 ^ n ≤ 2 ^ 21 * 2 ^ 7 := Nat.mul_le_mul (by omega) hp
      omega
    have hwid1 : 256 ≤ lps * 2 ^ n ∧ lps * 2 ^ n ≤ 510 := hwid
    have vlow : (BitVec.ofNat 32 ((t.encLow.toNat + (t.encRange.toNat - lps)) * 2 ^ n)).toNat =
      (t.encLow.toNat + (t.encRange.toNat - lps)) * 2 ^ n := by
      rw [BitVec.toNat_ofNat]; exact Nat.mod_eq_of_lt hlow
    have vr2 : (BitVec.ofNat 9 (lps * 2 ^ n)).toNat = lps * 2 ^ n := by rw [BitVec.toNat_ofNat]; omega
    simp only [sat_bind, sat_get, setEncRange, setEncLow, setEncBitsLeft, sat_assign, sat_ite, hlps, hsub, ← hn, hsub',
      fitsU_natCast, ofInt_natCast, decide_eq_true_eq, vr, hbne, ne_eq, not_false_eq_true, not_true_eq_false,
      true_implies, false_implies, and_true]
    refine ⟨by omega, hlow, by omega, ?_⟩
    refine (updateLps_sat (cell := c) (by simpa using hcell)).mono (fun _ => id) fun _ u hu => ?_
    subst hu
    refine ⟨by omega, ?_⟩
    refine Sat.mono (testWriteOut_of hm hlo hc hw n n7 vlow vbl rfl (by simp only [vr2]; omega)
      (by simp only [vr2]; omega) ?_ rfl rfl rfl rfl rfl rfl rfl) (fun _ => id) fun _ w hw' => ?_
    · simp only [vr2]
      rw [← Nat.add_mul]
      exact Nat.mul_le_mul_right _ (by omega)
    · obtain ⟨hT, hf⟩ := hw'
      refine ⟨by simpa using hT, ?_, ?_⟩
      · rw [hf]; exact vr2
      · rw [hf]; rfl
  | true =>
    have hbeq : b = c.mps := by simpa using hb
    rw [hb] at hwid
    have hn : n = if t.encRange.toNat - lps < 256 then 1 else 0 := by simp only [n, hb, binShift]; rfl
    have hwid1 : 256 ≤ (t.encRange.toNat - lps) * 2 ^ n ∧ (t.encRange.toNat - lps) * 2 ^ n ≤ 510 := hwid
    simp only [sat_bind, sat_get, setEncRange, setEncLow, setEncBitsLeft, sat_assign, sat_ite, sat_pure, hlps, hsub,
      fitsU_natCast, ofInt_natCast, decide_eq_true_eq, vr, hbeq, ne_eq, not_true_eq_false, not_false_eq_true,
      true_implies, false_implies, true_and]
    refine ⟨by omega, ?_⟩
    refine (updateMps_sat (cell := c) (by simpa using hcell)).mono (fun _ => id) fun _ u hu => ?_
    subst hu
    refine ⟨fun hlt256 => ?_, fun hge => ?_⟩
    · have hn1 : n = 1 := by rw [hn, if_pos hlt256]
      rw [hn1] at hwid1 ⊢
      have hsub' : (t.encBitsLeft.toNat : Int) - ((1 : Nat) : Int) = ((t.encBitsLeft.toNat - 1 : Nat) : Int) := by omega
      have vbl : (BitVec.ofNat 5 (t.encBitsLeft.toNat - 1)).toNat = t.encBitsLeft.toNat - 1 := by
        rw [BitVec.toNat_ofNat]; omega
      have vlow : (BitVec.ofNat 32 (t.encLow.toNat * 2)).toNat = t.encLow.toNat * 2 := by
        rw [BitVec.toNat_ofNat]; omega
      have vr2 : (BitVec.ofNat 9 ((t.encRange.toNat - lps) * 2)).toNat = (t.encRange.toNat - lps) * 2 := by
        rw [BitVec.toNat_ofNat]; omega
      rw [e1, hsub']
      simp only [fitsU_natCast, ofInt_natCast, decide_eq_true_eq]
      refine ⟨by omega, by omega, by omega, ?_⟩
      refine Sat.mono (testWriteOut_of hm hlo hc hw 1 (by omega) vlow vbl rfl (by simp only [vr2]; omega)
        (by simp only [vr2]; omega) ?_ rfl rfl rfl rfl rfl rfl rfl) (fun _ => id) fun _ w hw' => ?_
      · simp only [vr2]; omega
      · obtain ⟨hT, hf⟩ := hw'
        refine ⟨by simpa using hT, ?_, ?_⟩
        · rw [hf]; exact vr2
        · rw [hf]; rfl
    · have hn0 : n = 0 := by rw [hn, if_neg hge]
      rw [hn0] at hwid1 ⊢
      have hmid : State.EncMid { t with
          encRange := BitVec.ofNat 9 (t.encRange.toNat - lps)
          ctx := t.ctx.set i (adaptMps t.cfg c) } :=
        hm.scale (n := 0) (by omega) hlo rfl (by simp only [vr]; omega) (by simp only [vr]; omega)
          (by simp only [vr]; omega) rfl rfl rfl
      refine ⟨⟨?_, ?_, hmid, hlo, id, State.Grew.of_eq rfl rfl rfl rfl rfl⟩, ?_, rfl⟩
      · unfold State.outFault
        rw [if_pos (by omega)]
      · unfold State.WroteOut
        rw [if_pos (by omega)]
        exact ⟨by simp, by simp, rfl, rfl, rfl, rfl, rfl⟩
      · show (BitVec.ofNat 9 (t.encRange.toNat - lps)).toNat = _
        rw [vr]; simp [binWidth]

end Sys2Proof.Machine
end

