-- ==== Sys2Proof/Laws/Decoder.lean ====
section
/-! SUPPORT. What the decoder's shared procedures can do (42_decoder.md R170 to R174): a doubling with its refill, a
context bin, a bypass bin; the invariants (I1) and (I2) of R170 they keep. -/

namespace Sys2Proof.Machine

/-- The decoder's invariants between commands (42_decoder.md R170, R171). -/
structure State.DecMid (s : State) : Prop where
  rlo : 256 ≤ s.decRange.toNat
  rhi : s.decRange.toNat ≤ 510
  blo : -8 ≤ s.decBitsNeeded.toInt
  bhi : s.decBitsNeeded.toInt ≤ -1
  below : s.decValue.toNat < s.decRange.toNat * 2 ^ 7
  low : s.decValue.toNat % 2 ^ (8 + s.decBitsNeeded.toInt).toNat = 0
  aligned : s.rdPos.toNat % 8 = 0
  two : 16 ≤ s.rdPos.toNat
  read : s.ReadOk

theorem toInt_ofInt5 {e : Int} (h0 : -16 ≤ e) (h1 : e < 16) : (BitVec.ofInt 5 e).toInt = e := by
  rw [BitVec.toInt_ofInt]
  unfold Int.bmod
  simp only
  split <;> omega

theorem fits5 {e : Int} : (decide (-16 ≤ e) && decide (e < 16)) = true ↔ -16 ≤ e ∧ e < 16 := by simp

theorem nextByte_lt (s : State) : s.nextByte < 256 := Memory.readBits_lt _ _ _

/-- The numbers of a refill (42_decoder.md R170): (I1) and (I2) survive a shift by `n` with the byte it may fetch. -/
theorem refill_arith {v w f n byte : Nat} (hv : v < w * 2 ^ 7) (hf : f ≤ 7) (hlow : v % 2 ^ f = 0) (hb : byte < 256) :
    (f + n < 8 → v * 2 ^ n < w * 2 ^ n * 2 ^ 7 ∧ v * 2 ^ n % 2 ^ (f + n) = 0) ∧
    (8 ≤ f + n → v * 2 ^ n + byte * 2 ^ (f + n - 8) < w * 2 ^ n * 2 ^ 7 ∧
      (v * 2 ^ n + byte * 2 ^ (f + n - 8)) % 2 ^ (f + n - 8) = 0) := by
  obtain ⟨a, rfl⟩ := Nat.dvd_of_mod_eq_zero hlow
  have hpf : 0 < 2 ^ f := Nat.two_pow_pos f
  have hpn : 0 < 2 ^ n := Nat.two_pow_pos n
  have ha : a < w * 2 ^ (7 - f) := by
    have e : w * 2 ^ 7 = 2 ^ f * (w * 2 ^ (7 - f)) := by
      rw [show (7 : Nat) = f + (7 - f) by omega, pow_add, show f + (7 - f) - f = 7 - f by omega]; ring
    rw [e] at hv
    exact lt_of_mul_lt_mul_left hv (Nat.zero_le _)
  have e2 : w * 2 ^ n * 2 ^ 7 = 2 ^ (f + n) * (w * 2 ^ (7 - f)) := by
    rw [show (7 : Nat) = f + (7 - f) by omega, pow_add, pow_add, show f + (7 - f) - f = 7 - f by omega]; ring
  have e3 : 2 ^ f * a * 2 ^ n = 2 ^ (f + n) * a := by rw [pow_add]; ring
  rw [e2, e3]
  have hp : 0 < 2 ^ (f + n) := Nat.two_pow_pos _
  refine ⟨fun _ => ⟨(Nat.mul_lt_mul_left hp).2 ha, Nat.mul_mod_right _ _⟩, fun h => ⟨?_, ?_⟩⟩
  · have e4 : 2 ^ (f + n) = 256 * 2 ^ (f + n - 8) := by
      rw [show f + n = 8 + (f + n - 8) by omega, pow_add]; norm_num
    have : byte * 2 ^ (f + n - 8) < 2 ^ (f + n) := by
      rw [e4]; exact (Nat.mul_lt_mul_right (Nat.two_pow_pos _)).2 hb
    calc _ < 2 ^ (f + n) * a + 2 ^ (f + n) := by omega
      _ = 2 ^ (f + n) * (a + 1) := by ring
      _ ≤ _ := Nat.mul_le_mul_left _ ha
  · have e4 : 2 ^ (f + n) = 2 ^ (f + n - 8) * 256 := by
      rw [show f + n = (f + n - 8) + 8 by omega, pow_add]; norm_num
    rw [e4, show 2 ^ (f + n - 8) * 256 * a + byte * 2 ^ (f + n - 8) = 2 ^ (f + n - 8) * (256 * a + byte) by ring]
    exact Nat.mul_mod_right _ _

/-- A refill keeps the invariants of 42_decoder.md R170. -/
theorem State.Refilled.mid {s t : State} {v w n : Nat} (h : s.Refilled v n t) (hm : s.DecMid) (hn : n ≤ 7)
    (hv : v < w * 2 ^ 7) (hlow : v % 2 ^ (8 + s.decBitsNeeded.toInt).toNat = 0) (h1 : 256 ≤ w * 2 ^ n)
    (h2 : w * 2 ^ n ≤ 510) (hr : t.decRange.toNat = w * 2 ^ n) (hc : t.count = s.count)
    (hl : t.rdLimit = s.rdLimit) (hp : t.wrPos = s.wrPos) : t.DecMid := by
  obtain ⟨-, -, b1, b2, -, -, al, tw, rd1, rd2⟩ := hm
  obtain ⟨f, hf⟩ : ∃ f : Nat, s.decBitsNeeded.toInt = (f : Int) - 8 := ⟨(s.decBitsNeeded.toInt + 8).toNat, by omega⟩
  have hf7 : f ≤ 7 := by omega
  have hlow' : v % 2 ^ f = 0 := by
    have e : (8 + s.decBitsNeeded.toInt).toNat = f := by omega
    rw [← e]; exact hlow
  obtain ⟨r1, r2⟩ := refill_arith (n := n) hv hf7 hlow' (nextByte_lt s)
  have hbits := h.bits
  have hval := h.value
  have hpos := h.pos
  refine ⟨by rw [hr]; exact h1, by rw [hr]; exact h2, ?_, ?_, ?_, ?_, ?_, ?_, by rw [hc]; exact rd1, by rw [hl, hp]; exact rd2⟩
  · rw [hbits]; split_ifs <;> omega
  · rw [hbits]; split_ifs <;> omega
  · rw [hval, hr]
    split_ifs with g
    · rw [show (s.decBitsNeeded.toInt + n).toNat = f + n - 8 by omega]
      exact (r2 (by omega)).1
    · exact (r1 (by omega)).1
  · rw [hval, hbits]
    split_ifs with g
    · rw [show (s.decBitsNeeded.toInt + n).toNat = f + n - 8 by omega,
        show (8 + (s.decBitsNeeded.toInt + n - 8)).toNat = f + n - 8 by omega]
      exact (r2 (by omega)).2
    · rw [show (8 + (s.decBitsNeeded.toInt + n - 0)).toNat = f + n by omega]
      exact (r1 (by omega)).2
  · rw [hpos]; split_ifs <;> omega
  · rw [hpos]; omega

/-- A doubling and its refill (the MPS branch of 42_decoder.md R173, R175), told from the state `s` the bin started
from: `u` differs from it in the context and the range only. -/
theorem decDouble_sat {s u : State} {w : Nat} (hm : s.DecMid) (hw : w < 256) (hv : s.decValue.toNat < w * 2 ^ 7)
    (h1 : u.decValue = s.decValue) (h2 : u.decBitsNeeded = s.decBitsNeeded) (h3 : u.rdPos = s.rdPos)
    (h4 : u.store = s.store) (h5 : u.wrPos = s.wrPos) (h6 : u.count = s.count) (h7 : u.rdLimit = s.rdLimit) :
    Sat (decDouble (w * 2 ^ 7)) u (fun c => c = .exhausted ∧ ¬ (0 ≤ s.decBitsNeeded.toInt + (1 : Nat) → s.Avail 8)) fun _ t =>
      s.Refilled s.decValue.toNat 1 t ∧ t.decRange.toNat = w * 2 ^ 1 ∧
      t = { u with decRange := t.decRange, decValue := t.decValue, decBitsNeeded := t.decBitsNeeded
                   rdPos := t.rdPos } := by
  have b1 := hm.blo
  have b2 := hm.bhi
  have rd1 := hm.read.1
  have rd2 := hm.read.2
  have vr : (BitVec.ofNat 9 (w * 2 ^ 7 / 2 ^ 6)).toNat = w * 2 ^ 1 := by rw [BitVec.toNat_ofNat]; omega
  have vv : (BitVec.ofNat 17 (s.decValue.toNat + s.decValue.toNat)).toNat = s.decValue.toNat + s.decValue.toNat := by
    rw [BitVec.toNat_ofNat]; omega
  have vb : (BitVec.ofInt 5 (s.decBitsNeeded.toInt + 1)).toInt = s.decBitsNeeded.toInt + 1 :=
    toInt_ofInt5 (by omega) (by omega)
  have vb8 : (BitVec.ofInt 5 (-8)).toInt = -8 := by decide
  unfold decDouble
  simp only [sat_bind, sat_get, setDecRange, setDecValue, setDecBitsNeeded, sat_assign, sat_ite, sat_pure, h1, h2,
    fitsU_natCast, ofInt_natCast, decide_eq_true_eq, fits5, vb]
  refine ⟨by omega, by omega, ⟨by omega, by omega⟩, fun hz => ⟨⟨by omega, by omega⟩, ?_⟩, fun hz => ?_⟩
  · unfold decReadByte
    refine Sat.mono (getBits_sat ⟨h6.trans rd1, ?_⟩) (fun _ h => ⟨h.1, fun hr => h.2 ?_⟩) fun x t ht => ?_
    · show u.rdLimit ≤ u.wrPos.toNat
      rw [h7, h5]; exact rd2
    · have := hr (by omega)
      show u.rdPos.toNat + 8 ≤ u.rdLimit
      rw [h3, h7]; exact this
    · have hx := ht.2.1
      have hav := ht.1
      have hfr := ht.2.2.1
      have hps := ht.2.2.2
      clear ht
      have hxv : x = s.nextByte := by rw [hx]; unfold State.nextByte; simp only [h4, h3]
      have hxl := nextByte_lt s
      have tv : t.decValue.toNat = s.decValue.toNat + s.decValue.toNat := by rw [hfr]; exact vv
      have vsum : (BitVec.ofNat 17 (t.decValue.toNat + x)).toNat = s.decValue.toNat * 2 + s.nextByte := by
        rw [BitVec.toNat_ofNat, tv, hxv]; omega
      refine ⟨by omega, ⟨?_, ?_, ?_, fun _ => ?_⟩, ?_, ?_⟩
      · refine vsum.trans ?_
        rw [if_pos (by omega), show (s.decBitsNeeded.toInt + ((1 : Nat) : Int)).toNat = 0 by omega]; omega
      · rw [if_pos (by omega)]
        refine Eq.trans (b := (BitVec.ofInt 5 (-8)).toInt) (by rw [hfr]) ?_
        rw [vb8]; omega
      · rw [if_pos (by omega)]; refine hps.trans ?_; simp only [h3]
      · have : u.rdPos.toNat + 8 ≤ u.rdLimit := hav
        rw [h3, h7] at this; exact this
      · rw [hfr]; exact vr
      · rw [hfr]
  · refine ⟨⟨?_, ?_, ?_, fun h => by omega⟩, vr, by trivial⟩
    · rw [if_neg (by omega)]; exact vv.trans (by omega)
    · rw [if_neg (by omega)]; exact vb.trans (by omega)
    · rw [if_neg (by omega)]; simp only [h3]; omega

/-- DecEP (42_decoder.md R174): the value doubled, refilled and compared with the range. -/
theorem decEp_sat {s : State} (hm : s.DecMid) :
    Sat decEp s (fun c => c = .exhausted ∧ ¬ (0 ≤ s.decBitsNeeded.toInt + (1 : Nat) → s.Avail 8)) fun b t =>
      t.DecMid ∧
      (∃ u : State, s.Refilled s.decValue.toNat 1 u ∧ u.rdPos = t.rdPos ∧ u.decBitsNeeded = t.decBitsNeeded ∧
        b = decide (s.decRange.toNat * 2 ^ 7 ≤ u.decValue.toNat) ∧
        t.decValue.toNat = u.decValue.toNat - if b then s.decRange.toNat * 2 ^ 7 else 0) ∧
      t = { s with decValue := t.decValue, decBitsNeeded := t.decBitsNeeded, rdPos := t.rdPos } := by
  have b1 := hm.blo
  have b2 := hm.bhi
  have hrlo := hm.rlo
  have hrhi := hm.rhi
  have hbelow := hm.below
  have hxl := nextByte_lt s
  have vv : (BitVec.ofNat 17 (s.decValue.toNat + s.decValue.toNat)).toNat = s.decValue.toNat + s.decValue.toNat := by
    rw [BitVec.toNat_ofNat]; omega
  have vb : (BitVec.ofInt 5 (s.decBitsNeeded.toInt + 1)).toInt = s.decBitsNeeded.toInt + 1 :=
    toInt_ofInt5 (by omega) (by omega)
  have vb8 : (BitVec.ofInt 5 (-8)).toInt = -8 := by decide
  have fin : ∀ u : State, s.Refilled s.decValue.toNat 1 u →
      u = { s with decValue := u.decValue, decBitsNeeded := u.decBitsNeeded, rdPos := u.rdPos } →
      Sat (do
        let t ← get
        let scaled := t.decRange.toNat * 2 ^ 7
        if t.decValue.toNat ≥ scaled then
          setDecValue ((t.decValue.toNat - scaled : Nat))
          return true
        else
          return false) u (fun c => c = .exhausted ∧ ¬ (0 ≤ s.decBitsNeeded.toInt + (1 : Nat) → s.Avail 8)) fun b t =>
      t.DecMid ∧
      (∃ u : State, s.Refilled s.decValue.toNat 1 u ∧ u.rdPos = t.rdPos ∧ u.decBitsNeeded = t.decBitsNeeded ∧
        b = decide (s.decRange.toNat * 2 ^ 7 ≤ u.decValue.toNat) ∧
        t.decValue.toNat = u.decValue.toNat - if b then s.decRange.toNat * 2 ^ 7 else 0) ∧
      t = { s with decValue := t.decValue, decBitsNeeded := t.decBitsNeeded, rdPos := t.rdPos } := by
    intro u hu hf
    have hr : u.decRange = s.decRange := by rw [hf]
    obtain ⟨f, hfn⟩ : ∃ f : Nat, s.decBitsNeeded.toInt = (f : Int) - 8 := ⟨(s.decBitsNeeded.toInt + 8).toNat, by omega⟩
    have hlow : s.decValue.toNat % 2 ^ f = 0 := by
      have := hm.low
      rwa [show (8 + s.decBitsNeeded.toInt).toNat = f by omega] at this
    obtain ⟨r1, r2⟩ := refill_arith (n := 1) hbelow (by omega) hlow hxl
    have hval := hu.value
    have hbits := hu.bits
    have hpos := hu.pos
    have hlt : u.decValue.toNat < s.decRange.toNat * 2 * 2 ^ 7 := by
      rw [hval]
      split_ifs with g
      · rw [show (s.decBitsNeeded.toInt + ((1 : Nat) : Int)).toNat = f + 1 - 8 by omega]
        exact (r2 (by omega)).1
      · exact (r1 (by omega)).1
    obtain ⟨f', hf'⟩ : ∃ f' : Nat, u.decBitsNeeded.toInt = (f' : Int) - 8 ∧ f' ≤ 7 :=
      ⟨(u.decBitsNeeded.toInt + 8).toNat, by rw [hbits]; split_ifs <;> omega⟩
    have hlow' : u.decValue.toNat % 2 ^ f' = 0 := by
      rw [hval]
      have hb := hbits
      split_ifs at hb ⊢ with g
      · rw [show (s.decBitsNeeded.toInt + ((1 : Nat) : Int)).toNat = f + 1 - 8 by omega, show f' = f + 1 - 8 by omega]
        exact (r2 (by omega)).2
      · rw [show f' = f + 1 by omega]
        exact (r1 (by omega)).2
    have e8 : (8 + u.decBitsNeeded.toInt).toNat = f' := by omega
    have rl : u.rdLimit = s.rdLimit := by rw [hf]; rfl
    have hread : u.ReadOk := by
      refine ⟨?_, ?_⟩
      · rw [hf]; exact hm.read.1
      · rw [rl, hf]; exact hm.read.2
    have hdvd : 2 ^ f' ∣ s.decRange.toNat * 2 ^ 7 := Dvd.dvd.mul_left (Nat.pow_dvd_pow 2 hf'.2) _
    simp only [sat_bind, sat_get, setDecValue, sat_assign, sat_ite, sat_pure, hr, fitsU_natCast, ofInt_natCast,
      decide_eq_true_eq]
    refine ⟨fun hge => ⟨by omega, ?_⟩, fun hlt' => ?_⟩
    · have vs : (BitVec.ofNat 17 (u.decValue.toNat - s.decRange.toNat * 2 ^ 7)).toNat =
        u.decValue.toNat - s.decRange.toNat * 2 ^ 7 := by rw [BitVec.toNat_ofNat]; omega
      refine ⟨⟨?_, ?_, ?_, ?_, ?_, ?_, ?_, ?_, hread⟩, ⟨u, hu, rfl, rfl, ?_, ?_⟩, ?_⟩
      · exact hrlo
      · exact hrhi
      · show -8 ≤ u.decBitsNeeded.toInt; omega
      · show u.decBitsNeeded.toInt ≤ -1; omega
      · simp only [vs]; omega
      · simp only [vs, e8]
        exact Nat.mod_eq_zero_of_dvd (Nat.dvd_sub (Nat.dvd_of_mod_eq_zero hlow') hdvd)
      · show u.rdPos.toNat % 8 = 0; rw [hpos]; have := hm.aligned; split_ifs <;> omega
      · show 16 ≤ u.rdPos.toNat; rw [hpos]; have := hm.two; omega
      · exact (decide_eq_true hge).symm
      · rw [vs]; simp
      · conv_lhs => rw [hf]
    · refine ⟨⟨?_, ?_, ?_, ?_, ?_, ?_, ?_, ?_, hread⟩, ⟨u, hu, rfl, rfl, ?_, ?_⟩, hf⟩
      · rw [hr]; omega
      · rw [hr]; omega
      · omega
      · omega
      · rw [hr]; omega
      · rw [e8]; exact hlow'
      · rw [hpos]; have := hm.aligned; split_ifs <;> omega
      · rw [hpos]; have := hm.two; omega
      · exact (decide_eq_false hlt').symm
      · simp
  unfold decEp
  simp only [sat_bind, sat_get, setDecValue, setDecBitsNeeded, sat_assign, sat_ite, sat_pure, fits5, vb,
    fitsU_natCast, ofInt_natCast, decide_eq_true_eq]
  refine ⟨by omega, ⟨by omega, by omega⟩, fun hz => ⟨⟨by omega, by omega⟩, ?_⟩, fun hz => ?_⟩
  · unfold decReadByte
    refine Sat.mono (getBits_sat ⟨hm.read.1, hm.read.2⟩) (fun _ h => ⟨h.1, fun hr => h.2 (hr (by omega))⟩) fun x t ht => ?_
    have hx : x = s.nextByte := ht.2.1
    have hav := ht.1
    have hfr := ht.2.2.1
    have hps := ht.2.2.2
    clear ht
    have tv : t.decValue.toNat = s.decValue.toNat + s.decValue.toNat := by rw [hfr]; exact vv
    have vsum : (BitVec.ofNat 17 (t.decValue.toNat + x)).toNat = s.decValue.toNat * 2 + s.nextByte := by
      rw [BitVec.toNat_ofNat, tv, hx]; omega
    refine ⟨by omega, ?_⟩
    have := fin { t with decValue := BitVec.ofNat 17 (t.decValue.toNat + x) } ⟨?_, ?_, ?_, fun _ => hav⟩ ?_
    · simpa only [sat_bind, sat_get, setDecValue, sat_assign, sat_ite, sat_pure, fitsU_natCast, ofInt_natCast,
        decide_eq_true_eq] using this
    · refine vsum.trans ?_
      rw [if_pos (by omega), show (s.decBitsNeeded.toInt + ((1 : Nat) : Int)).toNat = 0 by omega]; omega
    · rw [if_pos (by omega)]
      refine Eq.trans (b := (BitVec.ofInt 5 (-8)).toInt) (by rw [hfr]) ?_
      rw [vb8]; omega
    · rw [if_pos (by omega)]; exact hps
    · clear hps tv vsum
      generalize t.rdPos = r at hfr
      subst hfr
      rfl
  · have := fin { s with
        decValue := BitVec.ofNat 17 (s.decValue.toNat + s.decValue.toNat)
        decBitsNeeded := BitVec.ofInt 5 (s.decBitsNeeded.toInt + 1) } ⟨?_, ?_, ?_, fun h => by omega⟩ rfl
    · simpa only [sat_bind, sat_get, setDecValue, sat_assign, sat_ite, sat_pure, fitsU_natCast, ofInt_natCast,
        decide_eq_true_eq] using this
    · rw [if_neg (by omega)]; exact vv.trans (by omega)
    · rw [if_neg (by omega)]; exact vb.trans (by omega)
    · rw [if_neg (by omega)]; rfl

/-- DecBin (42_decoder.md R173). -/
theorem decBin_sat {s : State} {i : Nat} {cell : CtxCell} (hcell : s.ctx[i]? = some cell) (hm : s.DecMid)
    (hrt : Config.rangesLegal s.cfg.rangeTabLps = true) :
    let lps := lpsWidth s.cfg cell.state s.decRange.toNat
    let mpsBin := decide (s.decValue.toNat < (s.decRange.toNat - lps) * 2 ^ 7)
    let n := binShift lps s.decRange.toNat mpsBin
    Sat (decBin i) s (fun c => c = .exhausted ∧ ¬ (0 ≤ s.decBitsNeeded.toInt + n → s.Avail 8)) fun b t =>
      b = (if mpsBin then cell.mps else !cell.mps) ∧
      s.Refilled (s.decValue.toNat - if mpsBin then 0 else (s.decRange.toNat - lps) * 2 ^ 7) n t ∧
      t.decRange.toNat = binWidth lps s.decRange.toNat mpsBin * 2 ^ n ∧ t.DecMid ∧
      t = { s with ctx := s.ctx.set i (adapted s.cfg cell mpsBin), decRange := t.decRange, decValue := t.decValue
                   decBitsNeeded := t.decBitsNeeded, rdPos := t.rdPos } := by
  intro lps mpsBin n
  obtain ⟨l1, -, l3⟩ := lpsWidth_bounds hrt cell.state s.decRange.toNat
  have l4 := lpsWidth_le hrt cell.state hm.rlo hm.rhi
  have n7 : n ≤ 7 := binShift_le hrt cell.state s.decRange.toNat mpsBin
  have hwid := binWidth_range hrt cell.state hm.rlo hm.rhi mpsBin
  change 256 ≤ binWidth lps s.decRange.toNat mpsBin * 2 ^ n ∧
    binWidth lps s.decRange.toNat mpsBin * 2 ^ n ≤ 510 at hwid
  have hrhi := hm.rhi
  have hrlo := hm.rlo
  have hbelow := hm.below
  have hlow := hm.low
  have b1 := hm.blo
  have b2 := hm.bhi
  have hl4 : lps + 128 ≤ s.decRange.toNat := l4
  have hsub : (s.decRange.toNat : Int) - (lps : Int) = ((s.decRange.toNat - lps : Nat) : Int) := by omega
  have vr : (BitVec.ofNat 9 (s.decRange.toNat - lps)).toNat = s.decRange.toNat - lps := by
    rw [BitVec.toNat_ofNat]; omega
  have hlps : lpsWidth s.cfg cell.state s.decRange.toNat = lps := rfl
  unfold decBin
  rw [sat_bind]
  refine (readCtx_sat hcell).mono (fun _ => id) fun c t h => ?_
  have h1 := h.1
  have h2 := h.2
  clear h
  subst h1 h2
  simp only [sat_bind, sat_get, setDecRange, setDecValue, setDecBitsNeeded, sat_assign, sat_ite, sat_pure, hlps, hsub,
    fitsU_natCast, ofInt_natCast, decide_eq_true_eq, vr]
  refine ⟨by omega, fun hlt => ?_, fun hge => ?_⟩
  · have hmb : mpsBin = true := by simp only [mpsBin]; exact decide_eq_true hlt
    have hn : n = if t.decRange.toNat - lps < 256 then 1 else 0 := by simp only [n, hmb, binShift]; rfl
    rw [hmb] at hwid ⊢
    refine (updateMps_sat (cell := c) (by simpa using hcell)).mono (fun _ => id) fun _ u hu => ?_
    subst hu
    refine ⟨fun h256 => ?_, fun h256 => ?_⟩
    · have hn1 : n = 1 := by rw [hn, if_pos (by omega)]
      rw [hn1] at hwid ⊢
      refine Sat.mono (decDouble_sat hm (w := t.decRange.toNat - lps) (by omega) hlt rfl rfl rfl rfl rfl rfl rfl) (fun _ => id)
        fun _ w hw => ?_
      have hR := hw.1
      have hr := hw.2.1
      have hf := hw.2.2
      clear hw
      refine ⟨by simp, by simpa using hR, by simpa [binWidth] using hr, ?_, ?_⟩
      · exact hR.mid hm (by omega) hlt hlow (by simpa [binWidth] using hwid.1) (by simpa [binWidth] using hwid.2) hr
          (by rw [hf]) (by rw [hf]; rfl) (by rw [hf])
      · rw [hf]; rfl
    · have hn0 : n = 0 := by rw [hn, if_neg (by omega)]
      rw [hn0] at hwid ⊢
      have hR : t.Refilled (t.decValue.toNat - if true = true then 0 else (t.decRange.toNat - lps) * 2 ^ 7) 0
          { t with decRange := BitVec.ofNat 9 (t.decRange.toNat - lps), ctx := t.ctx.set i (adaptMps t.cfg c) } := by
        refine ⟨?_, ?_, ?_, fun h => by omega⟩
        · simp only [if_true]; rw [if_neg (by omega)]; simp
        · rw [if_neg (by omega)]; simp
        · rw [if_neg (by omega)]; rfl
      refine ⟨by simp, hR, ?_, ?_, ?_⟩
      · rw [vr]; simp [binWidth]
      · exact hR.mid hm (w := t.decRange.toNat - lps) (by omega) (by simpa using hlt) (by simpa using hlow)
          (by simpa [binWidth] using hwid.1) (by simpa [binWidth] using hwid.2) (by rw [vr]; simp) rfl rfl rfl
      · rfl
  · have hmb : mpsBin = false := by simp only [mpsBin]; exact decide_eq_false hge
    have hn : n = numRenorm lps := by simp only [n, hmb, binShift]; rfl
    rw [hmb] at hwid ⊢
    have hwid1 : 256 ≤ lps * 2 ^ n ∧ lps * 2 ^ n ≤ 510 := hwid
    obtain ⟨f, hfn⟩ : ∃ f : Nat, t.decBitsNeeded.toInt = (f : Int) - 8 := ⟨(t.decBitsNeeded.toInt + 8).toNat, by omega⟩
    have e8 : (8 + t.decBitsNeeded.toInt).toNat = f := by omega
    have hdvd : 2 ^ f ∣ (t.decRange.toNat - lps) * 2 ^ 7 := Dvd.dvd.mul_left (Nat.pow_dvd_pow 2 (by omega)) _
    have hv : t.decValue.toNat - (t.decRange.toNat - lps) * 2 ^ 7 < lps * 2 ^ 7 := by omega
    have hlow' : (t.decValue.toNat - (t.decRange.toNat - lps) * 2 ^ 7) % 2 ^ f = 0 := by
      rw [e8] at hlow
      exact Nat.mod_eq_zero_of_dvd (Nat.dvd_sub (Nat.dvd_of_mod_eq_zero hlow) hdvd)
    obtain ⟨r1, r2⟩ := refill_arith (n := n) hv (by omega) hlow' (nextByte_lt t)
    have hle : (t.decValue.toNat - (t.decRange.toNat - lps) * 2 ^ 7) * 2 ^ n < lps * 2 ^ n * 2 ^ 7 := by
      have : (t.decValue.toNat - (t.decRange.toNat - lps) * 2 ^ 7) * 2 ^ n < lps * 2 ^ 7 * 2 ^ n :=
        (Nat.mul_lt_mul_right (Nat.two_pow_pos n)).2 hv
      calc _ < lps * 2 ^ 7 * 2 ^ n := this
        _ = _ := by ring
    have vv : (BitVec.ofNat 17 ((t.decValue.toNat - (t.decRange.toNat - lps) * 2 ^ 7) * 2 ^ n)).toNat =
      (t.decValue.toNat - (t.decRange.toNat - lps) * 2 ^ 7) * 2 ^ n := by rw [BitVec.toNat_ofNat]; omega
    have vr2 : (BitVec.ofNat 9 (lps * 2 ^ n)).toNat = lps * 2 ^ n := by rw [BitVec.toNat_ofNat]; omega
    have vb : (BitVec.ofInt 5 (t.decBitsNeeded.toInt + n)).toInt = t.decBitsNeeded.toInt + n :=
      toInt_ofInt5 (by omega) (by omega)
    simp only [← hn]
    refine ⟨by omega, by omega, ?_⟩
    refine (updateLps_sat (cell := c) (by simpa using hcell)).mono (fun _ => id) fun _ u hu => ?_
    subst hu
    simp only [fits5, vb]
    refine ⟨⟨by omega, by omega⟩, fun hz => ?_, fun hz => ?_⟩
    · unfold decReadByte
      refine Sat.mono (getBits_sat ⟨hm.read.1, hm.read.2⟩) (fun _ h => ⟨h.1, fun hr => h.2 (hr (by omega))⟩) fun x w hw => ?_
      have hx : x = t.nextByte := hw.2.1
      have hav := hw.1
      have hfr := hw.2.2.1
      have hps := hw.2.2.2
      clear hw
      have r2 := r2 (by omega)
      have hsh : (t.decBitsNeeded.toInt + (n : Int)).toNat = f + n - 8 := by omega
      have vsum : (BitVec.ofNat 17 ((BitVec.ofNat 17 ((t.decValue.toNat - (t.decRange.toNat - lps) * 2 ^ 7) *
          2 ^ n)).toNat + x * 2 ^ (t.decBitsNeeded.toInt + (n : Int)).toNat)).toNat =
          (t.decValue.toNat - (t.decRange.toNat - lps) * 2 ^ 7) * 2 ^ n +
            t.nextByte * 2 ^ (t.decBitsNeeded.toInt + (n : Int)).toNat := by
        rw [vv, hx, hsh, BitVec.toNat_ofNat]; omega
      have vb8 : (BitVec.ofInt 5 (t.decBitsNeeded.toInt + (n : Int) - 8)).toInt = t.decBitsNeeded.toInt + n - 8 :=
        toInt_ofInt5 (by omega) (by omega)
      refine ⟨by rw [vv, hx, hsh]; omega, ⟨by omega, by omega⟩, ?_⟩
      have hR : t.Refilled (t.decValue.toNat - (t.decRange.toNat - lps) * 2 ^ 7) n { w with
          decValue := BitVec.ofNat 17 ((BitVec.ofNat 17 ((t.decValue.toNat - (t.decRange.toNat - lps) * 2 ^ 7) *
            2 ^ n)).toNat + x * 2 ^ (t.decBitsNeeded.toInt + (n : Int)).toNat)
          decBitsNeeded := BitVec.ofInt 5 (t.decBitsNeeded.toInt + (n : Int) - 8) } := by
        refine ⟨?_, ?_, ?_, fun _ => hav⟩
        · rw [if_pos hz]; exact vsum
        · rw [if_pos hz]; exact vb8
        · rw [if_pos hz]; exact hps
      refine ⟨by simp, by simpa using hR, ?_, ?_, ?_⟩
      · show w.decRange.toNat = _
        rw [hfr]; exact vr2
      · refine hR.mid hm n7 hv ?_ hwid1.1 hwid1.2 ?_ ?_ ?_ ?_
        · rw [e8]; exact hlow'
        · show w.decRange.toNat = _
          rw [hfr]; exact vr2
        · show w.count = _
          rw [hfr]
        · show (if w.subActive then w.subEnd.toNat else w.wrPos.toNat) = _
          rw [hfr]; rfl
        · show w.wrPos = _
          rw [hfr]
      · clear hR hps
        generalize w.rdPos = r at hfr
        subst hfr
        rfl
    · have hR : t.Refilled (t.decValue.toNat - (t.decRange.toNat - lps) * 2 ^ 7) n { t with
          decRange := BitVec.ofNat 9 (lps * 2 ^ n)
          decValue := BitVec.ofNat 17 ((t.decValue.toNat - (t.decRange.toNat - lps) * 2 ^ 7) * 2 ^ n)
          ctx := t.ctx.set i (adaptLps t.cfg c)
          decBitsNeeded := BitVec.ofInt 5 (t.decBitsNeeded.toInt + n) } := by
        refine ⟨?_, ?_, ?_, fun h => by omega⟩
        · rw [if_neg (by omega)]; exact vv
        · rw [if_neg (by omega)]; exact vb.trans (by omega)
        · rw [if_neg (by omega)]; rfl
      refine ⟨by simp, by simpa using hR, vr2, ?_, by rfl⟩
      refine hR.mid hm n7 hv ?_ hwid1.1 hwid1.2 vr2 rfl rfl rfl
      rw [e8]; exact hlow'

end Sys2Proof.Machine
end

