-- ==== Sys2Proof/Laws/Steady.lean ====
section
/-! SUPPORT. What the pseudocode of a command leaves alone, whether it completes or raises a fault: `Keeps R`, for a
relation R that looks at nothing a shared procedure writes (`Untouched`). No command touches the parameters, the fault
registers, the ports and the model's counter (`SameOutside`); the shared procedures do not touch the sub-stream window
either (`SameWindow`). -/

namespace Sys2Proof.Machine

/-- The pseudocode relates the state it starts from to the one it ends in by `R`, however it ends. -/
@[irreducible] def Keeps (R : State → State → Prop) {α : Type} (m : Cmd α) : Prop :=
  ∀ s, match m s with
    | .ok _ t => R s t
    | .error _ t => R s t

/-- `R` looks at nothing that the shared procedures write: the context cells, the registers of both engines, the store,
the capacity and the cursors. -/
structure Untouched (R : State → State → Prop) : Prop where
  rest : ∀ s t : State, t = { s with
    ctx := t.ctx
    encState := t.encState, encTrm := t.encTrm, encLow := t.encLow, encRange := t.encRange
    encBitsLeft := t.encBitsLeft, encBufByte := t.encBufByte, encNumBuf := t.encNumBuf
    decState := t.decState, decValue := t.decValue, decRange := t.decRange, decBitsNeeded := t.decBitsNeeded
    store := t.store, bbCap := t.bbCap, wrPos := t.wrPos, rdPos := t.rdPos } → R s t
  trans : ∀ s t u, R s t → R t u → R s u

/-- `t` agrees with `s` on the parameters, the fault registers, the ports and the counter of free values. -/
def State.SameOutside (s t : State) : Prop :=
  t.cfg = s.cfg ∧ t.fault = s.fault ∧ t.rstN = s.rstN ∧ t.cmds = s.cmds ∧ t.rspReady = s.rspReady ∧ t.rsp = s.rsp ∧
    t.freeCount = s.freeCount

/-- `t` agrees with `s` on the sub-stream window (10_state.md R42) and on COUNT. -/
def State.SameWindow (s t : State) : Prop :=
  t.subActive = s.subActive ∧ t.subEnd = s.subEnd ∧ t.count = s.count

@[simp] theorem untouched_sameOutside : Untouched State.SameOutside where
  rest s t h := by rw [h]; exact ⟨rfl, rfl, rfl, rfl, rfl, rfl, rfl⟩
  trans s t u h g := by
    obtain ⟨a1, a2, a3, a4, a5, a6, a7⟩ := h
    obtain ⟨b1, b2, b3, b4, b5, b6, b7⟩ := g
    exact ⟨b1.trans a1, b2.trans a2, b3.trans a3, b4.trans a4, b5.trans a5, b6.trans a6, b7.trans a7⟩

@[simp] theorem untouched_sameWindow : Untouched State.SameWindow where
  rest s t h := by rw [h]; exact ⟨rfl, rfl, rfl⟩
  trans s t u h g := ⟨g.1.trans h.1, g.2.1.trans h.2.1, g.2.2.trans h.2.2⟩

/-- No command touches what `SameOutside` compares. -/
abbrev Steady {α : Type} (m : Cmd α) : Prop := Keeps State.SameOutside m

/-- How a run that completes uses it. -/
theorem Keeps.of_ok {R : State → State → Prop} {α : Type} {m : Cmd α} {s t : State} {a : α} (h : Keeps R m)
    (e : m s = .ok a t) : R s t := by
  unfold Keeps at h
  have := h s
  rw [e] at this
  exact this

theorem Keeps.of_error {R : State → State → Prop} {α : Type} {m : Cmd α} {s t : State} {x : Stop} (h : Keeps R m)
    (e : m s = .error x t) : R s t := by
  unfold Keeps at h
  have := h s
  rw [e] at this
  exact this

/-- How a command that completes, fault register clear, uses it. -/
theorem Keeps.of_answer {R : State → State → Prop} {op : Byte} {m : Cmd Word} {s t : State} (h : Keeps R m)
    (e : answer op m s = .next t) (hf : t.fault = none) : ∃ d u, t = u.respond d ∧ R s u := by
  rcases answer_cases e with ⟨d, u, e', rfl⟩ | ⟨c, u, -, rfl⟩
  · exact ⟨d, u, rfl, h.of_ok e'⟩
  · rw [State.takeFault_fault] at hf
    split at hf
    · cases hf
    · next hn => rw [hf] at hn; exact absurd rfl hn

section

variable {R : State → State → Prop} (hR : Untouched R)

include hR

section

variable {α β : Type}

@[simp] theorem keeps_pure (a : α) : Keeps R (pure a : Cmd α) := by
  unfold Keeps; exact fun s => hR.rest s s rfl

@[simp] theorem keeps_get : Keeps R (get : Cmd State) := by
  unfold Keeps; exact fun s => hR.rest s s rfl

@[simp] theorem keeps_raise (c : Cause) : Keeps R (raise c : Cmd α) := by
  unfold Keeps; exact fun s => hR.rest s s rfl

@[simp] theorem keeps_halt (f : Fault) : Keeps R (halt f : Cmd α) := by
  unfold Keeps; exact fun s => hR.rest s s rfl

@[simp] theorem keeps_bind {m : Cmd α} {f : α → Cmd β} (h : Keeps R m) (g : ∀ a, Keeps R (f a)) :
    Keeps R (m >>= f) := by
  unfold Keeps at *
  intro s
  rw [bind_run]
  have := h s
  cases e : m s with
  | ok a t =>
    rw [e] at this
    have g' := g a t
    simp only
    cases e' : f a t with
    | ok b u => rw [e'] at g'; exact hR.trans _ _ _ this g'
    | error b u => rw [e'] at g'; exact hR.trans _ _ _ this g'
  | error a t => rw [e] at this; exact this

@[simp] theorem keeps_map {m : Cmd α} {f : α → β} (h : Keeps R m) : Keeps R (f <$> m) := by
  rw [map_eq_pure_bind]
  exact keeps_bind hR h fun a => keeps_pure hR _

omit hR in
@[simp] theorem keeps_ite {p : Prop} [Decidable p] {m n : Cmd α} (h : Keeps R m) (g : Keeps R n) :
    Keeps R (if p then m else n) := by split <;> assumption

@[simp] theorem keeps_raiseIf (b : Bool) (c : Cause) : Keeps R (raiseIf b c) := by
  unfold raiseIf; cases b <;> simp [hR]

theorem keeps_assign {fits : Bool} {upd : State → State} (h : ∀ s : State, R s (upd s)) :
    Keeps R (assign fits upd) := by
  unfold Keeps
  intro s
  rw [assign_run]
  cases fits
  · exact hR.rest s s rfl
  · exact h s

omit hR in
theorem keeps_modify {upd : State → State} (h : ∀ s : State, R s (upd s)) :
    Keeps R (modify upd : Cmd Unit) := by
  unfold Keeps; exact h

@[simp] theorem keeps_repeat {body : Cmd Unit} {n : Nat} (h : Keeps R body) : Keeps R (repeatCmd body n) := by
  induction n with
  | zero => exact keeps_pure hR _
  | succ n ih => exact keeps_bind hR h fun _ => ih

end

/-! The primitives. -/

@[simp] theorem keeps_setEncLow (e : Int) : Keeps R (setEncLow e) := keeps_assign hR fun s => hR.rest s _ rfl
@[simp] theorem keeps_setEncRange (e : Int) : Keeps R (setEncRange e) := keeps_assign hR fun s => hR.rest s _ rfl
@[simp] theorem keeps_setEncBitsLeft (e : Int) : Keeps R (setEncBitsLeft e) := keeps_assign hR fun s => hR.rest s _ rfl
@[simp] theorem keeps_setEncBufByte (e : Int) : Keeps R (setEncBufByte e) := keeps_assign hR fun s => hR.rest s _ rfl
@[simp] theorem keeps_setEncNumBuf (e : Int) : Keeps R (setEncNumBuf e) := keeps_assign hR fun s => hR.rest s _ rfl
@[simp] theorem keeps_setDecValue (e : Int) : Keeps R (setDecValue e) := keeps_assign hR fun s => hR.rest s _ rfl
@[simp] theorem keeps_setDecRange (e : Int) : Keeps R (setDecRange e) := keeps_assign hR fun s => hR.rest s _ rfl
@[simp] theorem keeps_setDecBitsNeeded (e : Int) : Keeps R (setDecBitsNeeded e) := keeps_assign hR fun s => hR.rest s _ rfl
@[simp] theorem keeps_setWrPos (e : Int) : Keeps R (setWrPos e) := keeps_assign hR fun s => hR.rest s _ rfl
@[simp] theorem keeps_setRdPos (e : Int) : Keeps R (setRdPos e) := keeps_assign hR fun s => hR.rest s _ rfl
@[simp] theorem keeps_setBbCap (e : Int) : Keeps R (setBbCap e) := keeps_assign hR fun s => hR.rest s _ rfl
@[simp] theorem keeps_setEncState (e : Engine) : Keeps R (setEncState e) := keeps_modify fun s => hR.rest s _ rfl
@[simp] theorem keeps_setEncTrm (b : Bool) : Keeps R (setEncTrm b) := keeps_modify fun s => hR.rest s _ rfl
@[simp] theorem keeps_setDecState (e : Engine) : Keeps R (setDecState e) := keeps_modify fun s => hR.rest s _ rfl
@[simp] theorem keeps_writeCtx (i : Nat) (c : CtxCell) : Keeps R (writeCtx i c) := keeps_modify fun s => hR.rest s _ rfl

@[simp] theorem keeps_readCtx (i : Nat) : Keeps R (readCtx i) := by
  unfold Keeps
  intro s
  unfold readCtx
  cases s.ctx[i]? <;> exact hR.rest s s rfl

@[simp] theorem keeps_memRead (addr : Int) (n : Nat) : Keeps R (memRead addr n) := by
  unfold Keeps
  intro s
  unfold memRead
  split <;> next h => split at h <;> cases h <;> exact hR.rest _ _ rfl

@[simp] theorem keeps_countOf (e : Int) : Keeps R (countOf e) := by unfold countOf; simp [hR]

@[simp] theorem keeps_growFor (need : Nat) : Keeps R (growFor need) := by
  unfold growFor
  refine keeps_bind hR (keeps_get hR) fun s => ?_
  cases grownCap need s.cfg.capMax 28 s.bbCap.toNat <;> simp [hR]

theorem keeps_store (f : State → Memory) : Keeps R (modify fun t => { t with store := f t } : Cmd Unit) :=
  keeps_modify fun s => hR.rest s _ rfl

@[simp] theorem keeps_putBits (v n : Nat) : Keeps R (putBits v n) := by
  unfold putBits
  refine keeps_bind hR (keeps_get hR) fun s => ?_
  have k : Keeps R (do
      raiseIf (s.wrPos.toNat + n ≥ 2 ^ 32) .overflow
      if s.count = false then
        growFor (s.wrPos.toNat + n)
        modify fun t => { t with store := t.store.writeBits s.wrPos.toNat n v }
      setWrPos (s.wrPos.toNat + n)) :=
    keeps_bind hR (keeps_raiseIf hR _ _) fun _ => keeps_ite
      (keeps_bind hR (keeps_growFor hR _) fun _ => keeps_bind hR (keeps_store hR _) fun _ => keeps_setWrPos hR _)
      (keeps_setWrPos hR _)
  exact keeps_ite (keeps_bind hR (keeps_halt hR _) fun _ => k) k

@[simp] theorem keeps_getBits (n : Nat) : Keeps R (getBits n) := by
  unfold getBits
  repeat' first
    | with_reducible apply keeps_bind hR | with_reducible apply keeps_ite | with_reducible apply keeps_map hR | intro _
    | simp [hR]

/-! The procedures of the engines and of the syntax layer. -/

@[simp] theorem keeps_updateMps (i : Nat) : Keeps R (updateMps i) := by
  unfold updateMps
  repeat' first
    | with_reducible apply keeps_bind hR | with_reducible apply keeps_ite | with_reducible apply keeps_map hR | intro _
    | simp [hR]
@[simp] theorem keeps_updateLps (i : Nat) : Keeps R (updateLps i) := by
  unfold updateLps
  repeat' first
    | with_reducible apply keeps_bind hR | with_reducible apply keeps_ite | with_reducible apply keeps_map hR | intro _
    | simp [hR]
@[simp] theorem keeps_releaseOne (v : Nat) : Keeps R (releaseOne v) := by
  unfold releaseOne
  repeat' first
    | with_reducible apply keeps_bind hR | with_reducible apply keeps_ite | with_reducible apply keeps_map hR | intro _
    | simp [hR]
@[simp] theorem keeps_releaseRun (v : Nat) : Keeps R (releaseRun v) := by
  unfold releaseRun
  repeat' first
    | with_reducible apply keeps_bind hR | with_reducible apply keeps_ite | with_reducible apply keeps_map hR | intro _
    | simp [hR]
@[simp] theorem keeps_writeOut : Keeps R writeOut := by
  unfold writeOut
  repeat' first
    | with_reducible apply keeps_bind hR | with_reducible apply keeps_ite | with_reducible apply keeps_map hR | intro _
    | simp [hR]
@[simp] theorem keeps_testWriteOut : Keeps R testWriteOut := by
  unfold testWriteOut
  repeat' first
    | with_reducible apply keeps_bind hR | with_reducible apply keeps_ite | with_reducible apply keeps_map hR | intro _
    | simp [hR]
@[simp] theorem keeps_encBin (i : Nat) (b : Bool) : Keeps R (encBin i b) := by
  unfold encBin
  repeat' first
    | with_reducible apply keeps_bind hR | with_reducible apply keeps_ite | with_reducible apply keeps_map hR | intro _
    | simp [hR]
@[simp] theorem keeps_encEp (b : Bool) : Keeps R (encEp b) := by
  unfold encEp
  repeat' first
    | with_reducible apply keeps_bind hR | with_reducible apply keeps_ite | with_reducible apply keeps_map hR | intro _
    | simp [hR]
@[simp] theorem keeps_requireEncoding : Keeps R requireEncoding := by
  unfold requireEncoding
  repeat' first
    | with_reducible apply keeps_bind hR | with_reducible apply keeps_ite | with_reducible apply keeps_map hR | intro _
    | simp [hR]
@[simp] theorem keeps_padZeros : Keeps R padZeros := by
  unfold padZeros
  repeat' first
    | with_reducible apply keeps_bind hR | with_reducible apply keeps_ite | with_reducible apply keeps_map hR | intro _
    | simp [hR]
@[simp] theorem keeps_decReadByte : Keeps R decReadByte := by
  unfold decReadByte
  repeat' first
    | with_reducible apply keeps_bind hR | with_reducible apply keeps_ite | with_reducible apply keeps_map hR | intro _
    | simp [hR]
@[simp] theorem keeps_decDouble (n : Nat) : Keeps R (decDouble n) := by
  unfold decDouble
  repeat' first
    | with_reducible apply keeps_bind hR | with_reducible apply keeps_ite | with_reducible apply keeps_map hR | intro _
    | simp [hR]
@[simp] theorem keeps_decBin (i : Nat) : Keeps R (decBin i) := by
  unfold decBin
  repeat' first
    | with_reducible apply keeps_bind hR | with_reducible apply keeps_ite | with_reducible apply keeps_map hR | intro _
    | simp [hR]
@[simp] theorem keeps_decEp : Keeps R decEp := by
  unfold decEp
  repeat' first
    | with_reducible apply keeps_bind hR | with_reducible apply keeps_ite | with_reducible apply keeps_map hR | intro _
    | simp [hR]
@[simp] theorem keeps_requireDecoding : Keeps R requireDecoding := by
  unfold requireDecoding
  repeat' first
    | with_reducible apply keeps_bind hR | with_reducible apply keeps_ite | with_reducible apply keeps_map hR | intro _
    | simp [hR]
@[simp] theorem keeps_emit (p : Path) (b : Bool) (i : Nat) : Keeps R (emit p b i) := by
  unfold emit; cases p <;> simp [hR]
@[simp] theorem keeps_checkWr (p : Path) : Keeps R (checkWr p) := by unfold checkWr; cases p <;> simp [hR]
@[simp] theorem keeps_wrFlc (p : Path) (v n : Nat) : Keeps R (wrFlc p v n) := by
  induction n with
  | zero => exact keeps_pure hR _
  | succ n ih => exact keeps_bind hR (keeps_emit hR _ _ _) fun _ => ih
@[simp] theorem keeps_wrUvlc (p : Path) (v : Nat) : Keeps R (wrUvlc p v) := by
  unfold wrUvlc
  repeat' first
    | with_reducible apply keeps_bind hR | with_reducible apply keeps_ite | with_reducible apply keeps_map hR | intro _
    | simp [hR]
@[simp] theorem keeps_wrOnes (p : Path) (c : Byte) (sp : BitVec 6) (n k : Nat) : Keeps R (wrOnes p c sp n k) := by
  induction n generalizing k with
  | zero => exact keeps_pure hR _
  | succ n ih => exact keeps_bind hR (keeps_emit hR _ _ _) fun _ => ih _
@[simp] theorem keeps_take (p : Path) (i : Nat) : Keeps R (take p i) := by unfold take; cases p <;> simp [hR]
@[simp] theorem keeps_checkRd (p : Path) : Keeps R (checkRd p) := by unfold checkRd; cases p <;> simp [hR]
@[simp] theorem keeps_rdFlc (p : Path) (n v : Nat) : Keeps R (rdFlc p n v) := by
  induction n generalizing v with
  | zero => exact keeps_pure hR _
  | succ n ih => exact keeps_bind hR (keeps_take hR _ _) fun _ => ih _
@[simp] theorem keeps_rdPrefix (p : Path) (n v : Nat) : Keeps R (rdPrefix p n v) := by
  induction n generalizing v with
  | zero => exact keeps_raise hR _
  | succ n ih => exact keeps_bind hR (keeps_take hR _ _) fun b => keeps_ite (keeps_pure hR _) (ih _)
@[simp] theorem keeps_rdUvlc (p : Path) : Keeps R (rdUvlc p) := by
  unfold rdUvlc
  repeat' first
    | with_reducible apply keeps_bind hR | with_reducible apply keeps_ite | with_reducible apply keeps_map hR | intro _
    | simp [hR]
@[simp] theorem keeps_rdOnes (p : Path) (c : Byte) (sp : BitVec 6) (n k : Nat) : Keeps R (rdOnes p c sp n k) := by
  induction n generalizing k with
  | zero => exact keeps_pure hR _
  | succ n ih => exact keeps_bind hR (keeps_take hR _ _) fun b => keeps_ite (ih _) (keeps_pure hR _)
@[simp] theorem keeps_rdZeros (n : Nat) : Keeps R (rdZeros n) := by
  induction n with
  | zero => exact keeps_pure hR _
  | succ n ih => exact keeps_bind hR (keeps_getBits hR _) fun b => keeps_bind hR (keeps_raiseIf hR _ _) fun _ => ih
@[simp] theorem keeps_rdFf8 (k v : Nat) : Keeps R (rdFf8 k v) := by
  induction k generalizing v with
  | zero => exact keeps_raise hR _
  | succ k ih =>
    exact keeps_bind hR (keeps_getBits hR _) fun b => keeps_bind hR (keeps_raiseIf hR _ _) fun _ =>
      keeps_ite (keeps_pure hR _) (ih _)

end

/-! The setters that only some commands use. -/

@[simp] theorem steady_setSubEnd (e : Int) : Steady (setSubEnd e) :=
  keeps_assign untouched_sameOutside fun _ => ⟨rfl, rfl, rfl, rfl, rfl, rfl, rfl⟩
@[simp] theorem steady_setCount (b : Bool) : Steady (setCount b) :=
  keeps_modify fun _ => ⟨rfl, rfl, rfl, rfl, rfl, rfl, rfl⟩
@[simp] theorem steady_setSubActive (b : Bool) : Steady (setSubActive b) :=
  keeps_modify fun _ => ⟨rfl, rfl, rfl, rfl, rfl, rfl, rfl⟩
@[simp] theorem steady_emptyBuffer : Steady emptyBuffer := by
  unfold emptyBuffer
  have h := untouched_sameOutside
  exact keeps_bind h (by simp) fun _ => keeps_bind h (by simp) fun _ => keeps_bind h (by simp) fun _ => by simp

end Sys2Proof.Machine
end

