-- ==== Sys2Proof/Laws/Invariant.lean ====
section
/-! SUPPORT. How the invariant of the machine is taken apart and put together again, and that every shared procedure
keeps it: output, input, the bins of both engines. -/

namespace Sys2Proof.Machine

namespace State

theorem Live.sound {s : State} (h : s.Live) : s.Sound := h.1.2 h.2

theorem Live.legal {s : State} (h : s.Live) : s.cfg.legal = true := h.1.1.1

theorem Live.ranges {s : State} (h : s.Live) : Config.rangesLegal s.cfg.rangeTabLps = true :=
  (legal_iff.1 h.legal).2.2.2

theorem Live.ctx_length {s : State} (h : s.Live) : s.ctx.length = s.cfg.nctx := h.1.1.2.1

theorem Live.wf {s : State} (h : s.Live) : s.store.wf = true := h.1.1.2.2

theorem Live.buffer {s : State} (h : s.Live) : s.BufferOk := h.sound.2.2.2

theorem Live.capOk {s : State} (h : s.Live) : s.CapOk :=
  ⟨h.legal, h.buffer.2.2.1.1, h.buffer.2.2.1.2.1, h.buffer.2.2.1.2.2, h.buffer.2.1⟩

theorem Live.rdLimit_le {s : State} (h : s.Live) : s.rdLimit ≤ s.wrPos.toNat := by
  have := h.buffer.2.2.2
  unfold rdLimit
  split
  · next hs => exact (this hs).2.2
  · exact le_rfl

theorem Live.rdPos_le {s : State} (h : s.Live) : s.rdPos.toNat ≤ s.rdLimit := by
  have := h.buffer
  unfold rdLimit
  split
  · next hs => exact (this.2.2.2 hs).2.1
  · exact this.1

theorem Live.readOk {s : State} (h : s.Live) (hc : s.count = false) : s.ReadOk := ⟨hc, h.rdLimit_le⟩

/-- The encoder's part of the invariant while it is coding. -/
theorem Live.encMid {s : State} (h : s.Live) (he : s.encState = .coding) :
    s.EncMid ∧ 12 ≤ s.encBitsLeft.toNat ∧ (s.encTrm = true → s.encBitsLeft.toNat ≤ 19) := by
  obtain ⟨a1, a2, a3, a4, a5, a6, a7, a8⟩ := h.sound.1 he
  exact ⟨⟨by omega, a4, a1, a2, a5, a6, a8⟩, a3, a7⟩

/-- The decoder's part of the invariant while it is coding. -/
theorem Live.decMid {s : State} (h : s.Live) (hd : s.decState = .coding) : s.DecMid := by
  obtain ⟨a1, a2, a3, a4, a5, a6, a7, a8, a9⟩ := h.sound.2.2.1 hd
  exact ⟨a1, a2, a3, a4, a5, a6, a7, a8, h.readOk a9⟩

/-- A state whose write side and encoder have changed. -/
theorem Live.of_out {s t : State} (h : s.Live) (hg : s.Grew t)
    (hf : t = { s with
      ctx := t.ctx, encState := t.encState, encTrm := t.encTrm, encLow := t.encLow, encRange := t.encRange
      encBitsLeft := t.encBitsLeft, encBufByte := t.encBufByte, encNumBuf := t.encNumBuf
      store := t.store, bbCap := t.bbCap, wrPos := t.wrPos })
    (hctx : t.ctx.length = s.ctx.length)
    (henc : t.encState = .coding → t.EncMid ∧ 12 ≤ t.encBitsLeft.toNat ∧ (t.encTrm = true → t.encBitsLeft.toNat ≤ 19))
    (htrm : t.encTrm = true → t.encState = .coding) : t.Live := by
  have f1 : t.decState = s.decState := by rw [hf]
  have f2 : t.decRange = s.decRange := by rw [hf]
  have f3 : t.decValue = s.decValue := by rw [hf]
  have f4 : t.decBitsNeeded = s.decBitsNeeded := by rw [hf]
  have f5 : t.rdPos = s.rdPos := by rw [hf]
  have f6 : t.subActive = s.subActive := by rw [hf]
  have f7 : t.subEnd = s.subEnd := by rw [hf]
  have f8 : t.fault = s.fault := by rw [hf]
  obtain ⟨b1, b2, -, b4⟩ := h.buffer
  have hpos := hg.pos
  refine ⟨⟨⟨hg.cfg ▸ h.legal, by rw [hctx, hg.cfg]; exact h.ctx_length, hg.wf h.wf⟩, fun _ => ⟨?_, htrm, ?_, ?_⟩⟩,
    f8.trans h.2⟩
  · intro he
    obtain ⟨⟨-, m2, m3, m4, m5, m6, m7⟩, g1, g2⟩ := henc he
    exact ⟨m3, m4, g1, m2, m5, m6, g2, m7⟩
  · unfold DecOk
    rw [f1, f2, f3, f4, f5, hg.count]
    exact h.sound.2.2.1
  · have hc := hg.cap h.capOk
    refine ⟨by rw [f5]; omega, hc.fit, ⟨hc.power, hc.lo, hc.hi⟩, ?_⟩
    rw [f6, f7, f5]
    intro hs
    obtain ⟨c1, c2, c3⟩ := b4 hs
    exact ⟨c1, c2, by omega⟩

/-- A state whose read cursor and decoder have changed. -/
theorem Live.of_in {s t : State} (h : s.Live)
    (hf : t = { s with
      ctx := t.ctx, decState := t.decState, decValue := t.decValue, decRange := t.decRange
      decBitsNeeded := t.decBitsNeeded, rdPos := t.rdPos })
    (hctx : t.ctx.length = s.ctx.length) (hhi : t.rdPos.toNat ≤ s.rdLimit)
    (hdec : t.decState = .coding → t.DecMid) : t.Live := by
  have f1 : t.cfg = s.cfg := by rw [hf]
  have f2 : t.store = s.store := by rw [hf]
  have f3 : t.encState = s.encState := by rw [hf]
  have f4 : t.encTrm = s.encTrm := by rw [hf]
  have f5 : t.encLow = s.encLow := by rw [hf]
  have f6 : t.encRange = s.encRange := by rw [hf]
  have f7 : t.encBitsLeft = s.encBitsLeft := by rw [hf]
  have f8 : t.encBufByte = s.encBufByte := by rw [hf]
  have f9 : t.encNumBuf = s.encNumBuf := by rw [hf]
  have f10 : t.wrPos = s.wrPos := by rw [hf]
  have f11 : t.bbCap = s.bbCap := by rw [hf]
  have f12 : t.count = s.count := by rw [hf]
  have f13 : t.subActive = s.subActive := by rw [hf]
  have f14 : t.subEnd = s.subEnd := by rw [hf]
  have f15 : t.fault = s.fault := by rw [hf]
  have hl := h.rdLimit_le
  obtain ⟨b1, b2, b3, b4⟩ := h.buffer
  refine ⟨⟨⟨f1 ▸ h.legal, by rw [hctx, f1]; exact h.ctx_length, f2 ▸ h.wf⟩, fun _ => ⟨?_, ?_, ?_, ?_⟩⟩, f15.trans h.2⟩
  · unfold EncOk
    rw [f3, f4, f5, f6, f7, f8, f9, f10]
    exact h.sound.1
  · unfold TrmOk
    rw [f3, f4]
    exact h.sound.2.1
  · intro hd
    have m := hdec hd
    exact ⟨m.rlo, m.rhi, m.blo, m.bhi, m.below, m.low, m.aligned, m.two, m.read.1⟩
  · refine ⟨by rw [f10]; omega, by rw [f12, f10, f11]; exact b2, by rw [f11, f1]; exact b3, ?_⟩
    rw [f13, f14, f10]
    intro hs
    obtain ⟨c1, c2, c3⟩ := b4 hs
    refine ⟨c1, ?_, c3⟩
    unfold rdLimit at hhi
    rw [if_pos hs] at hhi
    exact hhi

end State

/-! The procedures. -/

/-- What one output needs of the encoder on a path (44_syntax.md R222), and the context index it uses. -/
def wrReady (s : State) : Path → Nat → Prop
  | .raw, _ => s.encState ≠ .coding
  | .ep, _ => s.Encoding
  | .ctx, i => s.Encoding ∧ i < s.cfg.nctx

/-- What one input needs of the decoder on a path (44_syntax.md R222), and the context index it uses. -/
def rdReady (s : State) : Path → Nat → Prop
  | .raw, _ => s.decState ≠ .coding ∧ s.count = false
  | .ep, _ => s.decState = .coding
  | .ctx, i => s.decState = .coding ∧ i < s.cfg.nctx

theorem wrReady_congr {s t : State} {path : Path} {i : Nat} (h : wrReady s path i) (e1 : t.encState = s.encState)
    (e2 : t.encTrm = s.encTrm) (e3 : t.cfg = s.cfg) : wrReady t path i := by
  cases path <;> simpa [wrReady, State.Encoding, e1, e2, e3] using h

theorem rdReady_congr {s t : State} {path : Path} {i : Nat} (h : rdReady s path i) (e1 : t.decState = s.decState)
    (e2 : t.count = s.count) (e3 : t.cfg = s.cfg) : rdReady t path i := by
  cases path <;> simpa [rdReady, e1, e2, e3] using h

/-- Raw output keeps the invariant. -/
theorem putBits_live {s : State} {v n : Nat} (h : s.Live) (he : s.encState ≠ .coding) (hn : n ≤ 32) (hv : v < 2 ^ n) :
    Sat (putBits v n) s (fun c => c = s.outCause ∧ ¬ s.Room n) fun _ t => t.Live ∧ s.Put n v t := by
  refine (putBits_sat h.capOk hn hv).mono (fun _ => id) fun _ t ht => ?_
  have hput := ht.1
  have hf := hput.frame
  have e1 : t.encState = s.encState := by rw [hf]
  have e2 : t.encTrm = s.encTrm := by rw [hf]
  refine ⟨h.of_out hput.grew (by rw [hf]) (by rw [hf]) (fun hc => absurd (e1.symm.trans hc) he) fun hc => ?_, hput⟩
  rw [e1]
  exact h.sound.2.1 (e2.symm.trans hc)

/-- Every output step of the syntax layer keeps the invariant (44_syntax.md R221). -/
theorem emit_live {s : State} {path : Path} {b : Bool} {i : Nat} (h : s.Live) (hr : wrReady s path i) :
    Sat (emit path b i) s (fun _ => True) fun _ t =>
      t.Live ∧ t.encState = s.encState ∧ t.encTrm = s.encTrm ∧ t.cfg = s.cfg := by
  cases path with
  | raw =>
    refine (putBits_live h hr (by omega) (by cases b <;> decide)).mono (fun _ _ => trivial) fun _ t ht => ?_
    have hf := ht.2.frame
    exact ⟨ht.1, by rw [hf], by rw [hf], by rw [hf]⟩
  | ep =>
    obtain ⟨h1, h2⟩ := hr
    obtain ⟨m, lo, -⟩ := h.encMid h1
    refine (encEp_sat m lo h.capOk h.wf).mono (fun _ _ => trivial) fun _ t ht => ?_
    obtain ⟨hT, hf⟩ := ht
    have e1 : t.encState = s.encState := by rw [hf]
    have e2 : t.encTrm = s.encTrm := by rw [hf]
    refine ⟨h.of_out hT.grew (by rw [hf]) (by rw [hf]) (fun _ => ⟨hT.mid, hT.lo, fun hc => ?_⟩) fun hc => ?_, e1, e2,
      by rw [hf]⟩
    · rw [e2, h2] at hc; cases hc
    · rw [e1]; exact h1
  | ctx =>
    obtain ⟨⟨h1, h2⟩, hi⟩ := hr
    obtain ⟨m, lo, -⟩ := h.encMid h1
    obtain ⟨cell, hcell⟩ := getElem?_of_lt (h.ctx_length ▸ hi)
    refine (encBin_sat hcell m lo h.capOk h.wf).mono (fun _ _ => trivial) fun _ t ht => ?_
    obtain ⟨hT, -, hf⟩ := ht
    have e1 : t.encState = s.encState := by rw [hf]
    have e2 : t.encTrm = s.encTrm := by rw [hf]
    refine ⟨h.of_out hT.grew (by rw [hf]) (by rw [hf]; simp) (fun _ => ⟨hT.mid, hT.lo, fun hc => ?_⟩) fun hc => ?_,
      e1, e2, by rw [hf]⟩
    · rw [e2, h2] at hc; cases hc
    · rw [e1]; exact h1

/-- Raw input keeps the invariant. -/
theorem getBits_live {s : State} {n : Nat} (h : s.Live) (hd : s.decState ≠ .coding) (hc : s.count = false) :
    Sat (getBits n) s (fun c => c = .exhausted ∧ ¬ s.Avail n) fun v t =>
      t.Live ∧ s.Avail n ∧ v = s.store.readBits s.rdPos.toNat n ∧ t = { s with rdPos := t.rdPos } ∧
        t.rdPos.toNat = s.rdPos.toNat + n := by
  refine (getBits_sat (h.readOk hc)).mono (fun _ => id) fun v t ht => ?_
  have hav := ht.1
  have hf := ht.2.2.1
  have hp := ht.2.2.2
  refine ⟨h.of_in (by rw [hf]) (by rw [hf]) (by rw [hp]; exact hav) fun hcd => ?_, ht⟩
  have : t.decState = s.decState := by rw [hf]
  exact absurd (this.symm.trans hcd) hd

/-- Every input step of the syntax layer keeps the invariant (44_syntax.md R221). -/
theorem take_live {s : State} {path : Path} {i : Nat} (h : s.Live) (hr : rdReady s path i) :
    Sat (take path i) s (fun _ => True) fun _ t =>
      t.Live ∧ t.decState = s.decState ∧ t.count = s.count ∧ t.cfg = s.cfg := by
  cases path with
  | raw =>
    unfold take
    rw [sat_bind]
    refine (getBits_live h hr.1 hr.2).mono (fun _ _ => trivial) fun _ t ht => ?_
    have hf := ht.2.2.2.1
    exact sat_pure.2 ⟨ht.1, by rw [hf], by rw [hf], by rw [hf]⟩
  | ep =>
    have m := h.decMid hr
    refine (decEp_sat m).mono (fun _ _ => trivial) fun _ t ht => ?_
    obtain ⟨hm, ⟨u, hu, e1, -, -, -⟩, hf⟩ := ht
    have hpos := hu.pos
    have hav := hu.avail
    have hrd := h.rdPos_le
    refine ⟨h.of_in (by rw [hf]) (by rw [hf]) ?_ fun _ => hm, by rw [hf], by rw [hf], by rw [hf]⟩
    rw [← e1, hpos]
    split
    · next g => exact hav g
    · exact hrd
  | ctx =>
    obtain ⟨hd, hi⟩ := hr
    have m := h.decMid hd
    obtain ⟨cell, hcell⟩ := getElem?_of_lt (h.ctx_length ▸ hi)
    refine (decBin_sat hcell m h.ranges).mono (fun _ _ => trivial) fun _ t ht => ?_
    obtain ⟨-, hu, -, hm, hf⟩ := ht
    have hpos := hu.pos
    have hav := hu.avail
    have hrd := h.rdPos_le
    refine ⟨h.of_in (by rw [hf]) (by rw [hf]; simp) ?_ fun _ => hm, by rw [hf], by rw [hf], by rw [hf]⟩
    rw [hpos]
    split
    · next g => exact hav g
    · exact hrd

/-- The fixed bits of a code keep the invariant (44_syntax.md R224). -/
theorem wrFlc_live {s : State} {path : Path} {v n : Nat} (h : s.Live) (hr : wrReady s path 0) :
    Sat (wrFlc path v n) s (fun _ => True) fun _ t =>
      t.Live ∧ t.encState = s.encState ∧ t.encTrm = s.encTrm ∧ t.cfg = s.cfg := by
  induction n generalizing s with
  | zero => exact sat_pure.2 ⟨h, rfl, rfl, rfl⟩
  | succ n ih =>
    unfold wrFlc
    rw [sat_bind]
    refine (emit_live h hr).mono (fun _ => id) fun _ t ht => ?_
    obtain ⟨h1, e1, e2, e3⟩ := ht
    refine (ih h1 (wrReady_congr hr e1 e2 e3)).mono (fun _ => id) fun _ u hu => ?_
    obtain ⟨h2, g1, g2, g3⟩ := hu
    exact ⟨h2, g1.trans e1, g2.trans e2, g3.trans e3⟩

/-- The same bit several times. -/
theorem emitRepeat_live {s : State} {path : Path} {b : Bool} {n : Nat} (h : s.Live) (hr : wrReady s path 0) :
    Sat (repeatCmd (emit path b 0) n) s (fun _ => True) fun _ t =>
      t.Live ∧ t.encState = s.encState ∧ t.encTrm = s.encTrm ∧ t.cfg = s.cfg := by
  refine sat_repeat (P := fun _ t => t.Live ∧ t.encState = s.encState ∧ t.encTrm = s.encTrm ∧ t.cfg = s.cfg)
    ⟨h, rfl, rfl, rfl⟩ fun k t _ ht => ?_
  obtain ⟨h1, e1, e2, e3⟩ := ht
  refine (emit_live h1 (wrReady_congr hr e1 e2 e3)).mono (fun _ => id) fun _ u hu => ?_
  obtain ⟨h2, g1, g2, g3⟩ := hu
  exact ⟨h2, g1.trans e1, g2.trans e2, g3.trans e3⟩

/-- An Exp-Golomb code keeps the invariant (44_syntax.md R225). -/
theorem wrUvlc_live {s : State} {path : Path} {v : Nat} (h : s.Live) (hr : wrReady s path 0) :
    Sat (wrUvlc path v) s (fun _ => True) fun _ t => t.Live := by
  unfold wrUvlc
  simp only [sat_bind]
  refine (emitRepeat_live h hr).mono (fun _ => id) fun _ t ht => ?_
  obtain ⟨h1, e1, e2, e3⟩ := ht
  have hr1 : wrReady t path 0 := wrReady_congr hr e1 e2 e3
  refine (emit_live h1 hr1).mono (fun _ => id) fun _ u hu => ?_
  obtain ⟨h2, g1, g2, g3⟩ := hu
  exact (wrFlc_live h2 (wrReady_congr hr1 g1 g2 g3)).mono (fun _ => id) fun _ w hw => hw.1

/-- The ones of a truncated unary code keep the invariant (44_syntax.md R227). -/
theorem wrOnes_live {s : State} {path : Path} {ctx : Byte} {spanm1 : BitVec 6} {n k : Nat} (h : s.Live)
    (hr : ∀ i, i ≤ ctx.toNat + spanm1.toNat → wrReady s path i) :
    Sat (wrOnes path ctx spanm1 n k) s (fun _ => True) fun _ t =>
      t.Live ∧ t.encState = s.encState ∧ t.encTrm = s.encTrm ∧ t.cfg = s.cfg := by
  induction n generalizing s k with
  | zero => exact sat_pure.2 ⟨h, rfl, rfl, rfl⟩
  | succ n ih =>
    unfold wrOnes
    rw [sat_bind]
    refine (emit_live h (hr _ (by unfold tuCtx span; omega))).mono (fun _ => id) fun _ t ht => ?_
    obtain ⟨h1, e1, e2, e3⟩ := ht
    refine (ih h1 fun i hi => wrReady_congr (hr i hi) e1 e2 e3).mono
      (fun _ => id) fun _ u hu => ?_
    obtain ⟨h2, g1, g2, g3⟩ := hu
    exact ⟨h2, g1.trans e1, g2.trans e2, g3.trans e3⟩

/-- Raw output repeated keeps the invariant. -/
theorem putRepeat_live {s : State} {v n k : Nat} (h : s.Live) (he : s.encState ≠ .coding) (hn : n ≤ 32)
    (hv : v < 2 ^ n) :
    Sat (repeatCmd (putBits v n) k) s (fun _ => True) fun _ t => t.Live ∧ t.encState = s.encState := by
  refine sat_repeat (P := fun _ t => t.Live ∧ t.encState = s.encState) ⟨h, rfl⟩ fun k t _ ht => ?_
  obtain ⟨h1, e1⟩ := ht
  refine (putBits_live h1 (by rw [e1]; exact he) hn hv).mono (fun _ _ => trivial) fun _ u hu => ⟨hu.1, ?_⟩
  have hf := hu.2.frame
  rw [hf]; exact e1

/-- The bits of a fixed-length code keep the invariant (44_syntax.md R234). -/
theorem rdFlc_live {s : State} {path : Path} {n v : Nat} (h : s.Live) (hr : rdReady s path 0) :
    Sat (rdFlc path n v) s (fun _ => True) fun _ t => t.Live := by
  induction n generalizing s v with
  | zero => exact sat_pure.2 h
  | succ n ih =>
    unfold rdFlc
    rw [sat_bind]
    refine (take_live h hr).mono (fun _ => id) fun _ t ht => ?_
    obtain ⟨h1, e1, e2, e3⟩ := ht
    exact ih h1 (rdReady_congr hr e1 e2 e3)

/-- The prefix of an Exp-Golomb code keeps the invariant (44_syntax.md R235); it has at most 31 zeros. -/
theorem rdPrefix_live {s : State} {path : Path} {n l : Nat} (h : s.Live) (hr : rdReady s path 0) :
    Sat (rdPrefix path n l) s (fun _ => True) fun m t =>
      t.Live ∧ t.decState = s.decState ∧ t.count = s.count ∧ t.cfg = s.cfg ∧ l ≤ m ∧ m < l + n := by
  induction n generalizing s l with
  | zero => exact sat_raise.2 trivial
  | succ n ih =>
    unfold rdPrefix
    rw [sat_bind]
    refine (take_live h hr).mono (fun _ => id) fun b t ht => ?_
    obtain ⟨h1, e1, e2, e3⟩ := ht
    rw [sat_ite, sat_pure]
    refine ⟨fun _ => ⟨h1, e1, e2, e3, by omega, by omega⟩, fun _ => ?_⟩
    refine (ih h1 (rdReady_congr hr e1 e2 e3)).mono (fun _ => id) fun _ u hu => ?_
    obtain ⟨h2, g1, g2, g3, g4, g5⟩ := hu
    exact ⟨h2, g1.trans e1, g2.trans e2, g3.trans e3, by omega, by omega⟩

/-- An Exp-Golomb code keeps the invariant (44_syntax.md R235). -/
theorem rdUvlc_live {s : State} {path : Path} (h : s.Live) (hr : rdReady s path 0) :
    Sat (rdUvlc path) s (fun _ => True) fun _ t => t.Live := by
  unfold rdUvlc
  simp only [sat_bind, sat_pure]
  refine (rdPrefix_live h hr).mono (fun _ => id) fun _ t ht => ?_
  obtain ⟨h1, e1, e2, e3, -, -⟩ := ht
  exact rdFlc_live h1 (rdReady_congr hr e1 e2 e3)

/-- The ones of a truncated unary code keep the invariant (44_syntax.md R237). -/
theorem rdOnes_live {s : State} {path : Path} {ctx : Byte} {spanm1 : BitVec 6} {n k : Nat} (h : s.Live)
    (hr : ∀ i, i ≤ ctx.toNat + spanm1.toNat → rdReady s path i) :
    Sat (rdOnes path ctx spanm1 n k) s (fun _ => True) fun _ t => t.Live := by
  induction n generalizing s k with
  | zero => exact sat_pure.2 h
  | succ n ih =>
    unfold rdOnes
    rw [sat_bind]
    refine (take_live h (hr _ (by unfold tuCtx span; omega))).mono (fun _ => id) fun b t ht => ?_
    obtain ⟨h1, e1, e2, e3⟩ := ht
    rw [sat_ite, sat_pure]
    exact ⟨fun _ => ih h1 fun i hi => rdReady_congr (hr i hi) e1 e2 e3,
      fun _ => h1⟩

/-- The zeros of the trailing bits keep the invariant (44_syntax.md R238). -/
theorem rdZeros_live {s : State} {n : Nat} (h : s.Live) (hd : s.decState ≠ .coding) (hc : s.count = false) :
    Sat (rdZeros n) s (fun _ => True) fun _ t => t.Live := by
  induction n generalizing s with
  | zero => exact sat_pure.2 h
  | succ n ih =>
    unfold rdZeros
    rw [sat_bind]
    refine (getBits_live h hd hc).mono (fun _ _ => trivial) fun b t ht => ?_
    have hf := ht.2.2.2.1
    rw [sat_bind, sat_raiseIf]
    exact ⟨fun _ => trivial, fun _ => ih ht.1 (by rw [hf]; exact hd) (by rw [hf]; exact hc)⟩

/-- The bytes of an 0xFF-extended code keep the invariant (44_syntax.md R239). -/
theorem rdFf8_live {s : State} {n v : Nat} (h : s.Live) (hd : s.decState ≠ .coding) (hc : s.count = false) :
    Sat (rdFf8 n v) s (fun _ => True) fun _ t => t.Live := by
  induction n generalizing s v with
  | zero => exact sat_raise.2 trivial
  | succ n ih =>
    unfold rdFf8
    rw [sat_bind]
    refine (getBits_live h hd hc).mono (fun _ _ => trivial) fun b t ht => ?_
    have hf := ht.2.2.2.1
    rw [sat_bind, sat_raiseIf, sat_ite, sat_pure]
    exact ⟨fun _ => trivial, fun _ => ⟨fun _ => ht.1,
      fun _ => ih ht.1 (by rw [hf]; exact hd) (by rw [hf]; exact hc)⟩⟩

/-- Taking a fault leads into the invariant whatever was half done (60_exceptions.md R281, R282). -/
theorem takeFault_inv {s : State} (op : Byte) (c : Cause) (h : s.cfg.legal = true) : (s.takeFault op c).Inv := by
  refine ⟨⟨h, ?_, Memory.wf_ofCells _⟩, fun hf => ?_⟩
  · simp [State.takeFault, State.unspecified]
  · simp only [State.takeFault] at hf
    split at hf
    · cases hf
    · next hn => rw [hf] at hn; exact absurd rfl hn

/-- A command whose pseudocode keeps the invariant answers a next state that has it: a response, or a fault taken. -/
theorem answer_keeps {op : Byte} {m : Cmd Word} {s : State} (h : s.cfg.legal = true) (hs : Steady m)
    (hm : Sat m s (fun _ => True) fun _ t => t.Live) : ∃ t, answer op m s = .next t ∧ t.Inv := by
  unfold Sat at hm
  unfold answer
  split
  · next d t e => rw [e] at hm; exact ⟨_, rfl, hm.1⟩
  · next c t e => exact ⟨_, rfl, takeFault_inv op c ((hs.of_error e).1 ▸ h)⟩
  · next e => rw [e] at hm; exact hm.elim

end Sys2Proof.Machine
end

