-- ==== Sys2Proof/Tests/Slice0.lean ====
section
/-! SUPPORT. Tests: well-formedness, decoding of words written out from 30_encoding.md R90, R94 and R95, single steps with
the results of 95_test_vectors.md, and witnesses that meet the hypotheses of the statements. Expected values are the
spec's. The small states have 8 cells and a capacity of 1 to 4 words. -/

namespace Sys2Proof.Tests

open Sys2Proof Sys2Proof.Machine

set_option Elab.async false

/-! Well-formedness (30_encoding.md R98): for each check a term it refuses, and the word of that term refused. -/

theorem test_wellFormed_seWrFlc : (Instr.seWrFlc 4 .ctx 1).wellFormed = false ∧
    decode 0x5004000200000001 = .illegal .badPath ∧ decode 0x5004000300000001 = .illegal .badPath := by decide +kernel

theorem test_wellFormed_seWrUvlc : (Instr.seWrUvlc .ctx 5).wellFormed = false ∧
    decode 0x5100000200000005 = .illegal .badPath ∧ decode 0x5100000300000005 = .illegal .badPath := by decide +kernel

theorem test_wellFormed_seWrSvlc : (Instr.seWrSvlc .ctx 5).wellFormed = false ∧
    decode 0x5200000200000005 = .illegal .badPath ∧ decode 0x5200000300000005 = .illegal .badPath := by decide +kernel

/-- RAW; EP with a context; EP with a span; the reserved path. -/
theorem test_wellFormed_seWrTu : (Instr.seWrTu 0 3 .raw 0 1).wellFormed = false ∧
    (Instr.seWrTu 1 3 .ep 0 1).wellFormed = false ∧ (Instr.seWrTu 0 3 .ep 1 1).wellFormed = false ∧
    decode 0x5300030000000001 = .illegal .badPath ∧ decode 0x5301030100000001 = .illegal .badPath ∧
    decode 0x5300030500000001 = .illegal .badPath ∧ decode 0x5300030300000001 = .illegal .badPath := by decide +kernel

theorem test_wellFormed_seRdFlc : (Instr.seRdFlc 4 .ctx).wellFormed = false ∧
    decode 0x6004000200000000 = .illegal .badPath ∧ decode 0x6004000300000000 = .illegal .badPath := by decide +kernel

theorem test_wellFormed_seRdUvlc : (Instr.seRdUvlc .ctx).wellFormed = false ∧
    decode 0x6100000200000000 = .illegal .badPath ∧ decode 0x6100000300000000 = .illegal .badPath := by decide +kernel

theorem test_wellFormed_seRdSvlc : (Instr.seRdSvlc .ctx).wellFormed = false ∧
    decode 0x6200000200000000 = .illegal .badPath ∧ decode 0x6200000300000000 = .illegal .badPath := by decide +kernel

theorem test_wellFormed_seRdTu : (Instr.seRdTu 0 3 .raw 0).wellFormed = false ∧
    (Instr.seRdTu 1 3 .ep 0).wellFormed = false ∧ (Instr.seRdTu 0 3 .ep 1).wellFormed = false ∧
    decode 0x6300030000000000 = .illegal .badPath ∧ decode 0x6301030100000000 = .illegal .badPath ∧
    decode 0x6300030500000000 = .illegal .badPath ∧ decode 0x6300030300000000 = .illegal .badPath := by decide +kernel

/-! Decoding, family by family, every constructor once: OP, A, B, C in two digits each, then D. -/

theorem test_decode_system :
    decode 0x0000000000000000 = .ok .nop ∧ decode 0x0100000000000000 = .ok .sysReset ∧
    decode 0x0235000000000000 = .ok (.sysRdreg 0x35) := by decide +kernel

theorem test_decode_context :
    decode 0x10021A000028FF9C = .ok (.ctxInit 2 26 (BitVec.ofInt 16 (-100)) 40) ∧
    decode 0x110500000000007E = .ok (.ctxSet 5 62 true) ∧ decode 0x1205000000000000 = .ok (.ctxGet 5) := by decide +kernel

theorem test_decode_encoder :
    decode 0x2000000000000000 = .ok .encStart ∧ decode 0x2110000000000001 = .ok (.encBin 16 true) ∧
    decode 0x2200000000000001 = .ok (.encBinEp true) ∧ decode 0x2300000000000001 = .ok (.encBinTrm true) ∧
    decode 0x2400000000000000 = .ok .encFinish := by decide +kernel

theorem test_decode_decoder :
    decode 0x3000000000000000 = .ok .decStart ∧ decode 0x31FF000000000000 = .ok (.decBin 255) ∧
    decode 0x3200000000000000 = .ok .decBinEp ∧ decode 0x3300000000000000 = .ok .decBinTrm := by decide +kernel

theorem test_decode_bitBuffer :
    decode 0x4000000100000000 = .ok (.bbInit true) ∧ decode 0x41200000DEADBEEF = .ok (.bbWrite 32 0xDEADBEEF) ∧
    decode 0x4210000000000000 = .ok (.bbRead 16) ∧ decode 0x4300000000000000 = .ok .bbGetWritten ∧
    decode 0x4400000000000000 = .ok .bbResetBits ∧ decode 0x450000000000000C = .ok (.bbRdSeek 12) ∧
    decode 0x4600000000000001 = .ok (.bbGetByte 1) ∧ decode 0x4700000000000003 = .ok (.bbSubOpen 3) ∧
    decode 0x4800000000000000 = .ok .bbSubClose := by decide +kernel

theorem test_decode_syntaxWrite :
    decode 0x5003000100000005 = .ok (.seWrFlc 3 .ep 5) ∧ decode 0x5100000000000005 = .ok (.seWrUvlc .raw 5) ∧
    decode 0x52000000FFFFFFFD = .ok (.seWrSvlc .raw 0xFFFFFFFD) ∧
    decode 0x5304050A00000003 = .ok (.seWrTu 4 5 .ctx 2 3) ∧ decode 0x5400000000000000 = .ok .seWrTrail ∧
    decode 0x55000000000003E8 = .ok (.seWrFf8 1000) := by decide +kernel

theorem test_decode_syntaxRead :
    decode 0x6003000100000000 = .ok (.seRdFlc 3 .ep) ∧ decode 0x6100000000000000 = .ok (.seRdUvlc .raw) ∧
    decode 0x6200000100000000 = .ok (.seRdSvlc .ep) ∧ decode 0x6304050A00000000 = .ok (.seRdTu 4 5 .ctx 2) ∧
    decode 0x6400000000000000 = .ok .seRdTrail ∧ decode 0x6500000000000000 = .ok .seRdFf8 := by decide +kernel

/-- The illegal words of 95_test_vectors.md section 6. -/
theorem test_decode_illegal :
    decode 0x7F00000000000000 = .illegal .unassignedOp ∧ decode 0x0001000000000000 = .illegal .reservedBits ∧
    decode 0x2100000000000002 = .illegal .reservedBits ∧ decode 0x1100000000000080 = .illegal .reservedBits := by decide +kernel

/-- The two functions the host reads the table's words with. -/
theorem test_fetch :
    decodeTableWord 64 0x2100000000000001 = some (.encBin 0 true) ∧ decodeTableWord 64 0x2100000000000002 = none ∧
    (match step (State.reset.withFetchWord 64 0x2000000000000000) with
      | .next t => t.encRange == 510 && t.cmds.isEmpty && t.rsp.isSome
      | _ => false) = true := by decide +kernel

/-! The small states. -/

/-- 8 cells, 1 to 4 words of 32 bits, the default tables. -/
def smallConfig : Config := { Config.default with nctx := 8, cap0 := 1, capMax := 4 }

/-- Right after reset. -/
def idle : State := State.resetOf smallConfig

/-- The bytes A5 5A written (95_test_vectors.md 5.1, sequence B). -/
def written : State := { idle with store := [(0, 0xA5), (1, 0x5A)], wrPos := 16 }

/-- The same with a window of one byte open. -/
def windowed : State := { written with subActive := true, subEnd := 8 }

/-- Every bit CAP_MAX allows is written. -/
def full : State := { idle with bbCap := 4, wrPos := 128 }

/-- Counting mode. -/
def counting : State := { idle with count := true }

/-- Counting mode, one byte below the largest position. -/
def counted : State := { counting with wrPos := 0xFFFFFFF8 }

/-- After ENC_START. -/
def coding : State := { idle with encState := .coding, encRange := 510, encBitsLeft := 23, encBufByte := 0xFF }

/-- Before step 8 of V-S2: the next write-out gives the first held byte. -/
def leading : State := { coding with encLow := 0x1629C, encBitsLeft := 15 }

/-- Before step 19 of V-S5: the next write-out gives a 0xFF. -/
def running : State := { coding with encLow := 0xFFE42, encBitsLeft := 12, encNumBuf := 1, encBufByte := 0xFA }

/-- Before step 35 of V-S5: FA FF FF are held, the next write-out has a carry. -/
def carrying : State := { coding with encLow := 0x103E02, encBitsLeft := 12, encNumBuf := 3, encBufByte := 0xFA }

/-- The same where no bit more can be written. -/
def carryingFull : State := { carrying with bbCap := 4, wrPos := 128 }

/-- The same in counting mode at the largest position. -/
def carryingCounted : State := { carrying with count := true, wrPos := 0xFFFFFFF8 }

/-- After step 8 of V-S2: the flush is owed, B2 is held. -/
def ending : State :=
  { coding with
    encTrm := true, encLow := 0x4C00, encRange := 256, encBitsLeft := 16, encNumBuf := 1, encBufByte := 0xB2 }

/-- After step 37 of V-S5: the flush is owed, 03 FF are held behind FB 00 00. -/
def endingRun : State :=
  { coding with
    encTrm := true, encLow := 0x1F00, encRange := 256, encBitsLeft := 19, encNumBuf := 2, encBufByte := 0x03
    store := [(0, 0xFB)], wrPos := 24 }

/-- The flush is owed, nothing is held: after step 0 of V-S1. -/
def endingEmpty : State := { coding with encTrm := true, encLow := 0xFE00, encRange := 256, encBitsLeft := 16 }

/-- The flush is owed and there is no room for it. -/
def endingFull : State := { ending with bbCap := 4, wrPos := 128 }

/-- After DEC_START on the bytes FE 80 00 (95_test_vectors.md 4.2). -/
def decoding : State :=
  { idle with
    store := [(0, 0xFE), (1, 0x80)], wrPos := 24, rdPos := 16, decState := .coding, decValue := 0xFE80
    decRange := 510, decBitsNeeded := -8 }

/-- After DEC_START on the bytes 90 00 00. -/
def decodingLow : State := { decoding with store := [(0, 0x90)], decValue := 0x9000 }

/-- After DEC_START on the bytes FD FF 80. -/
def decodingOn : State := { decoding with store := [(0, 0xFD), (1, 0xFF), (2, 0x80)], decValue := 0xFDFF }

/-- After DEC_START on the bytes 7F FF AA. -/
def decodingEp : State := { decoding with store := [(0, 0x7F), (1, 0xFF), (2, 0xAA)], decValue := 0x7FFF }

/-- After DEC_START on the bytes FE 00 80. -/
def decodingBad : State := { decoding with store := [(0, 0xFE), (2, 0x80)], decValue := 0xFE00 }

/-- The next shift needs a byte and there is one. -/
def fetching : State := { decodingLow with decValue := 0x0980, decRange := 300, decBitsNeeded := -1 }

/-- The next shift needs a byte and there is none. -/
def dry : State := { fetching with wrPos := 16 }

/-- DEC_BIN_TRM doubles and needs a byte, and there is none. -/
def dryTrm : State := { dry with decValue := 0, decRange := 257 }

/-- A fault is recorded. -/
def faulted : State := { idle with fault := some ⟨.param, 0x41⟩ }

/-- `rst_n` is low. -/
def inReset : State := { faulted with rstN := false }

/-- A response is on offer. -/
def answered : State := { idle with rsp := some ⟨none, 7⟩ }

theorem live_idle : idle.Live := ⟨⟨by decide +kernel, fun _ => ⟨by decide +kernel, by decide +kernel, by decide +kernel, by decide +kernel⟩⟩, rfl⟩
theorem live_written : written.Live := ⟨⟨by decide +kernel, fun _ => ⟨by decide +kernel, by decide +kernel, by decide +kernel, by decide +kernel⟩⟩, rfl⟩
theorem live_windowed : windowed.Live := ⟨⟨by decide +kernel, fun _ => ⟨by decide +kernel, by decide +kernel, by decide +kernel, by decide +kernel⟩⟩, rfl⟩
theorem live_full : full.Live := ⟨⟨by decide +kernel, fun _ => ⟨by decide +kernel, by decide +kernel, by decide +kernel, by decide +kernel⟩⟩, rfl⟩
theorem live_counting : counting.Live := ⟨⟨by decide +kernel, fun _ => ⟨by decide +kernel, by decide +kernel, by decide +kernel, by decide +kernel⟩⟩, rfl⟩
theorem live_counted : counted.Live := ⟨⟨by decide +kernel, fun _ => ⟨by decide +kernel, by decide +kernel, by decide +kernel, by decide +kernel⟩⟩, rfl⟩
theorem live_coding : coding.Live := ⟨⟨by decide +kernel, fun _ => ⟨by decide +kernel, by decide +kernel, by decide +kernel, by decide +kernel⟩⟩, rfl⟩
theorem live_leading : leading.Live := ⟨⟨by decide +kernel, fun _ => ⟨by decide +kernel, by decide +kernel, by decide +kernel, by decide +kernel⟩⟩, rfl⟩
theorem live_running : running.Live := ⟨⟨by decide +kernel, fun _ => ⟨by decide +kernel, by decide +kernel, by decide +kernel, by decide +kernel⟩⟩, rfl⟩
theorem live_carrying : carrying.Live := ⟨⟨by decide +kernel, fun _ => ⟨by decide +kernel, by decide +kernel, by decide +kernel, by decide +kernel⟩⟩, rfl⟩
theorem live_carryingFull : carryingFull.Live :=
  ⟨⟨by decide +kernel, fun _ => ⟨by decide +kernel, by decide +kernel, by decide +kernel, by decide +kernel⟩⟩, rfl⟩
theorem live_carryingCounted : carryingCounted.Live :=
  ⟨⟨by decide +kernel, fun _ => ⟨by decide +kernel, by decide +kernel, by decide +kernel, by decide +kernel⟩⟩, rfl⟩
theorem live_ending : ending.Live := ⟨⟨by decide +kernel, fun _ => ⟨by decide +kernel, by decide +kernel, by decide +kernel, by decide +kernel⟩⟩, rfl⟩
theorem live_endingRun : endingRun.Live := ⟨⟨by decide +kernel, fun _ => ⟨by decide +kernel, by decide +kernel, by decide +kernel, by decide +kernel⟩⟩, rfl⟩
theorem live_endingEmpty : endingEmpty.Live := ⟨⟨by decide +kernel, fun _ => ⟨by decide +kernel, by decide +kernel, by decide +kernel, by decide +kernel⟩⟩, rfl⟩
theorem live_endingFull : endingFull.Live := ⟨⟨by decide +kernel, fun _ => ⟨by decide +kernel, by decide +kernel, by decide +kernel, by decide +kernel⟩⟩, rfl⟩
theorem live_decoding : decoding.Live := ⟨⟨by decide +kernel, fun _ => ⟨by decide +kernel, by decide +kernel, by decide +kernel, by decide +kernel⟩⟩, rfl⟩
theorem live_decodingLow : decodingLow.Live := ⟨⟨by decide +kernel, fun _ => ⟨by decide +kernel, by decide +kernel, by decide +kernel, by decide +kernel⟩⟩, rfl⟩
theorem live_decodingOn : decodingOn.Live := ⟨⟨by decide +kernel, fun _ => ⟨by decide +kernel, by decide +kernel, by decide +kernel, by decide +kernel⟩⟩, rfl⟩
theorem live_decodingEp : decodingEp.Live := ⟨⟨by decide +kernel, fun _ => ⟨by decide +kernel, by decide +kernel, by decide +kernel, by decide +kernel⟩⟩, rfl⟩
theorem live_decodingBad : decodingBad.Live := ⟨⟨by decide +kernel, fun _ => ⟨by decide +kernel, by decide +kernel, by decide +kernel, by decide +kernel⟩⟩, rfl⟩
theorem live_fetching : fetching.Live := ⟨⟨by decide +kernel, fun _ => ⟨by decide +kernel, by decide +kernel, by decide +kernel, by decide +kernel⟩⟩, rfl⟩
theorem live_dry : dry.Live := ⟨⟨by decide +kernel, fun _ => ⟨by decide +kernel, by decide +kernel, by decide +kernel, by decide +kernel⟩⟩, rfl⟩
theorem live_dryTrm : dryTrm.Live := ⟨⟨by decide +kernel, fun _ => ⟨by decide +kernel, by decide +kernel, by decide +kernel, by decide +kernel⟩⟩, rfl⟩

/-- The next state; marked where there is none. -/
def ran (i : Instr) (s : State) : State :=
  match exec i s with
  | .next t => t
  | _ => { s with freeCount := 999 }

/-- The next state of a step; marked where there is none. -/
def stepped (s : State) : State :=
  match step s with
  | .next t => t
  | _ => { s with freeCount := 999 }

/-- What a command answers: the data, or the cause. -/
def said (i : Instr) (s : State) : Option Response := (ran i s).rsp

/-- The answer (NONE, d). -/
def fine (d : Word) : Option Response := some ⟨none, d⟩

/-- The answer (ERR_X, 0). -/
def error (c : Cause) : Option Response := some ⟨some c, 0⟩

/-! System commands: 95_test_vectors.md section 6. -/

theorem test_nop : said .nop coding = fine 0 ∧ (ran .nop coding).encRange = 510 := by decide +kernel

theorem test_sysReset : (let t := ran .sysReset carrying
    (t.rsp, t.encState, t.encRange, t.encNumBuf, t.bbCap) = (fine 0, .unstarted, 0, 0, 1)) := by decide +kernel

theorem test_sysRdreg : said (.sysRdreg 0x07) idle = fine 0x33 ∧ said (.sysRdreg 0x00) coding = fine 1 ∧
    said (.sysRdreg 0x11) coding = fine 0x1FE ∧ said (.sysRdreg 0x12) coding = fine 0x17 ∧
    said (.sysRdreg 0x35) idle = fine 0x20 ∧ said (.sysRdreg 0x22) decoding = fine 0xFFFFFFF8 := by decide +kernel

theorem test_sysRdreg_unassigned : said (.sysRdreg 0x03) idle = error .index := by decide +kernel

/-! Contexts: section 3. -/

theorem test_ctxInit : (ran (.ctxInit 1 51 200 5) idle).ctx[1]? = some ⟨44, true⟩ ∧
    (ran (.ctxInit 2 26 (BitVec.ofInt 16 (-100)) 40) idle).ctx[2]? = some ⟨42, false⟩ ∧
    (ran (.ctxInit 0 30 24 1) idle).ctx[0]? = some ⟨63, false⟩ ∧
    (ran (.ctxInit 3 26 0 36) idle).ctx[3]? = some ⟨36, true⟩ := by decide +kernel

/-- ERR_PARAM before ERR_INDEX (60_exceptions.md R271). -/
theorem test_ctxInit_order : said (.ctxInit 255 52 0 0) idle = error .param ∧
    said (.ctxInit 8 51 0 0) idle = error .index := by decide +kernel

theorem test_ctxSet : (ran (.ctxSet 5 62 true) idle).ctx[5]? = some ⟨62, true⟩ := by decide +kernel

theorem test_ctxGet : said (.ctxGet 5) (ran (.ctxSet 5 62 true) idle) = fine 0x7E := by decide +kernel

/-! The encoder: sections 4.1 and 4.3. -/

theorem test_encStart : (let t := ran .encStart idle
    (t.encLow, t.encRange, t.encBitsLeft, t.encNumBuf, t.encBufByte, t.encState) = (0, 510, 23, 0, 0xFF, .coding)) := by
  decide +kernel

theorem test_encBin_lps : (let t := ran (.encBin 0 true) coding
    (t.encLow, t.encRange, t.encBitsLeft, t.ctx[0]?) = (0x21C, 480, 22, some ⟨0, true⟩)) := by decide +kernel

theorem test_encBin_mps : (let t := ran (.encBin 1 true) { coding with ctx := [⟨0, false⟩, ⟨20, true⟩] }
    (t.encLow, t.encRange, t.encBitsLeft, t.ctx[1]?) = (0, 425, 23, some ⟨21, true⟩)) := by decide +kernel

theorem test_encBinEp_run : (let t := ran (.encBinEp true) running
    (t.encLow, t.encBitsLeft, t.encNumBuf, t.encBufByte, t.wrPos) = (0x1E82, 19, 2, 0xFA, 0)) := by decide +kernel

theorem test_encBinEp_carry : (let t := ran (.encBinEp true) carrying
    (t.encLow, t.encBitsLeft, t.encNumBuf, t.encBufByte, t.wrPos, t.store.word 0) = (0x1E02, 19, 1, 0x03, 24, 0xFB000000)) := by
  decide +kernel

theorem test_encBinTrm_one : (let t := ran (.encBinTrm true) leading
    (t.encLow, t.encRange, t.encBitsLeft, t.encNumBuf, t.encBufByte, t.encTrm) = (0x4C00, 256, 16, 1, 0xB2, true)) := by
  decide +kernel

theorem test_encBinTrm_zero : (let t := ran (.encBinTrm false) coding
    (t.encLow, t.encRange, t.encBitsLeft, t.encTrm) = (0, 508, 23, false)) := by decide +kernel

theorem test_encFinish : (let t := ran .encFinish ending
    (t.store, t.wrPos, t.encState, t.encNumBuf) = ([(0, 0xB2), (1, 0x4C), (2, 0x80)], 24, .terminated, 0)) := by decide +kernel

theorem test_encFinish_run : (let t := ran .encFinish endingRun
    (t.store, t.wrPos) = ([(0, 0xFB), (3, 0x03), (4, 0xFF), (5, 0xFC)], 48)) := by decide +kernel

/-! The decoder: section 4.2. -/

theorem test_decStart : (let t := ran .decStart { idle with store := [(0, 0xFE), (1, 0x80)], wrPos := 16 }
    (t.decValue, t.decRange, t.decBitsNeeded, t.rdPos, t.decState) = (0xFE80, 510, -8, 16, .coding)) := by decide +kernel

theorem test_decStart_pattern : said .decStart { idle with store := [(0, 0xFF)], wrPos := 16 } = error .pattern ∧
    said .decStart idle = error .exhausted := by decide +kernel

theorem test_decBin_lps : (let t := ran (.decBin 0) decodingLow
    (t.rsp, t.decValue, t.decRange, t.decBitsNeeded, t.rdPos, t.ctx[0]?) =
      (fine 1, 0x1200, 480, -7, 16, some ⟨0, true⟩)) := by decide +kernel

theorem test_decBin_index : said (.decBin 8) idle = error .index ∧ said (.decBin 7) idle = error .state := by decide +kernel

theorem test_decBinEp : (let t := ran .decBinEp decodingEp
    (t.rsp, t.decValue, t.decRange, t.decBitsNeeded) = (fine 1, 0xFE, 510, -7)) := by decide +kernel

theorem test_decBinTrm : (let t := ran .decBinTrm decoding
    (t.rsp, t.decRange, t.rdPos, t.decState) = (fine 1, 508, 16, .terminated)) ∧
    (let t := ran .decBinTrm decodingOn
    (t.rsp, t.decValue, t.decRange, t.decState) = (fine 0, 0xFDFF, 508, .coding)) := by decide +kernel

theorem test_decBinTrm_pattern : said .decBinTrm decodingBad = error .pattern := by decide +kernel

/-! The bit buffer: section 5.1. -/

theorem test_bbInit : (let t := ran (.bbInit true) { windowed with bbCap := 2 }
    (t.count, t.bbCap, t.wrPos, t.rdPos, t.subActive, t.subEnd) = (true, 1, 0, 0, false, 0)) := by decide +kernel

theorem test_bbWrite : (let t := ran (.bbWrite 32 0xDEADBEEF) { idle with store := [(0, 0xA0)], wrPos := 3 }
    (t.wrPos, t.bbCap, t.store.word 0, t.store.word 1) = (35, 2, 0xBBD5B7DD, 0xE0000000)) := by decide +kernel

theorem test_bbWrite_low : (ran (.bbWrite 5 0xFFFFFFF0) idle).store.word 0 = 0x80000000 ∧
    said (.bbWrite 33 0) coding = error .param ∧ said (.bbWrite 1 0) full = error .resource := by decide +kernel

theorem test_bbRead : (let t := ran (.bbRead 4) { written with rdPos := 12 }
    (t.rsp, t.rdPos) = (fine 0xA, 16)) := by decide +kernel

theorem test_bbRead_window : said (.bbRead 9) windowed = error .exhausted ∧ said (.bbRead 8) windowed = fine 0xA5 := by
  decide +kernel

theorem test_bbGetWritten : said .bbGetWritten written = fine 16 := by decide +kernel

theorem test_bbResetBits : (let t := ran .bbResetBits { windowed with bbCap := 2 }
    (t.bbCap, t.wrPos, t.rdPos, t.subActive) = (2, 0, 0, false)) ∧ said .bbResetBits coding = error .state := by decide +kernel

theorem test_bbRdSeek : (ran (.bbRdSeek 12) written).rdPos = 12 ∧ said (.bbRdSeek 17) written = error .index ∧
    said (.bbRdSeek 999) counting = error .state := by decide +kernel

theorem test_bbGetByte : said (.bbGetByte 1) written = fine 0x5A ∧ said (.bbGetByte 0) idle = error .index := by decide +kernel

theorem test_bbSubOpen : (let t := ran (.bbSubOpen 1) written
    (t.subEnd, t.subActive) = (8, true)) ∧ said (.bbSubOpen 3) written = error .exhausted := by decide +kernel

theorem test_bbSubClose : (let t := ran .bbSubClose windowed
    (t.rdPos, t.subActive) = (8, false)) ∧ said .bbSubClose idle = error .state := by decide +kernel

/-! The syntax layer: sections 5.2 and 5.3. -/

theorem test_seWrFlc : (let t := ran (.seWrFlc 12 .raw 0xFFFABC) idle
    (t.wrPos, t.store.word 0) = (12, 0xABC00000)) := by decide +kernel

theorem test_seWrUvlc : (let t := ran (.seWrUvlc .raw 5) idle
    (t.wrPos, t.store.word 0) = (5, 0x30000000)) ∧ said (.seWrUvlc .raw 0xFFFFFFFF) idle = error .param := by decide +kernel

theorem test_seWrSvlc : (let t := ran (.seWrSvlc .raw 0xFFFFFF80) idle
    (t.wrPos, t.store.word 0) = (17, 0x00808000)) := by decide +kernel

theorem test_seWrTu : (let t := ran (.seWrTu 4 10 .ctx 2 3) coding
    (t.encLow, t.encRange, t.encBitsLeft, t.ctx[4]?, t.ctx[5]?, t.ctx[6]?) =
      (0x1E00, 480, 19, some ⟨0, true⟩, some ⟨0, true⟩, some ⟨0, false⟩)) := by decide +kernel

theorem test_seWrTu_index : said (.seWrTu 6 5 .ctx 2 1) coding = error .index ∧
    said (.seWrTu 0 3 .ep 0 4) idle = error .param := by decide +kernel

theorem test_seWrTrail : (let t := ran .seWrTrail { idle with wrPos := 5 }
    (t.wrPos, t.store.word 0) = (8, 0x04000000)) ∧ (ran .seWrTrail idle).store.word 0 = 0x80000000 := by decide +kernel

theorem test_seWrFf8 : (let t := ran (.seWrFf8 1000) idle
    (t.wrPos, t.store.word 0) = (32, 0xFFFFFFEB)) := by decide +kernel

theorem test_seRdFlc : (let t := ran (.seRdFlc 4 .raw) written
    (t.rsp, t.rdPos) = (fine 0xA, 4)) ∧ said (.seRdFlc 4 .ep) written = error .state := by decide +kernel

theorem test_seRdUvlc : (let t := ran (.seRdUvlc .raw) { idle with store := [(0, 0x30)], wrPos := 5 }
    (t.rsp, t.rdPos) = (fine 5, 5)) := by decide +kernel

theorem test_seRdUvlc_pattern : said (.seRdUvlc .raw) { full with wrPos := 33 } = error .pattern ∧
    said (.seRdUvlc .raw) { idle with wrPos := 8 } = error .exhausted := by decide +kernel

theorem test_seRdSvlc : said (.seRdSvlc .raw) { idle with store := [(1, 0x80), (2, 0x80)], wrPos := 17 } =
    fine 0xFFFFFF80 := by decide +kernel

theorem test_seRdTu : (let t := ran (.seRdTu 0 5 .ep 0) decodingEp
    (t.rsp, t.decBitsNeeded) = (fine 1, -6)) := by decide +kernel

theorem test_seRdTrail : (let t := ran .seRdTrail { idle with store := [(0, 0xAC)], wrPos := 8, rdPos := 5 }
    (t.rsp, t.rdPos) = (fine 0, 8)) ∧ said .seRdTrail written = error .pattern := by decide +kernel

theorem test_seRdFf8 : (let t := ran .seRdFf8 { idle with store := [(0, 0xFF), (1, 0xFF), (2, 0xFF), (3, 0xEB)], wrPos := 32 }
    (t.rsp, t.rdPos) = (fine 1000, 32)) ∧ said .seRdFf8 { idle with store := [(0, 0xFF)], wrPos := 8 } = error .exhausted := by
  decide +kernel

/-! Witnesses: for each statement with hypotheses, states and operands that meet them, clause by clause. -/

theorem witness_DecodeEncodeRoundTrip : (Instr.seWrTu 0 255 .ep 0 255).wellFormed = true ∧
    (Instr.seWrTu 255 255 .ctx 63 255).wellFormed = true ∧ (Instr.seRdFlc 255 .raw).wellFormed = true := by decide +kernel

theorem witness_EncodeDecodedWord : decode 0x53FFFFFE000000FF = .ok (.seWrTu 255 255 .ctx 63 255) := by decide +kernel

/-- A word a row matches; a word no row matches, and a state with no fault. -/
theorem witness_DecodeProcedure :
    (∃ r ∈ published, r.is 0x53FFFFFE000000FF = true) ∧
    (∀ r ∈ published, r.is 0x53FFFFFF000000FF = false) ∧ coding.fault = none := by decide +kernel

/-- Unassigned OP; a reserved bit; a bad path; a legal word, which answers with no ERR_ILLEGAL. -/
theorem witness_IllegalWords :
    idle.Live ∧ (∀ r ∈ published, r.pattern.extractLsb' 56 8 ≠ (0x03 : Byte)) ∧
    (∃ r ∈ published, r.pattern.extractLsb' 56 8 = (0x24 : Byte) ∧ (0x2400000000000001 : CmdWord) &&& r.mask ≠ r.pattern) ∧
    (∃ r ∈ published, r.pattern.extractLsb' 56 8 = (0x63 : Byte) ∧ r.constraint.holds 0x6300000500000000 = false) ∧
    (∃ r ∈ published, r.is 0x6300000600000000 = true) := ⟨live_idle, by decide +kernel⟩

theorem witness_StepRunsDecoded : State.Ready { coding with cmds := [0x2200000000000001] } ∧ coding.fault = none ∧
    decode 0x2200000000000001 = .ok (.encBinEp true) ∧ (Instr.encBinEp true).wellFormed = true := by decide +kernel

/-- A response held and taken; nothing to do; a word taken. -/
theorem witness_Handshake : answered.rstN = true ∧ answered.rsp = some ⟨none, 7⟩ ∧ answered.rspReady = true ∧
    State.rspReady { answered with rspReady := false } = false ∧ idle.Ready ∧ idle.cmds = [] ∧
    (stepped { idle with cmds := [0, 1] }).cmds = [1] := by decide +kernel

theorem witness_OneResponsePerCommand : idle.Inv ∧ State.Ready { idle with cmds := [0x0300000000000000] } ∧
    (stepped { idle with cmds := [0x0300000000000000] }).rsp = error .illegal ∧
    (stepped { idle with cmds := [0x4300000000000000] }).rsp = fine 0 :=
  ⟨live_idle.1, by decide +kernel⟩

theorem inv_faulted : faulted.Inv := ⟨by decide +kernel, fun h => by cases h⟩

theorem witness_FaultedDispatch : faulted.Inv ∧ faulted.Ready ∧ faulted.fault = some ⟨.param, 0x41⟩ ∧
    (stepped { faulted with cmds := [0x0100000000000000] }).fault = none ∧
    (stepped { faulted with cmds := [0x0200000000000000] }).rsp = fine 0x80 ∧
    (stepped { faulted with cmds := [0x0201000000000000] }).rsp = fine 0x202 ∧
    (stepped { faulted with cmds := [0x0202000000000000] }).rsp = fine 0x41 ∧
    (stepped { faulted with cmds := [0x0203000000000000] }).rsp = error .param :=
  ⟨inv_faulted, by decide +kernel⟩

/-- The record stays; reset by SYS_RESET; reset by the input. -/
theorem witness_FaultIsFinal : faulted.Inv ∧
    (stepped faulted).fault = some ⟨.param, 0x41⟩ ∧
    (stepped { faulted with cmds := [0x0100000000000000] }).fault = none ∧
    (stepped inReset).fault = none := ⟨inv_faulted, by decide +kernel⟩

/-- A command that completes and one that does not. -/
theorem witness_TakingAFault : idle.fault = none ∧
    (ran (.bbWrite 32 1) idle).fault = none ∧
    (ran (.bbWrite 33 1) idle).fault = some ⟨.param, 0x41⟩ := by decide +kernel

theorem witness_FaultCodes : idle.fault = none ∧ faulted.fault = some ⟨.param, 0x41⟩ ∧
    (∀ c ∈ [Cause.illegal, .index, .state, .exhausted, .pattern, .resource, .overflow],
      State.fault { idle with fault := some ⟨c, 0x41⟩ } = some ⟨c, 0x41⟩) := by decide +kernel

theorem witness_ResetEvent : coding.cfg.legal = true ∧ coding.fault = none ∧ inReset.cfg.legal = true ∧
    inReset.rstN = false ∧ inReset.fault = some ⟨.param, 0x41⟩ ∧ (0x0101000000000000 : CmdWord).extractLsb' 56 8 = 0x01 ∧
    (0x0101000000000000 : CmdWord) ≠ 0x0100000000000000 := by decide +kernel

theorem witness_NopEffect : (0x00FFFFFFFFFFFFFF : CmdWord).extractLsb' 56 8 = 0 ∧ (0x00FFFFFFFFFFFFFF : CmdWord) ≠ 0 ∧
    coding.fault = none ∧ faulted.fault = some ⟨.param, 0x41⟩ := by decide +kernel

theorem witness_RegisterMap : decoding.cfg.legal = true ∧
    (0x03 : Byte) ∉ [(0x00 : Byte), 0x01, 0x02, 0x04, 0x05, 0x06, 0x07, 0x10, 0x11, 0x12, 0x13, 0x14, 0x20, 0x21, 0x22,
      0x30, 0x31, 0x32, 0x33, 0x34, 0x35, 0x36, 0x37] ∧
    (stepped idle).cfg = idle.cfg := by decide +kernel

/-- qp too large; ctx too large; slope = offset = 0; preState 36; preState 35. -/
theorem witness_CtxInit : idle.cfg.qpMax < (52 : Byte).toNat ∧
    (¬ idle.cfg.qpMax < (51 : Byte).toNat ∧ idle.cfg.nctx ≤ (8 : Byte).toNat ∧ ¬ idle.cfg.nctx ≤ (7 : Byte).toNat) ∧
    (ran (.ctxInit 7 51 0 0) idle).ctx[7]? = some ⟨0, false⟩ ∧
    (min (max ((256 : BitVec 16).toInt * (1 : Byte).toNat / 256 + (35 : BitVec 16).toInt) 8) 63 = 36) ∧
    (min (max ((255 : BitVec 16).toInt * (1 : Byte).toNat / 256 + (35 : BitVec 16).toInt) 8) 63 = 35) := by decide +kernel

theorem witness_CtxSetAndGet : idle.Formed ∧ idle.cfg.nctx ≤ (8 : Byte).toNat ∧ ¬ idle.cfg.nctx ≤ (7 : Byte).toNat := by
  decide +kernel

/-- An encoded bin that equals mps and one that does not, from state 0; the same decoded. -/
theorem witness_ContextAdaptation : coding.Live ∧ decodingLow.Live ∧ coding.ctx[0]? = some ⟨0, false⟩ ∧
    (ran (.encBin 0 false) coding).fault = none ∧ (ran (.encBin 0 true) coding).fault = none ∧
    said (.decBin 0) decodingLow = fine 1 ∧ said (.decBin 0) fetching = fine 0 :=
  ⟨live_coding, live_decodingLow, by decide +kernel⟩

/-- A command that completes, one that does not, and the truncated unary codes on the EP path. -/
theorem witness_ContextIsolation : contextFree (.encBinEp true) = true ∧ coding.fault = none ∧
    (ran (.encBinEp true) coding).fault = none ∧ (ran (.encBinEp true) idle).fault = some ⟨.state, 0x22⟩ ∧
    (ran (.seWrTu 0 2 .ep 0 2) coding).fault = none ∧ (ran (.seRdTu 0 2 .ep 0) decoding).fault = none := by decide +kernel

theorem witness_NumRenorm : (1 : Nat) ≤ 1 ∧ (255 : Nat) ≤ 255 ∧ numRenorm 1 = 8 ∧ numRenorm 255 = 1 := by decide +kernel

/-- ENC_START refused while CODING and at bit 3; accepted at bit 0. -/
theorem witness_EncStart : coding.encState = .coding ∧ (State.wrPos { idle with wrPos := 3 }).toNat % 8 ≠ 0 ∧
    ¬ (idle.encState = .coding ∨ idle.wrPos.toNat % 8 ≠ 0) := by decide +kernel

/-- Index; state, before ENC_START and after the terminating bin; the ways of the write-out; its three faults. -/
theorem witness_EncBin : (coding.Live ∧ ending.Live ∧ idle.Live ∧ leading.Live ∧ running.Live ∧ carrying.Live) ∧
    (carryingFull.Live ∧ carryingCounted.Live) ∧
    coding.cfg.nctx ≤ (8 : Byte).toNat ∧ ¬ coding.cfg.nctx ≤ (7 : Byte).toNat ∧ ¬ idle.Encoding ∧ ¬ ending.Encoding ∧
    coding.Encoding ∧ said (.encBin 7 true) leading = fine 0 ∧ said (.encBin 7 true) running = fine 0 ∧
    said (.encBin 7 true) carrying = fine 0 ∧ said (.encBin 7 false) carryingFull = fine 0 ∧
    said (.encBin 7 true) carryingFull = error .resource ∧ said (.encBin 7 true) carryingCounted = error .overflow :=
  ⟨⟨live_coding, live_ending, live_idle, live_leading, live_running, live_carrying⟩,
    ⟨live_carryingFull, live_carryingCounted⟩, by decide +kernel⟩

/-- The same for the bypass bin: at 12 bits it writes out, from 13 it does not; a lead byte 0xFF is held while it can be
counted, room or not. -/
theorem witness_EncBinEp : (coding.Live ∧ ending.Live ∧ carrying.Live ∧ carryingFull.Live ∧ carryingCounted.Live) ∧
    ¬ ending.Encoding ∧ coding.outFault 510 22 = none ∧ coding.outFault 0 12 = none ∧
    carrying.outFault 0x207DFE 11 = none ∧ carryingFull.outFault 0x207DFE 11 = some .resource ∧
    carryingCounted.outFault 0x207DFE 11 = some .overflow ∧
    State.outFault { running with bbCap := 4, wrPos := 128 } 0x1FFE82 11 = none ∧
    State.outFault { running with encNumBuf := 0xFFFFFFFE } 0x1FFE82 11 = none ∧
    State.outFault { running with encNumBuf := 0xFFFFFFFF } 0x1FFE82 11 = some .overflow ∧
    said (.encBinEp true) carryingFull = error .resource ∧
    said (.encBinEp true) carryingCounted = error .overflow ∧
    said (.encBinEp true) { running with bbCap := 4, wrPos := 128 } = fine 0 ∧
    said (.encBinEp true) { running with encNumBuf := 0xFFFFFFFE } = fine 0 ∧
    said (.encBinEp true) { running with encNumBuf := 0xFFFFFFFF } = error .overflow :=
  ⟨⟨live_coding, live_ending, live_carrying, live_carryingFull, live_carryingCounted⟩, by decide +kernel⟩

/-- The terminate bin: refused, 1, 0 without and with a doubling, without room. -/
theorem witness_EncBinTrm : (ending.Live ∧ leading.Live ∧ coding.Live ∧ carryingFull.Live) ∧ ¬ ending.Encoding ∧
    said (.encBinTrm true) leading = fine 0 ∧ 256 ≤ coding.encRange.toNat - 2 ∧
    (ran (.encBinTrm false) { coding with encRange := 257 }).encRange = 510 ∧
    said (.encBinTrm true) carryingFull = error .resource :=
  ⟨⟨live_ending, live_leading, live_coding, live_carryingFull⟩, by decide +kernel⟩

/-- ENC_FINISH refused; with no byte, one byte and a run held; without room. -/
theorem witness_EncFinish : (coding.Live ∧ endingEmpty.Live ∧ ending.Live ∧ endingRun.Live ∧ endingFull.Live) ∧
    ¬ (coding.encState = .coding ∧ coding.encTrm = true) ∧ endingEmpty.encNumBuf.toNat = 0 ∧
    endingEmpty.Room (8 * 0 + 8 + 1 + 7) ∧ ending.Room (8 * 1 + 8 + 1 + 7) ∧ endingRun.Room (8 * 2 + 5 + 1 + 2) ∧
    ¬ endingFull.Room 1 ∧ said .encFinish endingFull = error .resource :=
  ⟨⟨live_coding, live_endingEmpty, live_ending, live_endingRun, live_endingFull⟩, by decide +kernel⟩

/-- A segment of each kind of bin, and the empty one. -/
def bins : List Bin := [.context 7 true, .bypass true, .goOn, .context 0 false]

theorem witness_CarryPropagation : idle.Live ∧ idle.count = false ∧
    (runData (encodeSegment bins) idle).isSome = true ∧ (runData (encodeSegment []) idle).isSome = true :=
  ⟨live_idle, by decide +kernel⟩

/-- DEC_START refused; too few bits (15); first byte FF; first byte FE. -/
theorem witness_DecStart : (decoding.Live ∧ counting.Live ∧ idle.Live ∧ written.Live) ∧ decoding.decState = .coding ∧
    counting.count = true ∧ ¬ State.Avail { written with wrPos := 15 } 16 ∧ written.Avail 16 ∧
    said .decStart written = fine 0 ∧ said .decStart { written with store := [(0, 0xFF)] } = error .pattern ∧
    said .decStart { written with store := [(0, 0xFE), (1, 0xFF)] } = fine 0 :=
  ⟨⟨live_decoding, live_counting, live_idle, live_written⟩, by decide +kernel⟩

/-- Index; state; the lower and the upper sub-interval; a byte needed and there; a byte needed and not there. -/
theorem witness_DecBin : (decoding.Live ∧ idle.Live ∧ decodingLow.Live ∧ fetching.Live ∧ dry.Live) ∧
    decoding.cfg.nctx ≤ (8 : Byte).toNat ∧ idle.decState ≠ .coding ∧ said (.decBin 7) decodingLow = fine 1 ∧
    said (.decBin 7) fetching = fine 0 ∧ (ran (.decBin 7) fetching).rdPos = 24 ∧ fetching.Avail 8 ∧ ¬ dry.Avail 8 ∧
    said (.decBin 7) dry = error .exhausted :=
  ⟨⟨live_decoding, live_idle, live_decodingLow, live_fetching, live_dry⟩, by decide +kernel⟩

theorem witness_DecBinEp : (idle.Live ∧ decodingEp.Live ∧ fetching.Live ∧ dry.Live) ∧ idle.decState ≠ .coding ∧
    said .decBinEp decodingEp = fine 1 ∧ said .decBinEp fetching = fine 0 ∧ fetching.decBitsNeeded.toInt = -1 ∧
    fetching.Avail 8 ∧ ¬ dry.Avail 8 ∧ said .decBinEp dry = error .exhausted :=
  ⟨⟨live_idle, live_decodingEp, live_fetching, live_dry⟩, by decide +kernel⟩

/-- Refused; bin 1 with the pattern and without; bin 0 with and without a doubling; a byte needed and not there. -/
theorem witness_DecBinTrm :
    (idle.Live ∧ decoding.Live ∧ decodingBad.Live ∧ decodingOn.Live ∧ fetching.Live ∧ dryTrm.Live) ∧
    idle.decState ≠ .coding ∧ said .decBinTrm decoding = fine 1 ∧ said .decBinTrm decodingBad = error .pattern ∧
    said .decBinTrm decodingOn = fine 0 ∧ said .decBinTrm { dryTrm with wrPos := 24 } = fine 0 ∧
    (ran .decBinTrm { dryTrm with wrPos := 24 }).rdPos = 24 ∧ said .decBinTrm dryTrm = error .exhausted :=
  ⟨⟨live_idle, live_decoding, live_decodingBad, live_decodingOn, live_fetching, live_dryTrm⟩, by decide +kernel⟩

theorem witness_InverseLaw : idle.Live ∧ idle.count = false ∧ idle.subActive = false ∧ idle.decState ≠ .coding ∧
    (runData (encodeSegment bins) idle).isSome = true ∧ (runData (encodeSegment []) idle).isSome = true ∧
    written.Live ∧ written.rdPos ≠ written.wrPos ∧ (runData (encodeSegment bins) written).isSome = true :=
  ⟨live_idle, by decide +kernel, by decide +kernel, by decide +kernel, by decide +kernel, by decide +kernel,
    live_written, by decide +kernel⟩

theorem witness_EmptyingTheBuffer : windowed.cfg.legal = true ∧ coding.encState = .coding ∧
    decoding.decState = .coding ∧ ¬ (windowed.encState = .coding ∨ windowed.decState = .coding) := by decide +kernel

/-- n = 33; CODING; the last position; the last word; room for 32 bits. -/
theorem witness_BbWrite : (coding.Live ∧ counted.Live ∧ full.Live ∧ idle.Live) ∧ 32 < (33 : Byte).toNat ∧
    coding.encState = .coding ∧ 2 ^ 32 ≤ counted.wrPos.toNat + (8 : Byte).toNat ∧
    ¬ 2 ^ 32 ≤ counted.wrPos.toNat + (7 : Byte).toNat ∧ 32 * full.cfg.capMax < full.wrPos.toNat + (1 : Byte).toNat ∧
    ¬ 32 * full.cfg.capMax < full.wrPos.toNat + (0 : Byte).toNat ∧ said (.bbWrite 32 7) idle = fine 0 ∧
    said (.bbWrite 7 7) counted = fine 0 ∧ said (.bbWrite 0 7) full = fine 0 :=
  ⟨⟨live_coding, live_counted, live_full, live_idle⟩, by decide +kernel⟩

theorem witness_BbRead : (decoding.Live ∧ counting.Live ∧ written.Live ∧ windowed.Live) ∧ 32 < (33 : Byte).toNat ∧
    decoding.decState = .coding ∧ counting.count = true ∧ windowed.subEnd.toNat < windowed.rdPos.toNat + 9 ∧
    written.wrPos.toNat < written.rdPos.toNat + 17 ∧ said (.bbRead 16) written = fine 0xA55A ∧
    said (.bbRead 0) windowed = fine 0 :=
  ⟨⟨live_decoding, live_counting, live_written, live_windowed⟩, by decide +kernel⟩

theorem witness_CursorsAndPeeks : decoding.decState = .coding ∧ counting.count = true ∧ windowed.subActive = true ∧
    written.wrPos.toNat < (17 : Word).toNat ∧ said (.bbRdSeek 16) written = fine 0 ∧
    written.wrPos.toNat < 8 * ((2 : Word).toNat + 1) ∧ said (.bbGetByte 1) windowed = fine 0x5A ∧
    said (.bbGetByte 1) decoding = fine 0x80 := by decide +kernel

theorem witness_SubStreamWindow : decoding.decState = .coding ∧ windowed.subActive = true ∧
    (State.rdPos { written with rdPos := 4 }).toNat % 8 ≠ 0 ∧
    written.wrPos.toNat < written.rdPos.toNat + 8 * (3 : Word).toNat ∧ said (.bbSubOpen 2) written = fine 0 ∧
    said (.bbSubOpen 0) idle = fine 0 ∧ idle.subActive = false ∧ said .bbSubClose windowed = fine 0 := by decide +kernel

/-- Sequence A of 95_test_vectors.md 5.1: 40 bits. -/
def writes : List (Byte × Word) := [(3, 5), (32, 0xDEADBEEF), (0, 0xFFFFFFFF), (5, 0xFFFFFFF0)]

/-- Read back in the same and in other parts. -/
theorem witness_WriteThenRead : idle.Live ∧ idle.encState ≠ .coding ∧ idle.decState ≠ .coding ∧
    (∀ p ∈ writes, p.1.toNat ≤ 32) ∧ (writes.map fun p => p.1.toNat).sum = 40 ∧
    (∀ n ∈ [(3 : Byte), 32, 0, 5, 8], n.toNat ≤ 32) ∧ (([3, 32, 0, 5] : List Byte).map (·.toNat)).sum = 40 ∧
    (([8, 32, 0] : List Byte).map (·.toNat)).sum = 40 ∧ 40 ≤ 32 * idle.cfg.capMax :=
  ⟨live_idle, by decide +kernel, by decide +kernel, by simp [writes], by decide +kernel⟩

theorem witness_CountingEqualsReal : written.Live ∧
    (∀ i ∈ [Instr.bbWrite 3 5, .seWrTrail, .encStart, .encBin 0 true, .encBinTrm true, .encFinish], readsStore i = false) ∧
    (runData (.bbInit false :: [.bbWrite 3 5, .seWrTrail, .encStart, .encBin 0 true, .encBinTrm true, .encFinish])
      written).isSome = true := ⟨live_written, by decide +kernel⟩

theorem witness_GrowthInvisible : written.Live ∧ State.Live { written with bbCap := 4 } ∧
    Instr.bbWrite 32 0 ≠ .sysRdreg 0x32 ∧ said (.bbWrite 32 0) written = fine 0 ∧
    written.bbCap.toNat < (ran (.bbWrite 32 0) written).bbCap.toNat :=
  ⟨live_written, ⟨⟨by decide +kernel, fun _ => ⟨by decide +kernel, by decide +kernel, by decide +kernel, by decide +kernel⟩⟩, rfl⟩, by decide +kernel⟩

theorem witness_AppendOnly : written.Live ∧ empties (.bbWrite 32 1) = false ∧
    (ran (.bbWrite 32 1) written).fault = none ∧ carrying.Live ∧ (ran (.encBinEp true) carrying).fault = none :=
  ⟨live_written, by decide +kernel, by decide +kernel, live_carrying, by decide +kernel⟩

/-- On each write command: the parameter refused where there is one; RAW refused, with room and without; EP refused and
coded. -/
theorem witness_SeWrFlc : (idle.Live ∧ coding.Live ∧ full.Live ∧ carryingFull.Live) ∧ Path.raw ≠ .ctx ∧ Path.ep ≠ .ctx ∧
    32 < (33 : Byte).toNat ∧ coding.encState = .coding ∧ idle.Room 32 ∧ ¬ full.Room 1 ∧ full.Room 0 ∧ ¬ idle.Encoding ∧
    coding.EncRoom 3 ∧ said (.seWrFlc 3 .ep 5) coding = fine 0 ∧
    said (.seWrFlc 1 .ep 1) carryingFull = error .resource :=
  ⟨⟨live_idle, live_coding, live_full, live_carryingFull⟩, by decide +kernel⟩

theorem witness_SeWrUvlc : (idle.Live ∧ coding.Live ∧ full.Live) ∧ Path.raw ≠ .ctx ∧ Path.ep ≠ .ctx ∧
    (0xFFFFFFFE : Word) ≠ 0xFFFFFFFF ∧ idle.Room 63 ∧ ¬ full.Room 1 ∧ ¬ idle.Encoding ∧ coding.EncRoom 5 ∧
    said (.seWrUvlc .raw 0xFFFFFFFE) idle = fine 0 ∧ said (.seWrUvlc .ep 5) coding = fine 0 :=
  ⟨⟨live_idle, live_coding, live_full⟩, by decide +kernel⟩

theorem witness_SeWrSvlc : (idle.Live ∧ coding.Live ∧ full.Live) ∧ Path.raw ≠ .ctx ∧ Path.ep ≠ .ctx ∧
    (0x80000001 : Word) ≠ 0x80000000 ∧ idle.Room 63 ∧ ¬ full.Room 1 ∧ ¬ idle.Encoding ∧ coding.EncRoom 5 ∧
    said (.seWrSvlc .raw 0x80000001) idle = fine 0 ∧ said (.seWrSvlc .ep 0) coding = fine 0 :=
  ⟨⟨live_idle, live_coding, live_full⟩, by decide +kernel⟩

theorem witness_SeWrTu : (idle.Live ∧ coding.Live ∧ carryingFull.Live) ∧ (3 : Byte).toNat < (4 : Byte).toNat ∧
    coding.cfg.nctx ≤ (6 : Byte).toNat + (2 : BitVec 6).toNat ∧ ¬ coding.cfg.nctx ≤ (5 : Byte).toNat + (2 : BitVec 6).toNat ∧
    ¬ idle.Encoding ∧ coding.Encoding ∧ said (.seWrTu 5 4 .ctx 2 4) coding = fine 0 ∧
    said (.seWrTu 0 4 .ep 0 3) coding = fine 0 ∧ said (.seWrTu 0 4 .ep 0 3) carryingFull = error .resource :=
  ⟨⟨live_idle, live_coding, live_carryingFull⟩, by decide +kernel⟩

theorem witness_SeWrTrail : (idle.Live ∧ coding.Live ∧ full.Live) ∧ coding.encState = .coding ∧ idle.Room 8 ∧
    ¬ full.Room 8 ∧ said .seWrTrail { idle with wrPos := 7 } = fine 0 :=
  ⟨⟨live_idle, live_coding, live_full⟩, by decide +kernel⟩

theorem witness_SeWrFf8 : (idle.Live ∧ coding.Live ∧ full.Live) ∧ coding.encState = .coding ∧
    idle.Room (8 * ((0 : Word).toNat / 255 + 1)) ∧ idle.Room (8 * ((255 : Word).toNat / 255 + 1)) ∧ ¬ full.Room 8 ∧
    said (.seWrFf8 255) idle = fine 0 := ⟨⟨live_idle, live_coding, live_full⟩, by decide +kernel⟩

/-- n = 33; the path refused; enough bits; too few; the same on the EP path. -/
theorem witness_SeRdFlc : (written.Live ∧ decoding.Live ∧ dry.Live) ∧ Path.raw ≠ .ctx ∧ Path.ep ≠ .ctx ∧
    32 < (33 : Byte).toNat ∧ decoding.canRead .raw = false ∧ written.canRead .ep = false ∧ written.Avail (8 * 2) ∧
    (takeBits .raw 16 written).isSome = true ∧ takeBits .raw 17 written = none ∧
    (takeBits .ep 15 decoding).isSome = true ∧ takeBits .ep 1 dry = none :=
  ⟨⟨live_written, live_decoding, live_dry⟩, by decide +kernel⟩

/-- The largest Exp-Golomb code: 31 zeros, a one, 31 ones but the last. -/
def longest : State := { idle with store := [(3, 1), (4, 0xFF), (5, 0xFF), (6, 0xFF), (7, 0xFE)], bbCap := 2, wrPos := 63 }

theorem live_longest : longest.Live := ⟨⟨by decide +kernel, fun _ => ⟨by decide +kernel, by decide +kernel, by decide +kernel, by decide +kernel⟩⟩, rfl⟩

/-- L = 31 and L = 0; the suffix cut short; the prefix cut short after 31 zeros and after none; 32 zeros. -/
theorem witness_SeRdUvlc : (longest.Live ∧ idle.Live ∧ full.Live ∧ decoding.Live) ∧ Path.raw ≠ .ctx ∧ Path.ep ≠ .ctx ∧
    decoding.canRead .raw = false ∧ longest.canRead .raw = true ∧ full.Avail 63 ∧
    (takeBits .raw 63 longest).map (·.1) = some 0xFFFFFFFF ∧
    (takeBits .raw 1 { idle with store := [(0, 0x80)], wrPos := 1 }).map (·.1) = some 1 ∧
    (takeBits .raw 32 { longest with wrPos := 62 }).map (·.1) = some 1 ∧ takeBits .raw 63 { longest with wrPos := 62 } = none ∧
    (takeBits .raw 31 { full with wrPos := 31 }).map (·.1) = some 0 ∧ takeBits .raw 32 { full with wrPos := 31 } = none ∧
    (takeBits .raw 0 idle).map (·.1) = some 0 ∧ takeBits .raw 1 idle = none ∧
    (takeBits .raw 32 full).map (·.1) = some 0 ∧ (takeBits .ep 1 decodingEp).map (·.1) = some 1 :=
  ⟨⟨live_longest, live_idle, live_full, live_decoding⟩, by decide +kernel⟩

theorem witness_SeRdSvlc : (longest.Live ∧ decoding.Live) ∧ Path.raw ≠ .ctx ∧ Path.ep ≠ .ctx ∧
    decoding.canRead .raw = false ∧ longest.canRead .raw = true ∧ said (.seRdSvlc .raw) longest = fine 0x80000001 ∧
    said (.seRdSvlc .raw) { longest with wrPos := 62 } = error .exhausted ∧
    said (.seRdSvlc .ep) decodingEp = fine 0 := ⟨⟨live_longest, live_decoding⟩, by decide +kernel⟩

/-- Index; state; a zero after one 1; all ones; max = 0; a bin that needs a byte that is not there. -/
theorem witness_SeRdTu : (decodingEp.Live ∧ idle.Live ∧ dry.Live) ∧
    decodingEp.cfg.nctx ≤ (6 : Byte).toNat + (2 : BitVec 6).toNat ∧ idle.decState ≠ .coding ∧ decodingEp.Avail (8 * 1) ∧
    (runData (tuReads .ep 0 0 2) decodingEp).map (·.1) = some (List.replicate 1 1 ++ [0]) ∧
    (runData (tuReads .ep 0 0 1) decodingEp).map (·.1) = some (List.replicate 1 1) ∧
    (runData (tuReads .ctx 7 0 0) decodingEp).map (·.1) = some (List.replicate 0 1) ∧
    (runData (tuReads .ctx 7 0 1) decodingLow).map (·.1) = some (List.replicate 1 1) ∧
    (runData (tuReads .ep 0 0 0) dry).map (·.1) = some (List.replicate 0 1) ∧ runData (tuReads .ep 0 0 1) dry = none :=
  ⟨⟨live_decodingEp, live_idle, live_dry⟩, by decide +kernel⟩

/-- Refused; 8 bits right and wrong; no bits; 4 of 8 bits, right so far and wrong; 1 bit. -/
theorem witness_SeRdTrail : (decoding.Live ∧ written.Live ∧ idle.Live) ∧ decoding.canRead .raw = false ∧
    said .seRdTrail { written with store := [(0, 0x80)] } = fine 0 ∧ said .seRdTrail written = error .pattern ∧
    said .seRdTrail idle = error .exhausted ∧
    said .seRdTrail { written with store := [(0, 0x80)], wrPos := 4 } = error .exhausted ∧
    said .seRdTrail { written with wrPos := 4 } = error .pattern ∧ said .seRdTrail { written with rdPos := 7 } = fine 0 :=
  ⟨⟨live_decoding, live_written, live_idle⟩, by decide +kernel⟩

/-- Refused; no byte; a byte below FF; q = 1 with the last byte and without. (A sum of 2^32 takes 16843009 bytes FF.) -/
theorem witness_SeRdFf8 : (decoding.Live ∧ idle.Live ∧ written.Live) ∧ decoding.canRead .raw = false ∧
    ¬ idle.Avail (8 * (0 + 1)) ∧ written.Avail (8 * (0 + 1)) ∧ said .seRdFf8 written = fine 0xA5 ∧
    (let s := { written with store := [(0, 0xFF), (1, 0xFE)] }
    s.Avail (8 * 1) ∧ s.store.readBits s.rdPos.toNat (8 * 1) = 256 ^ 1 - 1 ∧ said .seRdFf8 s = fine 509 ∧
    said .seRdFf8 { s with wrPos := 8 } = error .exhausted) ∧ 2 ^ 32 ≤ 255 * 16843009 + 1 ∧ 255 * 16843009 < 2 ^ 32 :=
  ⟨⟨live_decoding, live_idle, live_written⟩, by decide +kernel⟩

theorem witness_SyntaxRoundTrip : idle.Live ∧ idle.count = false ∧ idle.subActive = false ∧ idle.encState ≠ .coding ∧
    idle.decState ≠ .coding ∧ idle.rdPos = idle.wrPos ∧ (ran (.seWrFlc 32 .raw 0xFFFFFFFF) idle).fault = none ∧
    (ran (.seWrUvlc .raw 0xFFFFFFFE) idle).fault = none ∧ (ran (.seWrSvlc .raw 0x80000001) idle).fault = none ∧
    (ran .seWrTrail idle).fault = none ∧ (ran (.seWrFf8 255) idle).fault = none := ⟨live_idle, by decide +kernel⟩

theorem witness_StepKeepsInvariant : State.Inv { idle with cmds := [0x2000000000000000] } ∧
    (stepped { idle with cmds := [0x2000000000000000] }).encRange = 510 ∧ faulted.Inv ∧
    (stepped faulted).fault.isSome = true :=
  ⟨⟨by decide +kernel, fun _ => ⟨by decide +kernel, by decide +kernel, by decide +kernel, by decide +kernel⟩⟩, by decide +kernel, inv_faulted, by decide +kernel⟩

theorem witness_StepNeverStops : State.reset.Inv :=
  ⟨by decide +kernel, fun _ => ⟨by decide +kernel, by decide +kernel, by decide +kernel, by decide +kernel⟩⟩

/-- Writes and reads in an open window; with none open; a close, which is the exception. -/
theorem witness_WindowStays : (ran (.bbWrite 8 1) windowed).fault = none ∧ (ran (.bbRead 8) windowed).fault = none ∧
    idle.subActive = false ∧ idle.subEnd = 0 ∧ (ran .encStart idle).fault = none ∧
    (ran .bbResetBits windowed).fault = none ∧ (ran .bbSubClose windowed).fault = none ∧
    (ran .bbSubClose windowed).subEnd = 8 := by decide +kernel

end Sys2Proof.Tests
end

section
/-! SUPPORT. That no command stops the model: from a state between commands every meaning answers a next state, which is
again one between commands unless it records a fault. First what the lemmas about single commands share: how `answer`
ends, the checks before a command's work, and the updates that keep a state live. -/

namespace Sys2Proof.Machine

/-- The outcome is a next state, and that state is live unless it records a fault. -/
def Finishes (o : Host.Outcome State Fault Refusal) : Prop := ∃ t, o = .next t ∧ (t.fault = none → t.Live)

/-- After a fault is taken one is recorded (60_exceptions.md R281). -/
theorem takeFault_fault_ne_none (s : State) (op : Byte) (c : Cause) : (s.takeFault op c).fault ≠ none := by
  rw [State.takeFault_fault]
  cases s.fault <;> simp

theorem finishes_takeFault (s : State) (op : Byte) (c : Cause) : Finishes (.next (s.takeFault op c)) :=
  ⟨_, rfl, fun hf => absurd hf (takeFault_fault_ne_none s op c)⟩

/-- A response changes nothing the invariant speaks of. -/
theorem finishes_respond {s : State} (d : Word) (h : s.fault = none → s.Live) : Finishes (.next (s.respond d)) :=
  ⟨_, rfl, h⟩

/-- Pseudocode in which the model does not stop, and which ends live when it completes, finishes its command. -/
theorem answer_finishes {op : Byte} {m : Cmd Word} {s : State}
    (h : Sat m s (fun _ => True) fun _ t => t.Live) : Finishes (answer op m s) := by
  unfold Sat at h
  unfold answer
  split
  · next d t e => rw [e] at h; exact finishes_respond d fun _ => h
  · next c t e => exact finishes_takeFault t op c
  · next e => rw [e] at h; exact h.elim

/-! The checks before a command's work. -/

theorem sat_check {b : Bool} {c : Cause} {s : State} {Q : Unit → State → Prop} :
    Sat (raiseIf b c) s (fun _ => True) Q ↔ (b = false → Q () s) := by simp [sat_raiseIf]

/-! Each check leaves the state alone; the rest of the command runs from there, with what the check lets pass. -/

theorem requireEncoding_sat {s : State} {Q : Unit → State → Prop} (h : s.Encoding → Q () s) :
    Sat requireEncoding s (fun _ => True) Q := by
  unfold requireEncoding
  rw [sat_bind, sat_get, sat_check]
  exact fun hb => h (by simpa [State.Encoding] using hb)

theorem requireDecoding_sat {s : State} {Q : Unit → State → Prop} (h : s.decState = .coding → Q () s) :
    Sat requireDecoding s (fun _ => True) Q := by
  unfold requireDecoding
  rw [sat_bind, sat_get, sat_check]
  exact fun hb => h (by simpa using hb)

/-- After `CheckWr(path)` the encoder is ready for the path (44_syntax.md R222). -/
theorem checkWr_sat {s : State} {path : Path} {Q : Unit → State → Prop}
    (h : (∀ i, (path = .ctx → i < s.cfg.nctx) → wrReady s path i) → Q () s) :
    Sat (checkWr path) s (fun _ => True) Q := by
  cases path with
  | raw =>
    unfold checkWr
    rw [sat_bind, sat_get, sat_check]
    exact fun hb => h fun _ _ => by simpa [wrReady] using hb
  | ep => exact requireEncoding_sat fun he => h fun _ _ => he
  | ctx => exact requireEncoding_sat fun he => h fun _ hi => ⟨he, hi rfl⟩

/-- After `CheckRd(path)` the decoder is ready for the path (44_syntax.md R222). -/
theorem checkRd_sat {s : State} {path : Path} {Q : Unit → State → Prop}
    (h : (∀ i, (path = .ctx → i < s.cfg.nctx) → rdReady s path i) → Q () s) :
    Sat (checkRd path) s (fun _ => True) Q := by
  cases path with
  | raw =>
    unfold checkRd
    rw [sat_bind, sat_get, sat_check]
    exact fun hb => h fun _ _ => by simpa [rdReady] using hb
  | ep => exact requireDecoding_sat fun hd => h fun _ _ => hd
  | ctx => exact requireDecoding_sat fun hd => h fun _ hi => ⟨hd, hi rfl⟩

/-- A path that passes the check of form of a fixed-length or Exp-Golomb code is not CTX (30_encoding.md R98). -/
theorem ne_ctx_of_rawOrEp {path : Path} (h : path.rawOrEp = true) : path ≠ .ctx := by
  rintro rfl
  cases h

/-- The same where the form of the code excludes contexts, so that no index matters. -/
theorem checkWr_rawOrEp_sat {s : State} {path : Path} {Q : Unit → State → Prop} (hp : path.rawOrEp = true)
    (h : wrReady s path 0 → Q () s) : Sat (checkWr path) s (fun _ => True) Q :=
  checkWr_sat fun hr => h (hr 0 fun hc => absurd hc (ne_ctx_of_rawOrEp hp))

theorem checkRd_rawOrEp_sat {s : State} {path : Path} {Q : Unit → State → Prop} (hp : path.rawOrEp = true)
    (h : rdReady s path 0 → Q () s) : Sat (checkRd path) s (fun _ => True) Q :=
  checkRd_sat fun hr => h (hr 0 fun hc => absurd hc (ne_ctx_of_rawOrEp hp))

/-! Updates that keep a state live. -/

namespace State

/-- A context cell written. -/
theorem Live.setCtx {s : State} (h : s.Live) (i : Nat) (c : CtxCell) :
    State.Live { s with ctx := s.ctx.set i c } :=
  ⟨⟨⟨h.legal, (List.length_set ..).trans h.ctx_length, h.wf⟩, fun _ => h.sound⟩, h.2⟩

/-- A read cursor and a window between the cursors, while the decoder is not coding (10_state.md R40, R42). -/
theorem Live.setWindow {s : State} (h : s.Live) (hd : s.decState ≠ .coding) {r e : Word} {a : Bool}
    (hr : r.toNat ≤ s.wrPos.toNat)
    (hw : a = true → e.toNat % 8 = 0 ∧ r.toNat ≤ e.toNat ∧ e.toNat ≤ s.wrPos.toNat) :
    State.Live { s with rdPos := r, subEnd := e, subActive := a } := by
  obtain ⟨-, hfit, hcap, -⟩ := h.buffer
  exact ⟨⟨h.1.1, fun _ => ⟨h.sound.1, h.sound.2.1, fun hc => absurd hc hd, hr, hfit, hcap, hw⟩⟩, h.2⟩

/-- An emptied buffer of a legal capacity, while no engine is coding (43_bitbuffer.md R190, R194). -/
theorem Live.emptied {s : State} (h : s.Live) (he : s.encState ≠ .coding) (hd : s.decState ≠ .coding) {cap : Word}
    (hcap : Config.isCapacity cap.toNat = true ∧ s.cfg.cap0 ≤ cap.toNat ∧ cap.toNat ≤ s.cfg.capMax) (n : Bool) :
    State.Live { s with count := n, bbCap := cap, wrPos := 0, rdPos := 0, subActive := false, subEnd := 0 } :=
  ⟨⟨h.1.1, fun _ => ⟨fun hc => absurd hc he, h.sound.2.1, fun hc => absurd hc hd,
    Nat.le_refl _, fun _ => Nat.zero_le _, hcap, fun hs => nomatch hs⟩⟩, h.2⟩

/-- CAP0 is a legal capacity and fits its register (00_scope.md R7, 10_state.md R39). -/
theorem cap0_legal {s : State} (h : s.cfg.legal = true) :
    s.cfg.cap0 < 2 ^ 32 ∧ Config.isCapacity (BitVec.ofNat 32 s.cfg.cap0).toNat = true ∧
      s.cfg.cap0 ≤ (BitVec.ofNat 32 s.cfg.cap0).toNat ∧ (BitVec.ofNat 32 s.cfg.cap0).toNat ≤ s.cfg.capMax := by
  obtain ⟨-, ⟨h0, -, hle⟩, -, -⟩ := legal_iff.1 h
  have hlt := (isCapacity_le h0).2
  have hval : (BitVec.ofNat 32 s.cfg.cap0).toNat = s.cfg.cap0 := by rw [BitVec.toNat_ofNat]; omega
  rw [hval]
  exact ⟨by omega, h0, le_rfl, hle⟩

/-- The reset event leads from any state with legal parameters into the invariant (10_state.md R47). -/
theorem resetCore_live {s : State} (h : s.cfg.legal = true) : s.resetCore.Live := by
  obtain ⟨-, hcap⟩ := cap0_legal h
  exact ⟨⟨⟨h, List.length_replicate .., rfl⟩, fun _ => ⟨by simp [EncOk], by simp [TrmOk], by simp [DecOk],
    by simp, by simp, hcap, by simp⟩⟩, rfl⟩

end State

end Sys2Proof.Machine
end

section
/-! SUPPORT. No command outside the arithmetic coder stops (40_context.md, 43_bitbuffer.md, 44_syntax.md,
45_system.md). -/

namespace Sys2Proof.Machine

variable {s : State}

/-! System commands (45_system.md). -/

theorem execNop_finishes (h : s.Live) : Finishes (execNop s) :=
  answer_finishes (sat_pure.2 h)

/-- SYS_RESET finishes whatever is recorded (60_exceptions.md R283). -/
theorem execSysReset_finishes (h : s.cfg.legal = true) : Finishes (execSysReset s) := by
  refine answer_finishes ?_
  rw [sat_bind, sat_modify]
  exact sat_pure.2 (State.resetCore_live h)

/-- SYS_RDREG finishes whatever is recorded (60_exceptions.md R283): it changes nothing. -/
theorem execSysRdreg_finishes (reg : Byte) (h : s.fault = none → s.Live) : Finishes (execSysRdreg reg s) := by
  unfold execSysRdreg
  cases regOfNumber reg with
  | none => exact finishes_takeFault s 0x02 .index
  | some r => exact finishes_respond (readReg s r) h

/-! The context family (40_context.md). -/

theorem execCtxInit_finishes (ctx qp : Byte) (slope offset : BitVec 16) (h : s.Live) :
    Finishes (execCtxInit ctx qp slope offset s) := by
  refine answer_finishes ?_
  simp only [sat_bind, sat_check, writeCtx, sat_modify, sat_pure]
  exact fun _ _ => h.setCtx _ _

theorem execCtxSet_finishes (ctx : Byte) (state : BitVec 6) (mps : Bool) (h : s.Live) :
    Finishes (execCtxSet ctx state mps s) := by
  refine answer_finishes ?_
  simp only [sat_bind, sat_check, writeCtx, sat_modify, sat_pure]
  exact fun _ => h.setCtx _ _

/-- A context index below NCTX names a cell (10_state.md R22). -/
theorem State.Live.cell (h : s.Live) {i : Nat} (hi : i < s.cfg.nctx) : ∃ c, s.ctx[i]? = some c :=
  getElem?_of_lt (h.ctx_length ▸ hi)

theorem execCtxGet_finishes (ctx : Byte) (h : s.Live) : Finishes (execCtxGet ctx s) := by
  refine answer_finishes ?_
  simp only [sat_bind, sat_check, decide_eq_false_iff_not, not_le, ge_iff_le]
  intro hi
  obtain ⟨c, hc⟩ := h.cell hi
  refine (readCtx_sat hc).mono (fun _ => id) ?_
  rintro _ _ ⟨-, rfl⟩
  exact sat_pure.2 h

/-! The bit buffer (43_bitbuffer.md). -/

/-- The checks of the commands that empty the buffer or move its window say that no engine is coding. -/
theorem ne_coding_of_beq {e : Engine} (h : (e == .coding) = false) : e ≠ .coding := by simpa using h

theorem emptyBuffer_sat {Q : Unit → State → Prop} {R : Cause → Prop}
    (h : Q () { s with wrPos := 0, rdPos := 0, subActive := false, subEnd := 0 }) : Sat emptyBuffer s R Q := by
  unfold emptyBuffer
  simp only [sat_bind, setWrPos, setRdPos, setSubActive, setSubEnd, sat_assign, sat_modify]
  exact ⟨rfl, rfl, rfl, h⟩

theorem execBbInit_finishes (count : Bool) (h : s.Live) : Finishes (execBbInit count s) := by
  obtain ⟨hfit, hcap⟩ := State.cap0_legal h.legal
  refine answer_finishes ?_
  simp only [sat_bind, sat_check, setCount, setBbCap, sat_modify, sat_assign, fitsU_natCast, ofInt_natCast,
    decide_eq_true_eq, Bool.or_eq_false_iff]
  rintro ⟨he, hd⟩
  exact ⟨hfit, emptyBuffer_sat (sat_pure.2 (h.emptied (ne_coding_of_beq he) (ne_coding_of_beq hd) hcap count))⟩

theorem execBbWrite_finishes (n : Byte) (bits : Word) (h : s.Live) : Finishes (execBbWrite n bits s) := by
  refine answer_finishes ?_
  simp only [sat_bind, sat_check, sat_pure, decide_eq_false_iff_not, not_lt, gt_iff_lt]
  intro hn he
  refine (putBits_live h (ne_coding_of_beq he) hn ?_).mono (fun _ _ => trivial) fun _ _ ht => ht.1
  exact Nat.mod_lt _ (Nat.two_pow_pos _)

theorem execBbRead_finishes (n : Byte) (h : s.Live) : Finishes (execBbRead n s) := by
  refine answer_finishes ?_
  simp only [sat_bind, sat_check, sat_pure, Bool.or_eq_false_iff]
  rintro - ⟨hd, hc⟩
  exact (getBits_live h (ne_coding_of_beq hd) hc).mono (fun _ _ => trivial) fun _ _ ht => ht.1

theorem execBbGetWritten_finishes (h : s.Live) : Finishes (execBbGetWritten s) :=
  answer_finishes (sat_bind.2 (sat_get.2 (sat_pure.2 h)))

theorem execBbResetBits_finishes (h : s.Live) : Finishes (execBbResetBits s) := by
  refine answer_finishes ?_
  simp only [sat_bind, sat_check, Bool.or_eq_false_iff]
  rintro ⟨he, hd⟩
  obtain ⟨-, -, hcap, -⟩ := h.buffer
  exact emptyBuffer_sat (sat_pure.2 (h.emptied (ne_coding_of_beq he) (ne_coding_of_beq hd) hcap s.count))

theorem execBbRdSeek_finishes (pos : Word) (h : s.Live) : Finishes (execBbRdSeek pos s) := by
  refine answer_finishes ?_
  simp only [sat_bind, sat_check, sat_pure, setRdPos, sat_assign, fitsU_natCast, ofInt_natCast, decide_eq_true_eq,
    Bool.or_eq_false_iff, decide_eq_false_iff_not, not_lt, gt_iff_lt, BitVec.ofNat_toNat, BitVec.setWidth_eq]
  rintro ⟨⟨hd, -⟩, hs⟩ hpos
  refine ⟨pos.isLt, h.setWindow (ne_coding_of_beq hd) hpos fun ha => ?_⟩
  rw [hs] at ha
  cases ha

theorem execBbGetByte_finishes (index : Word) (h : s.Live) : Finishes (execBbGetByte index s) := by
  refine answer_finishes ?_
  simp only [sat_bind, sat_check, sat_pure, decide_eq_false_iff_not, not_lt, gt_iff_lt]
  intro _ hi
  refine (memRead_sat (by omega)).mono (fun _ => id) ?_
  rintro _ _ ⟨-, rfl⟩
  exact h

theorem execBbSubOpen_finishes (nbytes : Word) (h : s.Live) : Finishes (execBbSubOpen nbytes s) := by
  refine answer_finishes ?_
  simp only [sat_bind, sat_check, sat_pure, setSubEnd, setSubActive, sat_assign, sat_modify, fitsU_natCast,
    ofInt_natCast, decide_eq_true_eq, Bool.or_eq_false_iff, decide_eq_false_iff_not, not_lt, gt_iff_lt, ne_eq, not_not]
  rintro ⟨⟨hd, -⟩, -⟩ ha hend
  have hlt : s.rdPos.toNat + 8 * nbytes.toNat < 2 ^ 32 := by have := s.wrPos.isLt; omega
  refine ⟨hlt, h.setWindow (ne_coding_of_beq hd) (by omega) fun _ => ?_⟩
  rw [BitVec.toNat_ofNat, Nat.mod_eq_of_lt hlt]
  exact ⟨by omega, by omega, hend⟩

theorem execBbSubClose_finishes (h : s.Live) : Finishes (execBbSubClose s) := by
  refine answer_finishes ?_
  simp only [sat_bind, sat_check, sat_pure, setRdPos, setSubActive, sat_assign, sat_modify, fitsU_natCast,
    ofInt_natCast, decide_eq_true_eq, Bool.or_eq_false_iff, Bool.not_eq_false', BitVec.ofNat_toNat, BitVec.setWidth_eq]
  rintro ⟨hd, ha⟩
  obtain ⟨-, -, -, hwin⟩ := h.buffer
  exact ⟨s.subEnd.isLt, h.setWindow (ne_coding_of_beq hd) (hwin ha).2.2 fun hn => nomatch hn⟩

/-! Syntax writes (44_syntax.md). -/

/-- What the index check of a truncated unary code lets pass (44_syntax.md R227). -/
theorem tu_index {ctx : Byte} {path : Path} {spanm1 : BitVec 6}
    (h : (path == .ctx && decide (ctx.toNat + spanm1.toNat ≥ s.cfg.nctx)) = false) {i : Nat}
    (hi : i ≤ ctx.toNat + spanm1.toNat) : path = .ctx → i < s.cfg.nctx := by
  rintro rfl
  have hlt : ctx.toNat + spanm1.toNat < s.cfg.nctx := by simpa using h
  omega

/-- The contexts of a truncated unary code end at `ctx + SPANM1` (44_syntax.md R227). -/
theorem tuCtx_le (ctx : Byte) (spanm1 : BitVec 6) (k : Nat) : tuCtx ctx spanm1 k ≤ ctx.toNat + spanm1.toNat := by
  unfold tuCtx span
  omega

theorem execSeWrFlc_finishes (n : Byte) (path : Path) (value : Word) (h : s.Live) :
    Finishes (execSeWrFlc n path value s) := by
  refine answer_finishes ?_
  simp only [sat_bind, sat_check, sat_pure, Bool.not_eq_false']
  exact fun hp _ => checkWr_rawOrEp_sat hp fun hr => (wrFlc_live h hr).mono (fun _ => id) fun _ _ ht => ht.1

theorem execSeWrUvlc_finishes (path : Path) (value : Word) (h : s.Live) : Finishes (execSeWrUvlc path value s) := by
  refine answer_finishes ?_
  simp only [sat_bind, sat_check, sat_pure, Bool.not_eq_false']
  exact fun hp _ => checkWr_rawOrEp_sat hp fun hr => wrUvlc_live h hr

theorem execSeWrSvlc_finishes (path : Path) (value : Word) (h : s.Live) : Finishes (execSeWrSvlc path value s) := by
  refine answer_finishes ?_
  simp only [sat_bind, sat_check, sat_pure, Bool.not_eq_false']
  exact fun hp _ => checkWr_rawOrEp_sat hp fun hr => wrUvlc_live h hr

theorem execSeWrTu_finishes (ctx max : Byte) (path : Path) (spanm1 : BitVec 6) (sym : Byte) (h : s.Live) :
    Finishes (execSeWrTu ctx max path spanm1 sym s) := by
  refine answer_finishes ?_
  simp only [sat_bind, sat_check]
  intro _ _ hidx
  refine checkWr_sat fun hr => ?_
  have hready := fun i hi => hr i (tu_index hidx hi)
  refine (wrOnes_live h hready).mono (fun _ => id) ?_
  rintro _ t ⟨ht, e1, e2, e3⟩
  have hlast := wrReady_congr (hready _ (tuCtx_le ctx spanm1 sym.toNat)) e1 e2 e3
  simp only [sat_ite, sat_bind, sat_pure]
  exact ⟨fun _ => (emit_live ht hlast).mono (fun _ => id) fun _ _ hu => hu.1, fun _ => ht⟩

/-- The zeros up to a byte boundary keep a state live. -/
theorem padZeros_live (h : s.Live) (he : s.encState ≠ .coding) :
    Sat padZeros s (fun _ => True) fun _ t => t.Live := by
  unfold padZeros
  rw [sat_bind, sat_get]
  exact (putRepeat_live h he (by decide) (by decide)).mono (fun _ => id) fun _ _ ht => ht.1

theorem execSeWrTrail_finishes (h : s.Live) : Finishes (execSeWrTrail s) := by
  refine answer_finishes ?_
  simp only [sat_bind, sat_pure]
  refine checkWr_rawOrEp_sat rfl fun he => ?_
  refine (putBits_live h he (by decide) (by decide)).mono (fun _ _ => trivial) ?_
  rintro _ t ⟨ht, hput⟩
  exact padZeros_live ht (by rw [hput.frame]; exact he)

theorem execSeWrFf8_finishes (value : Word) (h : s.Live) : Finishes (execSeWrFf8 value s) := by
  refine answer_finishes ?_
  simp only [sat_bind, sat_pure]
  refine checkWr_rawOrEp_sat rfl fun he => ?_
  refine (putRepeat_live h he (by decide) (by decide)).mono (fun _ => id) ?_
  rintro _ t ⟨ht, e1⟩
  exact (putBits_live ht (by rw [e1]; exact he) (by decide) (by omega)).mono (fun _ _ => trivial) fun _ _ hu => hu.1

/-! Syntax reads (44_syntax.md). -/

theorem execSeRdFlc_finishes (n : Byte) (path : Path) (h : s.Live) : Finishes (execSeRdFlc n path s) := by
  refine answer_finishes ?_
  simp only [sat_bind, sat_check, sat_pure, Bool.not_eq_false']
  exact fun hp _ => checkRd_rawOrEp_sat hp fun hr => rdFlc_live h hr

theorem execSeRdUvlc_finishes (path : Path) (h : s.Live) : Finishes (execSeRdUvlc path s) := by
  refine answer_finishes ?_
  simp only [sat_bind, sat_check, sat_pure, Bool.not_eq_false']
  exact fun hp => checkRd_rawOrEp_sat hp fun hr => rdUvlc_live h hr

theorem execSeRdSvlc_finishes (path : Path) (h : s.Live) : Finishes (execSeRdSvlc path s) := by
  refine answer_finishes ?_
  simp only [sat_bind, sat_check, sat_pure, Bool.not_eq_false']
  exact fun hp => checkRd_rawOrEp_sat hp fun hr => rdUvlc_live h hr

theorem execSeRdTu_finishes (ctx max : Byte) (path : Path) (spanm1 : BitVec 6) (h : s.Live) :
    Finishes (execSeRdTu ctx max path spanm1 s) := by
  refine answer_finishes ?_
  simp only [sat_bind, sat_check, sat_pure]
  intro _ hidx
  exact checkRd_sat fun hr => rdOnes_live h fun i hi => hr i (tu_index hidx hi)

theorem execSeRdTrail_finishes (h : s.Live) : Finishes (execSeRdTrail s) := by
  refine answer_finishes ?_
  simp only [sat_bind, sat_check, sat_get, sat_pure]
  refine checkRd_rawOrEp_sat rfl fun ⟨hd, hc⟩ => ?_
  refine (getBits_live h hd hc).mono (fun _ _ => trivial) ?_
  rintro _ t ⟨ht, -, -, hf, -⟩ _
  exact rdZeros_live ht (by rw [hf]; exact hd) (by rw [hf]; exact hc)

theorem execSeRdFf8_finishes (h : s.Live) : Finishes (execSeRdFf8 s) := by
  refine answer_finishes ?_
  simp only [sat_bind, sat_pure]
  exact checkRd_rawOrEp_sat rfl fun ⟨hd, hc⟩ => rdFf8_live h hd hc

end Sys2Proof.Machine
end

section
/-! SUPPORT. No command of the arithmetic coder stops (41_encoder.md, 42_decoder.md). -/

namespace Sys2Proof.Machine

variable {s : State}

/-! The encoder (41_encoder.md). -/

/-- The initial interval meets the encoder's ranges (41_encoder.md R143). -/
theorem encMid_start (hlow : s.encLow = 0) (hrange : s.encRange = 510) (hbits : s.encBitsLeft = 23)
    (hheld : s.encNumBuf = 0) (ha : s.wrPos.toNat % 8 = 0) : s.EncMid := by
  refine ⟨?_, ?_, ?_, ?_, ?_, ?_, ha⟩ <;> simp [hlow, hrange, hbits, hheld]

theorem execEncStart_finishes (h : s.Live) : Finishes (execEncStart s) := by
  refine answer_finishes ?_
  simp only [sat_bind, sat_check, sat_pure, setEncLow, setEncRange, setEncBitsLeft, setEncNumBuf, setEncBufByte,
    setEncTrm, setEncState, sat_assign, sat_modify, decide_eq_false_iff_not, not_not, ne_eq]
  intro _ ha
  refine ⟨rfl, rfl, rfl, rfl, rfl, ?_⟩
  exact h.of_out (State.Grew.of_eq rfl rfl rfl rfl rfl) rfl rfl
    (fun _ => ⟨encMid_start rfl rfl rfl rfl ha, by simp, fun hc => nomatch hc⟩) fun hc => nomatch hc

theorem execEncBin_finishes (ctx : Byte) (bin : Bool) (h : s.Live) : Finishes (execEncBin ctx bin s) := by
  refine answer_finishes ?_
  simp only [sat_bind, sat_check, sat_pure, decide_eq_false_iff_not, not_le, ge_iff_le]
  refine fun hi => requireEncoding_sat fun he => ?_
  exact (emit_live (path := .ctx) h ⟨he, hi⟩).mono (fun _ => id) fun _ _ ht => ht.1

theorem execEncBinEp_finishes (bin : Bool) (h : s.Live) : Finishes (execEncBinEp bin s) := by
  refine answer_finishes ?_
  simp only [sat_bind, sat_pure]
  refine requireEncoding_sat fun he => ?_
  exact (emit_live (path := .ep) (i := 0) h he).mono (fun _ => id) fun _ _ ht => ht.1

/-- `u` is the state in which TestWriteOut starts after the encoder of the live state `s` was renormalised by `n`
(41_encoder.md R142, R146): it ends live. -/
theorem testWriteOut_live {s u : State} (h : s.Live) (he : s.encState = .coding) {n : Nat} (hn : n ≤ 7)
    (hf : u = { s with encTrm := u.encTrm, encLow := u.encLow, encRange := u.encRange, encBitsLeft := u.encBitsLeft })
    (hbl : u.encBitsLeft.toNat = s.encBitsLeft.toNat - n)
    (hrange : 256 ≤ u.encRange.toNat ∧ u.encRange.toNat ≤ 510)
    (hlow : u.encLow.toNat + u.encRange.toNat ≤ (s.encLow.toNat + s.encRange.toNat) * 2 ^ n)
    (htrm : u.encTrm = true → u.encBitsLeft.toNat ≤ 19) :
    Sat testWriteOut u (fun _ => True) fun _ t => t.Live := by
  obtain ⟨hm, hlo, -⟩ := h.encMid he
  refine (testWriteOut_of hm hlo h.capOk h.wf n hn rfl rfl hbl hrange.1 hrange.2 hlow (by rw [hf]) (by rw [hf])
    (by rw [hf]) (by rw [hf]) (by rw [hf]) (by rw [hf]) (by rw [hf])).mono (fun _ _ => trivial) ?_
  rintro _ t ⟨hT, ht⟩
  have e1 : t.encState = s.encState := by rw [ht, hf]
  have e2 : t.encTrm = u.encTrm := by rw [ht]
  exact h.of_out hT.grew (by rw [ht, hf]) (by rw [ht, hf])
    (fun _ => ⟨hT.mid, hT.lo, fun hc => hT.le (htrm (e2 ▸ hc))⟩) fun _ => e1.trans he

/-- ENC_BIN_TRM renormalises by 7 on the bin 1, and on the bin 0 by 1 or not at all (41_encoder.md R146). -/
theorem execEncBinTrm_finishes (bin : Bool) (h : s.Live) : Finishes (execEncBinTrm bin s) := by
  refine answer_finishes ?_
  simp only [sat_bind]
  refine requireEncoding_sat fun ⟨he, htrm⟩ => ?_
  obtain ⟨hm, hlo, -⟩ := h.encMid he
  have hhi := hm.hi
  have hrlo := hm.rlo
  have hrhi := hm.rhi
  have hlow := hm.low_lt hlo
  have hr : (s.encRange.toNat : Int) - 2 = ((s.encRange.toNat - 2 : Nat) : Int) := by omega
  have hb7 : (s.encBitsLeft.toNat : Int) - 7 = ((s.encBitsLeft.toNat - 7 : Nat) : Int) := by omega
  have hb1 : (s.encBitsLeft.toNat : Int) - 1 = ((s.encBitsLeft.toNat - 1 : Nat) : Int) := by omega
  have hrv : (BitVec.ofNat 9 (s.encRange.toNat - 2)).toNat = s.encRange.toNat - 2 := by
    rw [BitVec.toNat_ofNat]; omega
  simp only [sat_bind, sat_get, sat_ite, sat_pure, setEncRange, setEncLow, setEncBitsLeft, setEncTrm, sat_assign,
    sat_modify, hr, hb7, hb1, fitsU_natCast, ofInt_natCast, decide_eq_true_eq, hrv]
  refine ⟨by omega, fun _ => ⟨by omega, by decide, by omega, ?_⟩,
    fun _ => ⟨fun hlt => ⟨by omega, by omega, by omega, ?_⟩, fun hge => ?_⟩⟩
  · refine testWriteOut_live h he (n := 7) le_rfl rfl ?_ ⟨?_, ?_⟩ ?_ fun _ => ?_ <;>
      (simp only [BitVec.toNat_ofNat, BitVec.toNat_ofInt]; omega)
  · refine testWriteOut_live h he (n := 1) (by decide) rfl ?_ ⟨?_, ?_⟩ ?_
      (fun hc => absurd (htrm.symm.trans hc) (by decide)) <;> (simp only [BitVec.toNat_ofNat]; omega)
  · refine h.of_out (State.Grew.of_eq rfl rfl rfl rfl rfl) rfl rfl (fun _ => ⟨?_, hlo, ?_⟩) (fun _ => he)
    · exact hm.scale (n := 0) (by decide) hlo rfl (by simp only [hrv]; omega) (by simp only [hrv]; omega)
        (by simp only [hrv]; omega) rfl rfl rfl
    · exact fun hc => absurd (htrm.symm.trans hc) (by decide)

/-! ENC_FINISH (41_encoder.md R147). -/

/-- From `s` to `t` only bits have gone out: the bit buffer has grown, and nothing else but ENC_LOW and the held run has
changed. -/
structure State.Drained (s t : State) : Prop where
  grew : s.Grew t
  frame : t = { s with encLow := t.encLow, encBufByte := t.encBufByte, encNumBuf := t.encNumBuf
                       store := t.store, bbCap := t.bbCap, wrPos := t.wrPos }

theorem State.Drained.trans {s t u : State} (h : s.Drained t) (g : t.Drained u) : s.Drained u where
  grew := h.grew.trans g.grew
  frame := by rw [g.frame, h.frame]

theorem State.Drained.refl (s : State) : s.Drained s := ⟨State.Grew.refl s, rfl⟩

theorem putBits_drained {v n : Nat} {Q : Unit → State → Prop} (hc : s.CapOk) (hn : n ≤ 32) (hv : v < 2 ^ n)
    (h : ∀ t, s.Drained t → Q () t) : Sat (putBits v n) s (fun _ => True) Q := by
  refine (putBits_sat hc hn hv).mono (fun _ _ => trivial) ?_
  rintro _ t ⟨hput, -⟩
  exact h t ⟨hput.grew, by rw [hput.frame]⟩

theorem padZeros_drained {Q : Unit → State → Prop} (hc : s.CapOk) (h : ∀ t, s.Drained t → Q () t) :
    Sat padZeros s (fun _ => True) Q := by
  unfold padZeros
  rw [sat_bind, sat_get]
  refine (sat_repeat (P := fun _ t => s.Drained t) (State.Drained.refl s) fun _ t _ ht => ?_).mono
    (fun _ => id) fun _ t ht => h t ht
  exact putBits_drained (ht.grew.cap hc) (by decide) (by decide) fun _ hu => ht.trans hu

/-- The held run goes out: the byte `v`, then every held 0xFF as `r`. -/
theorem releaseHeld_drained {v r : Nat} {Q : Unit → State → Prop} (hc : s.CapOk) (hw : s.store.wf = true)
    (ha : s.wrPos.toNat % 8 = 0) (hv : v < 256) (hr : r < 256)
    (h : ∀ u, s.Drained u → u.encLow = s.encLow → Q () u) :
    Sat (putBits v 8) s (fun _ => True) fun _ t => Sat (releaseRun r) t (fun _ => True) Q := by
  refine (putBits_sat hc (by decide) hv).mono (fun _ _ => trivial) ?_
  rintro _ t ⟨hput, -⟩
  have hb := (State.bytes_refl (f := fun i => if i = 0 then v else r) hc hw).put ha hput hv rfl
  refine (releaseRun_sat hc hr hb ha fun i hi _ => if_neg (by omega)).mono (fun _ _ => trivial) ?_
  rintro _ u ⟨hu, -, -⟩
  exact h u ⟨hu.grew ha, by rw [hu.frame]⟩ (by rw [hu.frame])

theorem releaseRun_drained {r : Nat} {Q : Unit → State → Prop} (hc : s.CapOk) (hw : s.store.wf = true)
    (ha : s.wrPos.toNat % 8 = 0) (hr : r < 256) (h : ∀ u, s.Drained u → u.encLow = s.encLow → Q () u) :
    Sat (releaseRun r) s (fun _ => True) Q := by
  refine (releaseRun_sat (f := fun _ => r) hc hr (State.bytes_refl hc hw) ha fun _ _ _ => rfl).mono
    (fun _ _ => trivial) ?_
  rintro _ u ⟨hu, -, -⟩
  exact h u ⟨hu.grew ha, by rw [hu.frame]⟩ (by rw [hu.frame])

/-- The carry of ENC_FINISH is at most 1 (41_encoder.md R147): without its bit ENC_LOW fits the bits left. -/
theorem State.EncMid.low_lt_two (hm : s.EncMid) :
    s.encLow.toNat < 2 * 2 ^ (32 - s.encBitsLeft.toNat) := by
  have hhi := hm.hi
  have hrlo := hm.rlo
  rcases Nat.eq_zero_or_pos s.encNumBuf.toNat with hz | hp
  · have hlow := hm.none hz
    rw [show 32 - s.encBitsLeft.toNat = (23 - s.encBitsLeft.toNat) + 9 by omega, pow_add]
    omega
  · obtain ⟨h19, -, hlow⟩ := hm.held hp
    rw [show 32 - s.encBitsLeft.toNat = (19 - s.encBitsLeft.toNat) + 13 by omega, pow_add] at *
    omega

theorem countOf_sat {e : Int} {R : Cause → Prop} {Q : Nat → State → Prop} (he : 0 ≤ e) (h : Q e.toNat s) :
    Sat (countOf e) s R Q := by
  unfold countOf
  rw [if_pos he]
  exact sat_pure.2 h

/-- The end of ENC_FINISH, once the carry is settled: the bits left in ENC_LOW, the stop bit, the zeros. -/
theorem finishTail_live {t : State} (h : s.Live) (he : s.encState = .coding) (hd : s.Drained t)
    (hlow : t.encLow.toNat < 2 ^ (32 - s.encBitsLeft.toNat)) :
    Sat (do
      let left ← countOf (24 - (s.encBitsLeft.toNat : Int))
      putBits ((← get).encLow.toNat / 2 ^ 8) left
      putBits 1 1
      padZeros
      setEncNumBuf 0
      setEncTrm false
      setEncState .terminated) t (fun _ => True) fun _ u => u.Live := by
  have hhi := (h.encMid he).1.hi
  simp only [sat_bind, sat_get, setEncNumBuf, setEncTrm, setEncState, sat_assign, sat_modify]
  refine countOf_sat (by omega) ?_
  rw [show (24 - (s.encBitsLeft.toNat : Int)).toNat = 24 - s.encBitsLeft.toNat by omega]
  have hbits : t.encLow.toNat / 2 ^ 8 < 2 ^ (24 - s.encBitsLeft.toNat) := by
    rw [show 32 - s.encBitsLeft.toNat = (24 - s.encBitsLeft.toNat) + 8 by omega, pow_add] at hlow
    omega
  refine putBits_drained (hd.grew.cap h.capOk) (by omega) hbits fun u hu => ?_
  replace hu := hd.trans hu
  refine putBits_drained (hu.grew.cap h.capOk) (by decide) (by decide) fun v hv => ?_
  replace hv := hu.trans hv
  refine padZeros_drained (hv.grew.cap h.capOk) fun w hw => ⟨rfl, ?_⟩
  replace hw := hv.trans hw
  exact h.of_out (hw.grew.trans (State.Grew.of_eq rfl rfl rfl rfl rfl)) (by rw [hw.frame]) (by rw [hw.frame])
    (fun hc => nomatch hc) fun hc => nomatch hc

/-- ENC_FINISH takes the carry off ENC_LOW where there is one: the assignment fits, and ENC_LOW then fits the bits left.
Where there is none it fits already. -/
theorem execEncFinish_finishes (h : s.Live) : Finishes (execEncFinish s) := by
  refine answer_finishes ?_
  rw [sat_bind, sat_check]
  intro hb
  have ⟨he, _⟩ : s.encState = .coding ∧ s.encTrm = true := by simpa using hb
  obtain ⟨hm, -, -⟩ := h.encMid he
  have hlow := hm.low_lt_two
  have tail := fun t => finishTail_live (t := t) h he
  simp only [sat_bind, sat_ite, sat_pure] at tail ⊢
  generalize hk : 2 ^ (32 - s.encBitsLeft.toNat) = k at *
  refine ⟨fun hcarry => ?_, fun hcarry => ?_⟩
  · have hge : k ≤ s.encLow.toNat := by
      by_contra hlt
      exact hcarry (Nat.div_eq_of_lt (not_le.1 hlt))
    refine releaseHeld_drained h.capOk h.wf hm.aligned (by omega) (by decide) fun u hu _ => ?_
    have hkI : (2 : Int) ^ (32 - s.encBitsLeft.toNat) = (k : Int) := by rw [← hk]; norm_cast
    rw [hkI, ← Nat.cast_sub hge]
    unfold setEncLow
    rw [sat_assign, fitsU_natCast, ofInt_natCast, decide_eq_true_eq]
    have hlt : s.encLow.toNat - k < 2 ^ 32 := by have := s.encLow.isLt; omega
    have hval : (BitVec.ofNat 32 (s.encLow.toNat - k)).toNat = s.encLow.toNat - k := by
      rw [BitVec.toNat_ofNat, Nat.mod_eq_of_lt hlt]
    refine ⟨hlt, tail _ ⟨hu.grew.trans (State.Grew.of_eq rfl rfl rfl rfl rfl), ?_⟩ ?_⟩
    · simp only; rw [hu.frame]
    · simp only [hval]; omega
  · have hlt : s.encLow.toNat < k := by
      have := Nat.div_eq_zero_iff.1 (not_not.1 hcarry)
      omega
    exact ⟨fun _ => releaseHeld_drained h.capOk h.wf hm.aligned s.encBufByte.isLt (by decide)
        fun u hu e => tail u hu (e ▸ hlt),
      fun _ => releaseRun_drained h.capOk h.wf hm.aligned (by decide) fun u hu e => tail u hu (e ▸ hlt)⟩

/-! The decoder (42_decoder.md). -/

/-- The first two bytes meet the decoder's invariants (42_decoder.md R170, R172). -/
theorem decMid_start (hrange : s.decRange = 510) (hbits : s.decBitsNeeded = -8) (hval : s.decValue.toNat < 510 * 2 ^ 7)
    (ha : s.rdPos.toNat % 8 = 0) (htwo : 16 ≤ s.rdPos.toNat) (hread : s.ReadOk) : s.DecMid := by
  refine ⟨?_, ?_, ?_, ?_, hrange ▸ hval, ?_, ha, htwo, hread⟩ <;> simp [hrange, hbits, Nat.mod_one]

/-- Two bytes taken one after the other (42_decoder.md R171). -/
theorem getTwoBytes_sat (hread : s.ReadOk) {Q : Nat → Nat → State → Prop}
    (h : ∀ hi lo t, t = { s with rdPos := t.rdPos } → t.rdPos.toNat = s.rdPos.toNat + 16 → s.Avail 16 →
      Q hi lo t) :
    Sat (getBits 8) s (fun _ => True) fun hi t => Sat (getBits 8) t (fun _ => True) fun lo u => Q hi lo u := by
  refine (getBits_sat hread).mono (fun _ _ => trivial) ?_
  rintro hi t ⟨-, -, ht, hpos⟩
  refine (getBits_sat (by rw [ht]; exact hread)).mono (fun _ _ => trivial) ?_
  rintro lo u ⟨hav, -, hu, hpos'⟩
  have hlim : t.rdLimit = s.rdLimit := by rw [ht]; rfl
  refine h hi lo u (by rw [hu, ht]) (by omega) ?_
  unfold State.Avail at hav ⊢
  omega

theorem execDecStart_finishes (h : s.Live) : Finishes (execDecStart s) := by
  refine answer_finishes ?_
  simp only [sat_bind, sat_check, setDecRange, setDecBitsNeeded, setDecValue, setDecState, decReadByte, sat_assign,
    sat_modify, sat_pure, fitsU_natCast, ofInt_natCast, decide_eq_true_eq, decide_eq_false_iff_not,
    Bool.or_eq_false_iff, not_not, ne_eq, not_le, ge_iff_le]
  rintro ⟨-, hc⟩ ha -
  refine ⟨rfl, rfl, getTwoBytes_sat ?_ fun hi lo t ht hpos hav hval => ?_⟩
  · exact ⟨hc, h.rdLimit_le⟩
  have hv : (BitVec.ofNat 17 (hi * 2 ^ 8 + lo)).toNat = hi * 2 ^ 8 + lo := by rw [BitVec.toNat_ofNat]; omega
  simp only at hpos
  refine ⟨by omega, h.of_in (by rw [ht]) (by rw [ht]) (hpos.trans_le hav) fun _ => ?_⟩
  exact decMid_start (by rw [ht]; rfl) (by rw [ht]; rfl) (hv.trans_lt hval) (by simp only; omega) (by simp only; omega)
    (by rw [ht]; exact ⟨hc, h.rdLimit_le⟩)

theorem execDecBin_finishes (ctx : Byte) (h : s.Live) : Finishes (execDecBin ctx s) := by
  refine answer_finishes ?_
  simp only [sat_bind, sat_check, sat_pure, decide_eq_false_iff_not, not_le, ge_iff_le]
  refine fun hi => requireDecoding_sat fun hd => ?_
  exact (take_live (path := .ctx) h ⟨hd, hi⟩).mono (fun _ => id) fun _ _ ht => ht.1

theorem execDecBinEp_finishes (h : s.Live) : Finishes (execDecBinEp s) := by
  refine answer_finishes ?_
  simp only [sat_bind, sat_pure]
  refine requireDecoding_sat fun hd => ?_
  exact (take_live (path := .ep) (i := 0) h hd).mono (fun _ => id) fun _ _ ht => ht.1

/-- DEC_BIN_TRM reads the tail of the last byte on the bin 1; on the bin 0 it doubles once or not at all (42_decoder.md
R175). -/
theorem execDecBinTrm_finishes (h : s.Live) : Finishes (execDecBinTrm s) := by
  refine answer_finishes ?_
  simp only [sat_bind]
  refine requireDecoding_sat fun hd => ?_
  obtain ⟨hrlo, hrhi, hblo, hbhi, hbelow, hlow, ha, htwo, hread⟩ := h.decMid hd
  have hr : (s.decRange.toNat : Int) - 2 = ((s.decRange.toNat - 2 : Nat) : Int) := by omega
  have hrv : (BitVec.ofNat 9 (s.decRange.toNat - 2)).toNat = s.decRange.toNat - 2 := by
    rw [BitVec.toNat_ofNat]; omega
  simp only [sat_bind, sat_get, sat_ite, sat_pure, setDecRange, sat_assign, hr, fitsU_natCast, ofInt_natCast, 
    decide_eq_true_eq, hrv]
  refine ⟨by omega, fun _ => ?_, fun hlt => ⟨fun h256 => ?_, fun h256 => ?_⟩⟩
  · have hle := h.rdPos_le.trans h.rdLimit_le
    rw [show (s.rdPos.toNat : Int) - 8 = ((s.rdPos.toNat - 8 : Nat) : Int) by omega]
    refine (memRead_sat (by simp only; omega)).mono (fun _ => id) ?_
    rintro _ _ ⟨-, rfl⟩
    refine countOf_sat (by omega) ?_
    simp only [sat_check, setDecState, sat_modify]
    exact fun _ => h.of_in rfl rfl h.rdPos_le fun hc => nomatch hc
  · refine Sat.mono (decDouble_sat (w := s.decRange.toNat - 2) (h.decMid hd) (by omega) (by omega) rfl rfl rfl rfl rfl
      rfl rfl) (fun _ _ => trivial) ?_
    rintro _ t ⟨hR, hrange, ht⟩
    refine h.of_in (by rw [ht]) (by rw [ht]) ?_ fun _ => ?_
    · rw [hR.pos]
      split
      · next g => exact hR.avail g
      · exact h.rdPos_le
    · exact hR.mid (h.decMid hd) (by decide) (by omega) hlow (by omega) (by omega) hrange (by rw [ht])
        (by rw [ht]; rfl) (by rw [ht])
  · refine h.of_in rfl rfl h.rdPos_le fun _ => ?_
    exact ⟨by simp only [hrv]; omega, by simp only [hrv]; omega, hblo, hbhi, by simp only [hrv]; omega, hlow, ha, htwo,
      hread⟩

end Sys2Proof.Machine
end

section
/-! SUPPORT. That a step never stops (00_scope.md R10, 20_memory.md R63, 70_reset_and_hazards.md R321). -/

namespace Sys2Proof.Machine

variable {s : State}

/-- Every command finishes from a live state. -/
theorem exec_finishes (i : Instr) (h : s.Live) : Finishes (exec i s) := by
  cases i with
  | nop => exact execNop_finishes h
  | sysReset => exact execSysReset_finishes h.legal
  | sysRdreg reg => exact execSysRdreg_finishes reg fun _ => h
  | ctxInit ctx qp slope offset => exact execCtxInit_finishes ctx qp slope offset h
  | ctxSet ctx state mps => exact execCtxSet_finishes ctx state mps h
  | ctxGet ctx => exact execCtxGet_finishes ctx h
  | encStart => exact execEncStart_finishes h
  | encBin ctx bin => exact execEncBin_finishes ctx bin h
  | encBinEp bin => exact execEncBinEp_finishes bin h
  | encBinTrm bin => exact execEncBinTrm_finishes bin h
  | encFinish => exact execEncFinish_finishes h
  | decStart => exact execDecStart_finishes h
  | decBin ctx => exact execDecBin_finishes ctx h
  | decBinEp => exact execDecBinEp_finishes h
  | decBinTrm => exact execDecBinTrm_finishes h
  | bbInit count => exact execBbInit_finishes count h
  | bbWrite n bits => exact execBbWrite_finishes n bits h
  | bbRead n => exact execBbRead_finishes n h
  | bbGetWritten => exact execBbGetWritten_finishes h
  | bbResetBits => exact execBbResetBits_finishes h
  | bbRdSeek pos => exact execBbRdSeek_finishes pos h
  | bbGetByte index => exact execBbGetByte_finishes index h
  | bbSubOpen nbytes => exact execBbSubOpen_finishes nbytes h
  | bbSubClose => exact execBbSubClose_finishes h
  | seWrFlc n path value => exact execSeWrFlc_finishes n path value h
  | seWrUvlc path value => exact execSeWrUvlc_finishes path value h
  | seWrSvlc path value => exact execSeWrSvlc_finishes path value h
  | seWrTu ctx max path spanm1 sym => exact execSeWrTu_finishes ctx max path spanm1 sym h
  | seWrTrail => exact execSeWrTrail_finishes h
  | seWrFf8 value => exact execSeWrFf8_finishes value h
  | seRdFlc n path => exact execSeRdFlc_finishes n path h
  | seRdUvlc path => exact execSeRdUvlc_finishes path h
  | seRdSvlc path => exact execSeRdSvlc_finishes path h
  | seRdTu ctx max path spanm1 => exact execSeRdTu_finishes ctx max path spanm1 h
  | seRdTrail => exact execSeRdTrail_finishes h
  | seRdFf8 => exact execSeRdFf8_finishes h

/-- The words served while a fault is recorded are SYS_RESET and SYS_RDREG (60_exceptions.md R283). -/
theorem decode_of_servedWhileFaulted {w : CmdWord} (h : servedWhileFaulted w = true) :
    decode w = .ok .sysReset ∨ ∃ reg, decode w = .ok (.sysRdreg reg) := by
  unfold servedWhileFaulted at h
  unfold decode
  generalize Fields.ofWord w = f at h ⊢
  obtain ⟨op, a, b, c, d⟩ := f
  simp only [Bool.or_eq_true, Bool.and_eq_true, beq_iff_eq] at h
  rcases h with ⟨⟨⟨⟨rfl, rfl⟩, rfl⟩, rfl⟩, rfl⟩ | ⟨⟨⟨⟨rfl, (rfl | rfl) | rfl⟩, rfl⟩, rfl⟩, rfl⟩
  · exact .inl (by decide)
  · exact .inr ⟨0x00, by decide⟩
  · exact .inr ⟨0x01, by decide⟩
  · exact .inr ⟨0x02, by decide⟩

/-- A word is served to its end, or refused while a fault is recorded (60_exceptions.md R283). -/
theorem serve_finishes (w : CmdWord) (h : s.Inv) : Finishes (serve w s) := by
  unfold serve
  cases hf : s.fault with
  | none =>
    unfold execWord
    cases decode w with
    | ok i => exact exec_finishes i ⟨h, hf⟩
    | illegal r => exact finishes_takeFault s (opByte w) .illegal
  | some r =>
    have hne : s.fault ≠ none := by rw [hf]; exact Option.some_ne_none r
    by_cases hw : servedWhileFaulted w = true
    · simp only [hw, if_true]
      unfold execWord
      rcases decode_of_servedWhileFaulted hw with hd | ⟨reg, hd⟩
      · rw [hd]
        exact execSysReset_finishes h.1.1
      · rw [hd]
        exact execSysRdreg_finishes reg fun hn => absurd hn hne
    · simp only [hw]
      exact ⟨_, rfl, fun hn => absurd hn hne⟩

/-- Every event at the ports finishes from a state that meets the invariant. -/
theorem step_finishes (h : s.Inv) : Finishes (step s) := by
  unfold step clockEdge
  split
  · exact ⟨_, rfl, fun _ => State.resetCore_live h.1.1⟩
  · split
    · split
      · exact ⟨_, rfl, fun hf => ⟨h, hf⟩⟩
      · exact ⟨_, rfl, fun hf => ⟨h, hf⟩⟩
    · split
      · exact ⟨_, rfl, fun hf => ⟨h, hf⟩⟩
      · next w rest _ => exact serve_finishes (s := { s with cmds := rest }) w h

/-- Settles O58: the pseudocode of every command keeps within the registers, the written bits and the cells
(`exec_finishes`), a recorded fault lets only SYS_RESET and SYS_RDREG run, and the other events run no command. -/
theorem stepNeverStops : Obligations.StepNeverStops := by
  intro s h
  obtain ⟨t, ht, -⟩ := step_finishes h
  exact ⟨t, ht⟩

end Sys2Proof.Machine
end

section
/-! SUPPORT. What a command, a word served and a step can be, and what they leave alone: the parameters never change, and
only SYS_RESET and a fault touch the fault registers. -/

namespace Sys2Proof.Machine

/-! Commands. -/

/-- The command runs pseudocode that keeps `R`, under its own OP byte. -/
def RunsKeeping (R : State → State → Prop) (i : Instr) (s : State) : Prop :=
  ∃ m, exec i s = answer i.op m s ∧ Keeps R m

/-- Every command that neither empties the buffer nor moves the window is made of the shared procedures. -/
theorem exec_keeps {R : State → State → Prop} (hR : Untouched R) (i : Instr) (s : State)
    (hempty : empties i = false) (hopen : ∀ n, i ≠ .bbSubOpen n) (hclose : i ≠ .bbSubClose) : RunsKeeping R i s := by
  cases i with
  | sysReset => cases hempty
  | bbInit count => cases hempty
  | bbResetBits => cases hempty
  | bbSubOpen nbytes => exact absurd rfl (hopen nbytes)
  | bbSubClose => exact absurd rfl hclose
  | nop => exact ⟨pure 0, rfl, keeps_pure hR _⟩
  | bbGetWritten => exact ⟨do return (← get).wrPos, rfl, keeps_bind hR (keeps_get hR) fun _ => keeps_pure hR _⟩
  | sysRdreg reg =>
    refine ⟨_, rfl, ?_⟩
    cases regOfNumber reg with
    | none => exact keeps_raise hR _
    | some r => exact keeps_bind hR (keeps_get hR) fun _ => keeps_pure hR _
  | _ =>
    refine ⟨_, rfl, ?_⟩
    repeat' first
      | with_reducible apply keeps_bind hR | with_reducible apply keeps_ite | with_reducible apply keeps_map hR
      | intro _ | simp [hR]

/-- No command but SYS_RESET touches the parameters, the fault registers or the ports. -/
theorem exec_steady {i : Instr} (s : State) (hreset : i ≠ .sysReset) : RunsKeeping State.SameOutside i s := by
  have hR := untouched_sameOutside
  cases i with
  | sysReset => exact absurd rfl hreset
  | bbInit count =>
    exact ⟨_, rfl, keeps_bind hR (keeps_raiseIf hR _ _) fun _ => keeps_bind hR (steady_setCount _) fun _ =>
      keeps_bind hR (keeps_setBbCap hR _) fun _ => keeps_bind hR steady_emptyBuffer fun _ => keeps_pure hR _⟩
  | bbResetBits =>
    exact ⟨_, rfl, keeps_bind hR (keeps_raiseIf hR _ _) fun _ => keeps_bind hR steady_emptyBuffer fun _ =>
      keeps_pure hR _⟩
  | bbSubOpen nbytes =>
    exact ⟨_, rfl, keeps_bind hR (keeps_raiseIf hR _ _) fun _ => keeps_bind hR (keeps_raiseIf hR _ _) fun _ =>
      keeps_bind hR (keeps_raiseIf hR _ _) fun _ => keeps_bind hR (steady_setSubEnd _) fun _ =>
      keeps_bind hR (steady_setSubActive _) fun _ => keeps_pure hR _⟩
  | bbSubClose =>
    exact ⟨_, rfl, keeps_bind hR (keeps_raiseIf hR _ _) fun _ => keeps_bind hR (keeps_setRdPos hR _) fun _ =>
      keeps_bind hR (steady_setSubActive _) fun _ => keeps_pure hR _⟩
  | _ => exact exec_keeps hR _ s rfl (fun _ h => nomatch h) (fun h => nomatch h)

/-- How a command other than SYS_RESET ends: it completes or it takes a fault, from a state that agrees with the one it
started from outside what commands work on. -/
theorem exec_cases {i : Instr} {s t : State} (hreset : i ≠ .sysReset) (e : exec i s = .next t) :
    ∃ u, s.SameOutside u ∧ ((∃ d, t = u.respond d) ∨ ∃ c, t = u.takeFault i.op c) := by
  obtain ⟨m, he, hm⟩ := exec_steady s hreset
  rcases answer_cases (he.symm.trans e) with ⟨d, u, hu, rfl⟩ | ⟨c, u, hu, rfl⟩
  · exact ⟨u, hm.of_ok hu, .inl ⟨d, rfl⟩⟩
  · exact ⟨u, hm.of_error hu, .inr ⟨c, rfl⟩⟩

/-- SYS_RESET completes in every state (45_system.md R261). -/
theorem exec_sysReset (s : State) : exec .sysReset s = .next (s.resetCore.respond 0) := rfl

/-- SYS_RDREG of an assigned number completes with the register (45_system.md R262). -/
theorem exec_sysRdreg_of_some {n : Byte} {r : Reg} (h : regOfNumber n = some r) (s : State) :
    exec (.sysRdreg n) s = .next (s.respond (readReg s r)) := by
  simp only [exec, execSysRdreg, h]
  rfl

/-- SYS_RDREG of any other number raises ERR_INDEX (10_state.md R44). -/
theorem exec_sysRdreg_of_none {n : Byte} (h : regOfNumber n = none) (s : State) :
    exec (.sysRdreg n) s = .next (s.takeFault 0x02 .index) := by
  simp only [exec, execSysRdreg, h]
  rfl

/-- No command changes the parameters (10_state.md R27). -/
theorem exec_cfg {i : Instr} {s t : State} (e : exec i s = .next t) : t.cfg = s.cfg := by
  by_cases hreset : i = .sysReset
  · subst hreset
    cases (exec_sysReset s).symm.trans e
    rfl
  · obtain ⟨u, ⟨hcfg, -⟩, ⟨d, rfl⟩ | ⟨c, rfl⟩⟩ := exec_cases hreset e
    · exact hcfg
    · exact hcfg

/-! Words and steps. -/

/-- What serving a word can be (60_exceptions.md R272, R283): running the command it decodes to, which is SYS_RESET or
SYS_RDREG if a fault is recorded; taking ERR_ILLEGAL; or answering with the recorded code. -/
theorem serve_cases {w : CmdWord} {s t : State} (e : serve w s = .next t) :
    (∃ i, exec i s = .next t ∧ (s.fault = none ∨ i = .sysReset ∨ ∃ n, i = .sysRdreg n)) ∨
    (s.fault = none ∧ t = s.takeFault (opByte w) .illegal) ∨ ∃ r, s.fault = some r ∧ t = s.refuseFaulted r := by
  unfold serve at e
  split at e
  · next hf =>
    unfold execWord at e
    split at e
    · next i _ => exact .inl ⟨i, e, .inl hf⟩
    · cases e
      exact .inr (.inl ⟨hf, rfl⟩)
  · next r hf =>
    split at e
    · next hw =>
      unfold execWord at e
      rcases decode_of_servedWhileFaulted hw with hd | ⟨n, hd⟩
      · rw [hd] at e
        exact .inl ⟨_, e, .inr (.inl rfl)⟩
      · rw [hd] at e
        exact .inl ⟨_, e, .inr (.inr ⟨n, rfl⟩)⟩
    · cases e
      exact .inr (.inr ⟨r, hf, rfl⟩)

/-- What a step can be (30_encoding.md R92): the reset event, a response taken, nothing, or a word served. -/
theorem step_cases {s t : State} (e : step s = .next t) :
    t = s.heldInReset ∨ t = { s with rsp := none } ∨ t = s ∨
      ∃ w rest, s.cmds = w :: rest ∧ serve w { s with cmds := rest } = .next t := by
  unfold step clockEdge at e
  split at e
  · cases e
    exact .inl rfl
  · split at e
    · split at e
      · cases e
        exact .inr (.inl rfl)
      · cases e
        exact .inr (.inr (.inl rfl))
    · split at e
      · cases e
        exact .inr (.inr (.inl rfl))
      · next w rest hw => exact .inr (.inr (.inr ⟨w, rest, hw, e⟩))

theorem serve_cfg {w : CmdWord} {s t : State} (e : serve w s = .next t) : t.cfg = s.cfg := by
  rcases serve_cases e with ⟨i, ei, -⟩ | ⟨-, rfl⟩ | ⟨r, -, rfl⟩
  · exact exec_cfg ei
  · rfl
  · rfl

/-- No step changes the parameters (10_state.md R27, 70_reset_and_hazards.md R300). -/
theorem step_cfg {s t : State} (e : step s = .next t) : t.cfg = s.cfg := by
  rcases step_cases e with rfl | rfl | rfl | ⟨w, rest, -, e⟩
  · rfl
  · rfl
  · rfl
  · exact serve_cfg (s := { s with cmds := rest }) e

end Sys2Proof.Machine
end

section
/-! SUPPORT. That every step keeps the invariant: where a command completes this is what `exec_finishes` says; where it
takes a fault only the parameters, the number of cells and the form of the store are left to show. -/

namespace Sys2Proof.Machine

theorem State.Inv.legal {s : State} (h : s.Inv) : s.cfg.legal = true := h.1.1

/-- A command that runs between commands leads into the invariant, whether it completes or takes a fault. -/
theorem exec_inv {i : Instr} {s t : State} (h : s.Live) (e : exec i s = .next t) : t.Inv := by
  by_cases hreset : i = .sysReset
  · subst hreset
    cases (exec_sysReset s).symm.trans e
    exact (State.resetCore_live h.legal).1
  · obtain ⟨u, ⟨hcfg, hfault, -⟩, ⟨d, rfl⟩ | ⟨c, rfl⟩⟩ := exec_cases hreset e
    · obtain ⟨t, et, hlive⟩ := exec_finishes i h
      cases et.symm.trans e
      exact (hlive (hfault.trans h.2)).1
    · exact takeFault_inv i.op c (hcfg ▸ h.legal)

/-- SYS_RDREG keeps the invariant whatever is recorded: it changes nothing or takes a fault. -/
theorem exec_sysRdreg_inv {n : Byte} {s t : State} (h : s.Inv) (e : exec (.sysRdreg n) s = .next t) : t.Inv := by
  cases hr : regOfNumber n with
  | none =>
    cases (exec_sysRdreg_of_none hr s).symm.trans e
    exact takeFault_inv _ _ h.legal
  | some r =>
    cases (exec_sysRdreg_of_some hr s).symm.trans e
    exact h

theorem serve_inv {w : CmdWord} {s t : State} (h : s.Inv) (e : serve w s = .next t) : t.Inv := by
  rcases serve_cases e with ⟨i, ei, hf | rfl | ⟨n, rfl⟩⟩ | ⟨-, rfl⟩ | ⟨r, -, rfl⟩
  · exact exec_inv ⟨h, hf⟩ ei
  · cases (exec_sysReset s).symm.trans ei
    exact (State.resetCore_live h.legal).1
  · exact exec_sysRdreg_inv h ei
  · exact takeFault_inv _ _ h.legal
  · exact h

/-- Settles O57: the reset event leads into the invariant from any state, taking a response changes nothing it speaks
of, and a word that is served keeps it (`serve_inv`). -/
theorem stepKeepsInvariant : Obligations.StepKeepsInvariant := by
  intro s t h e
  rcases step_cases e with rfl | rfl | rfl | ⟨w, rest, -, e⟩
  · exact (State.resetCore_live h.legal).1
  · exact h
  · exact h
  · exact serve_inv (s := { s with cmds := rest }) h e

/-- Settles O56: the machine right after reset is one that the reset event has just left (10_state.md R47). -/
theorem invariantAtReset : Obligations.InvariantAtReset :=
  (State.resetCore_live (s := State.reset) (by decide)).1

end Sys2Proof.Machine
end

section
/-! SUPPORT. The sub-stream window over whole commands (10_state.md R42, 70_reset_and_hazards.md R317). -/

namespace Sys2Proof.Machine

/-- Where the pseudocode completes, it ends in a state with `Q`, whatever the state it starts from. -/
def EndsIn (Q : State → Prop) {α : Type} (m : Cmd α) : Prop := ∀ s a t, m s = .ok a t → Q t

section

variable {α β : Type} {Q : State → Prop}

/-- Only the last step counts. -/
theorem endsIn_bind {m : Cmd α} {f : α → Cmd β} (h : ∀ a, EndsIn Q (f a)) : EndsIn Q (m >>= f) := by
  intro s b t e
  rw [bind_run] at e
  split at e
  · exact h _ _ _ _ e
  · cases e

/-- A value returned at the end does not count as a step. -/
theorem endsIn_bind_pure {m : Cmd α} {b : β} (h : EndsIn Q m) : EndsIn Q (m >>= fun _ => pure b) := by
  intro s a t e
  rw [bind_run] at e
  split at e
  · next hm =>
    cases e
    exact h _ _ _ hm
  · cases e

theorem endsIn_emptyBuffer : EndsIn (fun t => t.subEnd = 0) emptyBuffer := by
  intro s a t e
  cases e
  rfl

theorem endsIn_setSubActive (b : Bool) : EndsIn (fun t => t.subActive = b) (setSubActive b) := by
  intro s a t e
  cases e
  rfl

/-- What the pseudocode ends with holds after a command that completes, fault register clear: the response does not
touch it. -/
theorem EndsIn.of_answer {op : Byte} {m : Cmd Word} {s t : State} (h : EndsIn Q m) (e : answer op m s = .next t)
    (hf : t.fault = none) : ∃ d u, t = u.respond d ∧ Q u := by
  rcases answer_cases e with ⟨d, u, hu, rfl⟩ | ⟨c, u, -, rfl⟩
  · exact ⟨d, u, rfl, h _ _ _ hu⟩
  · exact absurd hf (takeFault_fault_ne_none u op c)

end

/-- The commands that empty the buffer leave BB_SUB_END 0 (43_bitbuffer.md R190, R194, 45_system.md R261). -/
theorem subEnd_of_empties {i : Instr} {s t : State} (h : empties i = true) (e : exec i s = .next t)
    (hf : t.fault = none) : t.subEnd = 0 := by
  cases i with
  | sysReset =>
    cases (exec_sysReset s).symm.trans e
    rfl
  | bbInit count =>
    obtain ⟨d, u, rfl, hu⟩ := EndsIn.of_answer (endsIn_bind fun _ => endsIn_bind fun _ => endsIn_bind fun _ =>
      endsIn_bind_pure endsIn_emptyBuffer) e hf
    exact hu
  | bbResetBits =>
    obtain ⟨d, u, rfl, hu⟩ := EndsIn.of_answer (endsIn_bind fun _ => endsIn_bind_pure endsIn_emptyBuffer) e hf
    exact hu
  | _ => cases h

/-- BB_SUB_OPEN leaves a window open (43_bitbuffer.md R197). -/
theorem subActive_of_bbSubOpen {n : Word} {s t : State} (e : exec (.bbSubOpen n) s = .next t) (hf : t.fault = none) :
    t.subActive = true := by
  obtain ⟨d, u, rfl, hu⟩ := EndsIn.of_answer (endsIn_bind fun _ => endsIn_bind fun _ => endsIn_bind fun _ =>
    endsIn_bind fun _ => endsIn_bind_pure (endsIn_setSubActive true)) e hf
  exact hu

/-- Every other command but BB_SUB_CLOSE leaves the window as it was. -/
theorem window_of_exec {i : Instr} {s t : State} (hempty : empties i = false) (hopen : ∀ n, i ≠ .bbSubOpen n)
    (hclose : i ≠ .bbSubClose) (e : exec i s = .next t) (hf : t.fault = none) :
    t.subActive = s.subActive ∧ t.subEnd = s.subEnd := by
  obtain ⟨m, he, hm⟩ := exec_keeps untouched_sameWindow i s hempty hopen hclose
  obtain ⟨d, u, rfl, hactive, hend, -⟩ := hm.of_answer (he.symm.trans e) hf
  exact ⟨hactive, hend⟩

/-- Settles O59: the commands that empty the buffer clear the window, BB_SUB_OPEN opens it, and the rest do not move
it. -/
theorem windowStays : Obligations.WindowStays := by
  refine ⟨fun s => ⟨rfl, rfl⟩, fun s t i e hf => ⟨fun hopen hclose hempty => ?_, fun hs hclose ht => ?_⟩⟩
  · exact window_of_exec hempty hopen hclose e hf
  · cases hempty : empties i with
    | true => exact subEnd_of_empties hempty e hf
    | false =>
      by_cases hopen : ∃ n, i = .bbSubOpen n
      · obtain ⟨n, rfl⟩ := hopen
        exact absurd (ht.symm.trans (subActive_of_bbSubOpen e hf)) (by decide)
      · obtain ⟨hactive, hend⟩ := window_of_exec hempty (fun n hn => hopen ⟨n, hn⟩) hclose e hf
        exact hend.trans (hs (hactive.symm.trans ht))

end Sys2Proof.Machine
end

section
/-! SUPPORT. The registers a host reads (10_state.md R23, R41, R44), and that a step runs the decoded command
(30_encoding.md R92, R102). -/

namespace Sys2Proof.Machine

/-! The register map. -/

/-- A number listed in 10_state.md R44 reads its register, changing nothing. -/
theorem reads_of_regOfNumber {n : Byte} {r : Reg} {s : State} {p : Word → Prop} (h : regOfNumber n = some r)
    (hp : p (readReg s r)) : ∃ v, p v ∧ exec (.sysRdreg n) s = .next { s with rsp := some ⟨none, v⟩ } :=
  ⟨_, hp, exec_sysRdreg_of_some h s⟩

theorem regOfNumber_eq_none : ∀ n : Byte,
    n ∉ [0x00, 0x01, 0x02, 0x04, 0x05, 0x06, 0x07, 0x10, 0x11, 0x12, 0x13, 0x14, 0x20, 0x21, 0x22, 0x30, 0x31, 0x32,
      0x33, 0x34, 0x35, 0x36, 0x37] → regOfNumber n = none := by
  decide

/-- BB_x_WORD is the number of whole words before a cursor (10_state.md R41). -/
theorem cursorWord_toNat (pos : Word) : (cursorWord pos).toNat = pos.toNat / 32 := by
  rw [cursorWord, BitVec.toNat_ushiftRight, Nat.shiftRight_eq_div_pow]

/-- BB_x_AVAIL is the number of bits left in the word at a cursor (10_state.md R41). -/
theorem cursorAvail_toNat (pos : Word) : (cursorAvail pos).toNat = 32 - pos.toNat % 32 := by
  have hmod : (pos &&& 31).toNat = pos.toNat % 32 := by
    rw [BitVec.toNat_and]
    exact Nat.and_two_pow_sub_one_eq_mod pos.toNat 5
  rw [cursorAvail, BitVec.toNat_sub, hmod]
  have : (32 : Word).toNat = 32 := rfl
  omega

/-- A number below 2^32 survives its register of 32 bits. -/
theorem toNat_word {n : Nat} (h : n < 2 ^ 32) : (BitVec.ofNat 32 n).toNat = n := by
  rw [BitVec.toNat_ofNat, Nat.mod_eq_of_lt h]

/-- Settles O16: each listed number names its register (`reads_of_regOfNumber`), whose value fits 32 bits, no other
number names one, and no step changes the parameters (`step_cfg`). -/
theorem registerMap : Obligations.RegisterMap := by
  refine ⟨fun s h => ?_, fun s n hn => exec_sysRdreg_of_none (regOfNumber_eq_none n hn) s, fun s t => step_cfg⟩
  obtain ⟨⟨-, hnctx⟩, ⟨hcap0, hcapMax, -⟩, hqp, -⟩ := legal_iff.1 h
  have hcap0 := (isCapacity_le hcap0).2
  have hcapMax := (isCapacity_le hcapMax).2
  intro reads
  refine ⟨reads_of_regOfNumber (r := .status) rfl rfl, reads_of_regOfNumber (r := .fault) rfl rfl,
    reads_of_regOfNumber (r := .faultOp) rfl rfl,
    reads_of_regOfNumber (r := .cfgNctx) rfl (toNat_word (by omega)),
    reads_of_regOfNumber (r := .cfgCap0) rfl (toNat_word (by omega)),
    reads_of_regOfNumber (r := .cfgCapMax) rfl (toNat_word (by omega)),
    reads_of_regOfNumber (r := .cfgQpMax) rfl (toNat_word (by omega)),
    reads_of_regOfNumber (r := .encLow) rfl rfl,
    reads_of_regOfNumber (r := .encRange) rfl (BitVec.toNat_setWidth_of_le (by decide)),
    reads_of_regOfNumber (r := .encBitsLeft) rfl (BitVec.toNat_setWidth_of_le (by decide)),
    reads_of_regOfNumber (r := .encBufByte) rfl (BitVec.toNat_setWidth_of_le (by decide)),
    reads_of_regOfNumber (r := .encNumBuf) rfl rfl,
    reads_of_regOfNumber (r := .decValue) rfl (BitVec.toNat_setWidth_of_le (by decide)),
    reads_of_regOfNumber (r := .decRange) rfl (BitVec.toNat_setWidth_of_le (by decide)),
    reads_of_regOfNumber (r := .decBitsNeeded) rfl (BitVec.toInt_signExtend_of_le (by decide)),
    reads_of_regOfNumber (r := .bbWrPos) rfl rfl, reads_of_regOfNumber (r := .bbRdPos) rfl rfl,
    reads_of_regOfNumber (r := .bbCap) rfl rfl, reads_of_regOfNumber (r := .bbSubEnd) rfl rfl,
    reads_of_regOfNumber (r := .bbWrWord) rfl (cursorWord_toNat s.wrPos),
    reads_of_regOfNumber (r := .bbWrAvail) rfl (cursorAvail_toNat s.wrPos),
    reads_of_regOfNumber (r := .bbRdWord) rfl (cursorWord_toNat s.rdPos),
    reads_of_regOfNumber (r := .bbRdAvail) rfl (cursorAvail_toNat s.rdPos)⟩

/-! STATUS (10_state.md R23). -/

/-- The code of a recorded cause is in bits 7:0 of FAULT, and it is not 0 (10_state.md R24, 60_exceptions.md R270). -/
theorem faultWord_code_ne_zero (c : Cause) : ((0 : BitVec 22) ++ (c.cls ++ c.code)).extractLsb' 0 8 ≠ 0 := by
  cases c <;> decide

theorem faulted_iff (s : State) : s.faulted = true ↔ s.faultWord.extractLsb' 0 8 ≠ 0 := by
  unfold State.faulted State.faultWord
  cases s.fault with
  | none => decide
  | some r => exact iff_of_true rfl (faultWord_code_ne_zero r.cause)

theorem engineField_toNat (e : Engine) :
    (engineField e).toNat = (match e with | .unstarted => 0 | .coding => 1 | .terminated => 2) := by
  cases e <;> rfl

/-- The fields of the word that STATUS is put together from, whatever they hold. -/
theorem statusFields (f t a c : Bool) (d e : BitVec 2) :
    let w : Word :=
      (0 : BitVec 24) ++ (BitVec.ofBool f ++ BitVec.ofBool t ++ BitVec.ofBool a ++ BitVec.ofBool c ++ d ++ e)
    w.extractLsb' 0 2 = e ∧ w.extractLsb' 2 2 = d ∧ w.getLsbD 4 = c ∧ w.getLsbD 5 = a ∧ w.getLsbD 6 = t ∧
      w.getLsbD 7 = f ∧ w.extractLsb' 8 24 = 0 := by
  revert f t a c d e
  decide

/-- Settles O13: each field is the part of the word it is put into (`statusFields`), and the cause recorded is never 0
(`faulted_iff`). -/
theorem statusRegister : Obligations.StatusRegister := by
  intro s
  obtain ⟨he, hd, hc, ha, ht, hf, hz⟩ :=
    statusFields s.faulted s.encTrm s.subActive s.count (engineField s.decState) (engineField s.encState)
  refine ⟨(congrArg BitVec.toNat he).trans (engineField_toNat _),
    (congrArg BitVec.toNat hd).trans (engineField_toNat _), hc, ha, ht, ?_, hz, hf.symm⟩
  exact (Bool.eq_iff_iff.1 hf).trans (faulted_iff s)

end Sys2Proof.Machine
end

section
/-! SUPPORT. Decoding the word of a command (30_encoding.md R90, R94 to R98): its fields are read back from the word,
its OP finds its row, no bit is set outside the row's mask, and the row's operands are the command's. -/

namespace Sys2Proof

/-- The five fields are read back from the word they make (30_encoding.md R90). -/
theorem Fields.ofWord_toWord (f : Fields) : Fields.ofWord f.toWord = f := by
  obtain ⟨op, a, b, c, d⟩ := f
  unfold Fields.ofWord Fields.toWord
  congr
  · exact BitVec.extractLsb'_append_eq_of_le (by decide) |>.trans (BitVec.extractLsb'_append_eq_of_le (by decide))
      |>.trans (BitVec.extractLsb'_append_eq_of_le (by decide)) |>.trans BitVec.extractLsb'_append_eq_left
  · exact BitVec.extractLsb'_append_eq_of_le (by decide) |>.trans (BitVec.extractLsb'_append_eq_of_le (by decide))
      |>.trans (BitVec.extractLsb'_append_eq_of_le (by decide)) |>.trans BitVec.extractLsb'_append_eq_right
  · exact BitVec.extractLsb'_append_eq_of_le (by decide) |>.trans (BitVec.extractLsb'_append_eq_of_le (by decide))
      |>.trans BitVec.extractLsb'_append_eq_right
  · exact BitVec.extractLsb'_append_eq_of_le (by decide) |>.trans BitVec.extractLsb'_append_eq_right
  · exact BitVec.extractLsb'_append_eq_right

/-- What decoding needs of the row of an OP (30_encoding.md R102). -/
theorem decodeFields_of_row {f : Fields} {i : Instr} (r : Row)
    (hrow : (opcodeRows.find? fun r => r.op == f.op) = some r)
    (ha : f.a &&& ~~~r.useA = 0) (hb : f.b &&& ~~~r.useB = 0) (hc : f.c &&& ~~~r.useC = 0) (hd : f.d &&& ~~~r.useD = 0)
    (hbuild : r.build f = some i) (hwf : i.wellFormed = true) : decodeFields f = .ok i := by
  have hmask : r.reserved f = false := by rw [Row.reserved, ha, hb, hc, hd]; rfl
  simp [decodeFields, hrow, Row.decode, hmask, hbuild, hwf]

/-! Each use of a field is within the row's mask (30_encoding.md R96). -/

theorem unused_mask {w : Nat} {m : BitVec w} : 0 &&& ~~~m = 0 := BitVec.zero_and

theorem byte_mask {x : Byte} : x &&& ~~~0xFF = 0 := BitVec.and_zero

theorem word_mask {x : Word} : x &&& ~~~0xFFFFFFFF = 0 := BitVec.and_zero

theorem bin_mask {b : Bool} : bitField b &&& ~~~0x00000001 = 0 := by cases b <;> rfl

theorem count_mask {b : Bool} : (BitVec.ofBool b).setWidth 8 &&& ~~~0x01 = 0 := by cases b <;> rfl

theorem path_mask {p : Path} : pathField p &&& ~~~0x03 = 0 := by cases p <;> rfl

theorem cell_mask : ∀ (state : BitVec 6) (mps : Bool),
    (0 : BitVec 25) ++ (BitVec.ofBool mps ++ state) &&& ~~~0x0000007F = 0 := by decide

theorem sym_mask : ∀ sym : Byte, sym.setWidth 32 &&& ~~~0x000000FF = 0 := by decide

/-! Operands that share a field are read back from it (30_encoding.md R95, R98). -/

namespace Fields

variable {f : Fields}

theorem bin_of_d {b : Bool} (h : f.d = bitField b) : f.bin = b := by
  rw [bin, h]
  cases b <;> rfl

theorem countBit_of_c {b : Bool} (h : f.c = (BitVec.ofBool b).setWidth 8) : f.countBit = b := by
  rw [countBit, h]
  cases b <;> rfl

theorem slope_of_d {slope offset : BitVec 16} (h : f.d = offset ++ slope) : f.slope = slope := by
  rw [Fields.slope, h, BitVec.extractLsb'_append_eq_right]

theorem offset_of_d {slope offset : BitVec 16} (h : f.d = offset ++ slope) : f.offset = offset := by
  rw [Fields.offset, h, BitVec.extractLsb'_append_eq_left]

theorem cellState_of_d {state : BitVec 6} {mps : Bool} (h : f.d = (0 : BitVec 25) ++ (BitVec.ofBool mps ++ state)) :
    f.cellState = state := by
  rw [cellState, h, BitVec.extractLsb'_append_eq_of_add_le (by decide), BitVec.extractLsb'_append_eq_right]

theorem cellMps_of_d {state : BitVec 6} {mps : Bool} (h : f.d = (0 : BitVec 25) ++ (BitVec.ofBool mps ++ state)) :
    f.cellMps = mps := by
  rw [cellMps, h, BitVec.getLsbD_append, if_pos (by decide), BitVec.getLsbD_append, if_neg (by decide)]
  cases mps <;> rfl

theorem sym_of_d {sym : Byte} (h : f.d = sym.setWidth 32) : f.sym = sym := by
  rw [Fields.sym, h, BitVec.extractLsb'_setWidth_of_le (by decide), BitVec.extractLsb'_eq_self]

theorem path_of_c {spanm1 : BitVec 6} {p : Path} (h : f.c = spanm1 ++ p.code) : f.path = some p := by
  rw [path, h, BitVec.extractLsb'_append_eq_right]
  cases p <;> rfl

theorem spanm1_of_c {spanm1 : BitVec 6} {p : Path} (h : f.c = spanm1 ++ p.code) : f.spanm1 = spanm1 := by
  rw [Fields.spanm1, h, BitVec.extractLsb'_append_eq_left]

/-- A command of a row with a path: the path is read back, and the rest of the command with it. -/
theorem map_path_of_c {spanm1 : BitVec 6} {p : Path} {g : Path → Instr} {i : Instr} (h : f.c = spanm1 ++ p.code)
    (hi : g p = i) : f.path.map g = some i := by
  rw [path_of_c h, Option.map_some, hi]

end Fields

/-- Every command is read back from its fields: row by row, the OP, the masks of A, B, C and D, the operands. -/
theorem decodeFields_fields {i : Instr} (h : i.wellFormed = true) : decodeFields i.fields = .ok i := by
  cases i with
  | sysRdreg reg => exact decodeFields_of_row _ rfl byte_mask unused_mask unused_mask unused_mask rfl h
  | ctxInit ctx qp slope offset =>
    exact decodeFields_of_row _ rfl byte_mask byte_mask unused_mask word_mask
      (congrArg some (congrArg₂ (Instr.ctxInit ctx qp) (Fields.slope_of_d rfl) (Fields.offset_of_d rfl))) h
  | ctxSet ctx state mps =>
    exact decodeFields_of_row _ rfl byte_mask unused_mask unused_mask (cell_mask state mps)
      (congrArg some (congrArg₂ (Instr.ctxSet ctx) (Fields.cellState_of_d rfl) (Fields.cellMps_of_d rfl))) h
  | ctxGet ctx => exact decodeFields_of_row _ rfl byte_mask unused_mask unused_mask unused_mask rfl h
  | encBin ctx bin =>
    exact decodeFields_of_row _ rfl byte_mask unused_mask unused_mask bin_mask
      (congrArg (fun b => some (Instr.encBin ctx b)) (Fields.bin_of_d rfl)) h
  | encBinEp bin =>
    exact decodeFields_of_row _ rfl unused_mask unused_mask unused_mask bin_mask
      (congrArg (fun b => some (Instr.encBinEp b)) (Fields.bin_of_d rfl)) h
  | encBinTrm bin =>
    exact decodeFields_of_row _ rfl unused_mask unused_mask unused_mask bin_mask
      (congrArg (fun b => some (Instr.encBinTrm b)) (Fields.bin_of_d rfl)) h
  | decBin ctx => exact decodeFields_of_row _ rfl byte_mask unused_mask unused_mask unused_mask rfl h
  | bbInit count =>
    exact decodeFields_of_row _ rfl unused_mask unused_mask count_mask unused_mask
      (congrArg (fun b => some (Instr.bbInit b)) (Fields.countBit_of_c rfl)) h
  | bbWrite n bits => exact decodeFields_of_row _ rfl byte_mask unused_mask unused_mask word_mask rfl h
  | bbRead n => exact decodeFields_of_row _ rfl byte_mask unused_mask unused_mask unused_mask rfl h
  | bbRdSeek pos => exact decodeFields_of_row _ rfl unused_mask unused_mask unused_mask word_mask rfl h
  | bbGetByte index => exact decodeFields_of_row _ rfl unused_mask unused_mask unused_mask word_mask rfl h
  | bbSubOpen nbytes => exact decodeFields_of_row _ rfl unused_mask unused_mask unused_mask word_mask rfl h
  | seWrFlc n path value =>
    exact decodeFields_of_row _ rfl byte_mask unused_mask path_mask word_mask (Fields.map_path_of_c rfl rfl) h
  | seWrUvlc path value =>
    exact decodeFields_of_row _ rfl unused_mask unused_mask path_mask word_mask (Fields.map_path_of_c rfl rfl) h
  | seWrSvlc path value =>
    exact decodeFields_of_row _ rfl unused_mask unused_mask path_mask word_mask (Fields.map_path_of_c rfl rfl) h
  | seWrTu ctx max path spanm1 sym =>
    exact decodeFields_of_row _ rfl byte_mask byte_mask byte_mask (sym_mask sym)
      (Fields.map_path_of_c rfl
        (congrArg₂ (Instr.seWrTu ctx max path) (Fields.spanm1_of_c rfl) (Fields.sym_of_d rfl))) h
  | seWrFf8 value => exact decodeFields_of_row _ rfl unused_mask unused_mask unused_mask word_mask rfl h
  | seRdFlc n path =>
    exact decodeFields_of_row _ rfl byte_mask unused_mask path_mask unused_mask (Fields.map_path_of_c rfl rfl) h
  | seRdUvlc path =>
    exact decodeFields_of_row _ rfl unused_mask unused_mask path_mask unused_mask (Fields.map_path_of_c rfl rfl) h
  | seRdSvlc path =>
    exact decodeFields_of_row _ rfl unused_mask unused_mask path_mask unused_mask (Fields.map_path_of_c rfl rfl) h
  | seRdTu ctx max path spanm1 =>
    exact decodeFields_of_row _ rfl byte_mask byte_mask byte_mask unused_mask
      (Fields.map_path_of_c rfl (congrArg (Instr.seRdTu ctx max path) (Fields.spanm1_of_c rfl))) h
  | _ => exact decodeFields_of_row _ rfl unused_mask unused_mask unused_mask unused_mask rfl h

/-- Every command is read back from its word (30_encoding.md R90, R94, R95, R98). -/
theorem decode_encode {i : Instr} (h : i.wellFormed = true) : decode (encode i) = .ok i := by
  rw [decode, encode, Fields.ofWord_toWord, decodeFields_fields h]

end Sys2Proof
end

section
/-! SUPPORT. That a step with the port ready serves the word on offer, and nothing else (30_encoding.md R92). -/

namespace Sys2Proof.Machine

theorem step_of_ready {s : State} {w : CmdWord} {rest : List CmdWord} (h : s.Ready) (hw : s.cmds = w :: rest) :
    step s = serve w { s with cmds := rest } := by
  obtain ⟨hrst, hrsp⟩ := h
  simp [step, clockEdge, hrst, hrsp, hw]

/-- While no fault is recorded a word is run as the command it decodes to (30_encoding.md R102). -/
theorem serve_of_decode {s : State} {w : CmdWord} {i : Instr} (hf : s.fault = none) (hw : decode w = .ok i) :
    serve w s = exec i s := by
  simp [serve, hf, execWord, hw]

/-- The word that `withFetchWord` places is the word it is given. -/
theorem withFetchWord_word (s : State) (w : CmdWord) : (s.withFetchWord 64 w.toNat).cmds = w :: s.cmds := by
  rw [State.withFetchWord_cmds, Nat.mod_eq_of_lt w.isLt, BitVec.ofNat_toNat, BitVec.setWidth_eq]

/-- Settles O6: the port being ready, the word is served; no fault being recorded, it is run as the command it decodes
to, which for the word of a command is that command (`decode_encode`). -/
theorem stepRunsDecoded : Obligations.StepRunsDecoded := by
  refine ⟨fun s i w rest hr hf hw hd => ?_, fun s i hwf hf => ?_⟩
  · exact (step_of_ready hr hw).trans (serve_of_decode hf hd)
  · exact (step_of_ready ⟨rfl, rfl⟩ (withFetchWord_word s (encode i))).trans
      (serve_of_decode hf (decode_encode hwf))

end Sys2Proof.Machine
end

section
/-! SUPPORT. That the context cells stay out of what uses no context (10_state.md R22): `Blind`, for pseudocode that
neither reads nor writes a cell. -/

namespace Sys2Proof.Machine

/-- The state with other context cells. -/
def State.withCells (s : State) (cells : List CtxCell) : State := { s with ctx := cells }

/-- The end of a run with other context cells. -/
def endWithCells {α : Type} (r : EStateM.Result Stop State α) (cells : List CtxCell) : EStateM.Result Stop State α :=
  match r with
  | .ok a t => .ok a (t.withCells cells)
  | .error e t => .error e (t.withCells cells)

/-- The pseudocode neither reads nor writes a context cell: with other cells it runs the same, and they are still there
at its end. -/
def Blind {α : Type} (m : Cmd α) : Prop := ∀ s cells, m (s.withCells cells) = endWithCells (m s) cells

section

variable {α β : Type}

theorem blind_pure (a : α) : Blind (pure a : Cmd α) := fun _ _ => rfl

theorem blind_raise (c : Cause) : Blind (raise c : Cmd α) := fun _ _ => rfl

theorem blind_halt (f : Fault) : Blind (halt f : Cmd α) := fun _ _ => rfl

theorem blind_bind {m : Cmd α} {f : α → Cmd β} (h : Blind m) (g : ∀ a, Blind (f a)) : Blind (m >>= f) := by
  intro s cells
  rw [bind_run, bind_run, h s cells]
  cases m s with
  | ok a t => exact g a t cells
  | error e t => rfl

/-- The state may be read, as long as what is done with it does not depend on the cells. -/
theorem blind_get {f : State → Cmd β} (h : ∀ s, Blind (f s)) (hf : ∀ s cells, f (s.withCells cells) = f s) :
    Blind (get >>= f) := by
  intro s cells
  rw [bind_run, bind_run, get_run, get_run]
  simp only
  rw [hf]
  exact h s s cells

theorem blind_map {m : Cmd α} {f : α → β} (h : Blind m) : Blind (f <$> m) := by
  rw [map_eq_pure_bind]
  exact blind_bind h fun _ => blind_pure _

theorem blind_ite {p : Prop} [Decidable p] {m n : Cmd α} (h : Blind m) (g : Blind n) : Blind (if p then m else n) := by
  split <;> assumption

theorem blind_raiseIf (b : Bool) (c : Cause) : Blind (raiseIf b c) := blind_ite (blind_raise c) (blind_pure ())

/-- What follows a check need only be blind where it lets pass. -/
theorem blind_check {b : Bool} {c : Cause} {f : Unit → Cmd β} (h : b = false → Blind (f ())) :
    Blind (raiseIf b c >>= f) := by
  cases b with
  | false => exact blind_bind (blind_raiseIf _ _) fun _ => h rfl
  | true => exact fun _ _ => rfl

theorem blind_assign {fits : Bool} {upd : State → State}
    (h : ∀ s cells, upd (s.withCells cells) = (upd s).withCells cells) : Blind (assign fits upd) := by
  intro s cells
  cases fits with
  | false => rfl
  | true => exact congrArg (EStateM.Result.ok ()) (h s cells)

theorem blind_modify {upd : State → State} (h : ∀ s cells, upd (s.withCells cells) = (upd s).withCells cells) :
    Blind (modify upd : Cmd Unit) := fun s cells => congrArg (EStateM.Result.ok ()) (h s cells)

theorem blind_repeat {body : Cmd Unit} (h : Blind body) (n : Nat) : Blind (repeatCmd body n) := by
  induction n with
  | zero => exact blind_pure ()
  | succ n ih => exact blind_bind h fun _ => ih

end

/-! The primitives (00_scope.md R10, 20_memory.md R63 to R68). -/

theorem blind_setEncLow (e : Int) : Blind (setEncLow e) := blind_assign fun _ _ => rfl
theorem blind_setEncRange (e : Int) : Blind (setEncRange e) := blind_assign fun _ _ => rfl
theorem blind_setEncBitsLeft (e : Int) : Blind (setEncBitsLeft e) := blind_assign fun _ _ => rfl
theorem blind_setEncBufByte (e : Int) : Blind (setEncBufByte e) := blind_assign fun _ _ => rfl
theorem blind_setEncNumBuf (e : Int) : Blind (setEncNumBuf e) := blind_assign fun _ _ => rfl
theorem blind_setDecValue (e : Int) : Blind (setDecValue e) := blind_assign fun _ _ => rfl
theorem blind_setDecRange (e : Int) : Blind (setDecRange e) := blind_assign fun _ _ => rfl
theorem blind_setDecBitsNeeded (e : Int) : Blind (setDecBitsNeeded e) := blind_assign fun _ _ => rfl
theorem blind_setWrPos (e : Int) : Blind (setWrPos e) := blind_assign fun _ _ => rfl
theorem blind_setRdPos (e : Int) : Blind (setRdPos e) := blind_assign fun _ _ => rfl
theorem blind_setBbCap (e : Int) : Blind (setBbCap e) := blind_assign fun _ _ => rfl
theorem blind_setSubEnd (e : Int) : Blind (setSubEnd e) := blind_assign fun _ _ => rfl
theorem blind_setEncState (e : Engine) : Blind (setEncState e) := blind_modify fun _ _ => rfl
theorem blind_setEncTrm (b : Bool) : Blind (setEncTrm b) := blind_modify fun _ _ => rfl
theorem blind_setDecState (e : Engine) : Blind (setDecState e) := blind_modify fun _ _ => rfl
theorem blind_setCount (b : Bool) : Blind (setCount b) := blind_modify fun _ _ => rfl
theorem blind_setSubActive (b : Bool) : Blind (setSubActive b) := blind_modify fun _ _ => rfl

theorem blind_memRead (addr : Int) (n : Nat) : Blind (memRead addr n) := by
  intro s cells
  unfold memRead
  have hpos : (s.withCells cells).wrPos = s.wrPos := rfl
  rw [hpos]
  cases decide (0 ≤ addr) && decide (addr + n ≤ s.wrPos.toNat) <;> rfl

theorem blind_countOf (e : Int) : Blind (countOf e) := blind_ite (blind_pure _) (blind_halt _)

theorem blind_growFor (need : Nat) : Blind (growFor need) := by
  refine blind_get (fun s => ?_) fun _ _ => rfl
  cases grownCap need s.cfg.capMax 28 s.bbCap.toNat with
  | none => exact blind_raise _
  | some cap => exact blind_setBbCap _

theorem blind_putBits (v n : Nat) : Blind (putBits v n) := by
  refine blind_get (fun s => ?_) fun _ _ => rfl
  have put : Blind (do
      raiseIf (s.wrPos.toNat + n ≥ 2 ^ 32) .overflow
      if s.count = false then
        growFor (s.wrPos.toNat + n)
        modify fun t => { t with store := t.store.writeBits s.wrPos.toNat n v }
      setWrPos (s.wrPos.toNat + n)) :=
    blind_bind (blind_raiseIf _ _) fun _ => blind_ite
      (blind_bind (blind_growFor _) fun _ => blind_bind (blind_modify fun _ _ => rfl) fun _ => blind_setWrPos _)
      (blind_setWrPos _)
  exact blind_ite (blind_bind (blind_halt _) fun _ => put) put

theorem blind_getBits (n : Nat) : Blind (getBits n) :=
  blind_get (fun _ => blind_bind (blind_raiseIf _ _) fun _ => blind_bind (blind_raiseIf _ _) fun _ =>
    blind_bind (blind_memRead _ _) fun _ => blind_bind (blind_setRdPos _) fun _ => blind_pure _) fun _ _ => rfl

theorem blind_emptyBuffer : Blind emptyBuffer :=
  blind_bind (blind_setWrPos _) fun _ => blind_bind (blind_setRdPos _) fun _ =>
    blind_bind (blind_setSubActive _) fun _ => blind_setSubEnd _

/-! The procedures of the encoder (41_encoder.md). -/

theorem blind_releaseOne (v : Nat) : Blind (releaseOne v) :=
  blind_bind (blind_putBits _ _) fun _ => blind_get (fun _ => blind_setEncNumBuf _) fun _ _ => rfl

theorem blind_releaseRun (v : Nat) : Blind (releaseRun v) :=
  blind_get (fun _ => blind_repeat (blind_releaseOne v) _) fun _ _ => rfl

theorem blind_writeOut : Blind writeOut :=
  blind_get (fun _ => blind_bind (blind_setEncBitsLeft _) fun _ => blind_bind (blind_setEncLow _) fun _ => blind_ite
    (blind_bind (blind_raiseIf _ _) fun _ => blind_setEncNumBuf _)
    (blind_ite
      (blind_bind (blind_putBits _ _) fun _ => blind_bind (blind_setEncBufByte _) fun _ => blind_releaseRun _)
      (blind_bind (blind_setEncNumBuf _) fun _ => blind_setEncBufByte _))) fun _ _ => rfl

theorem blind_testWriteOut : Blind testWriteOut :=
  blind_get (fun _ => blind_ite blind_writeOut (blind_pure _)) fun _ _ => rfl

theorem blind_encEp (b : Bool) : Blind (encEp b) :=
  blind_get (fun _ => blind_bind (blind_setEncLow _) fun _ => blind_ite
    (blind_get (fun _ => blind_bind (blind_setEncLow _) fun _ => blind_bind (blind_setEncBitsLeft _) fun _ =>
      blind_testWriteOut) fun _ _ => rfl)
    (blind_bind (blind_setEncBitsLeft _) fun _ => blind_testWriteOut)) fun _ _ => rfl

theorem blind_requireEncoding : Blind requireEncoding := blind_get (fun _ => blind_raiseIf _ _) fun _ _ => rfl

theorem blind_padZeros : Blind padZeros := blind_get (fun _ => blind_repeat (blind_putBits _ _) _) fun _ _ => rfl

/-! The procedures of the decoder (42_decoder.md). -/

theorem blind_decDouble (n : Nat) : Blind (decDouble n) :=
  blind_get (fun _ => blind_bind (blind_setDecRange _) fun _ => blind_bind (blind_setDecValue _) fun _ =>
    blind_bind (blind_setDecBitsNeeded _) fun _ => blind_get (fun _ => blind_ite
      (blind_bind (blind_setDecBitsNeeded _) fun _ => blind_bind (blind_getBits 8) fun _ =>
        blind_get (fun _ => blind_setDecValue _) fun _ _ => rfl)
      (blind_pure _)) fun _ _ => rfl) fun _ _ => rfl

theorem blind_decEp : Blind decEp := by
  have compare : Blind (do
      let t ← get
      let scaled := t.decRange.toNat * 2 ^ 7
      if t.decValue.toNat ≥ scaled then
        setDecValue ((t.decValue.toNat - scaled : Nat))
        return true
      else
        return false) :=
    blind_get (fun _ => blind_ite (blind_bind (blind_setDecValue _) fun _ => blind_pure _) (blind_pure _))
      fun _ _ => rfl
  exact blind_get (fun _ => blind_bind (blind_setDecValue _) fun _ => blind_bind (blind_setDecBitsNeeded _) fun _ =>
    blind_get (fun _ => blind_ite
      (blind_bind (blind_setDecBitsNeeded _) fun _ => blind_bind (blind_getBits 8) fun _ =>
        blind_get (fun _ => blind_bind (blind_setDecValue _) fun _ => compare) fun _ _ => rfl)
      compare) fun _ _ => rfl) fun _ _ => rfl

theorem blind_requireDecoding : Blind requireDecoding := blind_get (fun _ => blind_raiseIf _ _) fun _ _ => rfl

/-! The procedures that move bits on a path, RAW and EP using no context (44_syntax.md R221, R222). -/

theorem blind_checkWr (path : Path) : Blind (checkWr path) := by
  cases path with
  | raw => exact blind_get (fun _ => blind_raiseIf _ _) fun _ _ => rfl
  | ep => exact blind_requireEncoding
  | ctx => exact blind_requireEncoding

theorem blind_checkRd (path : Path) : Blind (checkRd path) := by
  cases path with
  | raw => exact blind_get (fun _ => blind_raiseIf _ _) fun _ _ => rfl
  | ep => exact blind_requireDecoding
  | ctx => exact blind_requireDecoding

theorem blind_rdZeros (n : Nat) : Blind (rdZeros n) := by
  induction n with
  | zero => exact blind_pure _
  | succ n ih => exact blind_bind (blind_getBits _) fun _ => blind_bind (blind_raiseIf _ _) fun _ => ih

theorem blind_rdFf8 (k v : Nat) : Blind (rdFf8 k v) := by
  induction k generalizing v with
  | zero => exact blind_raise _
  | succ k ih =>
    exact blind_bind (blind_getBits _) fun _ => blind_bind (blind_raiseIf _ _) fun _ => blind_ite (blind_pure _) (ih _)

section

variable {path : Path} (hp : path ≠ .ctx)

include hp

theorem blind_emit (b : Bool) (i : Nat) : Blind (emit path b i) := by
  cases path with
  | raw => exact blind_putBits _ _
  | ep => exact blind_encEp b
  | ctx => exact absurd rfl hp

theorem blind_wrFlc (v n : Nat) : Blind (wrFlc path v n) := by
  induction n with
  | zero => exact blind_pure _
  | succ n ih => exact blind_bind (blind_emit hp _ _) fun _ => ih

theorem blind_wrUvlc (v : Nat) : Blind (wrUvlc path v) :=
  blind_bind (blind_repeat (blind_emit hp _ _) _) fun _ => blind_bind (blind_emit hp _ _) fun _ => blind_wrFlc hp _ _

theorem blind_wrOnes (ctx : Byte) (spanm1 : BitVec 6) (n k : Nat) : Blind (wrOnes path ctx spanm1 n k) := by
  induction n generalizing k with
  | zero => exact blind_pure _
  | succ n ih => exact blind_bind (blind_emit hp _ _) fun _ => ih _

theorem blind_take (i : Nat) : Blind (take path i) := by
  cases path with
  | raw => exact blind_map (blind_getBits 1)
  | ep => exact blind_decEp
  | ctx => exact absurd rfl hp

theorem blind_rdFlc (n v : Nat) : Blind (rdFlc path n v) := by
  induction n generalizing v with
  | zero => exact blind_pure _
  | succ n ih => exact blind_bind (blind_take hp _) fun _ => ih _

theorem blind_rdPrefix (n l : Nat) : Blind (rdPrefix path n l) := by
  induction n generalizing l with
  | zero => exact blind_raise _
  | succ n ih => exact blind_bind (blind_take hp _) fun _ => blind_ite (blind_pure _) (ih _)

theorem blind_rdUvlc : Blind (rdUvlc path) :=
  blind_bind (blind_rdPrefix hp _ _) fun _ => blind_bind (blind_rdFlc hp _ _) fun _ => blind_pure _

theorem blind_rdOnes (ctx : Byte) (spanm1 : BitVec 6) (n k : Nat) : Blind (rdOnes path ctx spanm1 n k) := by
  induction n generalizing k with
  | zero => exact blind_pure _
  | succ n ih => exact blind_bind (blind_take hp _) fun _ => blind_ite (ih _) (blind_pure _)

end

end Sys2Proof.Machine
end

section
/-! SUPPORT. The commands that use no context (10_state.md R22) run pseudocode that is blind for the cells. -/

namespace Sys2Proof.Machine

/-- The command runs the same blind pseudocode whatever the cells. -/
def RunsBlind (i : Instr) (s : State) : Prop :=
  ∃ m, exec i s = answer i.op m s ∧ (∀ cells, exec i (s.withCells cells) = answer i.op m (s.withCells cells)) ∧ Blind m

theorem blind_readReg (r : Reg) : Blind (do return readReg (← get) r) :=
  blind_get (fun _ => blind_pure _) fun s cells => by cases r <;> rfl

/-! The commands that branch. -/

theorem encFinish_runsBlind (s : State) : RunsBlind .encFinish s := by
  have tail : Blind (do
      let left ← countOf (24 - (s.encBitsLeft.toNat : Int))
      putBits ((← get).encLow.toNat / 2 ^ 8) left
      putBits 1 1
      padZeros
      setEncNumBuf 0
      setEncTrm false
      setEncState .terminated
      return 0 : Cmd Word) :=
    blind_bind (blind_countOf _) fun _ => blind_get (fun _ => blind_bind (blind_putBits _ _) fun _ =>
      blind_bind (blind_putBits _ _) fun _ => blind_bind blind_padZeros fun _ =>
      blind_bind (blind_setEncNumBuf _) fun _ => blind_bind (blind_setEncTrm _) fun _ => blind_bind (blind_setEncState _) fun _ => blind_pure _) fun _ _ => rfl
  exact ⟨_, rfl, fun _ => rfl, blind_check fun _ => blind_ite
    (blind_bind (blind_putBits _ _) fun _ => blind_bind (blind_releaseRun _) fun _ =>
      blind_bind (blind_setEncLow _) fun _ => tail)
    (blind_ite
      (blind_bind (blind_putBits _ _) fun _ => blind_bind (blind_releaseRun _) fun _ => tail)
      (blind_bind (blind_releaseRun _) fun _ => tail))⟩

theorem encBinTrm_runsBlind (bin : Bool) (s : State) : RunsBlind (.encBinTrm bin) s :=
  ⟨_, rfl, fun _ => rfl, blind_bind blind_requireEncoding fun _ => blind_bind (blind_setEncRange _) fun _ =>
    blind_get (fun _ => blind_ite
      (blind_bind (blind_setEncLow _) fun _ => blind_bind (blind_setEncRange _) fun _ =>
        blind_bind (blind_setEncBitsLeft _) fun _ => blind_bind (blind_setEncTrm _) fun _ =>
        blind_bind blind_testWriteOut fun _ => blind_pure _)
      (blind_ite
        (blind_bind (blind_setEncLow _) fun _ => blind_bind (blind_setEncRange _) fun _ =>
          blind_bind (blind_setEncBitsLeft _) fun _ => blind_bind blind_testWriteOut fun _ => blind_pure _)
        (blind_pure _))) fun _ _ => rfl⟩

theorem decBinTrm_runsBlind (s : State) : RunsBlind .decBinTrm s :=
  ⟨_, rfl, fun _ => rfl, blind_bind blind_requireDecoding fun _ => blind_bind (blind_setDecRange _) fun _ =>
    blind_get (fun _ => blind_ite
      (blind_bind (blind_memRead _ _) fun _ => blind_bind (blind_countOf _) fun _ => blind_check fun _ =>
        blind_bind (blind_setDecState _) fun _ => blind_pure _)
      (blind_ite (blind_bind (blind_decDouble _) fun _ => blind_pure _) (blind_pure _))) fun _ _ => rfl⟩

/-- A path that the check of form lets pass is not CTX (30_encoding.md R98). -/
theorem ne_ctx_of_check {path : Path} (h : (!path.rawOrEp) = false) : path ≠ .ctx :=
  ne_ctx_of_rawOrEp (by simpa using h)

/-- Every command that uses no context: its checks, then its procedures, all of them blind. -/
theorem contextFree_runsBlind {i : Instr} (s : State) (h : contextFree i = true) : RunsBlind i s := by
  cases i with
  | nop => exact ⟨pure 0, rfl, fun _ => rfl, blind_pure _⟩
  | sysRdreg reg =>
    refine ⟨_, rfl, fun _ => rfl, ?_⟩
    cases regOfNumber reg with
    | none => exact blind_raise _
    | some r => exact blind_readReg r
  | encStart =>
    exact ⟨_, rfl, fun _ => rfl, blind_check fun _ => blind_check fun _ =>
      blind_bind (blind_setEncLow _) fun _ => blind_bind (blind_setEncRange _) fun _ =>
      blind_bind (blind_setEncBitsLeft _) fun _ => blind_bind (blind_setEncNumBuf _) fun _ =>
      blind_bind (blind_setEncBufByte _) fun _ => blind_bind (blind_setEncTrm _) fun _ =>
      blind_bind (blind_setEncState _) fun _ => blind_pure _⟩
  | encBinEp bin =>
    exact ⟨_, rfl, fun _ => rfl, blind_bind blind_requireEncoding fun _ => blind_bind (blind_encEp bin) fun _ =>
      blind_pure _⟩
  | encBinTrm bin => exact encBinTrm_runsBlind bin s
  | encFinish => exact encFinish_runsBlind s
  | decStart =>
    exact ⟨_, rfl, fun _ => rfl, blind_check fun _ => blind_check fun _ => blind_check fun _ =>
      blind_bind (blind_setDecRange _) fun _ => blind_bind (blind_setDecBitsNeeded _) fun _ =>
      blind_bind (blind_getBits 8) fun _ => blind_bind (blind_getBits 8) fun _ => blind_check fun _ =>
      blind_bind (blind_setDecValue _) fun _ => blind_bind (blind_setDecState _) fun _ => blind_pure _⟩
  | decBinEp =>
    exact ⟨_, rfl, fun _ => rfl, blind_bind blind_requireDecoding fun _ => blind_bind blind_decEp fun _ =>
      blind_pure _⟩
  | decBinTrm => exact decBinTrm_runsBlind s
  | bbInit count =>
    exact ⟨_, rfl, fun _ => rfl, blind_check fun _ => blind_bind (blind_setCount _) fun _ =>
      blind_bind (blind_setBbCap _) fun _ => blind_bind blind_emptyBuffer fun _ => blind_pure _⟩
  | bbWrite n bits =>
    exact ⟨_, rfl, fun _ => rfl, blind_check fun _ => blind_check fun _ => blind_bind (blind_putBits _ _) fun _ =>
      blind_pure _⟩
  | bbRead n =>
    exact ⟨_, rfl, fun _ => rfl, blind_check fun _ => blind_check fun _ => blind_bind (blind_getBits _) fun _ =>
      blind_pure _⟩
  | bbGetWritten => exact ⟨do return (← get).wrPos, rfl, fun _ => rfl, blind_get (fun _ => blind_pure _) fun _ _ => rfl⟩
  | bbResetBits =>
    exact ⟨_, rfl, fun _ => rfl, blind_check fun _ => blind_bind blind_emptyBuffer fun _ => blind_pure _⟩
  | bbRdSeek pos =>
    exact ⟨_, rfl, fun _ => rfl, blind_check fun _ => blind_check fun _ => blind_bind (blind_setRdPos _) fun _ =>
      blind_pure _⟩
  | bbGetByte index =>
    exact ⟨_, rfl, fun _ => rfl, blind_check fun _ => blind_check fun _ => blind_bind (blind_memRead _ _) fun _ =>
      blind_pure _⟩
  | bbSubOpen nbytes =>
    exact ⟨_, rfl, fun _ => rfl, blind_check fun _ => blind_check fun _ => blind_check fun _ =>
      blind_bind (blind_setSubEnd _) fun _ => blind_bind (blind_setSubActive _) fun _ => blind_pure _⟩
  | bbSubClose =>
    exact ⟨_, rfl, fun _ => rfl, blind_check fun _ => blind_bind (blind_setRdPos _) fun _ =>
      blind_bind (blind_setSubActive _) fun _ => blind_pure _⟩
  | seWrFlc n path value =>
    exact ⟨_, rfl, fun _ => rfl, blind_check fun hp => blind_check fun _ => blind_bind (blind_checkWr path) fun _ =>
      blind_bind (blind_wrFlc (ne_ctx_of_check hp) _ _) fun _ => blind_pure _⟩
  | seWrUvlc path value =>
    exact ⟨_, rfl, fun _ => rfl, blind_check fun hp => blind_check fun _ => blind_bind (blind_checkWr path) fun _ =>
      blind_bind (blind_wrUvlc (ne_ctx_of_check hp) _) fun _ => blind_pure _⟩
  | seWrSvlc path value =>
    exact ⟨_, rfl, fun _ => rfl, blind_check fun hp => blind_check fun _ => blind_bind (blind_checkWr path) fun _ =>
      blind_bind (blind_wrUvlc (ne_ctx_of_check hp) _) fun _ => blind_pure _⟩
  | seWrTrail =>
    exact ⟨_, rfl, fun _ => rfl, blind_bind (blind_checkWr .raw) fun _ => blind_bind (blind_putBits 1 1) fun _ =>
      blind_bind blind_padZeros fun _ => blind_pure _⟩
  | seWrFf8 value =>
    exact ⟨_, rfl, fun _ => rfl, blind_bind (blind_checkWr .raw) fun _ =>
      blind_bind (blind_repeat (blind_putBits _ _) _) fun _ => blind_bind (blind_putBits _ _) fun _ => blind_pure _⟩
  | seRdFlc n path =>
    exact ⟨_, rfl, fun _ => rfl, blind_check fun hp => blind_check fun _ => blind_bind (blind_checkRd path) fun _ =>
      blind_bind (blind_rdFlc (ne_ctx_of_check hp) _ _) fun _ => blind_pure _⟩
  | seRdUvlc path =>
    exact ⟨_, rfl, fun _ => rfl, blind_check fun hp => blind_bind (blind_checkRd path) fun _ =>
      blind_bind (blind_rdUvlc (ne_ctx_of_check hp)) fun _ => blind_pure _⟩
  | seRdSvlc path =>
    exact ⟨_, rfl, fun _ => rfl, blind_check fun hp => blind_bind (blind_checkRd path) fun _ =>
      blind_bind (blind_rdUvlc (ne_ctx_of_check hp)) fun _ => blind_pure _⟩
  | seRdTrail =>
    exact ⟨_, rfl, fun _ => rfl, blind_bind (blind_checkRd .raw) fun _ => blind_bind (blind_getBits 1) fun _ =>
      blind_check fun _ => blind_get (fun _ => blind_bind (blind_rdZeros _) fun _ => blind_pure _) fun _ _ => rfl⟩
  | seRdFf8 =>
    exact ⟨_, rfl, fun _ => rfl, blind_bind (blind_checkRd .raw) fun _ => blind_bind (blind_rdFf8 _ _) fun _ =>
      blind_pure _⟩
  | _ => cases h

/-- The truncated unary codes use no context on the EP path (44_syntax.md R227, R237). -/
theorem seWrTu_ep_runsBlind (ctx max : Byte) (spanm1 : BitVec 6) (sym : Byte) (s : State) :
    RunsBlind (.seWrTu ctx max .ep spanm1 sym) s := by
  have hp : Path.ep ≠ .ctx := by decide
  exact ⟨_, rfl, fun _ => rfl, blind_check fun _ => blind_check fun _ => blind_check fun _ =>
    blind_bind (blind_checkWr .ep) fun _ => blind_bind (blind_wrOnes hp _ _ _ _) fun _ =>
    blind_ite (blind_bind (blind_emit hp _ _) fun _ => blind_pure _) (blind_pure _)⟩

theorem seRdTu_ep_runsBlind (ctx max : Byte) (spanm1 : BitVec 6) (s : State) :
    RunsBlind (.seRdTu ctx max .ep spanm1) s := by
  have hp : Path.ep ≠ .ctx := by decide
  exact ⟨_, rfl, fun _ => rfl, blind_check fun _ => blind_check fun _ => blind_bind (blind_checkRd .ep) fun _ =>
    blind_bind (blind_rdOnes hp _ _ _ _) fun _ => blind_pure _⟩

/-- Blind pseudocode that completes leaves the cells it found: run with those very cells it ends with them. -/
theorem Blind.ctx_of_ok {α : Type} {m : Cmd α} {s t : State} {a : α} (h : Blind m) (e : m s = .ok a t) :
    t.ctx = s.ctx := by
  have hs := h s s.ctx
  rw [show s.withCells s.ctx = s from rfl, e] at hs
  injection hs with _ ht
  exact (congrArg State.ctx ht :)

/-- A command that completes has not touched the fault registers (60_exceptions.md R281), SYS_RESET apart. -/
theorem fault_of_respond {i : Instr} {s u : State} {d : Word} (hreset : i ≠ .sysReset)
    (e : exec i s = .next (u.respond d)) : u.fault = s.fault := by
  obtain ⟨v, ⟨-, hfault, -⟩, ⟨d', hd⟩ | ⟨c, hc⟩⟩ := exec_cases hreset e
  · exact (congrArg State.fault hd).trans hfault
  · have hrsp := congrArg State.rsp hc
    cases hrsp

/-- The commands of the statement: those that use no context, and the truncated unary codes on the EP path. -/
def usesNoContext (i : Instr) : Prop :=
  contextFree i = true ∨ (∃ ctx max spanm1 sym, i = .seWrTu ctx max .ep spanm1 sym) ∨
    ∃ ctx max spanm1, i = .seRdTu ctx max .ep spanm1

theorem usesNoContext.runsBlind {i : Instr} (s : State) (h : usesNoContext i) : RunsBlind i s := by
  rcases h with h | ⟨ctx, max, spanm1, sym, rfl⟩ | ⟨ctx, max, spanm1, rfl⟩
  · exact contextFree_runsBlind s h
  · exact seWrTu_ep_runsBlind ctx max spanm1 sym s
  · exact seRdTu_ep_runsBlind ctx max spanm1 s

theorem usesNoContext.ne_sysReset {i : Instr} (h : usesNoContext i) : i ≠ .sysReset := by
  rintro rfl
  rcases h with h | ⟨_, _, _, _, h⟩ | ⟨_, _, _, h⟩ <;> cases h

/-- Settles O20: the pseudocode is the same whatever the cells (`RunsBlind`), it ends with the cells it found, and
taking a fault overwrites them with values that do not depend on them. -/
theorem contextIsolation : Obligations.ContextIsolation := by
  intro s t i cells hi hf e
  obtain ⟨m, hm, hcells, hblind⟩ := usesNoContext.runsBlind s hi
  have hother := hblind s cells
  rcases answer_cases (hm.symm.trans e) with ⟨d, u, hu, rfl⟩ | ⟨c, u, hu, rfl⟩ <;> rw [hu] at hother
  · have hfault : (u.respond d).fault = none := (fault_of_respond (usesNoContext.ne_sysReset hi) e).trans hf
    rw [if_pos hfault]
    have hctx : u.ctx = s.ctx := hblind.ctx_of_ok hu
    exact ⟨hctx, (hcells cells).trans (answer_ok hother)⟩
  · rw [if_neg (takeFault_fault_ne_none u i.op c)]
    exact (hcells cells).trans (answer_raise (t := u.withCells cells) hother)

end Sys2Proof.Machine
end

section
/-! SUPPORT. The store: how its words lie over its bytes and bits (20_memory.md R60, R61). -/

namespace Sys2Proof.Machine

namespace Memory

/-- Bit `j` of byte `i` of a word, the first byte most significant, is bit `j` of that byte of the store (R61). -/
theorem getLsbD_word (m : Memory) (k i j : Nat) (hi : i < 4) (hj : j < 8) :
    (m.word k).getLsbD (24 - 8 * i + j) = (m.read (4 * k + i)).getLsbD j := by
  unfold word
  obtain rfl | rfl | rfl | rfl : i = 0 ∨ i = 1 ∨ i = 2 ∨ i = 3 := by omega
  · rw [BitVec.getLsbD_append, if_neg (by omega), BitVec.getLsbD_append, if_neg (by omega), BitVec.getLsbD_append,
      if_neg (by omega)]
    congr 1
    omega
  · rw [BitVec.getLsbD_append, if_neg (by omega), BitVec.getLsbD_append, if_neg (by omega), BitVec.getLsbD_append,
      if_pos (by omega)]
    congr 1
    omega
  · rw [BitVec.getLsbD_append, if_neg (by omega), BitVec.getLsbD_append, if_pos (by omega)]
    congr 1
    omega
  · rw [BitVec.getLsbD_append, if_pos (by omega)]
    congr 1
    omega

/-- A bit in bitstream order within its byte (20_memory.md R61). -/
theorem bit_of_byte (m : Memory) (k j : Nat) (hj : j < 8) : m.bit (8 * k + j) = (m.read k).getLsbD (7 - j) := by
  unfold bit
  rw [show (8 * k + j) / 8 = k by omega, show (8 * k + j) % 8 = j by omega]

end Memory

/-- Settles O33: a bit is a bit of its byte (`Memory.bit_of_byte`), and a byte is a quarter of its word
(`Memory.getLsbD_word`). -/
theorem storeOrder : Obligations.StoreOrder := by
  intro m
  refine ⟨fun p => ?_, fun k => ⟨?_, m.bit_of_byte k⟩⟩
  · have hbit := m.bit_of_byte (p / 8) (p % 8) (by omega)
    have hword := m.getLsbD_word (p / 32) (p / 8 % 4) (7 - p % 8) (by omega) (by omega)
    rw [Nat.div_add_mod] at hbit
    rw [show 24 - 8 * (p / 8 % 4) + (7 - p % 8) = 31 - p % 32 by omega,
      show 4 * (p / 32) + p / 8 % 4 = p / 8 by omega] at hword
    exact hbit.trans hword.symm
  · apply BitVec.eq_of_getLsbD_eq
    intro j hj
    have hword := m.getLsbD_word (k / 4) (k % 4) j (by omega) hj
    rw [Nat.div_add_mod] at hword
    rw [BitVec.getLsbD_extractLsb', hword, decide_eq_true hj, Bool.true_and]

end Sys2Proof.Machine
end

section
/-! SUPPORT. Writes are append-only (20_memory.md R65): `Appends`, for pseudocode that leaves alone what was written. Only
PutBits writes the store, and it does so from the write cursor on (R66). -/

namespace Sys2Proof.Machine

/-- What is written in `o` is written in `t` too, and the store is in canonical form. -/
structure State.Extends (o t : State) : Prop where
  wf : t.store.wf = true
  pos : o.wrPos.toNat ≤ t.wrPos.toNat
  below : ∀ p < o.wrPos.toNat, t.store.bit p = o.store.bit p

theorem State.Extends.refl {s : State} (h : s.store.wf = true) : s.Extends s := ⟨h, le_rfl, fun _ _ => rfl⟩

/-- A change outside the store and BB_WR_POS. -/
theorem State.Extends.congr {o s t : State} (h : o.Extends s) (hstore : t.store = s.store) (hpos : t.wrPos = s.wrPos) :
    o.Extends t :=
  ⟨hstore ▸ h.wf, hpos ▸ h.pos, hstore ▸ h.below⟩

/-- The pseudocode, where it completes, leaves alone what is written in `o`. -/
@[irreducible] def Appends (o : State) {α : Type} (m : Cmd α) : Prop :=
  ∀ s a t, o.Extends s → m s = .ok a t → o.Extends t

variable {o : State}

section

variable {α β : Type}

theorem Appends.of_ok {m : Cmd α} {s t : State} {a : α} (h : Appends o m) (hs : o.Extends s) (e : m s = .ok a t) :
    o.Extends t := by
  unfold Appends at h
  exact h s a t hs e

theorem appends_pure {a : α} : Appends o (pure a : Cmd α) := by
  unfold Appends
  intro s b t hs e
  cases e
  exact hs

theorem appends_raise {c : Cause} : Appends o (raise c : Cmd α) := by
  unfold Appends
  intro s b t _ e
  cases e

theorem appends_halt {f : Fault} : Appends o (halt f : Cmd α) := by
  unfold Appends
  intro s b t _ e
  cases e

theorem appends_get : Appends o (get : Cmd State) := by
  unfold Appends
  intro s b t hs e
  cases e
  exact hs

theorem Appends.bind {m : Cmd α} {f : α → Cmd β} (h : Appends o m) (g : ∀ a, Appends o (f a)) :
    Appends o (m >>= f) := by
  unfold Appends
  intro s b u hs e
  rw [bind_run] at e
  split at e
  · next hm => exact (g _).of_ok (h.of_ok hs hm) e
  · cases e

/-- The state read is one in which all is still written that was. -/
theorem appends_get_bind {f : State → Cmd β} (g : ∀ s, o.Extends s → Appends o (f s)) : Appends o (get >>= f) := by
  unfold Appends
  intro s b u hs e
  exact (g s hs).of_ok hs e

theorem Appends.map {m : Cmd α} {f : α → β} (h : Appends o m) : Appends o (f <$> m) := by
  rw [map_eq_pure_bind]
  exact h.bind fun _ => appends_pure

theorem appends_ite {p : Prop} [Decidable p] {m n : Cmd α} (h : Appends o m) (g : Appends o n) :
    Appends o (if p then m else n) := by split <;> assumption

theorem appends_raiseIf {b : Bool} {c : Cause} : Appends o (raiseIf b c) := appends_ite appends_raise appends_pure

theorem appends_assign {fits : Bool} {upd : State → State} (h : fits = true → ∀ s, o.Extends s → o.Extends (upd s)) :
    Appends o (assign fits upd) := by
  unfold Appends
  intro s a t hs e
  cases fits with
  | false => cases e
  | true =>
    cases e
    exact h rfl s hs

theorem appends_modify {upd : State → State} (h : ∀ s, o.Extends s → o.Extends (upd s)) :
    Appends o (modify upd : Cmd Unit) := by
  unfold Appends
  intro s a t hs e
  cases e
  exact h s hs

theorem appends_assign_elsewhere {fits : Bool} {upd : State → State}
    (h : ∀ s, (upd s).store = s.store ∧ (upd s).wrPos = s.wrPos) : Appends o (assign fits upd) :=
  appends_assign fun _ s hs => hs.congr (h s).1 (h s).2

theorem appends_modify_elsewhere {upd : State → State}
    (h : ∀ s, (upd s).store = s.store ∧ (upd s).wrPos = s.wrPos) : Appends o (modify upd : Cmd Unit) :=
  appends_modify fun s hs => hs.congr (h s).1 (h s).2

theorem Appends.repeat {body : Cmd Unit} {n : Nat} (h : Appends o body) : Appends o (repeatCmd body n) := by
  induction n with
  | zero => exact appends_pure
  | succ n ih => exact h.bind fun _ => ih

end

/-! The primitives (00_scope.md R10, 20_memory.md R63 to R68). -/

section

variable {e : Int}

theorem appends_setEncLow : Appends o (setEncLow e) := appends_assign_elsewhere fun _ => ⟨rfl, rfl⟩
theorem appends_setEncRange : Appends o (setEncRange e) := appends_assign_elsewhere fun _ => ⟨rfl, rfl⟩
theorem appends_setEncBitsLeft : Appends o (setEncBitsLeft e) := appends_assign_elsewhere fun _ => ⟨rfl, rfl⟩
theorem appends_setEncBufByte : Appends o (setEncBufByte e) := appends_assign_elsewhere fun _ => ⟨rfl, rfl⟩
theorem appends_setEncNumBuf : Appends o (setEncNumBuf e) := appends_assign_elsewhere fun _ => ⟨rfl, rfl⟩
theorem appends_setDecValue : Appends o (setDecValue e) := appends_assign_elsewhere fun _ => ⟨rfl, rfl⟩
theorem appends_setDecRange : Appends o (setDecRange e) := appends_assign_elsewhere fun _ => ⟨rfl, rfl⟩
theorem appends_setDecBitsNeeded : Appends o (setDecBitsNeeded e) := appends_assign_elsewhere fun _ => ⟨rfl, rfl⟩
theorem appends_setRdPos : Appends o (setRdPos e) := appends_assign_elsewhere fun _ => ⟨rfl, rfl⟩
theorem appends_setBbCap : Appends o (setBbCap e) := appends_assign_elsewhere fun _ => ⟨rfl, rfl⟩
theorem appends_setSubEnd : Appends o (setSubEnd e) := appends_assign_elsewhere fun _ => ⟨rfl, rfl⟩

end

section

variable {e : Engine} {b : Bool} {i : Nat} {c : CtxCell}

theorem appends_setEncState : Appends o (setEncState e) := appends_modify_elsewhere fun _ => ⟨rfl, rfl⟩
theorem appends_setEncTrm : Appends o (setEncTrm b) := appends_modify_elsewhere fun _ => ⟨rfl, rfl⟩
theorem appends_setDecState : Appends o (setDecState e) := appends_modify_elsewhere fun _ => ⟨rfl, rfl⟩
theorem appends_setSubActive : Appends o (setSubActive b) := appends_modify_elsewhere fun _ => ⟨rfl, rfl⟩
theorem appends_writeCtx : Appends o (writeCtx i c) := appends_modify_elsewhere fun _ => ⟨rfl, rfl⟩

end

theorem appends_readCtx {i : Nat} : Appends o (readCtx i) := by
  unfold Appends readCtx
  intro s c t hs e
  split at e
  · cases e
    exact hs
  · cases e

theorem appends_memRead {addr : Int} {n : Nat} : Appends o (memRead addr n) := by
  unfold Appends memRead
  intro s v t hs e
  split at e
  · cases e
    exact hs
  · cases e

theorem appends_countOf {e : Int} : Appends o (countOf e) := appends_ite appends_pure appends_halt

theorem appends_growFor {need : Nat} : Appends o (growFor need) := by
  refine appends_get.bind fun s => ?_
  cases grownCap need s.cfg.capMax 28 s.bbCap.toNat with
  | none => exact appends_raise
  | some cap => exact appends_setBbCap

/-- BB_WR_POS may move to any position at or above what is written. -/
theorem appends_setWrPos {e : Int} (h : o.wrPos.toNat ≤ e) : Appends o (setWrPos e) := by
  refine appends_assign fun hfit s hs => ⟨hs.wf, ?_, hs.below⟩
  obtain ⟨h0, h1⟩ := fitsU_iff.1 hfit
  have hval : (BitVec.ofInt 32 e).toNat = e.toNat := toNat_ofInt_of_fits h0 h1
  change o.wrPos.toNat ≤ (BitVec.ofInt 32 e).toNat
  omega

/-- MemWrite beyond what is written (20_memory.md R64). -/
theorem appends_writeBits {addr n v : Nat} (h : o.wrPos.toNat ≤ addr) :
    Appends o (modify fun t => { t with store := t.store.writeBits addr n v } : Cmd Unit) := by
  refine appends_modify fun s hs => ⟨Memory.wf_writeBits _ _ _ hs.wf, hs.pos, fun p hp => ?_⟩
  rw [Memory.bit_writeBits hs.wf, if_neg (by omega)]
  exact hs.below p hp

/-- PutBits writes from the write cursor on and moves it up (20_memory.md R65, R66). -/
theorem appends_putBits {v n : Nat} : Appends o (putBits v n) := by
  refine appends_get_bind fun s hs => ?_
  have hset : Appends o (setWrPos (s.wrPos.toNat + n)) := appends_setWrPos (by have := hs.pos; omega)
  refine appends_ite (appends_halt.bind fun _ => ?_) ?_ <;>
    exact appends_raiseIf.bind fun _ => appends_ite
      (appends_growFor.bind fun _ => (appends_writeBits hs.pos).bind fun _ => hset) hset

theorem appends_getBits {n : Nat} : Appends o (getBits n) :=
  appends_get.bind fun _ => appends_raiseIf.bind fun _ => appends_raiseIf.bind fun _ => appends_memRead.bind fun _ =>
    appends_setRdPos.bind fun _ => appends_pure

/-! The procedures of the engines (40_context.md, 41_encoder.md, 42_decoder.md). -/

theorem appends_updateMps {i : Nat} : Appends o (updateMps i) :=
  appends_readCtx.bind fun _ => appends_get.bind fun _ => appends_writeCtx

theorem appends_updateLps {i : Nat} : Appends o (updateLps i) :=
  appends_readCtx.bind fun _ => appends_get.bind fun _ => appends_writeCtx

theorem appends_releaseRun {v : Nat} : Appends o (releaseRun v) :=
  appends_get.bind fun _ => Appends.repeat <| appends_putBits.bind fun _ => appends_get.bind fun _ => appends_setEncNumBuf

theorem appends_testWriteOut : Appends o testWriteOut := by
  have hout : Appends o writeOut :=
    appends_get.bind fun _ => appends_setEncBitsLeft.bind fun _ => appends_setEncLow.bind fun _ => appends_ite
      (appends_raiseIf.bind fun _ => appends_setEncNumBuf)
      (appends_ite
        (appends_putBits.bind fun _ => appends_setEncBufByte.bind fun _ => appends_releaseRun)
        (appends_setEncNumBuf.bind fun _ => appends_setEncBufByte))
  exact appends_get.bind fun _ => appends_ite hout appends_pure

theorem appends_encBin {i : Nat} {b : Bool} : Appends o (encBin i b) :=
  appends_readCtx.bind fun _ => appends_get.bind fun _ => appends_setEncRange.bind fun _ =>
    appends_get.bind fun _ => appends_ite
      (appends_setEncLow.bind fun _ => appends_setEncRange.bind fun _ => appends_updateLps.bind fun _ =>
        appends_setEncBitsLeft.bind fun _ => appends_testWriteOut)
      (appends_updateMps.bind fun _ => appends_ite
        (appends_setEncLow.bind fun _ => appends_setEncRange.bind fun _ => appends_setEncBitsLeft.bind fun _ =>
          appends_testWriteOut)
        appends_pure)

theorem appends_encEp {b : Bool} : Appends o (encEp b) := by
  refine appends_get.bind fun _ => appends_setEncLow.bind fun _ => appends_ite
    (appends_get.bind fun _ => appends_setEncLow.bind fun _ => ?_) ?_ <;>
    exact appends_setEncBitsLeft.bind fun _ => appends_testWriteOut

theorem appends_requireEncoding : Appends o requireEncoding := appends_get.bind fun _ => appends_raiseIf

theorem appends_padZeros : Appends o padZeros := appends_get.bind fun _ => appends_putBits.repeat

theorem appends_decDouble {scaled : Nat} : Appends o (decDouble scaled) :=
  appends_get.bind fun _ => appends_setDecRange.bind fun _ => appends_setDecValue.bind fun _ =>
    appends_setDecBitsNeeded.bind fun _ => appends_get.bind fun _ => appends_ite
      (appends_setDecBitsNeeded.bind fun _ => appends_getBits.bind fun _ => appends_get.bind fun _ => appends_setDecValue)
      appends_pure

theorem appends_decBin {i : Nat} : Appends o (decBin i) :=
  appends_readCtx.bind fun _ => appends_get.bind fun _ => appends_setDecRange.bind fun _ =>
    appends_get.bind fun _ => appends_ite
      (appends_updateMps.bind fun _ => appends_ite (appends_decDouble.bind fun _ => appends_pure) appends_pure)
      (appends_setDecValue.bind fun _ => appends_setDecRange.bind fun _ => appends_updateLps.bind fun _ =>
        appends_setDecBitsNeeded.bind fun _ => appends_get.bind fun _ => appends_ite
          (appends_getBits.bind fun _ => appends_setDecValue.bind fun _ => appends_setDecBitsNeeded.bind fun _ =>
            appends_pure)
          appends_pure)

theorem appends_decEp : Appends o decEp := by
  refine appends_get.bind fun _ => appends_setDecValue.bind fun _ => appends_setDecBitsNeeded.bind fun _ =>
    appends_get.bind fun _ => appends_ite
      (appends_setDecBitsNeeded.bind fun _ => appends_getBits.bind fun _ => appends_get.bind fun _ =>
        appends_setDecValue.bind fun _ => ?_) ?_ <;>
    exact appends_get.bind fun _ => appends_ite (appends_setDecValue.bind fun _ => appends_pure) appends_pure

theorem appends_requireDecoding : Appends o requireDecoding := appends_get.bind fun _ => appends_raiseIf

/-! The procedures of the syntax layer (44_syntax.md R221, R222). -/

section

variable {path : Path}

theorem appends_emit {b : Bool} {i : Nat} : Appends o (emit path b i) := by
  cases path with
  | raw => exact appends_putBits
  | ep => exact appends_encEp
  | ctx => exact appends_encBin

theorem appends_take {i : Nat} : Appends o (take path i) := by
  cases path with
  | raw => exact appends_getBits.map
  | ep => exact appends_decEp
  | ctx => exact appends_decBin

theorem appends_checkWr : Appends o (checkWr path) := by
  cases path with
  | raw => exact appends_get.bind fun _ => appends_raiseIf
  | ep => exact appends_requireEncoding
  | ctx => exact appends_requireEncoding

theorem appends_checkRd : Appends o (checkRd path) := by
  cases path with
  | raw => exact appends_get.bind fun _ => appends_raiseIf
  | ep => exact appends_requireDecoding
  | ctx => exact appends_requireDecoding

theorem appends_wrFlc {v n : Nat} : Appends o (wrFlc path v n) := by
  induction n with
  | zero => exact appends_pure
  | succ n ih => exact appends_emit.bind fun _ => ih

theorem appends_wrUvlc {v : Nat} : Appends o (wrUvlc path v) :=
  appends_emit.repeat.bind fun _ => appends_emit.bind fun _ => appends_wrFlc

theorem appends_wrOnes {ctx : Byte} {spanm1 : BitVec 6} {n k : Nat} : Appends o (wrOnes path ctx spanm1 n k) := by
  induction n generalizing k with
  | zero => exact appends_pure
  | succ n ih => exact appends_emit.bind fun _ => ih

theorem appends_rdFlc {n v : Nat} : Appends o (rdFlc path n v) := by
  induction n generalizing v with
  | zero => exact appends_pure
  | succ n ih => exact appends_take.bind fun _ => ih

theorem appends_rdPrefix {n l : Nat} : Appends o (rdPrefix path n l) := by
  induction n generalizing l with
  | zero => exact appends_raise
  | succ n ih => exact appends_take.bind fun _ => appends_ite appends_pure ih

theorem appends_rdUvlc : Appends o (rdUvlc path) :=
  appends_rdPrefix.bind fun _ => appends_rdFlc.bind fun _ => appends_pure

theorem appends_rdOnes {ctx : Byte} {spanm1 : BitVec 6} {n k : Nat} : Appends o (rdOnes path ctx spanm1 n k) := by
  induction n generalizing k with
  | zero => exact appends_pure
  | succ n ih => exact appends_take.bind fun _ => appends_ite ih appends_pure

end

theorem appends_rdZeros {n : Nat} : Appends o (rdZeros n) := by
  induction n with
  | zero => exact appends_pure
  | succ n ih => exact appends_getBits.bind fun _ => appends_raiseIf.bind fun _ => ih

theorem appends_rdFf8 {n v : Nat} : Appends o (rdFf8 n v) := by
  induction n generalizing v with
  | zero => exact appends_raise
  | succ n ih => exact appends_getBits.bind fun _ => appends_raiseIf.bind fun _ => appends_ite appends_pure ih

/-! The commands. -/

/-- The command runs pseudocode that leaves alone what is written in `o`. -/
def RunsAppending (o : State) (i : Instr) (s : State) : Prop := ∃ m, exec i s = answer i.op m s ∧ Appends o m

theorem encBinTrm_runsAppending (bin : Bool) (s : State) : RunsAppending o (.encBinTrm bin) s :=
  ⟨_, rfl, appends_requireEncoding.bind fun _ => appends_setEncRange.bind fun _ => appends_get.bind fun _ => appends_ite
    (appends_setEncLow.bind fun _ => appends_setEncRange.bind fun _ => appends_setEncBitsLeft.bind fun _ =>
      appends_setEncTrm.bind fun _ => appends_testWriteOut.bind fun _ => appends_pure)
    (appends_ite
      (appends_setEncLow.bind fun _ => appends_setEncRange.bind fun _ => appends_setEncBitsLeft.bind fun _ =>
        appends_testWriteOut.bind fun _ => appends_pure)
      appends_pure)⟩

/-- ENC_FINISH: the held bytes with their carry or without, then the bits left in ENC_LOW (41_encoder.md R147). -/
theorem encFinish_runsAppending (s : State) : RunsAppending o .encFinish s := by
  refine ⟨_, rfl, appends_raiseIf.bind fun _ => appends_ite
    (appends_putBits.bind fun _ => appends_releaseRun.bind fun _ => appends_setEncLow.bind fun _ => ?_)
    (appends_ite
      (appends_putBits.bind fun _ => appends_releaseRun.bind fun _ => ?_)
      (appends_releaseRun.bind fun _ => ?_))⟩ <;>
    exact appends_countOf.bind fun _ => appends_get.bind fun _ => appends_putBits.bind fun _ =>
      appends_putBits.bind fun _ => appends_padZeros.bind fun _ => appends_setEncNumBuf.bind fun _ =>
      appends_setEncTrm.bind fun _ => appends_setEncState.bind fun _ => appends_pure

theorem decBinTrm_runsAppending (s : State) : RunsAppending o .decBinTrm s :=
  ⟨_, rfl, appends_requireDecoding.bind fun _ => appends_setDecRange.bind fun _ => appends_get.bind fun _ => appends_ite
    (appends_memRead.bind fun _ => appends_countOf.bind fun _ => appends_raiseIf.bind fun _ =>
      appends_setDecState.bind fun _ => appends_pure)
    (appends_ite (appends_decDouble.bind fun _ => appends_pure) appends_pure)⟩

/-- Every command but those that empty the buffer: its checks, then its procedures, all of them append-only. -/
theorem exec_runsAppending {i : Instr} (s : State) (h : empties i = false) : RunsAppending o i s := by
  cases i with
  | sysReset => cases h
  | bbInit count => cases h
  | bbResetBits => cases h
  | nop => exact ⟨pure 0, rfl, appends_pure⟩
  | sysRdreg reg =>
    refine ⟨_, rfl, ?_⟩
    cases regOfNumber reg with
    | none => exact appends_raise
    | some r => exact appends_get.bind fun _ => appends_pure
  | ctxInit ctx qp slope offset =>
    exact ⟨_, rfl, appends_raiseIf.bind fun _ => appends_raiseIf.bind fun _ => appends_writeCtx.bind fun _ =>
      appends_pure⟩
  | ctxSet ctx state mps =>
    exact ⟨_, rfl, appends_raiseIf.bind fun _ => appends_writeCtx.bind fun _ => appends_pure⟩
  | ctxGet ctx => exact ⟨_, rfl, appends_raiseIf.bind fun _ => appends_readCtx.bind fun _ => appends_pure⟩
  | encStart =>
    exact ⟨_, rfl, appends_raiseIf.bind fun _ => appends_raiseIf.bind fun _ => appends_setEncLow.bind fun _ =>
      appends_setEncRange.bind fun _ => appends_setEncBitsLeft.bind fun _ => appends_setEncNumBuf.bind fun _ =>
      appends_setEncBufByte.bind fun _ => appends_setEncTrm.bind fun _ => appends_setEncState.bind fun _ => appends_pure⟩
  | encBin ctx bin =>
    exact ⟨_, rfl, appends_raiseIf.bind fun _ => appends_requireEncoding.bind fun _ => appends_encBin.bind fun _ =>
      appends_pure⟩
  | encBinEp bin =>
    exact ⟨_, rfl, appends_requireEncoding.bind fun _ => appends_encEp.bind fun _ => appends_pure⟩
  | encBinTrm bin => exact encBinTrm_runsAppending bin s
  | encFinish => exact encFinish_runsAppending s
  | decStart =>
    exact ⟨_, rfl, appends_raiseIf.bind fun _ => appends_raiseIf.bind fun _ => appends_raiseIf.bind fun _ =>
      appends_setDecRange.bind fun _ => appends_setDecBitsNeeded.bind fun _ => appends_getBits.bind fun _ =>
      appends_getBits.bind fun _ => appends_raiseIf.bind fun _ => appends_setDecValue.bind fun _ =>
      appends_setDecState.bind fun _ => appends_pure⟩
  | decBin ctx =>
    exact ⟨_, rfl, appends_raiseIf.bind fun _ => appends_requireDecoding.bind fun _ => appends_decBin.bind fun _ =>
      appends_pure⟩
  | decBinEp => exact ⟨_, rfl, appends_requireDecoding.bind fun _ => appends_decEp.bind fun _ => appends_pure⟩
  | decBinTrm => exact decBinTrm_runsAppending s
  | bbWrite n bits =>
    exact ⟨_, rfl, appends_raiseIf.bind fun _ => appends_raiseIf.bind fun _ => appends_putBits.bind fun _ => appends_pure⟩
  | bbRead n =>
    exact ⟨_, rfl, appends_raiseIf.bind fun _ => appends_raiseIf.bind fun _ => appends_getBits.bind fun _ => appends_pure⟩
  | bbGetWritten => exact ⟨do return (← get).wrPos, rfl, appends_get.bind fun _ => appends_pure⟩
  | bbRdSeek pos =>
    exact ⟨_, rfl, appends_raiseIf.bind fun _ => appends_raiseIf.bind fun _ => appends_setRdPos.bind fun _ =>
      appends_pure⟩
  | bbGetByte index =>
    exact ⟨_, rfl, appends_raiseIf.bind fun _ => appends_raiseIf.bind fun _ => appends_memRead.bind fun _ => appends_pure⟩
  | bbSubOpen nbytes =>
    exact ⟨_, rfl, appends_raiseIf.bind fun _ => appends_raiseIf.bind fun _ => appends_raiseIf.bind fun _ =>
      appends_setSubEnd.bind fun _ => appends_setSubActive.bind fun _ => appends_pure⟩
  | bbSubClose =>
    exact ⟨_, rfl, appends_raiseIf.bind fun _ => appends_setRdPos.bind fun _ => appends_setSubActive.bind fun _ =>
      appends_pure⟩
  | seWrFlc n path value =>
    exact ⟨_, rfl, appends_raiseIf.bind fun _ => appends_raiseIf.bind fun _ => appends_checkWr.bind fun _ =>
      appends_wrFlc.bind fun _ => appends_pure⟩
  | seWrUvlc path value =>
    exact ⟨_, rfl, appends_raiseIf.bind fun _ => appends_raiseIf.bind fun _ => appends_checkWr.bind fun _ =>
      appends_wrUvlc.bind fun _ => appends_pure⟩
  | seWrSvlc path value =>
    exact ⟨_, rfl, appends_raiseIf.bind fun _ => appends_raiseIf.bind fun _ => appends_checkWr.bind fun _ =>
      appends_wrUvlc.bind fun _ => appends_pure⟩
  | seWrTu ctx max path spanm1 sym =>
    exact ⟨_, rfl, appends_raiseIf.bind fun _ => appends_raiseIf.bind fun _ => appends_raiseIf.bind fun _ =>
      appends_checkWr.bind fun _ => appends_wrOnes.bind fun _ =>
      appends_ite (appends_emit.bind fun _ => appends_pure) appends_pure⟩
  | seWrTrail =>
    exact ⟨_, rfl, appends_checkWr.bind fun _ => appends_putBits.bind fun _ => appends_padZeros.bind fun _ =>
      appends_pure⟩
  | seWrFf8 value =>
    exact ⟨_, rfl, appends_checkWr.bind fun _ => appends_putBits.repeat.bind fun _ => appends_putBits.bind fun _ =>
      appends_pure⟩
  | seRdFlc n path =>
    exact ⟨_, rfl, appends_raiseIf.bind fun _ => appends_raiseIf.bind fun _ => appends_checkRd.bind fun _ =>
      appends_rdFlc.bind fun _ => appends_pure⟩
  | seRdUvlc path =>
    exact ⟨_, rfl, appends_raiseIf.bind fun _ => appends_checkRd.bind fun _ => appends_rdUvlc.bind fun _ => appends_pure⟩
  | seRdSvlc path =>
    exact ⟨_, rfl, appends_raiseIf.bind fun _ => appends_checkRd.bind fun _ => appends_rdUvlc.bind fun _ => appends_pure⟩
  | seRdTu ctx max path spanm1 =>
    exact ⟨_, rfl, appends_raiseIf.bind fun _ => appends_raiseIf.bind fun _ => appends_checkRd.bind fun _ =>
      appends_rdOnes.bind fun _ => appends_pure⟩
  | seRdTrail =>
    exact ⟨_, rfl, appends_checkRd.bind fun _ => appends_getBits.bind fun _ => appends_raiseIf.bind fun _ =>
      appends_get.bind fun _ => appends_rdZeros.bind fun _ => appends_pure⟩
  | seRdFf8 => exact ⟨_, rfl, appends_checkRd.bind fun _ => appends_rdFf8.bind fun _ => appends_pure⟩

/-- Settles O42: the command runs pseudocode that leaves alone what is written in the state it starts from. -/
theorem appendOnly : Obligations.AppendOnly := by
  intro s t i hlive hempty e hf
  obtain ⟨m, hm, happ⟩ := exec_runsAppending (o := s) s hempty
  rcases answer_cases (hm.symm.trans e) with ⟨d, u, hu, rfl⟩ | ⟨c, u, -, rfl⟩
  · obtain ⟨-, hpos, hbelow⟩ := happ.of_ok (.refl hlive.wf) hu
    exact ⟨hpos, hbelow⟩
  · exact absurd hf (takeFault_fault_ne_none u i.op c)

end Sys2Proof.Machine
end

section
/-! SUPPORT. What decoding takes out of a word is all of it (30_encoding.md R90, R95, R96): the fields make up the word,
and with no bit outside its row's mask each field is the one the encoder gives the command. -/

namespace Sys2Proof

/-- The word is made of its five fields (30_encoding.md R90). -/
theorem Fields.toWord_ofWord (w : CmdWord) : (Fields.ofWord w).toWord = w := by
  simp only [Fields.toWord, Fields.ofWord, BitVec.extractLsb'_append_extractLsb'_eq_extractLsb',
    BitVec.extractLsb'_eq_self]

theorem Fields.ofWord_inj {v w : CmdWord} : ofWord v = ofWord w ↔ v = w :=
  ⟨fun h => by rw [← toWord_ofWord v, h, toWord_ofWord], congrArg ofWord⟩

theorem Fields.ofWord_and (v w : CmdWord) : ofWord (v &&& w) =
    ⟨(ofWord v).op &&& (ofWord w).op, (ofWord v).a &&& (ofWord w).a, (ofWord v).b &&& (ofWord w).b,
      (ofWord v).c &&& (ofWord w).c, (ofWord v).d &&& (ofWord w).d⟩ := by
  simp only [ofWord, BitVec.extractLsb'_and]

/-- A word that has the fields of a command is the command's word. -/
theorem encode_eq_of_fields {i : Instr} {w : CmdWord} (h : i.fields = Fields.ofWord w) : encode i = w := by
  rw [encode, h, Fields.toWord_ofWord]

/-! A field with no bit outside the mask is made of its operands again (30_encoding.md R95, R96). -/

theorem and_eq_self_of_masked {w : Nat} {x m : BitVec w} (h : x &&& ~~~m = 0) : x &&& m = x := by
  ext j hj
  have hbit := congrArg (BitVec.getLsbD · j) h
  simpa [hj] using hbit

theorem eq_of_unused {w : Nat} {x : BitVec w} (h : x &&& ~~~0 = 0) : 0 = x := by
  simpa using and_eq_self_of_masked h

/-- With a mask that has no high bit the field is its low bits. -/
theorem zero_append_low {k n : Nat} {x m : BitVec (k + n)} (hm : m.extractLsb' n k = 0) (h : x &&& ~~~m = 0) :
    (0 : BitVec k) ++ x.extractLsb' 0 n = x := by
  have hhigh : x.extractLsb' n k = 0 := by
    rw [← and_eq_self_of_masked h, BitVec.extractLsb'_and, hm]
    exact BitVec.and_zero
  rw [← hhigh, BitVec.extractLsb'_append_extractLsb']

theorem bin_of_masked {d : Word} (h : d &&& ~~~0x00000001 = 0) : bitField (d.getLsbD 0) = d :=
  BitVec.and_one_eq_setWidth_ofBool_getLsbD.symm.trans (and_eq_self_of_masked h)

theorem count_of_masked {c : Byte} (h : c &&& ~~~0x01 = 0) : (BitVec.ofBool (c.getLsbD 0)).setWidth 8 = c :=
  BitVec.and_one_eq_setWidth_ofBool_getLsbD.symm.trans (and_eq_self_of_masked h)

theorem sym_of_masked {d : Word} (h : d &&& ~~~0x000000FF = 0) : (d.extractLsb' 0 8).setWidth 32 = d :=
  (BitVec.setWidth_eq_append (by decide)).trans (zero_append_low (k := 24) rfl h)

theorem ofBool_getLsbD {w : Nat} (x : BitVec w) (j : Nat) : BitVec.ofBool (x.getLsbD j) = x.extractLsb' j 1 := by
  ext k hk
  obtain rfl : k = 0 := by omega
  simp

theorem cell_of_masked {d : Word} (h : d &&& ~~~0x0000007F = 0) :
    (0 : BitVec 25) ++ (BitVec.ofBool (d.getLsbD 6) ++ d.extractLsb' 0 6) = d := by
  rw [ofBool_getLsbD]
  exact (congrArg ((0 : BitVec 25) ++ ·) (BitVec.extractLsb'_append_extractLsb'_eq_extractLsb' rfl)).trans
    (zero_append_low rfl h)

namespace Fields

variable {f : Fields} {p : Path}

/-- The path field names `p` exactly where it holds its code (30_encoding.md R98). -/
theorem path_eq_some_iff : f.path = some p ↔ f.c.extractLsb' 0 2 = p.code := by
  unfold path
  generalize f.c.extractLsb' 0 2 = x
  revert x
  cases p <;> decide

theorem pathField_of_masked (hp : f.path = some p) (h : f.c &&& ~~~0x03 = 0) : pathField p = f.c := by
  rw [pathField, ← path_eq_some_iff.1 hp]
  exact zero_append_low rfl h

theorem spanm1_append_code (hp : f.path = some p) : f.spanm1 ++ p.code = f.c := by
  rw [spanm1, ← path_eq_some_iff.1 hp]
  exact BitVec.extractLsb'_append_extractLsb'

theorem offset_append_slope : f.offset ++ f.slope = f.d := BitVec.extractLsb'_append_extractLsb'

/-- Fields with no bit set outside the row's mask (30_encoding.md R96). -/
structure Within (f : Fields) (r : Row) : Prop where
  a : f.a &&& ~~~r.useA = 0
  b : f.b &&& ~~~r.useB = 0
  c : f.c &&& ~~~r.useC = 0
  d : f.d &&& ~~~r.useD = 0

theorem reserved_eq_false {r : Row} : r.reserved f = false ↔ f.Within r := by
  simp only [Row.reserved, Bool.or_eq_false_iff, bne_eq_false_iff_eq]
  exact ⟨fun ⟨⟨⟨ha, hb⟩, hc⟩, hd⟩ => ⟨ha, hb, hc, hd⟩, fun h => ⟨⟨⟨h.a, h.b⟩, h.c⟩, h.d⟩⟩

theorem mk_eq {op a b c op' a' b' c' : Byte} {d d' : Word} (hop : op = op') (ha : a = a') (hb : b = b') (hc : c = c')
    (hd : d = d') : Fields.mk op a b c d = ⟨op', a', b', c', d'⟩ := by
  rw [hop, ha, hb, hc, hd]

end Fields

/-- What the row makes of fields that are its own and within its mask has those fields (30_encoding.md R94 to R96). -/
def Row.KeepsFields (r : Row) : Prop :=
  ∀ (f : Fields) (i : Instr), r.op = f.op → f.Within r → r.build f = some i → i.fields = f

section

variable {op useA useB useC : Byte} {useD : Word}

/-- A row without a path: its command has the operands of the fields. -/
theorem keepsFields_of_operands {g : Fields → Instr}
    (h : ∀ f : Fields, f.Within ⟨op, useA, useB, useC, useD, fun f => some (g f)⟩ →
      (g f).fields = ⟨op, f.a, f.b, f.c, f.d⟩) :
    Row.KeepsFields ⟨op, useA, useB, useC, useD, fun f => some (g f)⟩ := by
  rintro f i rfl hf ⟨⟩
  exact h f hf

/-- A row without operands. -/
theorem keepsFields_of_unit {i : Instr} (h : i.fields = ⟨op, 0, 0, 0, 0⟩) :
    Row.KeepsFields ⟨op, 0, 0, 0, 0, fun _ => some i⟩ :=
  keepsFields_of_operands fun _ hf =>
    h.trans (Fields.mk_eq rfl (eq_of_unused hf.a) (eq_of_unused hf.b) (eq_of_unused hf.c) (eq_of_unused hf.d))

/-- A row whose one operand is A. -/
theorem keepsFields_of_a (g : Byte → Instr) (h : ∀ a, (g a).fields = ⟨op, a, 0, 0, 0⟩) :
    Row.KeepsFields ⟨op, useA, 0, 0, 0, fun f => some (g f.a)⟩ :=
  keepsFields_of_operands fun f hf =>
    (h f.a).trans (Fields.mk_eq rfl rfl (eq_of_unused hf.b) (eq_of_unused hf.c) (eq_of_unused hf.d))

/-- A row whose one operand is D. -/
theorem keepsFields_of_d (g : Word → Instr) (h : ∀ d, (g d).fields = ⟨op, 0, 0, 0, d⟩) :
    Row.KeepsFields ⟨op, 0, 0, 0, useD, fun f => some (g f.d)⟩ :=
  keepsFields_of_operands fun f hf =>
    (h f.d).trans (Fields.mk_eq rfl (eq_of_unused hf.a) (eq_of_unused hf.b) (eq_of_unused hf.c) rfl)

/-- A row with a path: its command has the operands of the fields, for the path that they name. -/
theorem keepsFields_of_path {g : Fields → Path → Instr}
    (h : ∀ (f : Fields) (p : Path), f.Within ⟨op, useA, useB, useC, useD, fun f => f.path.map (g f)⟩ →
      f.path = some p → (g f p).fields = ⟨op, f.a, f.b, f.c, f.d⟩) :
    Row.KeepsFields ⟨op, useA, useB, useC, useD, fun f => f.path.map (g f)⟩ := by
  rintro f i rfl hf hi
  obtain ⟨p, hp, rfl⟩ := Option.map_eq_some_iff.1 hi
  exact h f p hf hp

end

theorem systemRows_keepFields : ∀ r ∈ systemRows, r.KeepsFields := by
  simp only [systemRows, List.forall_mem_cons]
  refine ⟨?_, ?_, ?_, List.forall_mem_nil _⟩
  · exact keepsFields_of_unit rfl
  · exact keepsFields_of_unit rfl
  · exact keepsFields_of_a .sysRdreg fun _ => rfl

theorem contextRows_keepFields : ∀ r ∈ contextRows, r.KeepsFields := by
  simp only [contextRows, List.forall_mem_cons]
  refine ⟨?_, ?_, ?_, List.forall_mem_nil _⟩
  · exact keepsFields_of_operands fun _ h => Fields.mk_eq rfl rfl rfl (eq_of_unused h.c) Fields.offset_append_slope
  · exact keepsFields_of_operands fun _ h =>
      Fields.mk_eq rfl rfl (eq_of_unused h.b) (eq_of_unused h.c) (cell_of_masked h.d)
  · exact keepsFields_of_a .ctxGet fun _ => rfl

theorem encoderRows_keepFields : ∀ r ∈ encoderRows, r.KeepsFields := by
  simp only [encoderRows, List.forall_mem_cons]
  refine ⟨?_, ?_, ?_, ?_, ?_, List.forall_mem_nil _⟩
  · exact keepsFields_of_unit rfl
  · exact keepsFields_of_operands fun _ h =>
      Fields.mk_eq rfl rfl (eq_of_unused h.b) (eq_of_unused h.c) (bin_of_masked h.d)
  · exact keepsFields_of_operands fun _ h =>
      Fields.mk_eq rfl (eq_of_unused h.a) (eq_of_unused h.b) (eq_of_unused h.c) (bin_of_masked h.d)
  · exact keepsFields_of_operands fun _ h =>
      Fields.mk_eq rfl (eq_of_unused h.a) (eq_of_unused h.b) (eq_of_unused h.c) (bin_of_masked h.d)
  · exact keepsFields_of_unit rfl

theorem decoderRows_keepFields : ∀ r ∈ decoderRows, r.KeepsFields := by
  simp only [decoderRows, List.forall_mem_cons]
  refine ⟨?_, ?_, ?_, ?_, List.forall_mem_nil _⟩
  · exact keepsFields_of_unit rfl
  · exact keepsFields_of_a .decBin fun _ => rfl
  · exact keepsFields_of_unit rfl
  · exact keepsFields_of_unit rfl

theorem bitBufferRows_keepFields : ∀ r ∈ bitBufferRows, r.KeepsFields := by
  simp only [bitBufferRows, List.forall_mem_cons]
  refine ⟨?_, ?_, ?_, ?_, ?_, ?_, ?_, ?_, ?_, List.forall_mem_nil _⟩
  · exact keepsFields_of_operands fun _ h =>
      Fields.mk_eq rfl (eq_of_unused h.a) (eq_of_unused h.b) (count_of_masked h.c) (eq_of_unused h.d)
  · exact keepsFields_of_operands fun _ h => Fields.mk_eq rfl rfl (eq_of_unused h.b) (eq_of_unused h.c) rfl
  · exact keepsFields_of_a .bbRead fun _ => rfl
  · exact keepsFields_of_unit rfl
  · exact keepsFields_of_unit rfl
  · exact keepsFields_of_d .bbRdSeek fun _ => rfl
  · exact keepsFields_of_d .bbGetByte fun _ => rfl
  · exact keepsFields_of_d .bbSubOpen fun _ => rfl
  · exact keepsFields_of_unit rfl

theorem syntaxWriteRows_keepFields : ∀ r ∈ syntaxWriteRows, r.KeepsFields := by
  simp only [syntaxWriteRows, List.forall_mem_cons]
  refine ⟨?_, ?_, ?_, ?_, ?_, ?_, List.forall_mem_nil _⟩
  · exact keepsFields_of_path fun _ _ h hp =>
      Fields.mk_eq rfl rfl (eq_of_unused h.b) (Fields.pathField_of_masked hp h.c) rfl
  · exact keepsFields_of_path fun _ _ h hp =>
      Fields.mk_eq rfl (eq_of_unused h.a) (eq_of_unused h.b) (Fields.pathField_of_masked hp h.c) rfl
  · exact keepsFields_of_path fun _ _ h hp =>
      Fields.mk_eq rfl (eq_of_unused h.a) (eq_of_unused h.b) (Fields.pathField_of_masked hp h.c) rfl
  · exact keepsFields_of_path fun _ _ h hp =>
      Fields.mk_eq rfl rfl rfl (Fields.spanm1_append_code hp) (sym_of_masked h.d)
  · exact keepsFields_of_unit rfl
  · exact keepsFields_of_d .seWrFf8 fun _ => rfl

theorem syntaxReadRows_keepFields : ∀ r ∈ syntaxReadRows, r.KeepsFields := by
  simp only [syntaxReadRows, List.forall_mem_cons]
  refine ⟨?_, ?_, ?_, ?_, ?_, ?_, List.forall_mem_nil _⟩
  · exact keepsFields_of_path fun _ _ h hp =>
      Fields.mk_eq rfl rfl (eq_of_unused h.b) (Fields.pathField_of_masked hp h.c) (eq_of_unused h.d)
  · exact keepsFields_of_path fun _ _ h hp =>
      Fields.mk_eq rfl (eq_of_unused h.a) (eq_of_unused h.b) (Fields.pathField_of_masked hp h.c) (eq_of_unused h.d)
  · exact keepsFields_of_path fun _ _ h hp =>
      Fields.mk_eq rfl (eq_of_unused h.a) (eq_of_unused h.b) (Fields.pathField_of_masked hp h.c) (eq_of_unused h.d)
  · exact keepsFields_of_path fun _ _ h hp =>
      Fields.mk_eq rfl rfl rfl (Fields.spanm1_append_code hp) (eq_of_unused h.d)
  · exact keepsFields_of_unit rfl
  · exact keepsFields_of_unit rfl

/-- Every row of the opcode map keeps its fields (30_encoding.md R94). -/
theorem opcodeRows_keepFields : ∀ r ∈ opcodeRows, r.KeepsFields := by
  simp only [opcodeRows, List.forall_mem_append]
  exact ⟨⟨⟨⟨⟨⟨systemRows_keepFields, contextRows_keepFields⟩, encoderRows_keepFields⟩, decoderRows_keepFields⟩,
    bitBufferRows_keepFields⟩, syntaxWriteRows_keepFields⟩, syntaxReadRows_keepFields⟩

end Sys2Proof
end

section
/-! SUPPORT. When a word decodes, and to what (30_encoding.md R102): its row is the one with its OP. -/

namespace Sys2Proof

/-- No two rows have one OP (30_encoding.md R94). -/
theorem opcodeRows_op_nodup : (opcodeRows.map Row.op).Nodup := by decide

theorem find?_opcodeRows_eq_some_iff {op : Byte} {r : Row} :
    (opcodeRows.find? fun r => r.op == op) = some r ↔ r ∈ opcodeRows ∧ r.op = op := by
  refine ⟨fun h => ⟨List.mem_of_find?_eq_some h, by simpa using List.find?_some h⟩, ?_⟩
  rintro ⟨hr, rfl⟩
  have hsome : (opcodeRows.find? fun q => q.op == r.op).isSome := List.find?_isSome.2 ⟨r, hr, by simp⟩
  obtain ⟨q, hq⟩ := Option.isSome_iff_exists.1 hsome
  have hop : q.op = r.op := by simpa using List.find?_some hq
  rw [hq, List.inj_on_of_nodup_map opcodeRows_op_nodup (List.mem_of_find?_eq_some hq) hr hop]

theorem Row.decode_eq_ok_iff {r : Row} {f : Fields} {i : Instr} :
    r.decode f = .ok i ↔ f.Within r ∧ (r.build f).filter Instr.wellFormed = some i := by
  rw [← Fields.reserved_eq_false, Row.decode]
  cases r.reserved f with
  | true => simp
  | false =>
    cases r.build f with
    | none => simp
    | some j =>
      cases hj : j.wellFormed with
      | true => simp +contextual [hj, Option.filter_some]
      | false => simp [hj, Option.filter_some]

/-- Fields decode by the row of their OP, within its mask, with a path that the command allows. -/
theorem decodeFields_eq_ok_iff {f : Fields} {i : Instr} :
    decodeFields f = .ok i ↔
      ∃ r ∈ opcodeRows, (r.op = f.op ∧ f.Within r) ∧ (r.build f).filter Instr.wellFormed = some i := by
  unfold decodeFields
  constructor
  · intro h
    split at h
    · cases h
    · next r hr =>
      obtain ⟨hmem, hop⟩ := find?_opcodeRows_eq_some_iff.1 hr
      obtain ⟨hf, hi⟩ := Row.decode_eq_ok_iff.1 h
      exact ⟨r, hmem, ⟨hop, hf⟩, hi⟩
  · rintro ⟨r, hmem, ⟨hop, hf⟩, hi⟩
    rw [find?_opcodeRows_eq_some_iff.2 ⟨hmem, hop⟩]
    exact Row.decode_eq_ok_iff.2 ⟨hf, hi⟩

/-- Settles O1: the fields are read back from the word, and the command from its fields row by row (`decode_encode`). -/
theorem decodeEncodeRoundTrip : Obligations.DecodeEncodeRoundTrip := fun _ h => decode_encode h

/-- Settles O2: what decodes has passed the path check, and it has the fields of the word (`opcodeRows_keepFields`). -/
theorem encodeDecodedWord : Obligations.EncodeDecodedWord := by
  intro w i h
  obtain ⟨r, hmem, ⟨hop, hf⟩, hi⟩ := decodeFields_eq_ok_iff.1 h
  obtain ⟨hbuild, hwf⟩ := Option.filter_eq_some_iff.1 hi
  exact ⟨hwf, encode_eq_of_fields (opcodeRows_keepFields r hmem _ i hop hf hbuild)⟩

/-- A word decodes to a command whose word it is. -/
theorem decode_of_encode {i : Instr} {w : CmdWord} (h : i.wellFormed = true) (hw : encode i = w) : decode w = .ok i :=
  hw ▸ decode_encode h

/-- Settles O3: each word is the word of its command. -/
theorem sampleWords : Obligations.SampleWords := by
  refine ⟨?_, ?_, ?_, ?_, ?_, ?_, ?_, ?_, ?_, ?_, ?_, ?_⟩ <;> exact decode_of_encode rfl (by decide)

end Sys2Proof
end

section
/-! SUPPORT. The published opcode table against the decoder's own rows (30_encoding.md R94 to R96, R98, R102): row by
row the pattern is the OP, the mask is what the row does not use, and the operands are slices of the same fields. -/

namespace Sys2Proof.Machine

/-! The operands are slices of the word (30_encoding.md R90, R95). -/

section

variable (w : CmdWord)

theorem extractLsb'_extractLsb' {n : Nat} (x : BitVec n) {i j k l : Nat} (h : i + k ≤ l) :
    (x.extractLsb' j l).extractLsb' i k = x.extractLsb' (j + i) k := by
  ext m hm
  simp [show i + m < l by omega, Nat.add_assoc]

theorem slope_ofWord : (Fields.ofWord w).slope = w.extractLsb' 0 16 := extractLsb'_extractLsb' w (by decide)

theorem offset_ofWord : (Fields.ofWord w).offset = w.extractLsb' 16 16 := extractLsb'_extractLsb' w (by decide)

theorem cellState_ofWord : (Fields.ofWord w).cellState = w.extractLsb' 0 6 := extractLsb'_extractLsb' w (by decide)

theorem sym_ofWord : (Fields.ofWord w).sym = w.extractLsb' 0 8 := extractLsb'_extractLsb' w (by decide)

theorem spanm1_ofWord : (Fields.ofWord w).spanm1 = w.extractLsb' 34 6 := extractLsb'_extractLsb' w (by decide)

theorem cellMps_ofWord : (Fields.ofWord w).cellMps = w.getLsbD 6 := BitVec.getLsbD_extractLsb' 0 32 w 6

theorem bin_ofWord : (Fields.ofWord w).bin = w.getLsbD 0 := BitVec.getLsbD_extractLsb' 0 32 w 0

theorem countBit_ofWord : (Fields.ofWord w).countBit = w.getLsbD 32 := BitVec.getLsbD_extractLsb' 32 8 w 0

theorem path_ofWord : (Fields.ofWord w).path = if pathField? w = 3 then none else some (pathOf w) := by
  have hfield : (Fields.ofWord w).c.extractLsb' 0 2 = pathField? w := extractLsb'_extractLsb' w (by decide)
  rw [Fields.path, hfield, pathOf]
  generalize pathField? w = x
  revert x
  decide

/-- The constraint on RAW, EP is what the commands with it ask of their path (30_encoding.md R98). -/
theorem holds_rawOrEp :
    Constraint.rawOrEp.holds w = (decide (pathField? w ≠ 3) && (pathOf w).rawOrEp) := by
  rw [Constraint.holds, pathOf]
  generalize pathField? w = x
  revert x
  decide

theorem tuLegal_eq (p : Path) (c : Byte) (spanm1 : BitVec 6) :
    p.tuLegal c spanm1 = (p == .ep && (c == 0 && spanm1 == 0) || p == .ctx) := by
  cases p with
  | raw => rfl
  | ep => exact (Bool.or_false _).symm
  | ctx => rfl

/-- The constraint of truncated unary is what its commands ask of their path, context and span (30_encoding.md R98). -/
theorem holds_tu : Constraint.tu.holds w =
    (decide (pathField? w ≠ 3) && (pathOf w).tuLegal (w.extractLsb' 48 8) (w.extractLsb' 34 6)) := by
  rw [Constraint.holds, tuLegal_eq, pathOf, Bool.and_assoc]
  generalize pathField? w = x
  generalize (w.extractLsb' 48 8 == 0 && w.extractLsb' 34 6 == 0) = unused
  revert x unused
  decide

end

/-- The published row is the decoder's row. -/
structure PublishedRow.Publishes (p : PublishedRow) (r : Row) : Prop where
  pattern : Fields.ofWord p.pattern = ⟨r.op, 0, 0, 0, 0⟩
  mask : Fields.ofWord p.mask = ⟨0xFF, ~~~r.useA, ~~~r.useB, ~~~r.useC, ~~~r.useD⟩
  build : ∀ w, (r.build (Fields.ofWord w)).filter Instr.wellFormed =
    if p.constraint.holds w then some (p.operands w) else none

/-- A row with a path builds its command exactly where the constraint on the path field holds. -/
theorem build_of_path {g : Fields → Path → Instr} {c : Constraint} {w : CmdWord} {i : Instr}
    (hi : g (Fields.ofWord w) (pathOf w) = i) (hc : c.holds w = (decide (pathField? w ≠ 3) && i.wellFormed)) :
    ((Fields.ofWord w).path.map (g (Fields.ofWord w))).filter Instr.wellFormed =
      if c.holds w then some i else none := by
  rw [path_ofWord, hc]
  by_cases h : pathField? w = 3
  · rw [if_pos h, decide_eq_false (not_not_intro h)]
    rfl
  · rw [if_neg h, decide_eq_true h, Bool.true_and, Option.map_some, hi, Option.filter_some]

theorem publishedSystem_publishes : List.Forall₂ PublishedRow.Publishes publishedSystem systemRows :=
  .cons ⟨rfl, rfl, fun _ => rfl⟩ <| .cons ⟨rfl, rfl, fun _ => rfl⟩ <| .cons ⟨rfl, rfl, fun _ => rfl⟩ .nil

theorem publishedContext_publishes : List.Forall₂ PublishedRow.Publishes publishedContext contextRows :=
  .cons ⟨rfl, rfl, fun w => congrArg₂ (fun x y => some (Instr.ctxInit _ _ x y)) (slope_ofWord w) (offset_ofWord w)⟩ <|
  .cons ⟨rfl, rfl, fun w => congrArg₂ (fun x y => some (Instr.ctxSet _ x y)) (cellState_ofWord w) (cellMps_ofWord w)⟩ <|
  .cons ⟨rfl, rfl, fun _ => rfl⟩ .nil

theorem publishedEncoder_publishes : List.Forall₂ PublishedRow.Publishes publishedEncoder encoderRows :=
  .cons ⟨rfl, rfl, fun _ => rfl⟩ <|
  .cons ⟨rfl, rfl, fun w => congrArg (fun x => some (Instr.encBin _ x)) (bin_ofWord w)⟩ <|
  .cons ⟨rfl, rfl, fun w => congrArg (fun x => some (Instr.encBinEp x)) (bin_ofWord w)⟩ <|
  .cons ⟨rfl, rfl, fun w => congrArg (fun x => some (Instr.encBinTrm x)) (bin_ofWord w)⟩ <|
  .cons ⟨rfl, rfl, fun _ => rfl⟩ .nil

theorem publishedDecoder_publishes : List.Forall₂ PublishedRow.Publishes publishedDecoder decoderRows :=
  .cons ⟨rfl, rfl, fun _ => rfl⟩ <| .cons ⟨rfl, rfl, fun _ => rfl⟩ <| .cons ⟨rfl, rfl, fun _ => rfl⟩ <|
  .cons ⟨rfl, rfl, fun _ => rfl⟩ .nil

theorem publishedBitBuffer_publishes : List.Forall₂ PublishedRow.Publishes publishedBitBuffer bitBufferRows :=
  .cons ⟨rfl, rfl, fun w => congrArg (fun x => some (Instr.bbInit x)) (countBit_ofWord w)⟩ <|
  .cons ⟨rfl, rfl, fun _ => rfl⟩ <| .cons ⟨rfl, rfl, fun _ => rfl⟩ <| .cons ⟨rfl, rfl, fun _ => rfl⟩ <|
  .cons ⟨rfl, rfl, fun _ => rfl⟩ <| .cons ⟨rfl, rfl, fun _ => rfl⟩ <| .cons ⟨rfl, rfl, fun _ => rfl⟩ <|
  .cons ⟨rfl, rfl, fun _ => rfl⟩ <| .cons ⟨rfl, rfl, fun _ => rfl⟩ .nil

theorem publishedWrite_publishes : List.Forall₂ PublishedRow.Publishes publishedWrite syntaxWriteRows :=
  .cons ⟨rfl, rfl, fun w => build_of_path (g := fun f p => .seWrFlc f.a p f.d) rfl (holds_rawOrEp w)⟩ <|
  .cons ⟨rfl, rfl, fun w => build_of_path (g := fun f p => .seWrUvlc p f.d) rfl (holds_rawOrEp w)⟩ <|
  .cons ⟨rfl, rfl, fun w => build_of_path (g := fun f p => .seWrSvlc p f.d) rfl (holds_rawOrEp w)⟩ <|
  .cons ⟨rfl, rfl, fun w => build_of_path (g := fun f p => .seWrTu f.a f.b p f.spanm1 f.sym)
      (congrArg₂ (Instr.seWrTu _ _ _) (spanm1_ofWord w) (sym_ofWord w)) (holds_tu w)⟩ <|
  .cons ⟨rfl, rfl, fun _ => rfl⟩ <| .cons ⟨rfl, rfl, fun _ => rfl⟩ .nil

theorem publishedRead_publishes : List.Forall₂ PublishedRow.Publishes publishedRead syntaxReadRows :=
  .cons ⟨rfl, rfl, fun w => build_of_path (g := fun f p => .seRdFlc f.a p) rfl (holds_rawOrEp w)⟩ <|
  .cons ⟨rfl, rfl, fun w => build_of_path (g := fun _ p => .seRdUvlc p) rfl (holds_rawOrEp w)⟩ <|
  .cons ⟨rfl, rfl, fun w => build_of_path (g := fun _ p => .seRdSvlc p) rfl (holds_rawOrEp w)⟩ <|
  .cons ⟨rfl, rfl, fun w => build_of_path (g := fun f p => .seRdTu f.a f.b p f.spanm1)
      (congrArg (Instr.seRdTu _ _ _) (spanm1_ofWord w)) (holds_tu w)⟩ <|
  .cons ⟨rfl, rfl, fun _ => rfl⟩ <| .cons ⟨rfl, rfl, fun _ => rfl⟩ .nil

theorem published_publishes : List.Forall₂ PublishedRow.Publishes published opcodeRows :=
  List.rel_append (List.rel_append (List.rel_append (List.rel_append (List.rel_append (List.rel_append
    publishedSystem_publishes publishedContext_publishes) publishedEncoder_publishes) publishedDecoder_publishes)
    publishedBitBuffer_publishes) publishedWrite_publishes) publishedRead_publishes

/-- The word under the published mask is the pattern exactly where the OP is the row's and no unused bit is set. -/
theorem PublishedRow.Publishes.and_mask_iff {p : PublishedRow} {r : Row} (h : p.Publishes r) (w : CmdWord) :
    w &&& p.mask = p.pattern ↔ r.op = (Fields.ofWord w).op ∧ (Fields.ofWord w).Within r := by
  have hop : (Fields.ofWord w).op &&& 0xFF = (Fields.ofWord w).op := BitVec.and_allOnes
  rw [← Fields.ofWord_inj, Fields.ofWord_and, h.mask, h.pattern, Fields.mk.injEq, hop]
  exact ⟨fun ⟨ho, ha, hb, hc, hd⟩ => ⟨ho.symm, ha, hb, hc, hd⟩, fun ⟨ho, hw⟩ => ⟨ho.symm, hw.a, hw.b, hw.c, hw.d⟩⟩

/-- What a published row makes of a word is what the decoder's row makes of its fields. -/
theorem PublishedRow.Publishes.matches_iff {p : PublishedRow} {r : Row} (h : p.Publishes r) (w : CmdWord) (i : Instr) :
    (p.is w = true ∧ p.operands w = i) ↔
      (r.op = (Fields.ofWord w).op ∧ (Fields.ofWord w).Within r) ∧
        (r.build (Fields.ofWord w)).filter Instr.wellFormed = some i := by
  rw [h.build, PublishedRow.is, Bool.and_eq_true, beq_iff_eq, h.and_mask_iff, and_assoc]
  refine and_congr_right fun _ => ?_
  cases p.constraint.holds w with
  | true => simp
  | false => simp

/-- Lists that correspond one by one: where one has an element with the property, so has the other. -/
theorem exists_mem_iff_of_forall₂ {α β : Type} {R : α → β → Prop} {P : α → Prop} {Q : β → Prop} {l : List α}
    {l' : List β} (h : List.Forall₂ R l l') (hPQ : ∀ a b, R a b → (P a ↔ Q b)) :
    (∃ a ∈ l, P a) ↔ ∃ b ∈ l', Q b := by
  induction h with
  | nil => simp
  | cons hab _ ih => simp [hPQ _ _ hab, ih]

/-- A word decodes as the command of a published row that it matches (30_encoding.md R102). -/
theorem decode_eq_ok_iff {w : CmdWord} {i : Instr} :
    decode w = .ok i ↔ ∃ p ∈ published, p.is w = true ∧ p.operands w = i :=
  decodeFields_eq_ok_iff.trans
    (exists_mem_iff_of_forall₂ published_publishes fun _ _ h => h.matches_iff w i).symm

/-- The OP of a published row. -/
def PublishedRow.op (p : PublishedRow) : Byte := opByte p.pattern

theorem published_op_nodup : (published.map PublishedRow.op).Nodup := by decide

/-- A word has the OP of every row that it matches. -/
theorem op_of_is {p : PublishedRow} (hp : p ∈ published) {w : CmdWord} (h : p.is w = true) : p.op = opByte w := by
  have hmask : ∀ q ∈ published, q.mask.extractLsb' 56 8 = BitVec.allOnes 8 := by decide
  have hmatch : w &&& p.mask = p.pattern := by
    rw [PublishedRow.is, Bool.and_eq_true, beq_iff_eq] at h
    exact h.1
  show p.pattern.extractLsb' 56 8 = w.extractLsb' 56 8
  rw [← hmatch, BitVec.extractLsb'_and, hmask p hp, BitVec.and_allOnes]

/-- The rows that a word matches are one at most: all have its OP, and no two have one OP. -/
theorem length_filter_is_le_one (w : CmdWord) : (published.filter fun p => p.is w).length ≤ 1 := by
  have hsame : (published.filter fun p => p.is w).map PublishedRow.op =
      List.replicate (published.filter fun p => p.is w).length (opByte w) :=
    List.map_eq_replicate_iff.2 fun p hp => op_of_is (List.mem_of_mem_filter hp) (List.mem_filter.1 hp).2
  have hnodup := published_op_nodup.sublist ((List.filter_sublist (p := fun p => p.is w)).map PublishedRow.op)
  rwa [hsame, List.nodup_replicate] at hnodup

theorem serve_of_illegal {s : State} {w : CmdWord} (hf : s.fault = none) (hw : ∀ i, decode w ≠ .ok i) :
    serve w s = .next (s.takeFault (opByte w) .illegal) := by
  cases hd : decode w with
  | ok i => exact absurd hd (hw i)
  | illegal r => simp [serve, hf, execWord, hd]

/-- Settles O4: the published rows are the decoder's (`published_publishes`), so that a word decodes exactly where it
matches one (`decode_eq_ok_iff`), and rows differ in their OP. -/
theorem decodeProcedure : Obligations.DecodeProcedure := by
  intro w
  refine ⟨length_filter_is_le_one w, fun p hp h => decode_eq_ok_iff.2 ⟨p, hp, h, rfl⟩, fun hnone => ?_⟩
  have hillegal : ∀ i, decode w ≠ .ok i := by
    intro i hi
    obtain ⟨p, hp, h, -⟩ := decode_eq_ok_iff.1 hi
    exact absurd h (Bool.eq_false_iff.1 (hnone p hp))
  exact ⟨hillegal, fun s hf => serve_of_illegal hf hillegal⟩

end Sys2Proof.Machine
end

section
/-! SUPPORT. Commands whose rule returns nothing return 0 (30_encoding.md R91, R94). -/

namespace Sys2Proof.Machine

/-- Where the pseudocode completes, it returns 0. -/
def ReturnsZero (m : Cmd Word) : Prop := ∀ s a t, m s = .ok a t → a = 0

theorem returnsZero_pure : ReturnsZero (pure 0) := by
  intro s a t e
  cases e
  rfl

/-- Only the last step counts. -/
theorem returnsZero_bind {α : Type} {m : Cmd α} {f : α → Cmd Word} (h : ∀ a, ReturnsZero (f a)) :
    ReturnsZero (m >>= f) := by
  intro s b t e
  rw [bind_run] at e
  split at e
  · exact h _ _ _ _ e
  · cases e

theorem returnsZero_ite {p : Prop} [Decidable p] {m n : Cmd Word} (h : ReturnsZero m) (g : ReturnsZero n) :
    ReturnsZero (if p then m else n) := by
  split
  · exact h
  · exact g

/-- The pseudocode of a command whose rule returns nothing ends with `return 0`. -/
theorem exec_returnsZero {i : Instr} (s : State) (h : returnsNothing i = true) :
    ∃ m, exec i s = answer i.op m s ∧ ReturnsZero m := by
  cases i with
  | sysRdreg _ | ctxGet _ | decBin _ | decBinEp | decBinTrm | bbRead _ | bbGetWritten | bbGetByte _ | seRdFlc _ _
  | seRdUvlc _ | seRdSvlc _ | seRdTu _ _ _ _ | seRdFf8 => cases h
  | sysReset => exact ⟨do modify State.resetCore; return 0, rfl, returnsZero_bind fun _ => returnsZero_pure⟩
  | nop => exact ⟨pure 0, rfl, returnsZero_pure⟩
  | _ =>
    refine ⟨_, rfl, ?_⟩
    repeat' first
      | with_reducible exact returnsZero_pure
      | with_reducible apply returnsZero_ite
      | with_reducible refine returnsZero_bind fun _ => ?_

theorem data_of_returnsNothing {i : Instr} {s t : State} {d : Word} (h : returnsNothing i = true)
    (e : exec i s = .next t) (hrsp : t.rsp = some ⟨none, d⟩) : d = 0 := by
  obtain ⟨m, hm, hzero⟩ := exec_returnsZero s h
  rcases answer_cases (hm.symm.trans e) with ⟨a, u, hu, rfl⟩ | ⟨c, u, -, rfl⟩
  · cases hrsp
    exact hzero _ _ _ hu
  · cases hrsp

end Sys2Proof.Machine
end

section
/-! SUPPORT. The response to a word, and the handshake around it (30_encoding.md R91, R92; 60_exceptions.md R281,
R283). -/

namespace Sys2Proof.Machine

/-- `t` is `s` with a response to the word `w`: its command completed, with DATA 0 if its rule returns nothing, or it is
answered with the recorded cause and DATA 0 (30_encoding.md R91). The other words on offer stay. -/
def State.Answers (s : State) (w : CmdWord) (t : State) : Prop :=
  t.cmds = s.cmds ∧
    ((∃ i d, decode w = .ok i ∧ t.rsp = some ⟨none, d⟩ ∧ (returnsNothing i = true → d = 0)) ∨
      ∃ c op, t.rsp = some ⟨some c, 0⟩ ∧ t.fault = some ⟨c, op⟩)

variable {s t : State} {w : CmdWord}

theorem takeFault_answers (op : Byte) (c : Cause) (hf : s.fault = none) : s.Answers w (s.takeFault op c) :=
  ⟨rfl, .inr ⟨c, op, rfl, by rw [State.takeFault_fault, hf]; rfl⟩⟩

theorem refuseFaulted_answers {r : FaultRecord} (hf : s.fault = some r) : s.Answers w (s.refuseFaulted r) :=
  ⟨rfl, .inr ⟨r.cause, r.op, rfl, hf⟩⟩

/-- A command run with no fault recorded gives its word a response. -/
theorem exec_answers {i : Instr} (hd : decode w = .ok i) (hf : s.fault = none) (e : exec i s = .next t) :
    s.Answers w t := by
  by_cases hreset : i = .sysReset
  · subst hreset
    cases (exec_sysReset s).symm.trans e
    exact ⟨rfl, .inl ⟨_, 0, hd, rfl, fun _ => rfl⟩⟩
  · obtain ⟨u, ⟨-, hfault, -, hcmds, -⟩, ⟨d, rfl⟩ | ⟨c, rfl⟩⟩ := exec_cases hreset e
    · exact ⟨hcmds, .inl ⟨i, d, hd, rfl, fun h => data_of_returnsNothing h e rfl⟩⟩
    · obtain ⟨-, hanswer⟩ := takeFault_answers (w := w) i.op c (hfault.trans hf)
      exact ⟨hcmds, hanswer⟩

/-- The registers read while a fault is recorded are assigned (60_exceptions.md R283). -/
theorem regOfNumber_of_served {n : Byte} (h : servedWhileFaulted (encode (.sysRdreg n)) = true) :
    ∃ r, regOfNumber n = some r := by
  apply Option.isSome_iff_exists.1
  revert n
  decide

/-- The words served while a fault is recorded complete (60_exceptions.md R283). -/
theorem execWord_answers_of_served (hw : servedWhileFaulted w = true) (e : execWord w s = .next t) : s.Answers w t := by
  unfold execWord at e
  rcases decode_of_servedWhileFaulted hw with hd | ⟨n, hd⟩
  · rw [hd] at e
    cases e
    exact ⟨rfl, .inl ⟨_, 0, hd, rfl, fun _ => rfl⟩⟩
  · rw [hd] at e
    obtain ⟨r, hr⟩ := regOfNumber_of_served ((encodeDecodedWord w _ hd).2 ▸ hw)
    cases (exec_sysRdreg_of_some hr s).symm.trans e
    exact ⟨rfl, .inl ⟨_, _, hd, rfl, fun h => nomatch h⟩⟩

/-- A word that is served gets a response, whatever the state. -/
theorem serve_answers (e : serve w s = .next t) : s.Answers w t := by
  unfold serve at e
  split at e
  · next hf =>
    unfold execWord at e
    split at e
    · next i hd => exact exec_answers hd hf e
    · cases e
      exact takeFault_answers _ _ hf
  · next r hf =>
    split at e
    · next hw => exact execWord_answers_of_served hw e
    · cases e
      exact refuseFaulted_answers hf

theorem Cause.code_ne_zero (c : Cause) : c.code ≠ 0 := by cases c <;> decide

/-- FAULTCODE is 0 exactly where the response says that the command completed (30_encoding.md R91). -/
theorem faultCode_eq_zero_iff (r : Response) : r.faultCode = 0 ↔ r.fault = none := by
  obtain ⟨_ | c, d⟩ := r
  · exact ⟨fun _ => rfl, fun _ => rfl⟩
  · exact ⟨fun h => absurd h c.code_ne_zero, fun h => nomatch h⟩

/-- Settles O8: the step runs the word on offer and does not stop, and either way of answering (`State.Answers`) is what
R91 asks. -/
theorem oneResponsePerCommand : Obligations.OneResponsePerCommand := by
  intro s w rest hinv hready hw
  obtain ⟨t, e⟩ := stepNeverStops s hinv
  have hserve := (step_of_ready hready hw).symm.trans e
  obtain ⟨hcmds, ⟨i, d, hd, hrsp, hdata⟩ | ⟨c, op, hrsp, hfault⟩⟩ := serve_answers hserve
  · exact ⟨t, ⟨none, d⟩, e, hrsp, hcmds, faultCode_eq_zero_iff _, fun h => absurd rfl h, fun _ => ⟨i, hd, hdata⟩,
      fun _ h => nomatch h⟩
  · refine ⟨t, ⟨some c, 0⟩, e, hrsp, hcmds, faultCode_eq_zero_iff _, fun _ => rfl, (nomatch ·), ?_⟩
    rintro _ ⟨⟩
    exact ⟨op, hfault⟩

/-! The other events at the ports (30_encoding.md R92). -/

theorem step_of_reset (h : s.rstN = false) : step s = .next s.heldInReset := by
  simp [step, clockEdge, h]

theorem step_of_response {r : Response} (h : s.rstN = true) (hr : s.rsp = some r) :
    step s = .next (if s.rspReady then { s with rsp := none } else s) := by
  simp [step, clockEdge, h, hr]

theorem step_of_idle (h : s.Ready) (hw : s.cmds = []) : step s = .next s := by
  obtain ⟨hrst, hrsp⟩ := h
  simp [step, clockEdge, hrst, hrsp, hw]

theorem cmdReady_iff (s : State) : s.cmdReady = true ↔ s.Ready := by
  rw [State.cmdReady, Bool.and_eq_true, Option.isNone_iff_eq_none]

theorem State.Answers.rsp (h : s.Answers w t) : ∃ r, t.rsp = some r := by
  obtain ⟨-, ⟨i, d, -, hr, -⟩ | ⟨c, op, hr, -⟩⟩ := h
  · exact ⟨_, hr⟩
  · exact ⟨_, hr⟩

/-- A word leaves the host's queue only with the port ready, one at a time, and its response is then on offer. -/
theorem cmds_of_step (e : step s = .next t) : t.cmds = s.cmds ∨
    (s.cmdReady = true ∧ (∃ w, s.cmds = w :: t.cmds) ∧ t.rspValid = true ∧ t.cmdReady = false) := by
  cases hrst : s.rstN with
  | false =>
    cases (step_of_reset hrst).symm.trans e
    exact .inl rfl
  | true =>
    cases hrsp : s.rsp with
    | some r =>
      cases (step_of_response hrst hrsp).symm.trans e
      left
      split
      · rfl
      · rfl
    | none =>
      cases hw : s.cmds with
      | nil =>
        cases (step_of_idle ⟨hrst, hrsp⟩ hw).symm.trans e
        exact .inl hw
      | cons w rest =>
        have hanswer := serve_answers ((step_of_ready ⟨hrst, hrsp⟩ hw).symm.trans e)
        obtain ⟨r, hr⟩ := hanswer.rsp
        refine .inr ⟨(cmdReady_iff s).2 ⟨hrst, hrsp⟩, ⟨w, congrArg (w :: ·) hanswer.1.symm⟩, ?_, ?_⟩
        · rw [State.rspValid, hr]
          rfl
        · rw [State.cmdReady, hr]
          exact Bool.and_false _

/-- Settles O7: the events of a step, one lemma each, exclude each other; only serving a word takes it from the queue,
and it leaves a response on offer (`serve_answers`). -/
theorem handshake : Obligations.Handshake :=
  ⟨cmdReady_iff, fun _ _ => step_of_response, fun _ => step_of_idle, fun _ _ => cmds_of_step⟩

end Sys2Proof.Machine
end

section
/-! SUPPORT. How a check decides the end of a command, and the commands of the context family (40_context.md R121 to
R123). -/

namespace Sys2Proof.Machine

/-! The shapes a command of the family is made of: a check in front, a cell written last. -/

section

variable {op : Byte} {b : Bool} {c : Cause} {f : Unit → Cmd Word} {s : State}

/-- Where a check fails, the command takes the fault from the state it started in (60_exceptions.md R281). -/
theorem answer_of_check_failed (h : b = true) : answer op (raiseIf b c >>= f) s = .next (s.takeFault op c) :=
  answer_raise (by simp [h])

theorem answer_of_check_passed (h : b = false) : answer op (raiseIf b c >>= f) s = answer op (f ()) s := by
  subst h
  rfl

theorem answer_writeCtx (i : Nat) (cell : CtxCell) (d : Word) :
    answer op (writeCtx i cell >>= fun _ => pure d) s =
      .next { s with ctx := s.ctx.set i cell, rsp := some ⟨none, d⟩ } := rfl

end

/-! CTX_INIT (40_context.md R121). -/

section

variable {s : State} {ctx qp : Byte} {slope offset : BitVec 16}

theorem ctxInit_raises_param (h : s.cfg.qpMax < qp.toNat) : raises (.ctxInit ctx qp slope offset) s .param :=
  answer_of_check_failed (decide_eq_true h)

theorem ctxInit_raises_index (hq : ¬ s.cfg.qpMax < qp.toNat) (h : s.cfg.nctx ≤ ctx.toNat) :
    raises (.ctxInit ctx qp slope offset) s .index :=
  (answer_of_check_passed (decide_eq_false hq)).trans (answer_of_check_failed (decide_eq_true h))

theorem exec_ctxInit_of_legal (hq : ¬ s.cfg.qpMax < qp.toNat) (hi : ¬ s.cfg.nctx ≤ ctx.toNat) :
    exec (.ctxInit ctx qp slope offset) s =
      .next { s with ctx := s.ctx.set ctx.toNat (initCell qp slope offset), rsp := some ⟨none, 0⟩ } :=
  (answer_of_check_passed (decide_eq_false hq)).trans <|
    (answer_of_check_passed (decide_eq_false hi)).trans (answer_writeCtx _ _ _)

/-! The shift by 8 of R121 is floor division by 256. The 8 is a `Nat` or an `Int`, as `preState` was read without or with
Mathlib's shift of integers in scope. -/

theorem shiftRight_nat_eight (x : Int) : x >>> (8 : Nat) = x / 256 := Int.shiftRight_eq_div_pow x 8

theorem shiftRight_int_eight (x : Int) : x >>> (8 : Int) = x / 256 :=
  (Int.shiftRight_natCast_right x 8).trans (shiftRight_nat_eight x)

/-- `preState` is the exact integer of R121: the clamped value is a natural number. -/
theorem natCast_preState (qp : Byte) (slope offset : BitVec 16) :
    (preState qp slope offset : Int) = min (max (slope.toInt * qp.toNat / 256 + offset.toInt) 8) 63 := by
  simp only [preState, clamp, shiftRight_nat_eight, shiftRight_int_eight]
  exact Int.toNat_of_nonneg (by omega)

theorem preState_range (qp : Byte) (slope offset : BitVec 16) :
    8 ≤ preState qp slope offset ∧ preState qp slope offset ≤ 63 := by
  have := natCast_preState qp slope offset
  omega

theorem initCell_of_zero (h : slope = 0 ∧ offset = 0) : initCell qp slope offset = ⟨0, false⟩ := by
  obtain ⟨rfl, rfl⟩ := h
  rfl

theorem initCell_of_not_zero (h : ¬ (slope = 0 ∧ offset = 0)) :
    initCell qp slope offset =
      if 36 ≤ preState qp slope offset then ⟨BitVec.ofNat 6 (preState qp slope offset), true⟩
      else ⟨BitVec.ofNat 6 (71 - preState qp slope offset), false⟩ := by
  have htoInt : ¬ (slope.toInt = 0 ∧ offset.toInt = 0) := fun hz =>
    h ⟨BitVec.toInt_inj.1 hz.1, BitVec.toInt_inj.1 hz.2⟩
  exact if_neg htoInt

/-- A number up to 63 fits the six bits of a state (10_state.md R22). -/
theorem toNat_cellState {n : Nat} (h : n ≤ 63) : (BitVec.ofNat 6 n).toNat = n := by
  rw [BitVec.toNat_ofNat]
  omega

end

/-- Settles O17: the checks in their order, then the cell is `initCell`, whose `preState` is the exact integer of R121
(`natCast_preState`); both branches keep the state in 36..63 because preState is in 8..63. -/
theorem ctxInit : Obligations.CtxInit := by
  intro s ctx qp slope offset pre writes
  have hpre : (preState qp slope offset : Int) = pre := natCast_preState qp slope offset
  obtain ⟨hlo, hhi⟩ := preState_range qp slope offset
  split_ifs with hq hi hz hp
  · exact ctxInit_raises_param hq
  · exact ctxInit_raises_index hq hi
  · exact initCell_of_zero hz ▸ exec_ctxInit_of_legal hq hi
  · have hst := toNat_cellState hhi
    have hhigh : 36 ≤ preState qp slope offset := by omega
    have hcell := (initCell_of_not_zero hz).trans (if_pos hhigh)
    exact ⟨BitVec.ofNat 6 (preState qp slope offset), by omega, by omega, hcell ▸ exec_ctxInit_of_legal hq hi⟩
  · have hst := toNat_cellState (n := 71 - preState qp slope offset) (by omega)
    have hlow : ¬ 36 ≤ preState qp slope offset := by omega
    have hcell := (initCell_of_not_zero hz).trans (if_neg hlow)
    exact ⟨BitVec.ofNat 6 (71 - preState qp slope offset), by omega, by omega, hcell ▸ exec_ctxInit_of_legal hq hi⟩

/-! CTX_SET and CTX_GET (40_context.md R122, R123). -/

/-- The DATA of CTX_GET, `(mps << 6) | state`, as a number. -/
theorem toNat_cellData (mps : Bool) (state : BitVec 6) :
    ((0 : BitVec 25) ++ (BitVec.ofBool mps ++ state)).toNat = 64 * mps.toNat + state.toNat := by
  have hlow : (BitVec.ofBool mps ++ state).toNat = 64 * mps.toNat + state.toNat := by
    rw [BitVec.toNat_append, ← Nat.shiftLeft_add_eq_or_of_lt state.isLt, BitVec.toNat_ofBool, Nat.shiftLeft_eq,
      Nat.mul_comm]
  rw [BitVec.toNat_append, hlow]
  simp

theorem ctxSet_raises_index {s : State} {ctx : Byte} {st : BitVec 6} {mps : Bool} (h : s.cfg.nctx ≤ ctx.toNat) :
    raises (.ctxSet ctx st mps) s .index :=
  answer_of_check_failed (decide_eq_true h)

theorem exec_ctxSet_of_legal {s : State} {ctx : Byte} {st : BitVec 6} {mps : Bool} (h : ¬ s.cfg.nctx ≤ ctx.toNat) :
    exec (.ctxSet ctx st mps) s =
      .next { s with ctx := s.ctx.set ctx.toNat ⟨st, mps⟩, rsp := some ⟨none, 0⟩ } :=
  (answer_of_check_passed (decide_eq_false h)).trans (answer_writeCtx _ _ _)

theorem ctxGet_raises_index {s : State} {ctx : Byte} (h : s.cfg.nctx ≤ ctx.toNat) : raises (.ctxGet ctx) s .index :=
  answer_of_check_failed (decide_eq_true h)

theorem exec_ctxGet_of_legal {s : State} {ctx : Byte} {cell : CtxCell} (h : ¬ s.cfg.nctx ≤ ctx.toNat)
    (hcell : s.ctx[ctx.toNat]? = some cell) :
    exec (.ctxGet ctx) s =
      .next { s with rsp := some ⟨none, (0 : BitVec 25) ++ (BitVec.ofBool cell.mps ++ cell.state)⟩ } :=
  (answer_of_check_passed (decide_eq_false h)).trans (answer_ok (t := s) (by simp [readCtx, hcell]))

/-- Settles O18: one check in front; what is left is `answer_writeCtx`, or a read of a cell that a formed state has. -/
theorem ctxSetAndGet : Obligations.CtxSetAndGet := by
  refine ⟨fun s ctx st mps => ?_, fun s ctx ⟨_, hlen, _⟩ => ?_⟩
  · split_ifs with hi
    · exact ctxSet_raises_index hi
    · exact exec_ctxSet_of_legal hi
  · split_ifs with hi
    · exact ctxGet_raises_index hi
    · obtain ⟨cell, hcell⟩ := getElem?_of_lt (s := s) (i := ctx.toNat) (by omega)
      exact ⟨cell, _, hcell, toNat_cellData cell.mps cell.state, exec_ctxGet_of_legal hi hcell⟩

end Sys2Proof.Machine
end

section
/-! SUPPORT. The adaptation step of the context bins of both engines (40_context.md R124, R125): a bin that completes
leaves the cells with its own cell replaced by `adapted`. -/

namespace Sys2Proof.Machine

/-- A command that ends with no fault recorded has completed, and ends as its pseudocode guarantees. -/
theorem completed_of_answer {op : Byte} {m : Cmd Word} {s t : State} {Q : State → Prop}
    (h : Sat m s (fun _ => True) fun d u => Q (u.respond d)) (e : answer op m s = .next t) (hf : t.fault = none) :
    Q t := by
  rcases answer_cases e with ⟨d, u, hu, rfl⟩ | ⟨c, u, -, rfl⟩
  · exact h.of_ok hu
  · exact absurd hf (takeFault_fault_ne_none u op c)

section

variable {s t : State} {ctx : Byte} {bin : Bool} {cell : CtxCell}

/-- ENC_BIN (41_encoder.md R144): the bin is an MPS event if it equals the cell's mps. -/
theorem ctx_of_encBin (h : s.Live) (hcell : s.ctx[ctx.toNat]? = some cell) (hf : t.fault = none)
    (e : exec (.encBin ctx bin) s = .next t) :
    t.ctx = s.ctx.set ctx.toNat (adapted s.cfg cell (bin == cell.mps)) := by
  refine completed_of_answer (Q := fun t => t.ctx = s.ctx.set ctx.toNat (adapted s.cfg cell (bin == cell.mps))) ?_ e hf
  simp only [sat_bind, sat_check, sat_pure]
  refine fun _ => requireEncoding_sat fun he => ?_
  obtain ⟨hmid, hlo, -⟩ := h.encMid he.1
  refine (encBin_sat hcell hmid hlo h.capOk h.wf).mono (fun _ _ => trivial) ?_
  rintro _ u ⟨-, -, hframe⟩
  exact (congrArg State.ctx hframe :)

theorem binData_eq_iff {a b : Bool} : binData a = (if b then 1 else 0) ↔ a = b := by
  cases a <;> cases b <;> decide

/-- The bin that is the cell's mps exactly on an MPS event equals it exactly then. -/
theorem bin_beq_mps (mps mpsBin : Bool) : ((if mpsBin then mps else !mps) == mps) = mpsBin := by
  cases mpsBin <;> simp

/-- DEC_BIN (42_decoder.md R173): the bin it returns is the cell's mps exactly on an MPS event. -/
theorem ctx_of_decBin (h : s.Live) (hcell : s.ctx[ctx.toNat]? = some cell) (hf : t.fault = none)
    (e : exec (.decBin ctx) s = .next t) (hr : t.rsp = some ⟨none, if bin then 1 else 0⟩) :
    t.ctx = s.ctx.set ctx.toNat (adapted s.cfg cell (bin == cell.mps)) := by
  refine completed_of_answer (Q := fun t => t.rsp = some ⟨none, if bin then 1 else 0⟩ →
    t.ctx = s.ctx.set ctx.toNat (adapted s.cfg cell (bin == cell.mps))) ?_ e hf hr
  simp only [sat_bind, sat_check, sat_pure]
  refine fun _ => requireDecoding_sat fun hd => ?_
  refine (decBin_sat hcell (h.decMid hd) h.ranges).mono (fun _ _ => trivial) ?_
  rintro b u ⟨hb, -, -, -, hframe⟩ hr
  have hbin : b = bin := binData_eq_iff.1 (congrArg Response.data (Option.some.inj hr))
  rw [← hbin, hb, bin_beq_mps]
  exact (congrArg State.ctx hframe :)

end

/-- What `adapted` is, told by the bin (40_context.md R124, R125). -/
theorem adapted_of_eq_mps (c : Config) {cell : CtxCell} {bin : Bool} (h : bin = cell.mps) :
    adapted c cell (bin == cell.mps) = adaptMps c cell := if_pos (beq_iff_eq.2 h)

theorem adapted_of_ne_mps (c : Config) {cell : CtxCell} {bin : Bool} (h : bin ≠ cell.mps) :
    adapted c cell (bin == cell.mps) = adaptLps c cell := if_neg fun hb => h (beq_iff_eq.1 hb)

theorem adaptMps_spec (c : Config) (cell : CtxCell) :
    c.transMps[cell.state.toNat]? = some (adaptMps c cell).state ∧ (adaptMps c cell).mps = cell.mps :=
  ⟨Vector.getElem?_eq_getElem cell.state.isLt, rfl⟩

theorem adaptLps_spec (c : Config) (cell : CtxCell) :
    c.transLps[cell.state.toNat]? = some (adaptLps c cell).state ∧
      (adaptLps c cell).mps = if cell.state = 0 then !cell.mps else cell.mps := by
  refine ⟨Vector.getElem?_eq_getElem cell.state.isLt, ?_⟩
  have hzero : cell.state.toNat = 0 ↔ cell.state = 0 := BitVec.toNat_inj (y := 0)
  simp only [adaptLps, hzero]

/-- Settles O19: both engines leave `s.ctx` with the one cell replaced by `adapted` (`ctx_of_encBin`, `ctx_of_decBin`),
and the two events of `adapted` are R124 and R125. -/
theorem contextAdaptation : Obligations.ContextAdaptation := by
  intro s t ctx bin cell h hcell hf e
  have hctx : t.ctx = s.ctx.set ctx.toNat (adapted s.cfg cell (bin == cell.mps)) := by
    rcases e with e | ⟨e, hr⟩
    · exact ctx_of_encBin h hcell hf e
    · exact ctx_of_decBin h hcell hf e hr
  obtain ⟨hlt, -⟩ := List.getElem?_eq_some_iff.1 hcell
  rw [hctx]
  refine ⟨fun j hj => List.getElem?_set_ne hj.symm, _, List.getElem?_set_self hlt, fun hb => ?_, fun hb => ?_⟩
  · rw [adapted_of_eq_mps s.cfg hb]
    exact adaptMps_spec s.cfg cell
  · rw [adapted_of_ne_mps s.cfg hb]
    exact adaptLps_spec s.cfg cell

end Sys2Proof.Machine
end

section
/-! SUPPORT. How a command ends, told from what its pseudocode guarantees: a fault forgets what was half done, so that
it is the fault taken from the state the command started in (60_exceptions.md R281, R282). -/

namespace Sys2Proof.Machine

variable {s t : State} {i : Instr} {c : Cause}

/-- A fault depends only on what no command touches: everything else is unspecified after it (R282). -/
theorem State.SameOutside.takeFault_eq (h : s.SameOutside t) (op : Byte) (c : Cause) :
    t.takeFault op c = s.takeFault op c := by
  obtain ⟨hcfg, hfault, hrst, hcmds, hready, -, hfree⟩ := h
  simp only [State.takeFault, State.unspecified, hcfg, hfault, hrst, hcmds, hready, hfree]

/-- A command that answers with the fault `c` has taken it from the state it started in. -/
theorem raises_of_rsp (hreset : i ≠ .sysReset) (e : exec i s = .next t) (hrsp : t.rsp = some ⟨some c, 0⟩) :
    raises i s c := by
  obtain ⟨u, hsame, ⟨d, rfl⟩ | ⟨c', rfl⟩⟩ := exec_cases hreset e
  · cases hrsp
  · cases hrsp
    exact e.trans (congrArg _ (hsame.takeFault_eq i.op c))

/-- The command answers with the fault that `F` names, or, where it names none, completes in a state with `Q`. -/
def EndsAs (i : Instr) (s : State) (F : Option Cause) (Q : State → Prop) : Prop :=
  match F with
  | some c => raises i s c
  | none => ∃ t, exec i s = .next t ∧ Q t

/-- Pseudocode that raises the one cause `F` names, and completes only if `F` names none, makes its command end so. -/
theorem endsAs_of_sat {m : Cmd Word} {F : Option Cause} {Q : State → Prop} (hreset : i ≠ .sysReset)
    (hm : exec i s = answer i.op m s) (h : Sat m s (F = some ·) fun d t => F = none ∧ Q (t.respond d)) :
    EndsAs i s F Q := by
  unfold Sat at h
  cases hrun : m s with
  | ok d t =>
    rw [hrun] at h
    obtain ⟨rfl, hQ⟩ := h
    exact ⟨_, hm.trans (answer_ok hrun), hQ⟩
  | error x t =>
    rw [hrun] at h
    cases x with
    | raise c =>
      subst h
      exact raises_of_rsp hreset (hm.trans (answer_raise hrun)) rfl
    | halt f => exact h.elim

/-- A command that completed did not take a fault. -/
theorem not_raises_of_completed {d : Word} (e : exec i s = .next t) (hrsp : t.rsp = some ⟨none, d⟩) :
    ¬ raises i s c := by
  intro h
  cases h.symm.trans e
  cases hrsp

end Sys2Proof.Machine
end

section
/-! SUPPORT. The encoder's start and its bins (41_encoder.md R141, R143 to R146): each command is its checks and one
shared procedure, whose lemma says what it does and which fault its write-out has. -/

namespace Sys2Proof.Machine

/-- Settles O21: minimality is `numRenorm_spec`; each listed value is the only exponent that
takes its `r` into 256..510. -/
theorem numRenorm_isLeast : Obligations.NumRenorm := by
  intro r h1 h255
  obtain ⟨hge, hle, hleast, -⟩ := numRenorm_spec h1 h255
  refine ⟨⟨hge, hleast⟩, ?_⟩
  have hmax : numRenorm r ≤ 8 := hleast 8 (by omega)
  generalize numRenorm r = n at hge hle hmax
  interval_cases n <;> split_ifs <;> omega

section

variable {s : State} {op : Byte} {f : Unit → Cmd Word}

/-- The engine check of the bin commands (41_encoder.md R144 to R146) fails. -/
theorem answer_of_not_encoding (h : ¬ s.Encoding) :
    answer op (requireEncoding >>= f) s = .next (s.takeFault op .state) :=
  answer_raise (by simp [requireEncoding, show (s.encState != .coding || s.encTrm) = true by
    simpa [State.Encoding, ← Bool.not_eq_true, or_iff_not_imp_left] using h])

/-- The engine check passes and changes nothing. -/
theorem answer_of_encoding (h : s.Encoding) : answer op (requireEncoding >>= f) s = answer op (f ()) s := by
  simp [answer, requireEncoding, h.1, h.2]

end

/-- Settles O22: the two checks, then nine assignments, all of which fit. -/
theorem encStart : Obligations.EncStart := by
  intro s
  split_ifs with h
  · by_cases hc : s.encState = .coding
    · exact answer_of_check_failed (by simpa using hc)
    · exact (answer_of_check_passed (by simpa using hc)).trans
        (answer_of_check_failed (decide_eq_true (h.resolve_left hc)))
  · obtain ⟨hc, ha⟩ := not_or.1 h
    exact (answer_of_check_passed (by simpa using hc)).trans
      ((answer_of_check_passed (decide_eq_false ha)).trans rfl)

/-- Settles O23: the two checks, then `encBin_sat`, which has the interval, the cell and the write-out. -/
theorem encBin_spec : Obligations.EncBin := by
  intro s ctx bin h
  split_ifs with hi he
  · exact answer_of_check_failed (decide_eq_true hi)
  · obtain ⟨cell, hcell⟩ := getElem?_of_lt (s := s) (i := ctx.toNat) (by have := h.ctx_length; omega)
    obtain ⟨hm, hlo, -⟩ := h.encMid he.1
    refine ⟨cell, hcell, endsAs_of_sat (i := .encBin ctx bin) (nomatch ·)
      ((answer_of_check_passed (decide_eq_false hi)).trans (answer_of_encoding he)) ?_⟩
    rw [sat_bind]
    refine (encBin_sat hcell hm hlo h.capOk h.wf).mono (fun _ => id) ?_
    rintro _ t ⟨hT, hrange, hframe⟩
    have htrm : t.encTrm = s.encTrm := by rw [hframe]
    have hctx : t.ctx = s.ctx.set ctx.toNat (adapted s.cfg cell (bin == cell.mps)) := by rw [hframe]
    refine sat_pure.2 ⟨hT.fine, ?_, htrm.trans he.2, hctx, hrange, hT.wrote⟩
    unfold State.EncoderCtxFrame
    rw [hframe]
    rfl
  · exact (answer_of_check_passed (decide_eq_false hi)).trans (answer_of_not_encoding he)

/-- Settles O24: the check, then `encEp_sat`. -/
theorem encBinEp : Obligations.EncBinEp := by
  intro s bin h
  by_cases he : s.Encoding
  · rw [if_neg (not_not.2 he)]
    obtain ⟨hm, hlo, -⟩ := h.encMid he.1
    refine endsAs_of_sat (i := .encBinEp bin) (nomatch ·) (answer_of_encoding he) ?_
    rw [sat_bind]
    refine (encEp_sat hm hlo h.capOk h.wf).mono (fun _ => id) ?_
    rintro _ t ⟨hT, hframe⟩
    have htrm : t.encTrm = s.encTrm := by rw [hframe]
    have hrange : t.encRange = s.encRange := by rw [hframe]
    refine sat_pure.2 ⟨hT.fine, ?_, htrm.trans he.2, hrange, hT.wrote⟩
    unfold State.EncoderFrame
    rw [hframe]
    rfl
  · rw [if_pos he]
    exact answer_of_not_encoding he

/-- ENC_BIN_TRM once its check has passed (41_encoder.md R146): the range loses 2; a 1 takes those 2 and is shifted by
7, a 0 keeps the rest and is doubled if it is below 256. Where something is shifted, `testWriteOut_of` does the rest. -/
theorem encBinTrm_endsAs {s : State} {bin : Bool} (h : s.Live) (he : s.Encoding) :
    let range := s.encRange.toNat - 2
    let n := if bin then 7 else if 256 ≤ range then 0 else 1
    let low := (s.encLow.toNat + if bin then range else 0) * 2 ^ n
    let left := s.encBitsLeft.toNat - n
    EndsAs (.encBinTrm bin) s (s.outFault low left) fun t => s.EncoderFrame t ∧ t.encTrm = bin ∧
      t.encRange.toNat = (if bin then 2 else range) * 2 ^ n ∧ s.WroteOut low left t := by
  intro range n low left
  obtain ⟨hm, hlo, -⟩ := h.encMid he.1
  have hhi := hm.hi
  have hrlo := hm.rlo
  have hrhi := hm.rhi
  have hlow := hm.low_lt hlo
  have hr : (s.encRange.toNat : Int) - 2 = (range : Int) := by omega
  have hb7 : (s.encBitsLeft.toNat : Int) - 7 = ((s.encBitsLeft.toNat - 7 : Nat) : Int) := by omega
  have hb1 : (s.encBitsLeft.toNat : Int) - 1 = ((s.encBitsLeft.toNat - 1 : Nat) : Int) := by omega
  have hrv : (BitVec.ofNat 9 range).toNat = range := by rw [BitVec.toNat_ofNat]; omega
  refine endsAs_of_sat (i := .encBinTrm bin) (nomatch ·) (answer_of_encoding he) ?_
  simp only [sat_bind, sat_get, sat_ite, sat_pure, setEncRange, setEncLow, setEncBitsLeft, setEncTrm, sat_assign,
    sat_modify, hr, hb7, hb1, fitsU_natCast, ofInt_natCast, decide_eq_true_eq, hrv]
  refine ⟨by omega, fun hb => ⟨by omega, by decide, by omega, ?_⟩,
    fun hb => ⟨fun hlt => ⟨by omega, by omega, by omega, ?_⟩, fun hge => ?_⟩⟩
  · have hn : n = 7 := if_pos hb
    have hl : low = (s.encLow.toNat + range) * 2 ^ 7 := by simp only [low, hn, if_pos hb]
    simp only [left, hn, hl, hb]
    refine Sat.mono (testWriteOut_of hm hlo h.capOk h.wf 7 le_rfl ?_ ?_ rfl ?_ ?_ ?_ rfl rfl rfl rfl rfl rfl rfl)
      (fun _ => id) ?post
    case post =>
      rintro _ t ⟨hT, hframe⟩
      exact ⟨hT.fine, by unfold State.EncoderFrame; rw [hframe]; rfl, by rw [hframe]; rfl, by rw [hframe]; rfl,
        hT.wrote⟩
    all_goals simp only [BitVec.toNat_ofNat, BitVec.toNat_ofInt]; omega
  · have hn : n = 1 := by simp only [n, if_neg hb]; exact if_neg (by omega)
    have hl : low = s.encLow.toNat * 2 := by simp only [low, hn, if_neg hb]; omega
    simp only [left, hn, hl, if_neg hb]
    refine Sat.mono (testWriteOut_of hm hlo h.capOk h.wf 1 (by decide) ?_ ?_ rfl ?_ ?_ ?_ rfl rfl rfl rfl rfl rfl rfl)
      (fun _ => id) ?post
    case post =>
      rintro _ t ⟨hT, hframe⟩
      have htrm : (t.respond 0).encTrm = s.encTrm := by rw [hframe]; rfl
      refine ⟨hT.fine, by unfold State.EncoderFrame; rw [hframe]; rfl, ?_, ?_, hT.wrote⟩
      · rw [htrm, he.2, Bool.eq_false_iff.2 hb]
      · rw [hframe]; simp only [State.respond_encRange, BitVec.toNat_ofNat]; omega
    all_goals simp only [BitVec.toNat_ofNat]; omega
  · have hn : n = 0 := by simp only [n, if_neg hb]; exact if_pos (by omega)
    have hl : low = s.encLow.toNat := by simp only [low, hn, if_neg hb]; omega
    simp only [left, hn, hl, if_neg hb]
    refine ⟨if_pos hlo, rfl, ?_, by simp only [State.respond_encRange, hrv]; omega, ?_⟩
    · exact he.2.trans (Bool.eq_false_iff.2 hb).symm
    · unfold State.WroteOut
      rw [if_pos (by omega)]
      exact ⟨rfl, rfl, rfl, rfl, rfl, rfl, rfl⟩

/-- Settles O25: the check, then `encBinTrm_endsAs`. -/
theorem encBinTrm : Obligations.EncBinTrm := by
  intro s bin h
  by_cases he : s.Encoding
  · rw [if_neg (not_not.2 he)]
    exact encBinTrm_endsAs h he
  · rw [if_pos he]
    exact answer_of_not_encoding he

end Sys2Proof.Machine
end

section
/-! SUPPORT. Bit strings put out one after the other make one bit string (20_memory.md R64, R66). -/

namespace Sys2Proof.Machine

namespace Memory

/-- Only the n low bits of the value are written (20_memory.md R64). -/
theorem writeBits_congr {m : Memory} {addr n v w : Nat} (h : ∀ i < n, v.testBit i = w.testBit i) :
    m.writeBits addr n v = m.writeBits addr n w := by
  induction n generalizing m addr with
  | zero => rfl
  | succ n ih =>
    simp only [writeBits]
    rw [h n (by omega), ih fun i hi => h i (by omega)]

/-- Writing `n` bits and then `k` bits is writing all of them at once. -/
theorem writeBits_append (m : Memory) (addr n v : Nat) {k w : Nat} (hw : w < 2 ^ k) :
    m.writeBits addr (n + k) (v * 2 ^ k + w) = (m.writeBits addr n v).writeBits (addr + n) k w := by
  have hbit : ∀ j, (v * 2 ^ k + w).testBit j = if j < k then w.testBit j else v.testBit (j - k) := fun j => by
    rw [Nat.mul_comm, Nat.testBit_two_pow_mul_add _ hw]
  induction n generalizing m addr with
  | zero =>
    rw [Nat.zero_add]
    exact writeBits_congr fun i hi => (hbit i).trans (if_pos hi)
  | succ n ih =>
    rw [show n + 1 + k = n + k + 1 by omega]
    simp only [writeBits]
    rw [ih, hbit, if_neg (by omega), Nat.add_sub_cancel, show addr + 1 + n = addr + (n + 1) by omega]

end Memory

namespace State

variable {s t u : State} {n v : Nat}

theorem Put.refl (hc : s.CapOk) : s.Put 0 0 s :=
  ⟨rfl, rfl, fun _ => ⟨rfl, rfl⟩, fun h => ⟨rfl, hc.fit h⟩, ⟨hc.power, le_rfl, hc.hi⟩, fun _ _ => rfl, Grown.refl s⟩

/-- PutBits after PutBits is PutBits of the joined value. -/
theorem Put.append {k w : Nat} (h : s.Put n v t) (g : t.Put k w u) (hw : w < 2 ^ k) :
    s.Put (n + k) (v * 2 ^ k + w) u := by
  have hcfg : t.cfg = s.cfg := by rw [h.frame]
  have hcount : t.count = s.count := by rw [h.frame]
  refine ⟨?_, ?_, fun hc => ?_, fun hc => ?_, ⟨g.cap.1, h.cap.2.1.trans g.cap.2.1, hcfg ▸ g.cap.2.2⟩, fun hc hfit => ?_,
    h.grown.trans g.grown hcount (by rw [g.pos]; omega)⟩
  · rw [g.frame, h.frame]
  · rw [g.pos, h.pos]; omega
  · obtain ⟨hstore, hcap⟩ := h.counting hc
    obtain ⟨gstore, gcap⟩ := g.counting (hcount.trans hc)
    exact ⟨gstore.trans hstore, gcap.trans hcap⟩
  · obtain ⟨hstore, -⟩ := h.real hc
    obtain ⟨gstore, gfit⟩ := g.real (hcount.trans hc)
    rw [gstore, hstore, h.pos, Memory.writeBits_append _ _ _ _ hw]
    exact ⟨rfl, gfit⟩
  · have hcap := h.keep hc (by omega)
    rw [g.keep (hcount.trans hc) (by rw [hcap, h.pos]; omega), hcap]

/-- PutBits looks at the parameters, COUNT and the bit buffer only. -/
theorem Put.congr {s' t' : State} (h : s.Put n v t) (hcfg : s'.cfg = s.cfg) (hcount : s'.count = s.count)
    (hstore : s'.store = s.store) (hcap : s'.bbCap = s.bbCap) (hpos : s'.wrPos = s.wrPos)
    (ht : t' = { s' with store := t.store, bbCap := t.bbCap, wrPos := t.wrPos }) : s'.Put n v t' := by
  subst ht
  refine ⟨rfl, by rw [hpos]; exact h.pos, ?_, ?_, ?_, ?_, ?_⟩
  · rw [hcount, hstore, hcap]; exact h.counting
  · rw [hcount, hstore, hpos]; exact h.real
  · rw [hcap, hcfg]; exact h.cap
  · rw [hcount, hcap, hpos]; exact h.keep
  · unfold Grown
    rw [hcount, hcap]
    exact h.grown

/-- Bits that were put out had room. -/
theorem Put.had_room (h : s.Put n v t) : s.Room n := by
  have hlt := t.wrPos.isLt
  have hpos := h.pos
  refine ⟨by omega, fun hcount => ?_⟩
  have hfit := (h.real hcount).2
  have hcap := h.cap.2.2
  omega

/-- PutBits and the response make what the statements call appending. -/
theorem Put.appended (h : s.Put n v t) (hw : s.store.wf = true) : s.Appended n v (t.respond 0) :=
  ⟨by rw [h.frame]; rfl, h.pos, h.grown, fun hc => (h.counting hc).1, fun hc => ⟨(h.real hc).2, h.bit hw hc⟩⟩

end State

end Sys2Proof.Machine
end

section
/-! SUPPORT. ENC_FINISH (41_encoder.md R147): the held run with its carry, then the bits left in ENC_LOW, the stop bit
and the zeros, followed as one number. -/

namespace Sys2Proof.Machine

/-- ENC_FINISH up to the carry (41_encoder.md R147): the held run goes out, and ENC_LOW loses its carry. -/
def settleHeld (s : State) : Cmd Unit :=
  if s.encLow.toNat / 2 ^ (32 - s.encBitsLeft.toNat) ≠ 0 then do
    putBits ((s.encBufByte.toNat + 1) % 2 ^ 8) 8
    releaseRun 0x00
    setEncLow ((s.encLow.toNat : Int) - 2 ^ (32 - s.encBitsLeft.toNat))
  else do
    if s.encNumBuf.toNat > 0 then putBits s.encBufByte.toNat 8
    releaseRun 0xFF

/-- ENC_FINISH from there on: the bits left in ENC_LOW, the stop bit, the zeros, and the end of the segment. -/
def finishSegment (bitsLeft : Nat) : Cmd Word := do
  let left ← countOf (24 - (bitsLeft : Int))
  putBits ((← get).encLow.toNat / 2 ^ 8) left
  putBits 1 1
  padZeros
  setEncNumBuf 0
  setEncTrm false
  setEncState .terminated
  return 0

theorem exec_encFinish (s : State) : exec .encFinish s = answer 0x24 (do
    raiseIf (s.encState != .coding || !s.encTrm) .state
    settleHeld s
    finishSegment s.encBitsLeft.toNat) s := by
  simp only [exec, execEncFinish, settleHeld, finishSegment]
  split_ifs <;> simp only [bind_assoc]

variable {s t : State} {n v N : Nat}

/-- What the encoder holds back, as a number (41_encoder.md R140): the held byte and its run of 0xFF. -/
def State.heldValue (s : State) : Nat :=
  if s.encNumBuf.toNat = 0 then 0
  else s.encBufByte.toNat * 256 ^ (s.encNumBuf.toNat - 1) + (256 ^ (s.encNumBuf.toNat - 1) - 1)

/-- From `s` to `t` the `n` bits of `v` went out, and else only ENC_LOW and ENC_NUMBUF have changed. -/
def State.Flushed (s : State) (n v : Nat) (t : State) : Prop :=
  State.Put { s with encLow := t.encLow, encNumBuf := t.encNumBuf } n v t

theorem State.Flushed.put (h : s.Flushed n v t) :
    State.Put { s with encLow := t.encLow, encNumBuf := t.encNumBuf } n v t := h

theorem State.Flushed.refl (hc : s.CapOk) : s.Flushed 0 0 s := State.Put.refl hc

theorem State.Flushed.setRegisters (h : s.Flushed n v t) (low num : BitVec 32) :
    s.Flushed n v { t with encLow := low, encNumBuf := num } := by
  refine h.put.congr rfl rfl rfl rfl rfl ?_
  have hframe := h.put.frame
  simp only at hframe ⊢
  rw [hframe]

theorem State.Flushed.grew (h : s.Flushed n v t) : s.Grew t :=
  State.Grew.trans (t := { s with encLow := t.encLow, encNumBuf := t.encNumBuf })
    (State.Grew.of_eq rfl rfl rfl rfl rfl) h.put.grew

theorem State.Flushed.pos (h : s.Flushed n v t) : t.wrPos.toNat = s.wrPos.toNat + n := h.put.pos

/-- Without room for all of `N` bits an output step fails, and it fails for no other reason; with room it appends. -/
theorem putBits_flushed {k w : Nat} (hc : s.CapOk) (h : s.Flushed n v t) (hk : k ≤ 32) (hw : w < 2 ^ k)
    (hN : n + k ≤ N) :
    Sat (putBits w k) t (fun c => c = s.outCause ∧ ¬ s.Room N) fun _ u =>
      s.Flushed (n + k) (v * 2 ^ k + w) u ∧ u.encLow = t.encLow ∧ u.encNumBuf = t.encNumBuf := by
  have hg := h.grew
  refine (putBits_sat (hg.cap hc) hk hw).mono ?_ ?_
  · rintro c ⟨hcause, hroom⟩
    refine ⟨hcause.trans hg.outCause, fun ⟨hlt, hfit⟩ => hroom ?_⟩
    have hpos := h.pos
    refine ⟨by omega, fun hcount => ?_⟩
    have := hfit (hg.count ▸ hcount)
    rw [hg.cfg]
    omega
  · rintro _ u ⟨hput, -⟩
    have hlow : u.encLow = t.encLow := by rw [hput.frame]
    have hnum : u.encNumBuf = t.encNumBuf := by rw [hput.frame]
    refine ⟨?_, hlow, hnum⟩
    unfold State.Flushed
    rw [hlow, hnum]
    exact h.put.append hput hw

/-- `k` bytes `r` as a number. -/
def byteRun (r : Nat) : Nat → Nat
  | 0 => 0
  | k + 1 => byteRun r k * 256 + r

theorem byteRun_zero (k : Nat) : byteRun 0 k = 0 := by
  induction k with
  | zero => rfl
  | succ k ih => rw [byteRun, ih]

theorem byteRun_ff (k : Nat) : byteRun 0xFF k = 256 ^ k - 1 := by
  induction k with
  | zero => rfl
  | succ k ih =>
    have := Nat.one_le_pow k 256 (by decide)
    rw [byteRun, ih, pow_succ]
    omega

/-- The release loop (41_encoder.md R147): one byte `r` for each held byte after the first. -/
theorem releaseRun_flushed {r : Nat} (hc : s.CapOk) (h : s.Flushed n v t) (hr : r < 256)
    (hN : n + 8 * (t.encNumBuf.toNat - 1) ≤ N) :
    Sat (releaseRun r) t (fun c => c = s.outCause ∧ ¬ s.Room N) fun _ u =>
      s.Flushed (n + 8 * (t.encNumBuf.toNat - 1))
        (v * 256 ^ (t.encNumBuf.toNat - 1) + byteRun r (t.encNumBuf.toNat - 1)) u ∧ u.encLow = t.encLow := by
  unfold releaseRun
  rw [sat_bind, sat_get]
  refine (sat_repeat (P := fun k u => s.Flushed (n + 8 * k) (v * 256 ^ k + byteRun r k) u ∧
    u.encLow = t.encLow ∧ u.encNumBuf.toNat = t.encNumBuf.toNat - k) ⟨?_, rfl, rfl⟩ ?_).mono (fun _ => id) ?_
  · simpa [byteRun] using h
  · rintro k u hk ⟨hu, hlow, hnum⟩
    unfold releaseOne
    simp only [sat_bind, sat_get]
    refine (putBits_flushed (N := N) hc hu (by decide) hr (by omega)).mono (fun _ => id) ?_
    rintro _ w ⟨hw, wlow, wnum⟩
    have hval := toNat_ofInt_sub (w := 32) (a := w.encNumBuf.toNat) (b := 1) (by rw [wnum]; omega) w.encNumBuf.isLt
    unfold setEncNumBuf
    rw [sat_assign, fitsU_iff]
    refine ⟨by rw [wnum]; omega, ?_, wlow.trans hlow, hval.trans (by rw [wnum]; omega)⟩
    have := hw.setRegisters w.encLow (BitVec.ofInt 32 ((w.encNumBuf.toNat : Int) - ((1 : Nat) : Int)))
    rw [show (v * 256 ^ k + byteRun r k) * 2 ^ 8 + r = v * 256 ^ (k + 1) + byteRun r (k + 1) by
      rw [byteRun]; ring] at this
    exact this
  · exact fun _ u hu => ⟨hu.1, hu.2.1⟩

/-- ENC_LOW has 8 bits below those that ENC_FINISH puts out (41_encoder.md R147). -/
theorem two_pow_thirtyTwo_sub {bl : Nat} (h : bl ≤ 24) : 2 ^ (32 - bl) = 2 ^ (24 - bl) * 256 := by
  rw [show 32 - bl = 24 - bl + 8 by omega, pow_add]
  rfl

/-- The interval lies within what the held bytes leave free (41_encoder.md R140): with nothing held there is no carry,
and a carry is at most 1. -/
theorem State.EncMid.interval_lt (hm : s.EncMid) :
    (s.encNumBuf.toNat = 0 → s.encLow.toNat + s.encRange.toNat ≤ 255 * 2 ^ (24 - s.encBitsLeft.toNat)) ∧
      s.encLow.toNat + s.encRange.toNat < 2 * 2 ^ (32 - s.encBitsLeft.toNat) := by
  have hhi := hm.hi
  have e24 : 2 ^ (24 - s.encBitsLeft.toNat) = 2 ^ (23 - s.encBitsLeft.toNat) * 2 := by
    rw [← pow_succ]; congr 1; omega
  have e32 := two_pow_thirtyTwo_sub (bl := s.encBitsLeft.toNat) (by omega)
  have hnone : s.encNumBuf.toNat = 0 →
      s.encLow.toNat + s.encRange.toNat ≤ 255 * 2 ^ (24 - s.encBitsLeft.toNat) := fun h => by
    have := hm.none h
    omega
  refine ⟨hnone, ?_⟩
  have hpos : 0 < 2 ^ (23 - s.encBitsLeft.toNat) := by positivity
  rcases Nat.eq_zero_or_pos s.encNumBuf.toNat with h | h
  · have := hnone h
    omega
  · obtain ⟨h19, -, hlow⟩ := hm.held h
    have : 2 ^ (23 - s.encBitsLeft.toNat) = 2 ^ (19 - s.encBitsLeft.toNat) * 16 := by
      rw [show 23 - s.encBitsLeft.toNat = (19 - s.encBitsLeft.toNat) + 4 by omega, pow_add]; rfl
    omega

/-- The held byte takes a carry without overflow (41_encoder.md R142). -/
theorem State.EncMid.held_lt (hm : s.EncMid) (h : 0 < s.encNumBuf.toNat) : s.encBufByte.toNat < 255 := by
  obtain ⟨-, hne, -⟩ := hm.held h
  have hlt := s.encBufByte.isLt
  have : s.encBufByte.toNat ≠ 255 := fun e => hne (BitVec.eq_of_toNat_eq e)
  omega

/-- The held run goes out: the byte `b`, then `r` for each held 0xFF (41_encoder.md R147). -/
theorem releaseHeld_flushed {b r : Nat} (hc : s.CapOk) (hb : b < 256) (hr : r < 256) (hheld : 0 < s.encNumBuf.toNat)
    (hN : 8 * s.encNumBuf.toNat ≤ N) :
    Sat (putBits b 8) s (fun c => c = s.outCause ∧ ¬ s.Room N) fun _ t =>
      Sat (releaseRun r) t (fun c => c = s.outCause ∧ ¬ s.Room N) fun _ u =>
        s.Flushed (8 * s.encNumBuf.toNat) (b * 256 ^ (s.encNumBuf.toNat - 1) + byteRun r (s.encNumBuf.toNat - 1)) u ∧
          u.encLow = s.encLow := by
  refine (putBits_flushed hc (.refl hc) (by decide) hb (by omega)).mono (fun _ => id) ?_
  rintro _ t ⟨ht, tlow, tnum⟩
  have hrun := releaseRun_flushed (N := N) hc ht hr (by rw [tnum]; omega)
  rw [tnum, show 0 + 8 + 8 * (s.encNumBuf.toNat - 1) = 8 * s.encNumBuf.toNat by omega,
    show 0 * 2 ^ 8 + b = b by omega] at hrun
  exact hrun.mono (fun _ => id) fun _ u hu => ⟨hu.1, hu.2.trans tlow⟩

/-- What `settleHeld` puts out is the held run with the carry added in (41_encoder.md R140, R147). -/
theorem settleHeld_sat (hm : s.EncMid) (hc : s.CapOk) (hN : 8 * s.encNumBuf.toNat ≤ N) :
    Sat (settleHeld s) s (fun c => c = s.outCause ∧ ¬ s.Room N) fun _ t =>
      s.Flushed (8 * s.encNumBuf.toNat) (s.heldValue + s.encLow.toNat / 2 ^ (32 - s.encBitsLeft.toNat)) t ∧
        t.encLow.toNat = s.encLow.toNat % 2 ^ (32 - s.encBitsLeft.toNat) := by
  obtain ⟨hnone, htwo⟩ := hm.interval_lt
  have hhi := hm.hi
  have hrlo := hm.rlo
  have e32 := two_pow_thirtyTwo_sub (bl := s.encBitsLeft.toNat) (by omega)
  have hKI : (2 : Int) ^ (32 - s.encBitsLeft.toNat) = ((2 ^ (32 - s.encBitsLeft.toNat) : Nat) : Int) := by norm_cast
  unfold settleHeld State.heldValue
  rw [hKI]
  generalize 2 ^ (32 - s.encBitsLeft.toNat) = K at *
  have hone := Nat.one_le_pow (s.encNumBuf.toNat - 1) 256 (by decide)
  simp only [sat_ite, sat_bind]
  refine ⟨fun hcarry => ?_, fun hcarry => ⟨fun hheld => ?_, fun hheld => ?_⟩⟩
  · have hge : K ≤ s.encLow.toNat := by
      by_contra hlt
      exact hcarry (Nat.div_eq_of_lt (not_le.1 hlt))
    have hheld : 0 < s.encNumBuf.toNat := Nat.pos_of_ne_zero fun hz => by have := hnone hz; omega
    have hbyte := hm.held_lt hheld
    refine (releaseHeld_flushed hc (Nat.mod_lt _ (by decide)) (by decide) hheld hN).mono (fun _ => id) fun _ t ht =>
      ht.mono (fun _ => id) ?_
    rintro _ u ⟨hu, ulow⟩
    rw [byteRun_zero, Nat.mod_eq_of_lt (by omega), Nat.add_zero, Nat.add_mul, Nat.one_mul] at hu
    have hdiv : s.encLow.toNat / K = 1 := Nat.div_eq_of_lt_le (by omega) (by omega)
    have hlt : s.encLow.toNat - K < 2 ^ 32 := by have := s.encLow.isLt; omega
    unfold setEncLow
    rw [sat_assign, ← Nat.cast_sub hge, fitsU_natCast, ofInt_natCast, decide_eq_true_eq, if_neg (by omega), hdiv]
    refine ⟨hlt, ?_, ?_⟩
    · have := hu.setRegisters (BitVec.ofNat 32 (s.encLow.toNat - K)) u.encNumBuf
      rwa [show s.encBufByte.toNat * 256 ^ (s.encNumBuf.toNat - 1) + (256 ^ (s.encNumBuf.toNat - 1) - 1) + 1 =
        s.encBufByte.toNat * 256 ^ (s.encNumBuf.toNat - 1) + 256 ^ (s.encNumBuf.toNat - 1) by omega]
    · have hmod := Nat.div_add_mod s.encLow.toNat K
      rw [hdiv] at hmod
      simp only [BitVec.toNat_ofNat, Nat.mod_eq_of_lt hlt]
      omega
  · have hlt : s.encLow.toNat < K := by
      have := Nat.div_eq_zero_iff.1 (not_not.1 hcarry)
      omega
    rw [Nat.div_eq_of_lt hlt, Nat.mod_eq_of_lt hlt, if_neg (by omega)]
    refine (releaseHeld_flushed hc s.encBufByte.isLt (by decide) hheld hN).mono (fun _ => id) fun _ t ht =>
      ht.mono (fun _ => id) ?_
    rintro _ u ⟨hu, ulow⟩
    rw [byteRun_ff] at hu
    exact ⟨hu, by rw [ulow]⟩
  · have hlt : s.encLow.toNat < K := by
      have := Nat.div_eq_zero_iff.1 (not_not.1 hcarry)
      omega
    rw [Nat.div_eq_of_lt hlt, Nat.mod_eq_of_lt hlt, if_pos (by omega)]
    have hrun := releaseRun_flushed (r := 0xFF) (N := N) hc (.refl hc) (by decide) (by omega)
    rw [show s.encNumBuf.toNat - 1 = 0 by omega] at hrun
    refine hrun.mono (fun _ => id) ?_
    rintro _ u ⟨hu, ulow⟩
    rw [show 8 * s.encNumBuf.toNat = 0 by omega]
    exact ⟨hu, by rw [ulow]⟩

/-- `while BB_WR_POS mod 8 != 0: PutBits(0, 1)`: the value is shifted up to the byte boundary. -/
theorem padZeros_flushed (hc : s.CapOk) (h : s.Flushed n v t) (hN : n + alignCount t.wrPos.toNat ≤ N) :
    Sat padZeros t (fun c => c = s.outCause ∧ ¬ s.Room N) fun _ u =>
      s.Flushed (n + alignCount t.wrPos.toNat) (v * 2 ^ alignCount t.wrPos.toNat) u ∧ u.encLow = t.encLow := by
  unfold padZeros
  rw [sat_bind, sat_get]
  refine sat_repeat (P := fun k u => s.Flushed (n + k) (v * 2 ^ k) u ∧ u.encLow = t.encLow) ⟨?_, rfl⟩ ?_
  · simpa using h
  · rintro k u hk ⟨hu, ulow⟩
    refine (putBits_flushed (N := N) hc hu (by decide) (by decide) (by omega)).mono (fun _ => id) ?_
    rintro _ w ⟨hw, wlow, -⟩
    rw [show v * 2 ^ k * 2 ^ 1 + 0 = v * 2 ^ (k + 1) by ring] at hw
    exact ⟨hw, wlow.trans ulow⟩

/-- The bits left in ENC_LOW, the stop bit and the zeros follow the `n` bits of `v`; the segment is closed. -/
theorem finishSegment_sat {low pad : Nat} (hm : s.EncMid) (hc : s.CapOk) (ht : s.Flushed n v t)
    (hlow : t.encLow.toNat = low % 2 ^ (32 - s.encBitsLeft.toNat)) (hn : n % 8 = 0)
    (hpad : pad = (8 - (24 - s.encBitsLeft.toNat + 1) % 8) % 8) (hN : N = n + (24 - s.encBitsLeft.toNat) + 1 + pad) :
    Sat (finishSegment s.encBitsLeft.toNat) t (fun c => c = s.outCause ∧ ¬ s.Room N) fun d u => d = 0 ∧
      State.Put { s with encLow := t.encLow, encNumBuf := 0, encTrm := false, encState := .terminated } N
        (((v * 2 ^ (24 - s.encBitsLeft.toNat) + low % 2 ^ (32 - s.encBitsLeft.toNat) / 2 ^ 8) * 2 + 1) * 2 ^ pad)
        u := by
  have hhi := hm.hi
  have ha := hm.aligned
  have hbits : low % 2 ^ (32 - s.encBitsLeft.toNat) / 2 ^ 8 < 2 ^ (24 - s.encBitsLeft.toNat) := by
    rw [Nat.div_lt_iff_lt_mul (by decide), ← pow_add,
      show 24 - s.encBitsLeft.toNat + 8 = 32 - s.encBitsLeft.toNat by omega]
    exact Nat.mod_lt _ (by positivity)
  unfold finishSegment
  simp only [sat_bind, sat_get, sat_pure, setEncNumBuf, setEncTrm, setEncState, sat_assign, sat_modify]
  refine countOf_sat (by omega) ?_
  rw [show (24 - (s.encBitsLeft.toNat : Int)).toNat = 24 - s.encBitsLeft.toNat by omega, hlow]
  refine (putBits_flushed (N := N) hc ht (by omega) hbits (by omega)).mono (fun _ => id) ?_
  rintro _ u ⟨hu, ulow, -⟩
  refine (putBits_flushed (N := N) hc hu (by decide) (by decide) (by omega)).mono (fun _ => id) ?_
  rintro _ w ⟨hw, wlow, -⟩
  have hcount : alignCount w.wrPos.toNat = pad := by
    have := hw.pos
    unfold alignCount
    omega
  have hzeros := padZeros_flushed (N := N) hc hw (by omega)
  rw [hcount, ← hN] at hzeros
  refine hzeros.mono (fun _ => id) ?_
  rintro _ x ⟨hx, xlow⟩
  refine ⟨rfl, trivial, hx.put.congr rfl rfl rfl rfl rfl ?_⟩
  have hframe := hx.put.frame
  simp only at hframe ⊢
  rw [hframe, xlow, wlow, ulow]
  rfl

theorem EndsAs.ite {i : Instr} {c : Cause} {p : Prop} [Decidable p] {Q : State → Prop}
    (h : EndsAs i s (if p then none else some c) Q) :
    if p then ∃ t, exec i s = .next t ∧ Q t else raises i s c := by
  split_ifs at h ⊢ <;> exact h

/-- ENC_FINISH once its check has passed: `settleHeld` puts out the held run with its carry, `finishSegment` the rest;
the carry and the bits below it make up ENC_LOW again. -/
theorem encFinish_endsAs (h : s.Live) (he : s.encState = .coding ∧ s.encTrm = true) :
    let left := 24 - s.encBitsLeft.toNat
    let pad := (8 - (left + 1) % 8) % 8
    let N := 8 * s.encNumBuf.toNat + left + 1 + pad
    EndsAs .encFinish s (if s.Room N then none else some s.outCause) fun t => t.wrPos.toNat % 8 = 0 ∧
      State.Appended { s with
        encLow := BitVec.ofNat 32 (s.encLow.toNat % 2 ^ (32 - s.encBitsLeft.toNat)), encNumBuf := 0
        encTrm := false, encState := .terminated } N
        (((s.heldValue * 2 ^ left + s.encLow.toNat / 2 ^ 8) * 2 + 1) * 2 ^ pad) t := by
  intro left pad N
  obtain ⟨hm, -, -⟩ := h.encMid he.1
  have hhi := hm.hi
  have ha := hm.aligned
  have hF : ∀ c, c = s.outCause ∧ ¬ s.Room N → (if s.Room N then none else some s.outCause) = some c := by
    rintro _ ⟨rfl, hroom⟩
    exact if_neg hroom
  refine endsAs_of_sat (i := .encFinish) (nomatch ·)
    ((exec_encFinish s).trans (answer_of_check_passed (by simp [he.1, he.2]))) ?_
  rw [sat_bind]
  refine (settleHeld_sat (N := N) hm h.capOk (by omega)).mono hF ?_
  rintro _ t ⟨ht, tlow⟩
  refine (finishSegment_sat hm h.capOk ht tlow (by omega) rfl rfl).mono hF ?_
  rintro _ u ⟨rfl, hput⟩
  have hlow : t.encLow = BitVec.ofNat 32 (s.encLow.toNat % 2 ^ (32 - s.encBitsLeft.toNat)) := by
    rw [← tlow, BitVec.ofNat_toNat, BitVec.setWidth_eq]
  have hvalue : (s.heldValue + s.encLow.toNat / 2 ^ (32 - s.encBitsLeft.toNat)) * 2 ^ left +
      s.encLow.toNat % 2 ^ (32 - s.encBitsLeft.toNat) / 2 ^ 8 = s.heldValue * 2 ^ left + s.encLow.toNat / 2 ^ 8 := by
    have hk : 2 ^ (32 - s.encBitsLeft.toNat) = 2 ^ 8 * 2 ^ left := by rw [← pow_add]; congr 1; omega
    have hdiv := Nat.div_add_mod s.encLow.toNat (2 ^ (32 - s.encBitsLeft.toNat))
    rw [hk] at hdiv ⊢
    rw [mul_assoc] at hdiv
    rw [← hdiv, Nat.mul_add_div (by decide), hdiv]
    ring
  have hroom : s.Room N := hput.had_room
  rw [hvalue, hlow] at hput
  refine ⟨if_pos hroom, ?_, hput.appended h.wf⟩
  have := hput.pos
  simp only [State.respond_wrPos] at this ⊢
  omega

/-- Settles O26: the check, then `encFinish_endsAs`. -/
theorem encFinish : Obligations.EncFinish := by
  intro s h
  by_cases he : s.encState = .coding ∧ s.encTrm = true
  · rw [if_neg (not_not.2 he)]
    exact (encFinish_endsAs h he).ite
  · rw [if_pos he]
    refine (exec_encFinish s).trans (answer_of_check_failed ?_)
    rw [not_and_or] at he
    simpa using he

end Sys2Proof.Machine
end

section
/-! SUPPORT. Numbers read from the store (20_memory.md R61, R63): strings side by side, whole bytes, and the held run as
WriteOut releases it (41_encoder.md R142). -/

namespace Sys2Proof.Machine

namespace Memory

variable {m : Memory}

theorem readBits_append (m : Memory) (addr n k : Nat) :
    m.readBits addr (n + k) = m.readBits addr n * 2 ^ k + m.readBits (addr + n) k := by
  induction n generalizing addr with
  | zero => simp [readBits]
  | succ n ih =>
    rw [show n + 1 + k = n + k + 1 by omega]
    simp only [readBits]
    rw [ih, show addr + 1 + n = addr + (n + 1) by omega, pow_add]
    ring

/-- A stretch of the store that holds the bits of `v` reads as `v`. -/
theorem readBits_of_bits {addr n v : Nat}
    (h : ∀ p, addr ≤ p → p < addr + n → m.bit p = v.testBit (n - 1 - (p - addr))) :
    m.readBits addr n = v % 2 ^ n := by
  rw [← readBits_writeBits wf_nil addr n v]
  refine readBits_congr fun p h1 h2 => (h p h1 h2).trans ?_
  rw [bit_writeBits wf_nil, if_pos ⟨h1, h2⟩]

theorem readBits_byte (m : Memory) (k : Nat) : m.readBits (8 * k) 8 = (m.read k).toNat := by
  have hlt := (m.read k).isLt
  rw [readBits_of_bits (v := (m.read k).toNat), Nat.mod_eq_of_lt hlt]
  intro p h1 h2
  have hbit := m.bit_of_byte k (p - 8 * k) (by omega)
  rw [show 8 * k + (p - 8 * k) = p by omega] at hbit
  rw [hbit, BitVec.testBit_toNat]

/-- A held byte `b` and `j` bytes 0xFF, released with the carry `c` (41_encoder.md R142): as one number they are the
held run plus the carry, which turns each 0xFF into 0x00 on its way to the held byte. -/
theorem readBits_released {k j b c : Nat} (hc : c ≤ 1) (hfirst : (m.read k).toNat = b + c)
    (hrest : ∀ i, k < i → i < k + (j + 1) → (m.read i).toNat = (0xFF + c) % 256) :
    m.readBits (8 * k) (8 * (j + 1)) = b * 256 ^ j + (256 ^ j - 1) + c := by
  induction j with
  | zero => simpa [hfirst] using readBits_byte m k
  | succ j ih =>
    have hone := Nat.one_le_pow j 256 (by decide)
    rw [show 8 * (j + 1 + 1) = 8 * (j + 1) + 8 by omega, readBits_append,
      ih fun i h1 h2 => hrest i h1 (by omega), show 8 * k + 8 * (j + 1) = 8 * (k + (j + 1)) by omega, readBits_byte,
      hrest _ (by omega) (by omega), pow_succ 256 j]
    generalize 256 ^ j = P at hone
    rw [← mul_assoc]
    obtain rfl | rfl : c = 0 ∨ c = 1 := by omega
    all_goals omega

end Memory

end Sys2Proof.Machine
end

section
/-! SUPPORT. What the encoder has coded so far is one number (41_encoder.md R140): the bits put out, the held run and
ENC_LOW. WriteOut moves bytes between the three and leaves that number alone: this is carry propagation (R148). -/

namespace Sys2Proof.Machine

variable {s t : State} {low bl base : Nat}

/-- The bits put out since bit `base`, the held bytes and ENC_LOW = `low` as one number, a carry in `low` added in: L of
41_encoder.md R140. -/
def State.codedNumber (s : State) (base low bl : Nat) : Nat :=
  (s.store.readBits base (s.wrPos.toNat - base) * 256 ^ s.encNumBuf.toNat + s.heldValue) * 2 ^ (32 - bl) + low

/-- How many bits that number has: length(S) of R140. -/
def State.codedLength (s : State) (base bl : Nat) : Nat :=
  s.wrPos.toNat - base + 8 * s.encNumBuf.toNat + (32 - bl)

theorem State.heldValue_of_none (h : s.encNumBuf.toNat = 0) : s.heldValue = 0 := if_pos h

theorem State.heldValue_of_one (h : s.encNumBuf.toNat = 1) : s.heldValue = s.encBufByte.toNat := by
  simp [heldValue, h]

theorem State.heldValue_of_succ {j : Nat} (h : s.encNumBuf.toNat = j + 1) :
    s.heldValue = s.encBufByte.toNat * 256 ^ j + (256 ^ j - 1) := by
  simp [heldValue, h]

theorem State.heldValue_congr (hnum : t.encNumBuf = s.encNumBuf) (hbyte : t.encBufByte = s.encBufByte) :
    t.heldValue = s.heldValue := by
  unfold heldValue
  rw [hnum, hbyte]

/-- One more 0xFF behind a held byte. -/
theorem State.heldValue_hold (hnum : t.encNumBuf.toNat = s.encNumBuf.toNat + 1) (hheld : 0 < s.encNumBuf.toNat)
    (hbyte : t.encBufByte = s.encBufByte) : t.heldValue = s.heldValue * 256 + 0xFF := by
  obtain ⟨j, hj⟩ := Nat.exists_eq_add_one.2 hheld
  have hone := Nat.one_le_pow j 256 (by decide)
  rw [heldValue_of_succ (hnum.trans (congrArg (· + 1) hj)), heldValue_of_succ hj, hbyte, pow_succ, ← mul_assoc]
  generalize 256 ^ j = P at hone
  omega

/-- Moving the lead byte, with its carry, out of ENC_LOW leaves the number alone if the bytes take it in. -/
theorem codedNumber_of_lead (hbl : bl ≤ 24)
    (h : t.store.readBits base (t.wrPos.toNat - base) * 256 ^ t.encNumBuf.toNat + t.heldValue =
      (s.store.readBits base (s.wrPos.toNat - base) * 256 ^ s.encNumBuf.toNat + s.heldValue) * 256 +
        low / 2 ^ (24 - bl)) :
    t.codedNumber base (low % 2 ^ (24 - bl)) (bl + 8) = s.codedNumber base low bl := by
  have hlow := Nat.div_add_mod low (2 ^ (24 - bl))
  unfold State.codedNumber
  rw [h, show 32 - (bl + 8) = 24 - bl by omega, two_pow_thirtyTwo_sub hbl]
  calc _ = (s.store.readBits base (s.wrPos.toNat - base) * 256 ^ s.encNumBuf.toNat + s.heldValue) *
        (2 ^ (24 - bl) * 256) + (2 ^ (24 - bl) * (low / 2 ^ (24 - bl)) + low % 2 ^ (24 - bl)) := by ring
    _ = _ := by rw [hlow]

/-- The store up to the write cursor after the held run was released with its carry (41_encoder.md R142). -/
theorem readBits_of_released {carry : Nat} (hbase : base ≤ s.wrPos.toNat) (ha : s.wrPos.toNat % 8 = 0)
    (hheld : 0 < s.encNumBuf.toNat) (hbyte : s.encBufByte.toNat < 255) (hcarry : carry ≤ 1)
    (hpos : t.wrPos.toNat = s.wrPos.toNat + 8 * s.encNumBuf.toNat)
    (hread : ∀ k, (t.store.read k).toNat =
      if k = s.wrPos.toNat / 8 then (s.encBufByte.toNat + carry) % 256
      else if s.wrPos.toNat / 8 < k ∧ k < s.wrPos.toNat / 8 + s.encNumBuf.toNat then (0xFF + carry) % 256
      else (s.store.read k).toNat) :
    t.store.readBits base (t.wrPos.toNat - base) =
      s.store.readBits base (s.wrPos.toNat - base) * 256 ^ s.encNumBuf.toNat + (s.heldValue + carry) := by
  obtain ⟨j, hj⟩ := Nat.exists_eq_add_one.2 hheld
  have hbelow : t.store.readBits base (s.wrPos.toNat - base) = s.store.readBits base (s.wrPos.toNat - base) := by
    refine Memory.readBits_congr fun p _ hp => ?_
    have := hread (p / 8)
    rw [if_neg (by omega), if_neg (by omega)] at this
    unfold Memory.bit
    rw [BitVec.eq_of_toNat_eq this]
  have hrun := Memory.readBits_released (m := t.store) (k := s.wrPos.toNat / 8) (j := j) (b := s.encBufByte.toNat)
    hcarry (by rw [hread, if_pos rfl]; omega)
    fun i h1 h2 => by rw [hread, if_neg (by omega), if_pos (by omega)]
  rw [show 8 * (s.wrPos.toNat / 8) = s.wrPos.toNat by omega] at hrun
  rw [show t.wrPos.toNat - base = s.wrPos.toNat - base + 8 * (j + 1) by omega, Memory.readBits_append, hbelow,
    show base + (s.wrPos.toNat - base) = s.wrPos.toNat by omega, hrun, State.heldValue_of_succ hj, hj, pow_mul]
  rfl

/-- WriteOut leaves the coded number and its length alone (41_encoder.md R142, R148): a lead byte 0xFF joins the held
run, any other releases it, its carry running up to the held byte, which is not 0xFF. -/
theorem State.WroteOut.coded (h : s.WroteOut low bl t) (hreal : s.count = false) (hbase : base ≤ s.wrPos.toNat)
    (ha : s.wrPos.toNat % 8 = 0) (hbl : bl ≤ 24) (hnone : s.encNumBuf.toNat = 0 → low < 255 * 2 ^ (24 - bl))
    (htwo : low < 2 * 2 ^ (32 - bl)) (hbyte : 0 < s.encNumBuf.toNat → s.encBufByte.toNat < 255) :
    t.codedNumber base t.encLow.toNat t.encBitsLeft.toNat = s.codedNumber base low bl ∧
      t.codedLength base t.encBitsLeft.toNat = s.codedLength base bl := by
  have hlead : s.encNumBuf.toNat = 0 → low / 2 ^ (24 - bl) < 255 := fun hz =>
    (Nat.div_lt_iff_lt_mul (by positivity)).2 (hnone hz)
  have hcarry : low / 2 ^ (24 - bl) < 512 := by
    rw [two_pow_thirtyTwo_sub hbl] at htwo
    rw [Nat.div_lt_iff_lt_mul (by positivity)]
    omega
  unfold State.WroteOut at h
  split_ifs at h with h12 hff hz
  · obtain ⟨tlow, tbl, tnum, tbyte, tpos, tstore, -⟩ := h
    unfold State.codedNumber State.codedLength
    rw [tlow, tbl, tnum, tpos, tstore, State.heldValue_congr tnum tbyte]
    exact ⟨rfl, rfl⟩
  · obtain ⟨tlow, tbl, tnum, tbyte, tpos, tstore, -⟩ := h
    have hheld : 0 < s.encNumBuf.toNat := Nat.pos_of_ne_zero fun hz => by have := hlead hz; omega
    rw [tlow, tbl]
    refine ⟨codedNumber_of_lead hbl ?_, by unfold State.codedLength; rw [tpos, tnum]; omega⟩
    rw [tpos, tstore, State.heldValue_hold tnum hheld tbyte, tnum, hff, pow_succ]
    ring
  · obtain ⟨tlow, tbl, tnum, tbyte, tpos, tstore, -⟩ := h
    rw [tlow, tbl]
    refine ⟨codedNumber_of_lead hbl ?_, by unfold State.codedLength; rw [tpos, tnum]; omega⟩
    rw [tpos, tstore, State.heldValue_of_one tnum, State.heldValue_of_none hz, tnum, hz, tbyte,
      Nat.mod_eq_of_lt (by have := hlead hz; omega)]
    ring
  · obtain ⟨tlow, tbl, tnum, tbyte, tpos, -, -, tread⟩ := h
    have hheld := Nat.pos_of_ne_zero hz
    rw [tlow, tbl]
    refine ⟨codedNumber_of_lead hbl ?_, by unfold State.codedLength; rw [tpos, tnum]; omega⟩
    rw [readBits_of_released hbase ha hheld (hbyte hheld) (by omega) tpos (tread hreal), State.heldValue_of_one tnum,
      tnum, tbyte]
    have hmod := Nat.div_add_mod (low / 2 ^ (24 - bl)) 256
    omega

end Sys2Proof.Machine
end

section
/-! SUPPORT. A coded segment against the coder with unbounded-precision `low` (41_encoder.md R148): `Tracks`, kept by
every bin. -/

namespace Sys2Proof.Machine

variable {o s t : State} {d d' : Ideal} {i : Instr} {data : Word}

/-- In `s` the encoder is within a segment started in `o`, and stands where the unbounded coder stands in `d`: the same
interval, counted from the bit position of `o` (41_encoder.md R140), and the same contexts. -/
structure State.Tracks (o s : State) (d : Ideal) : Prop where
  live : s.Live
  coding : s.encState = .coding
  real : s.count = false
  cfg : s.cfg = o.cfg
  start : o.wrPos.toNat ≤ s.wrPos.toNat
  aligned : o.wrPos.toNat % 8 = 0
  before : ∀ p < o.wrPos.toNat, s.store.bit p = o.store.bit p
  ctx : s.ctx = d.ctx
  range : s.encRange.toNat = d.range
  low : s.codedNumber o.wrPos.toNat s.encLow.toNat s.encBitsLeft.toNat = d.low
  length : s.codedLength o.wrPos.toNat s.encBitsLeft.toNat = 9 + d.doublings

/-- A command that completes leads from a live state to a live one. -/
theorem live_of_completed (h : s.Live) (hreset : i ≠ .sysReset) (e : exec i s = .next t)
    (hrsp : t.rsp = some ⟨none, data⟩) : t.Live := by
  obtain ⟨u, ⟨-, hfault, -⟩, ⟨d, rfl⟩ | ⟨c, rfl⟩⟩ := exec_cases hreset e
  · exact ⟨exec_inv h e, hfault.trans h.2⟩
  · cases hrsp

theorem EndsAs.of_completed {F : Option Cause} {Q : State → Prop} (h : EndsAs i s F Q) (e : exec i s = .next t)
    (hrsp : t.rsp = some ⟨none, data⟩) : Q t := by
  cases F with
  | some c => exact absurd h (not_raises_of_completed e hrsp)
  | none =>
    obtain ⟨u, eu, hQ⟩ := h
    cases eu.symm.trans e
    exact hQ

/-- `t` is `s` after a bin (41_encoder.md R144 to R146): the interval was shifted by `n` and its low end moved up by
`add`, staying inside the old interval, and TestWriteOut ran. -/
structure State.CodedBin (s : State) (n add : Nat) (t : State) : Prop where
  shift : n ≤ 7
  inside : s.encLow.toNat * 2 ^ n + add < (s.encLow.toNat + s.encRange.toNat) * 2 ^ n
  wrote : s.WroteOut (s.encLow.toNat * 2 ^ n + add) (s.encBitsLeft.toNat - n) t
  encState : t.encState = s.encState
  count : t.count = s.count

/-- A bin that does to the encoder what the unbounded coder does: the coded number is shifted and grows by `add`. -/
theorem State.Tracks.step {n add : Nat} (h : o.Tracks s d) (e : exec i s = .next t)
    (hrsp : t.rsp = some ⟨none, data⟩) (hempty : empties i = false) (hbin : s.CodedBin n add t) (hctx : t.ctx = d'.ctx)
    (hrange : t.encRange.toNat = d'.range) (hd : d'.low = d.low * 2 ^ n + add)
    (hdoublings : d'.doublings = d.doublings + n) : o.Tracks t d' := by
  obtain ⟨hn, hin, hw, hstate, hcount⟩ := hbin
  have hlive := live_of_completed h.live (fun hi => by subst hi; cases hempty) e hrsp
  obtain ⟨hm, hlo, -⟩ := h.live.encMid h.coding
  have hhi := hm.hi
  obtain ⟨hnone, htwo⟩ := hm.interval_lt
  obtain ⟨hpos, hbelow⟩ := appendOnly s t i h.live hempty e hlive.2
  have hpow : ∀ k, s.encBitsLeft.toNat ≤ k →
      2 ^ (k - (s.encBitsLeft.toNat - n)) = 2 ^ (k - s.encBitsLeft.toNat) * 2 ^ n := fun k hk => by
    rw [← pow_add]; congr 1; omega
  obtain ⟨hnumber, hlength⟩ := hw.coded (base := o.wrPos.toNat) h.real h.start hm.aligned (by omega)
    (fun hz => hin.trans_le (by
      rw [hpow 24 (by omega), ← mul_assoc]
      exact Nat.mul_le_mul_right _ (hnone hz)))
    (hin.trans_le (by
      rw [hpow 32 (by omega), ← mul_assoc]
      exact Nat.mul_le_mul_right _ htwo.le))
    hm.held_lt
  refine ⟨hlive, hstate.trans h.coding, hcount.trans h.real, (exec_cfg e).trans h.cfg, h.start.trans hpos, h.aligned,
    fun p hp => (hbelow p (hp.trans_le h.start)).trans (h.before p hp), hctx, hrange, ?_, ?_⟩
  · have := h.low
    unfold State.codedNumber at this
    rw [hnumber, hd, ← this]
    unfold State.codedNumber
    rw [hpow 32 (by omega)]
    ring
  · have := h.length
    unfold State.codedLength at this
    rw [hlength, hdoublings]
    unfold State.codedLength
    omega

/-- The unbounded coder after the terminating bin: the sub-interval of width 2, shifted by 7 (41_encoder.md R146). -/
def Ideal.terminate (d : Ideal) : Ideal := ⟨(d.low + (d.range - 2)) * 2 ^ 7, 256, d.doublings + 7, d.ctx⟩

theorem State.EncoderFrame.encState_eq (h : s.EncoderFrame t) : t.encState = s.encState := by
  unfold State.EncoderFrame at h
  rw [h]

theorem State.EncoderFrame.count_eq (h : s.EncoderFrame t) : t.count = s.count := by
  unfold State.EncoderFrame at h
  rw [h]

theorem State.EncoderFrame.ctx_eq (h : s.EncoderFrame t) : t.ctx = s.ctx := by
  unfold State.EncoderFrame at h
  rw [h]

theorem State.EncoderCtxFrame.encState_eq (h : s.EncoderCtxFrame t) : t.encState = s.encState := by
  unfold State.EncoderCtxFrame at h
  rw [h]

theorem State.EncoderCtxFrame.count_eq (h : s.EncoderCtxFrame t) : t.count = s.count := by
  unfold State.EncoderCtxFrame at h
  rw [h]

/-- A context bin (41_encoder.md R144). -/
theorem tracks_context {ctx : Byte} {bin : Bool} (h : o.Tracks s d) (e : exec (.encBin ctx bin) s = .next t)
    (hrsp : t.rsp = some ⟨none, data⟩) : o.Tracks t (Ideal.code o.cfg d (.context ctx bin)) := by
  obtain ⟨hm, -, -⟩ := h.live.encMid h.coding
  have hspec := encBin_spec s ctx bin h.live
  split_ifs at hspec with hi he
  · exact absurd hspec (not_raises_of_completed e hrsp)
  · obtain ⟨cell, hcell, hends⟩ := hspec
    obtain ⟨hframe, -, hctx, hrange, hw⟩ := EndsAs.of_completed (i := .encBin ctx bin) (s := s) hends e hrsp
    simp only [Ideal.code, ← h.ctx, hcell, ← h.cfg, ← h.range]
    have hlps := lpsWidth_le h.live.ranges cell.state hm.rlo hm.rhi
    have hlps2 := (lpsWidth_bounds h.live.ranges cell.state s.encRange.toNat).1
    rw [Nat.add_mul] at hw
    refine h.step e hrsp rfl ⟨binShift_le h.live.ranges _ _ _, ?_, hw, hframe.encState_eq, hframe.count_eq⟩ hctx hrange
      (Nat.add_mul ..) rfl
    rw [← Nat.add_mul]
    refine Nat.mul_lt_mul_of_pos_right (Nat.add_lt_add_left ?_ _) (by positivity)
    split_ifs <;> omega
  · exact absurd hspec (not_raises_of_completed e hrsp)

/-- A bypass bin (41_encoder.md R145). -/
theorem tracks_bypass {bin : Bool} (h : o.Tracks s d) (e : exec (.encBinEp bin) s = .next t)
    (hrsp : t.rsp = some ⟨none, data⟩) : o.Tracks t (Ideal.code o.cfg d (.bypass bin)) := by
  obtain ⟨hm, -, -⟩ := h.live.encMid h.coding
  have hrlo := hm.rlo
  have hspec := encBinEp s bin h.live
  split at hspec
  · exact absurd hspec (not_raises_of_completed e hrsp)
  · obtain ⟨hframe, -, hrange, hw⟩ := EndsAs.of_completed (i := .encBinEp bin) (s := s) hspec e hrsp
    rw [show 2 * s.encLow.toNat = s.encLow.toNat * 2 ^ 1 by omega] at hw
    refine h.step e hrsp rfl ⟨by decide, ?_, hw, hframe.encState_eq, hframe.count_eq⟩ (hframe.ctx_eq.trans h.ctx)
      ?_ ?_ rfl
    · split_ifs <;> omega
    · exact (congrArg BitVec.toNat hrange).trans h.range
    · show 2 * d.low + _ = _
      rw [h.range]
      omega

/-- A terminate bin 0 (41_encoder.md R146). -/
theorem tracks_goOn (h : o.Tracks s d) (e : exec (.encBinTrm false) s = .next t)
    (hrsp : t.rsp = some ⟨none, data⟩) : o.Tracks t (Ideal.code o.cfg d .goOn) := by
  obtain ⟨hm, -, -⟩ := h.live.encMid h.coding
  have hrlo := hm.rlo
  have hspec := encBinTrm s false h.live
  split at hspec
  · exact absurd hspec (not_raises_of_completed e hrsp)
  · obtain ⟨hframe, -, hrange, hw⟩ := EndsAs.of_completed (i := .encBinTrm false) (s := s) hspec e hrsp
    simp only [Bool.false_eq_true, if_false, Nat.add_zero] at hrange hw
    simp only [Ideal.code, ← h.range]
    by_cases hlt : s.encRange.toNat - 2 < 256
    · rw [if_neg (by omega)] at hrange hw
      rw [if_pos hlt]
      refine h.step (add := 0) e hrsp rfl ⟨by decide, ?_, hw, hframe.encState_eq, hframe.count_eq⟩
        (hframe.ctx_eq.trans h.ctx) ?_ ?_ rfl
      · omega
      · simp only [hrange]; omega
      · simp only; omega
    · rw [if_pos (by omega)] at hrange hw
      rw [if_neg hlt]
      refine h.step (add := 0) e hrsp rfl ⟨by decide, ?_, hw, hframe.encState_eq, hframe.count_eq⟩
        (hframe.ctx_eq.trans h.ctx) ?_ ?_ rfl
      · omega
      · simp only [hrange]; omega
      · simp only; omega

/-- The terminating bin (41_encoder.md R146). -/
theorem tracks_terminate (h : o.Tracks s d) (e : exec (.encBinTrm true) s = .next t)
    (hrsp : t.rsp = some ⟨none, data⟩) : o.Tracks t d.terminate ∧ t.encTrm = true := by
  obtain ⟨hm, -, -⟩ := h.live.encMid h.coding
  have hrlo := hm.rlo
  have hspec := encBinTrm s true h.live
  split at hspec
  · exact absurd hspec (not_raises_of_completed e hrsp)
  · obtain ⟨hframe, htrm, hrange, hw⟩ := EndsAs.of_completed (i := .encBinTrm true) (s := s) hspec e hrsp
    simp only [if_true, Nat.add_mul] at hw
    refine ⟨h.step e hrsp rfl ⟨le_rfl, ?_, hw, hframe.encState_eq, hframe.count_eq⟩ (hframe.ctx_eq.trans h.ctx)
      hrange ?_ rfl, htrm⟩
    · omega
    · rw [h.range]
      exact Nat.add_mul ..

/-- ENC_START (41_encoder.md R143): nothing coded yet, the interval is [0, 510) x 2^-9 (R140). -/
theorem tracks_start (h : s.Live) (hreal : s.count = false) (e : exec .encStart s = .next t)
    (hrsp : t.rsp = some ⟨none, data⟩) : s.Tracks t (Ideal.start s.ctx) := by
  have hspec := encStart s
  split_ifs at hspec with hc
  · exact absurd hspec (not_raises_of_completed e hrsp)
  · have hlive := live_of_completed (i := .encStart) h (nomatch ·) e hrsp
    cases hspec.symm.trans e
    obtain ⟨-, ha⟩ := not_or.1 hc
    exact ⟨hlive, rfl, hreal, rfl, le_rfl, not_not.1 ha, fun _ _ => rfl, rfl, rfl,
      by simp [State.codedNumber, State.heldValue, Ideal.start, Memory.readBits],
      by simp [State.codedLength, Ideal.start]⟩

/-- Every bin before the terminating one. -/
theorem tracks_encode {b : Bin} (h : o.Tracks s d) (e : exec b.encode s = .next t) (hrsp : t.rsp = some ⟨none, data⟩) :
    o.Tracks t (Ideal.code o.cfg d b) := by
  cases b with
  | context ctx bin => exact tracks_context h e hrsp
  | bypass bin => exact tracks_bypass h e hrsp
  | goOn => exact tracks_goOn h e hrsp

/-- The first command of a run without a fault completes, and the rest runs from there. -/
theorem runData_cons {rest : List Instr} {ds : List Word} (h : runData (i :: rest) s = some (ds, t)) :
    ∃ u d ds', exec i s = .next u ∧ u.rsp = some ⟨none, d⟩ ∧ runData rest u = some (ds', t) := by
  unfold runData at h
  split at h
  · next u e =>
    split at h
    · next d hrsp =>
      obtain ⟨⟨ds', t'⟩, hrun, heq⟩ := Option.map_eq_some_iff.1 h
      cases heq
      exact ⟨u, d, ds', e, hrsp, hrun⟩
    · cases h
  · cases h

theorem tracks_bins {bins : List Bin} {rest : List Instr} {ds : List Word} (h : o.Tracks s d)
    (hrun : runData (bins.map Bin.encode ++ rest) s = some (ds, t)) :
    ∃ u ds', o.Tracks u (bins.foldl (Ideal.code o.cfg) d) ∧ runData rest u = some (ds', t) := by
  induction bins generalizing s d ds with
  | nil => exact ⟨s, ds, h, hrun⟩
  | cons b bins ih =>
    obtain ⟨u, _, ds', e, hrsp, hrun⟩ := runData_cons hrun
    exact ih (tracks_encode h e hrsp) hrun

end Sys2Proof.Machine
end

section
/-! SUPPORT. The end of a segment (41_encoder.md R147, R148): what ENC_FINISH appends completes the arithmetic bits of
the unbounded coder. -/

namespace Sys2Proof.Machine

variable {o s t : State} {d : Ideal} {data : Word}

/-- The held run, its carry and the bits left in ENC_LOW fit the bits they take (41_encoder.md R140). -/
theorem State.EncMid.flushed_lt (hm : s.EncMid) :
    s.heldValue * 2 ^ (24 - s.encBitsLeft.toNat) + s.encLow.toNat / 2 ^ 8 <
      2 ^ (8 * s.encNumBuf.toNat + (24 - s.encBitsLeft.toNat)) := by
  obtain ⟨hnone, htwo⟩ := hm.interval_lt
  have hhi := hm.hi
  have hrlo := hm.rlo
  have hpos : 0 < 2 ^ (24 - s.encBitsLeft.toNat) := by positivity
  rw [two_pow_thirtyTwo_sub (by omega)] at htwo
  rw [pow_add, pow_mul]
  generalize 2 ^ (24 - s.encBitsLeft.toNat) = P at *
  rcases Nat.eq_zero_or_pos s.encNumBuf.toNat with hz | hheld
  · have := hnone hz
    rw [State.heldValue_of_none hz, hz]
    omega
  · obtain ⟨j, hj⟩ := Nat.exists_eq_add_one.2 hheld
    have hbyte := hm.held_lt hheld
    have hone := Nat.one_le_pow j 256 (by decide)
    have hheldValue : s.heldValue + 2 ≤ (2 ^ 8) ^ s.encNumBuf.toNat := by
      rw [State.heldValue_of_succ hj, hj, show (2 : Nat) ^ 8 = 256 from rfl, pow_succ]
      have : s.encBufByte.toNat * 256 ^ j ≤ 254 * 256 ^ j := Nat.mul_le_mul_right _ (by omega)
      omega
    have := Nat.mul_le_mul_right P hheldValue
    rw [Nat.add_mul] at this
    omega

/-- After the terminating bin, the bits put out, the held run and the bits of ENC_LOW above bit 7 are the arithmetic
bits of the unbounded coder. -/
theorem State.Tracks.bits_eq (h : o.Tracks s d.terminate) (hbl : s.encBitsLeft.toNat ≤ 24) :
    (s.store.readBits o.wrPos.toNat (s.wrPos.toNat - o.wrPos.toNat) * 256 ^ s.encNumBuf.toNat + s.heldValue) *
      2 ^ (24 - s.encBitsLeft.toNat) + s.encLow.toNat / 2 ^ 8 = d.bits := by
  have hcoded : _ = (d.low + (d.range - 2)) * 2 ^ 7 := h.low
  unfold State.codedNumber at hcoded
  unfold Ideal.bits
  rw [← hcoded, show 32 - s.encBitsLeft.toNat = 8 + (24 - s.encBitsLeft.toNat) by omega, pow_add, mul_left_comm,
    Nat.mul_add_div (by decide)]

/-- And there are as many. -/
theorem State.Tracks.length_eq (h : o.Tracks s d.terminate) (hbl : s.encBitsLeft.toNat ≤ 24) :
    s.wrPos.toNat - o.wrPos.toNat + (8 * s.encNumBuf.toNat + (24 - s.encBitsLeft.toNat)) = d.length := by
  have hcoded : _ = 9 + (d.doublings + 7) := h.length
  unfold State.codedLength at hcoded
  unfold Ideal.length
  omega

/-- ENC_FINISH after the terminating bin (41_encoder.md R147, R148). -/
theorem finish_of_tracks (h : o.Tracks s d.terminate) (htrm : s.encTrm = true) (e : exec .encFinish s = .next t)
    (hrsp : t.rsp = some ⟨none, data⟩) :
    let pad := (8 - (d.length + 1) % 8) % 8
    t.wrPos.toNat = o.wrPos.toNat + d.length + 1 + pad ∧ t.wrPos.toNat % 8 = 0 ∧
    t.store.readBits o.wrPos.toNat (d.length + 1 + pad) = (d.bits * 2 + 1) * 2 ^ pad ∧
    (∀ p < o.wrPos.toNat, t.store.bit p = o.store.bit p) ∧ t.ctx = d.ctx := by
  intro pad
  obtain ⟨hm, -, -⟩ := h.live.encMid h.coding
  have hhi := hm.hi
  have ha := hm.aligned
  have hstart := h.start
  have hbase := h.aligned
  have hlt := hm.flushed_lt
  obtain ⟨hpos8, hframe, hpos, -, -, hreal⟩ := (encFinish_endsAs h.live ⟨h.coding, htrm⟩).of_completed e hrsp
  obtain ⟨-, hbits⟩ := hreal h.real
  have hlength := h.length_eq (by omega)
  have hnumber := h.bits_eq (by omega)
  generalize 24 - s.encBitsLeft.toNat = left at *
  have hpad : (8 - (left + 1) % 8) % 8 = pad := by omega
  simp only at hpos hbits
  rw [hpad] at hpos hbits
  have hbelow : ∀ p < s.wrPos.toNat, t.store.bit p = s.store.bit p := fun p hp =>
    (hbits p).trans (if_neg (by omega))
  refine ⟨by omega, hpos8, ?_, fun p hp => (hbelow p (hp.trans_le h.start)).trans (h.before p hp), ?_⟩
  · have hflush := Memory.readBits_of_bits fun p h1 h2 => (hbits p).trans (if_pos ⟨h1, h2⟩)
    have hold : t.store.readBits o.wrPos.toNat (s.wrPos.toNat - o.wrPos.toNat) =
        s.store.readBits o.wrPos.toNat (s.wrPos.toNat - o.wrPos.toNat) :=
      Memory.readBits_congr fun p _ hp => hbelow p (by omega)
    rw [show d.length + 1 + pad = s.wrPos.toNat - o.wrPos.toNat + (8 * s.encNumBuf.toNat + left + 1 + pad) by omega,
      Memory.readBits_append, show o.wrPos.toNat + (s.wrPos.toNat - o.wrPos.toNat) = s.wrPos.toNat by omega, hflush,
      hold, Nat.mod_eq_of_lt ?_, ← hnumber]
    · rw [pow_add, pow_add, pow_add, pow_mul]
      ring
    · rw [pow_add _ _ pad, pow_succ]
      exact Nat.mul_lt_mul_of_pos_right (by omega) (by positivity)
  · rw [hframe]
    exact h.ctx

/-- Settles O27: ENC_START, each bin and the terminating bin keep `Tracks`, and ENC_FINISH completes the bits. -/
theorem carryPropagation : Obligations.CarryPropagation := by
  intro s t bins ds h hreal hrun
  obtain ⟨u, _, ds, e, hrsp, hrun⟩ := runData_cons (i := .encStart) (rest := bins.map Bin.encode ++ _) hrun
  obtain ⟨v, ds, hbins, hrun⟩ := tracks_bins (tracks_start h hreal e hrsp) hrun
  obtain ⟨w, _, ds, e, hrsp, hrun⟩ := runData_cons hrun
  obtain ⟨hdone, htrm⟩ := tracks_terminate hbins e hrsp
  obtain ⟨x, _, ds, e, hrsp, hrun⟩ := runData_cons hrun
  cases hrun
  exact finish_of_tracks hdone htrm e hrsp

end Sys2Proof.Machine
end

section
/-! SUPPORT. The decoder's commands (42_decoder.md R172 to R175): each is its checks and one shared procedure, whose
lemma says what it does; the one fault left is a byte that is needed and not there. -/

namespace Sys2Proof.Machine

variable {s t : State} {i : Instr}

section

variable {op : Byte} {f : Unit → Cmd Word}

/-- The engine check of the bin commands (42_decoder.md R173 to R175) fails. -/
theorem answer_of_not_decoding (h : s.decState ≠ .coding) :
    answer op (requireDecoding >>= f) s = .next (s.takeFault op .state) :=
  answer_raise (by simp [requireDecoding, h])

/-- The engine check passes and changes nothing. -/
theorem answer_of_decoding (h : s.decState = .coding) : answer op (requireDecoding >>= f) s = answer op (f ()) s := by
  simp [answer, requireDecoding, h]

end

/-- The fault of a shift by `n` (42_decoder.md R171): it needs a byte, and none is left. -/
def State.byteFault (s : State) (n : Nat) : Option Cause :=
  if 0 ≤ s.decBitsNeeded.toInt + n ∧ ¬ s.Avail 8 then some .exhausted else none

theorem State.byteFault_of_unmet {n : Nat} {c : Cause}
    (h : c = .exhausted ∧ ¬ (0 ≤ s.decBitsNeeded.toInt + n → s.Avail 8)) : s.byteFault n = some c := by
  obtain ⟨rfl, h⟩ := h
  exact if_pos (Classical.not_imp.1 h)

theorem State.Refilled.byteFault_eq {v n : Nat} (h : s.Refilled v n t) : s.byteFault n = none :=
  if_neg fun ⟨hneed, hnone⟩ => hnone (h.avail hneed)

/-- A refill is told by the value, the count of bits and the read cursor. -/
theorem State.Refilled.congr {u : State} {v n : Nat} (h : s.Refilled v n t) (hvalue : u.decValue = t.decValue)
    (hbits : u.decBitsNeeded = t.decBitsNeeded) (hpos : u.rdPos = t.rdPos) : s.Refilled v n u :=
  ⟨hvalue ▸ h.value, hbits ▸ h.bits, hpos ▸ h.pos, h.avail⟩

/-- The same end told as the statements tell it, the fault first. -/
theorem EndsAs.ite_raises {c : Cause} {p : Prop} [Decidable p] {Q : State → Prop}
    (h : EndsAs i s (if p then some c else none) Q) :
    if p then raises i s c else ∃ t, exec i s = .next t ∧ Q t := by
  split_ifs at h ⊢ <;> exact h

/-- The bin a context bin returns, as response data (42_decoder.md R173). -/
theorem binData_of_mpsBin (mpsBin mps : Bool) :
    binData (if mpsBin then mps else !mps) = if mpsBin = mps then 1 else 0 := by
  cases mpsBin <;> cases mps <;> rfl

/-- Settles O29: the two checks, then `decBin_sat`, which has the bin, the interval, the refill and the cell. -/
theorem decBin_spec : Obligations.DecBin := by
  intro s ctx h
  split_ifs with hi hd
  · exact answer_of_check_failed (decide_eq_true hi)
  · exact (answer_of_check_passed (decide_eq_false hi)).trans (answer_of_not_decoding hd)
  · have hd := not_not.1 hd
    obtain ⟨cell, hcell⟩ := getElem?_of_lt (s := s) (i := ctx.toNat) (by have := h.ctx_length; omega)
    refine ⟨cell, hcell, EndsAs.ite_raises (endsAs_of_sat (i := .decBin ctx) (nomatch ·)
      ((answer_of_check_passed (decide_eq_false hi)).trans (answer_of_decoding hd)) ?_)⟩
    rw [sat_bind]
    refine (decBin_sat hcell (h.decMid hd) h.ranges).mono (fun _ => State.byteFault_of_unmet) ?_
    rintro b t ⟨rfl, hrefill, hrange, -, hframe⟩
    have hstate : t.decState = s.decState := by rw [hframe]
    refine sat_pure.2 ⟨hrefill.byteFault_eq, ?_, hstate.trans hd, ?_, hrange,
      hrefill.congr rfl rfl rfl⟩
    · unfold State.DecoderCtxFrame
      rw [hframe, binData_of_mpsBin]
      rfl
    · exact (congrArg State.ctx hframe :)

/-- DEC_BIN_EP once its check has passed (42_decoder.md R174): `decEp_sat` compares the refilled value with the
range. -/
theorem decBinEp_endsAs (h : s.Live) (hd : s.decState = .coding) :
    EndsAs .decBinEp s (s.byteFault 1) fun t => ∃ (u : State) (bin : Bool),
      s.Refilled s.decValue.toNat 1 u ∧ bin = decide (s.decRange.toNat * 2 ^ 7 ≤ u.decValue.toNat) ∧
      t.decValue.toNat = (u.decValue.toNat - if bin then s.decRange.toNat * 2 ^ 7 else 0) ∧
      t = { s with
        decValue := t.decValue, decBitsNeeded := u.decBitsNeeded, rdPos := u.rdPos
        rsp := some ⟨none, binData bin⟩ } := by
  refine endsAs_of_sat (i := .decBinEp) (nomatch ·) (answer_of_decoding hd) ?_
  rw [sat_bind]
  refine (decEp_sat (h.decMid hd)).mono (fun _ => State.byteFault_of_unmet) ?_
  rintro bin t ⟨-, ⟨u, hrefill, hpos, hbits, hbin, hvalue⟩, hframe⟩
  refine sat_pure.2 ⟨hrefill.byteFault_eq, u, bin, hrefill, hbin, hvalue, ?_⟩
  rw [hpos, hbits, hframe]
  rfl

/-- A shift by 1 needs a byte exactly when DEC_BITSNEEDED is -1 (42_decoder.md R174). -/
theorem State.Refilled.of_doubling {v : Nat} (h : s.Refilled v 1 t) (hb : s.decBitsNeeded.toInt ≤ -1) :
    t.decValue.toNat = 2 * v + (if s.decBitsNeeded.toInt = -1 then s.nextByte else 0) ∧
      t.decBitsNeeded.toInt = (if s.decBitsNeeded.toInt = -1 then -8 else s.decBitsNeeded.toInt + 1) ∧
      t.rdPos.toNat = s.rdPos.toNat + if s.decBitsNeeded.toInt = -1 then 8 else 0 := by
  obtain ⟨hvalue, hbits, hpos, -⟩ := h
  by_cases hneed : s.decBitsNeeded.toInt = -1
  · rw [hneed] at hvalue hbits hpos ⊢
    simpa [Nat.mul_comm] using And.intro hvalue ⟨hbits, hpos⟩
  · rw [if_neg (by omega)] at hvalue hbits hpos ⊢
    rw [if_neg hneed, if_neg hneed]
    exact ⟨by omega, by omega, hpos⟩

theorem State.byteFault_one (hb : s.decBitsNeeded.toInt ≤ -1) :
    s.byteFault 1 = if s.decBitsNeeded.toInt = -1 ∧ ¬ s.Avail 8 then some .exhausted else none := by
  have hneed : 0 ≤ s.decBitsNeeded.toInt + ((1 : Nat) : Int) ↔ s.decBitsNeeded.toInt = -1 := by omega
  simp only [State.byteFault, hneed]

/-- Settles O30: the check, then `decBinEp_endsAs`; between commands a doubling needs a byte exactly when
DEC_BITSNEEDED is -1. -/
theorem decBinEp : Obligations.DecBinEp := by
  intro s h fetch value scaled
  by_cases hd : s.decState = .coding
  · rw [if_neg (not_not.2 hd)]
    have hbhi := (h.decMid hd).bhi
    have hends := decBinEp_endsAs h hd
    rw [State.byteFault_one hbhi] at hends
    replace hends := hends.ite_raises
    simp only [fetch, decide_eq_true_eq]
    by_cases hb : s.decBitsNeeded.toInt = -1 ∧ ¬ s.Avail 8
    · rw [if_pos hb] at hends ⊢
      exact hends
    · rw [if_neg hb] at hends ⊢
      obtain ⟨t, e, u, bin, hrefill, hbin, hdec, hframe⟩ := hends
      obtain ⟨hvalue, hbits, hpos⟩ := hrefill.of_doubling hbhi
      have hu : u.decValue.toNat = value := by simpa [value, fetch] using hvalue
      rw [hu] at hbin hdec
      have hbit : bin = true ↔ scaled ≤ value := by rw [hbin, decide_eq_true_eq]
      have hdec : t.decValue.toNat = if scaled ≤ value then value - scaled else value := by
        simp only [hdec, hbit]
        exact apply_ite (value - ·) (scaled ≤ value) scaled 0
      have hdata : binData bin = if scaled ≤ value then 1 else 0 := by
        simp only [← hbit]
        exact binData_eq_iff.2 rfl
      rw [e, hframe, ← hpos, ← hbits, BitVec.ofInt_toInt, BitVec.ofNat_toNat, BitVec.setWidth_eq, ← hdec, hdata,
        BitVec.ofNat_toNat, BitVec.setWidth_eq]
  · rw [if_pos hd]
    exact answer_of_not_decoding hd

/-- Nothing shifted, nothing fetched. -/
theorem State.Refilled.of_no_shift (hb : s.decBitsNeeded.toInt ≤ -1) (hvalue : t.decValue = s.decValue)
    (hbits : t.decBitsNeeded = s.decBitsNeeded) (hpos : t.rdPos = s.rdPos) : s.Refilled s.decValue.toNat 0 t := by
  have hneed : ¬ 0 ≤ s.decBitsNeeded.toInt + ((0 : Nat) : Int) := by omega
  refine ⟨?_, ?_, ?_, fun h => absurd h hneed⟩
  · rw [if_neg hneed, hvalue]; omega
  · rw [if_neg hneed, hbits]; omega
  · rw [if_neg hneed, hpos]; omega

/-- DEC_BIN_TRM once its check has passed (42_decoder.md R175): the bin 1 reads the tail of the last byte fetched, the
bin 0 is one doubling (`decDouble_sat`) or none. -/
theorem decBinTrm_endsAs (h : s.Live) (hd : s.decState = .coding) :
    let range := s.decRange.toNat - 2
    let last := s.store.readBits (s.rdPos.toNat - 8) 8
    let k := (8 + s.decBitsNeeded.toInt).toNat
    let n := if range < 256 then 1 else 0
    EndsAs .decBinTrm s
      (if range * 2 ^ 7 ≤ s.decValue.toNat then if last * 2 ^ k % 256 ≠ 0x80 then some .pattern else none
        else s.byteFault n)
      fun t => if range * 2 ^ 7 ≤ s.decValue.toNat then t = { s with
          decRange := BitVec.ofNat 9 range, decState := .terminated, rsp := some ⟨none, 1⟩ }
        else s.DecoderFrame t 0 ∧ t.decState = .coding ∧ t.decRange.toNat = range * 2 ^ n ∧
          s.Refilled s.decValue.toNat n t := by
  intro range last k n
  have hm := h.decMid hd
  obtain ⟨hrlo, hrhi, hblo, hbhi, -, -, -, htwo, -⟩ := h.decMid hd
  have hle := h.rdPos_le.trans h.rdLimit_le
  have hr : (s.decRange.toNat : Int) - 2 = (range : Int) := by omega
  have hrv : (BitVec.ofNat 9 range).toNat = range := by rw [BitVec.toNat_ofNat]; omega
  refine endsAs_of_sat (i := .decBinTrm) (nomatch ·) (answer_of_decoding hd) ?_
  simp only [sat_bind, sat_get, sat_ite, sat_pure, setDecRange, sat_assign, hr, fitsU_natCast, ofInt_natCast,
    decide_eq_true_eq, hrv]
  refine ⟨by omega, fun hge => ?_, fun hlt => ?_⟩
  · simp only [if_pos hge]
    rw [show (s.rdPos.toNat : Int) - 8 = ((s.rdPos.toNat - 8 : Nat) : Int) by omega]
    refine (memRead_sat (by simp only; omega)).mono (fun _ => False.elim) ?_
    rintro _ _ ⟨rfl, rfl⟩
    refine countOf_sat (by omega) ?_
    simp only [sat_raiseIf, setDecState, sat_modify, decide_eq_true_eq, decide_eq_false_iff_not]
    exact ⟨fun hbad => if_pos hbad, fun hgood => ⟨if_neg hgood, rfl⟩⟩
  · simp only [if_neg hlt]
    refine ⟨fun h256 => ?_, fun h256 => ?_⟩
    · have hn : n = 1 := if_pos (by omega)
      rw [hn]
      refine Sat.mono (decDouble_sat hm (w := range) (by omega) (by omega) rfl rfl rfl rfl rfl rfl rfl)
        (fun _ => State.byteFault_of_unmet) ?_
      rintro _ t ⟨hrefill, hrange, hframe⟩
      have hstate : t.decState = s.decState := by rw [hframe]
      refine ⟨hrefill.byteFault_eq, ?_, hstate.trans hd, hrange, hrefill.congr rfl rfl rfl⟩
      unfold State.DecoderFrame
      rw [hframe]
      rfl
    · have hn : n = 0 := if_neg (by omega)
      have hrefill := State.Refilled.of_no_shift (t := { s with decRange := BitVec.ofNat 9 range }) hbhi rfl rfl rfl
      rw [hn]
      exact ⟨hrefill.byteFault_eq, rfl, hd, hrv.trans (Nat.mul_one range).symm, hrefill.congr rfl rfl rfl⟩

/-- Settles O31: the check, then `decBinTrm_endsAs`. -/
theorem decBinTrm : Obligations.DecBinTrm := by
  intro s h range last k n
  by_cases hd : s.decState = .coding
  · rw [if_neg (not_not.2 hd)]
    have hends := decBinTrm_endsAs h hd
    by_cases hge : range * 2 ^ 7 ≤ s.decValue.toNat
    · simp only [range, if_pos hge] at hends ⊢
      split_ifs at hends ⊢ with hbad
      · exact hends
      · obtain ⟨t, e, rfl⟩ := hends
        exact e
    · simp only [range, if_neg hge] at hends ⊢
      exact hends.ite_raises
  · rw [if_pos hd]
    exact answer_of_not_decoding hd

/-- Bits that are there are taken (20_memory.md R68). -/
theorem getBits_sat_of_avail {n : Nat} {R : Cause → Prop} {Q : Nat → State → Prop} (hread : s.ReadOk) (hav : s.Avail n)
    (h : Q (s.store.readBits s.rdPos.toNat n) { s with rdPos := BitVec.ofNat 32 (s.rdPos.toNat + n) }) :
    Sat (getBits n) s R Q := by
  refine (getBits_sat hread).mono (fun _ hc => absurd hav hc.2) ?_
  rintro v t ⟨-, rfl, hframe, hpos⟩
  rw [← hpos, BitVec.ofNat_toNat, BitVec.setWidth_eq] at h
  rw [hframe]
  exact h

/-- The two bytes of DEC_START are the next 16 bits (42_decoder.md R172). -/
theorem getBits_two_sat {R : Cause → Prop} {Q : Nat → Nat → State → Prop} (hread : s.ReadOk) (hav : s.Avail 16)
    (h : ∀ hi lo, hi * 2 ^ 8 + lo = s.store.readBits s.rdPos.toNat 16 →
      Q hi lo { s with rdPos := BitVec.ofNat 32 (s.rdPos.toNat + 16) }) :
    Sat (getBits 8) s R fun hi t => Sat (getBits 8) t R fun lo u => Q hi lo u := by
  have hlim := hread.2
  have hlt := s.wrPos.isLt
  unfold State.Avail at hav
  have hpos : (BitVec.ofNat 32 (s.rdPos.toNat + 8)).toNat = s.rdPos.toNat + 8 := by rw [BitVec.toNat_ofNat]; omega
  refine getBits_sat_of_avail hread (by unfold State.Avail; omega) (getBits_sat_of_avail hread ?_ ?_)
  · show (BitVec.ofNat 32 (s.rdPos.toNat + 8)).toNat + 8 ≤ s.rdLimit
    omega
  · simp only [hpos, Nat.add_assoc]
    exact h _ _ (Memory.readBits_append s.store s.rdPos.toNat 8 8).symm

/-- 16 bits at or above 510 x 2^7 are those that begin with a byte 0xFF (42_decoder.md R172). -/
theorem Memory.readBits_start_iff (m : Memory) (addr : Nat) :
    510 * 2 ^ 7 ≤ m.readBits addr 16 ↔ m.readBits addr 8 = 0xFF := by
  have happend : m.readBits addr 16 = m.readBits addr 8 * 2 ^ 8 + m.readBits (addr + 8) 8 :=
    Memory.readBits_append m addr 8 8
  have hhi := Memory.readBits_lt m addr 8
  have hlo := Memory.readBits_lt m (addr + 8) 8
  omega

/-- DEC_START once its checks have passed (42_decoder.md R172). -/
theorem decStart_endsAs {value : Nat} (h : s.Live) (hd : s.decState ≠ .coding) (hc : s.count = false)
    (ha : s.rdPos.toNat % 8 = 0) (hav : s.Avail 16) (hvalue : s.store.readBits s.rdPos.toNat 16 = value) :
    EndsAs .decStart s (if 510 * 2 ^ 7 ≤ value then some .pattern else none) fun t => t = { s with
      decRange := 510, decBitsNeeded := -8, decValue := BitVec.ofNat 17 value, decState := .coding
      rdPos := BitVec.ofNat 32 (s.rdPos.toNat + 16), rsp := some ⟨none, 0⟩ } := by
  refine endsAs_of_sat (i := .decStart) (nomatch ·) ((answer_of_check_passed (by simp [hd, hc])).trans
    ((answer_of_check_passed (by simp [ha])).trans (answer_of_check_passed (by simpa using hav)))) ?_
  simp only [sat_bind, setDecRange, setDecBitsNeeded, sat_assign, decReadByte]
  refine ⟨rfl, rfl, getBits_two_sat ⟨hc, h.rdLimit_le⟩ hav fun hi lo htwo => ?_⟩
  have hlt := Memory.readBits_lt s.store s.rdPos.toNat 16
  replace htwo : hi * 2 ^ 8 + lo = value := htwo.trans hvalue
  simp only [htwo, sat_raiseIf, setDecValue, setDecState, sat_assign, sat_modify, sat_pure, fitsU_natCast,
    ofInt_natCast, decide_eq_true_eq, decide_eq_false_iff_not]
  exact ⟨fun hbad => if_pos hbad, fun hgood => ⟨by omega, if_neg hgood, rfl⟩⟩

/-- Settles O28: the checks in their order, then `decStart_endsAs`. -/
theorem decStart : Obligations.DecStart := by
  intro s h
  have hfirst := Memory.readBits_start_iff s.store s.rdPos.toNat
  generalize hvalue : s.store.readBits s.rdPos.toNat 16 = value at hfirst ⊢
  by_cases hengine : s.decState = .coding ∨ s.count = true
  · rw [if_pos (hengine.imp_right .inl)]
    exact answer_of_check_failed (by simpa using hengine)
  obtain ⟨hd, hc⟩ := not_or.1 hengine
  have hpassed : (s.decState == .coding || s.count) = false := by simpa using hengine
  by_cases ha : s.rdPos.toNat % 8 = 0
  · rw [if_neg (not_or.2 ⟨hd, not_or.2 ⟨hc, not_not.2 ha⟩⟩)]
    by_cases hav : s.Avail 16
    · rw [if_neg (not_not.2 hav)]
      have hends := (decStart_endsAs h hd (Bool.eq_false_iff.2 hc) ha hav hvalue).ite_raises
      split_ifs at hends ⊢ with hbad
      · exact ⟨hfirst.1 hbad, hends⟩
      · obtain ⟨t, e, rfl⟩ := hends
        exact ⟨fun hff => hbad (hfirst.2 hff), e⟩
    · rw [if_pos hav]
      exact (answer_of_check_passed hpassed).trans ((answer_of_check_passed (by simp [ha])).trans
        (answer_of_check_failed (by simpa using hav)))
  · rw [if_pos (.inr (.inr ha))]
    exact (answer_of_check_passed hpassed).trans (answer_of_check_failed (decide_eq_true ha))

end Sys2Proof.Machine
end

section
/-! SUPPORT. The code string of a segment lies in the interval of the unbounded coder after every bin (41_encoder.md
R140, R148): each bin selects a part of the interval before it. -/

namespace Sys2Proof.Machine

variable {len code low width doublings : Nat} {c : Config} {d : Ideal} {b : Bin}

/-- The number `code` of `len` bits, read as a binary fraction, lies in [low, low + width) x 2^-(9 + doublings). -/
def InInterval (len code low width doublings : Nat) : Prop :=
  ∃ k, len = 9 + doublings + k ∧ low * 2 ^ k ≤ code ∧ code < (low + width) * 2 ^ k

/-- A doubling renames the interval and does not move it. -/
theorem InInterval.unshift {n : Nat} (h : InInterval len code (low * 2 ^ n) (width * 2 ^ n) (doublings + n)) :
    InInterval len code low width doublings := by
  obtain ⟨k, hlen, hlo, hhi⟩ := h
  refine ⟨n + k, by omega, ?_, ?_⟩
  · rwa [pow_add, ← mul_assoc]
  · rwa [pow_add, ← mul_assoc, Nat.add_mul]

theorem InInterval.of_part {off w : Nat} (h : InInterval len code (low + off) w doublings) (hle : off + w ≤ width) :
    InInterval len code low width doublings := by
  obtain ⟨k, hlen, hlo, hhi⟩ := h
  exact ⟨k, hlen, (Nat.mul_le_mul_right _ (by omega)).trans hlo, hhi.trans_le (Nat.mul_le_mul_right _ (by omega))⟩

/-- The code string lies in the interval of the unbounded coder. -/
def Ideal.Holds (d : Ideal) (len code : Nat) : Prop := InInterval len code d.low d.range d.doublings

theorem Ideal.code_context_of_none {ctx : Byte} {bin : Bool} (h : d.ctx[ctx.toNat]? = none) :
    Ideal.code c d (.context ctx bin) = d := by
  simp only [Ideal.code, h]

theorem Ideal.code_context_of_some {ctx : Byte} {bin : Bool} {cell : CtxCell} (h : d.ctx[ctx.toNat]? = some cell) :
    Ideal.code c d (.context ctx bin) =
      let lps := lpsWidth c cell.state d.range
      let n := binShift lps d.range (bin == cell.mps)
      ⟨(d.low + if bin == cell.mps then 0 else d.range - lps) * 2 ^ n, binWidth lps d.range (bin == cell.mps) * 2 ^ n,
        d.doublings + n, d.ctx.set ctx.toNat (adapted c cell (bin == cell.mps))⟩ := by
  simp only [Ideal.code, h]

/-- The part a context bin selects (41_encoder.md R144). -/
theorem Ideal.part_of_context {ctx : Byte} {bin : Bool} {cell : CtxCell} (hcell : d.ctx[ctx.toNat]? = some cell)
    (h : (Ideal.code c d (.context ctx bin)).Holds len code) :
    let lps := lpsWidth c cell.state d.range
    InInterval len code (d.low + if bin == cell.mps then 0 else d.range - lps)
      (binWidth lps d.range (bin == cell.mps)) d.doublings := by
  rw [Ideal.code_context_of_some hcell] at h
  exact InInterval.unshift h

/-- The half a bypass bin selects, counted in the doubled interval (41_encoder.md R145). -/
theorem Ideal.part_of_bypass {bin : Bool} (h : (Ideal.code c d (.bypass bin)).Holds len code) :
    InInterval len code (d.low * 2 ^ 1 + if bin then d.range else 0) d.range (d.doublings + 1) := by
  rw [pow_one, Nat.mul_comm]
  exact h

/-- The part a terminate bin 0 selects (41_encoder.md R146). -/
theorem Ideal.part_of_goOn (h : (Ideal.code c d .goOn).Holds len code) :
    InInterval len code d.low (d.range - 2) d.doublings := by
  unfold Ideal.code at h
  split_ifs at h with hlt
  · refine InInterval.unshift (n := 1) ?_
    rw [pow_one, Nat.mul_comm, Nat.mul_comm (d.range - 2)]
    exact h
  · exact h

/-- The range of the unbounded coder stays that of a register (10_state.md R29). -/
theorem Ideal.code_range (hlegal : Config.rangesLegal c.rangeTabLps = true) (h : 256 ≤ d.range ∧ d.range ≤ 510) :
    256 ≤ (Ideal.code c d b).range ∧ (Ideal.code c d b).range ≤ 510 := by
  cases b with
  | context ctx bin =>
    cases hcell : d.ctx[ctx.toNat]? with
    | none => rwa [Ideal.code_context_of_none hcell]
    | some cell =>
      rw [Ideal.code_context_of_some hcell]
      exact binWidth_range hlegal cell.state h.1 h.2 _
  | bypass bin => exact h
  | goOn =>
    unfold Ideal.code
    split_ifs <;> simp only <;> omega

theorem Ideal.foldl_range (hlegal : Config.rangesLegal c.rangeTabLps = true) {bins : List Bin}
    (hd : 256 ≤ d.range ∧ d.range ≤ 510) :
    256 ≤ (bins.foldl (Ideal.code c) d).range ∧ (bins.foldl (Ideal.code c) d).range ≤ 510 := by
  induction bins generalizing d with
  | nil => exact hd
  | cons b bins ih => exact ih (Ideal.code_range hlegal hd)

/-- What lies in the interval after a bin lay in the one before it. -/
theorem Ideal.holds_of_code (hlegal : Config.rangesLegal c.rangeTabLps = true) (hd : 256 ≤ d.range ∧ d.range ≤ 510)
    (h : (Ideal.code c d b).Holds len code) : d.Holds len code := by
  cases b with
  | context ctx bin =>
    cases hcell : d.ctx[ctx.toNat]? with
    | none => rwa [Ideal.code_context_of_none hcell] at h
    | some cell =>
      have hlps := lpsWidth_le hlegal cell.state hd.1 hd.2
      refine (Ideal.part_of_context hcell h).of_part ?_
      unfold binWidth
      split_ifs <;> omega
  | bypass bin =>
    refine InInterval.unshift (n := 1) ((Ideal.part_of_bypass h).of_part ?_)
    split_ifs <;> omega
  | goOn => exact (Ideal.part_of_goOn h).of_part (off := 0) (by omega)

theorem Ideal.holds_of_foldl (hlegal : Config.rangesLegal c.rangeTabLps = true) {bins : List Bin}
    (hd : 256 ≤ d.range ∧ d.range ≤ 510) (h : (bins.foldl (Ideal.code c) d).Holds len code) : d.Holds len code := by
  induction bins generalizing d with
  | nil => exact h
  | cons b bins ih => exact Ideal.holds_of_code hlegal hd (ih (Ideal.code_range hlegal hd) h)

/-- The arithmetic bits, the stop bit and the zeros of a segment lie in the part of width 2 that the terminating bin
selects (41_encoder.md R146, R147). -/
theorem Ideal.part_of_terminate {pad : Nat} :
    InInterval (d.length + 1 + pad) ((d.bits * 2 + 1) * 2 ^ pad) (d.low + (d.range - 2)) 2 d.doublings := by
  have hbits : d.bits = (d.low + (d.range - 2)) / 2 := by
    unfold Ideal.bits
    omega
  refine ⟨pad, by unfold Ideal.length; omega, Nat.mul_le_mul_right _ (by omega), ?_⟩
  exact Nat.mul_lt_mul_of_pos_right (by omega) (by positivity)

end Sys2Proof.Machine
end

section
/-! SUPPORT. The decoder against the coder with unbounded-precision `low` (42_decoder.md R170): DEC_VALUE is the
distance of the code string read so far from the low end of the interval. -/

namespace Sys2Proof.Machine

variable {o s t u : State} {low width doublings : Nat}

/-- The code string of the segment between the cursors of `o` lies in [low, low + width) x 2^-(9 + doublings). -/
def State.CodeIn (o : State) (low width doublings : Nat) : Prop :=
  InInterval (o.wrPos.toNat - o.rdPos.toNat)
    (o.store.readBits o.rdPos.toNat (o.wrPos.toNat - o.rdPos.toNat)) low width doublings

/-- In `u` the decoder reads a segment that starts at the read cursor of `o` (42_decoder.md R170): of the bits fetched,
9 + `doublings` stand for the offset from `low` and 7 - f are read ahead. -/
def State.Reads (o u : State) (low doublings : Nat) : Prop :=
  ∃ f : Nat, f ≤ 7 ∧ u.decBitsNeeded.toInt = (f : Int) - 8 ∧
    u.rdPos.toNat + f = o.rdPos.toNat + 16 + doublings ∧
    u.decValue.toNat + low * 2 ^ 7 =
      o.store.readBits o.rdPos.toNat (u.rdPos.toNat - o.rdPos.toNat) * 2 ^ f

/-- A shift by `n` with its refill, once the part of the interval below the selected one is taken off. -/
theorem State.Reads.shift {v off n : Nat} (h : o.Reads u low doublings) (hrefill : u.Refilled v n t)
    (hv : v + off * 2 ^ 7 = u.decValue.toNat) (hstore : u.store = o.store) (hn : n ≤ 7) :
    o.Reads t ((low + off) * 2 ^ n) (doublings + n) := by
  obtain ⟨f, hf, hbits, hpos, hvalue⟩ := h
  obtain ⟨tvalue, tbits, tpos, -⟩ := hrefill
  have hshift : v * 2 ^ n + (low + off) * 2 ^ n * 2 ^ 7 =
      o.store.readBits o.rdPos.toNat (u.rdPos.toNat - o.rdPos.toNat) * 2 ^ (f + n) := by
    rw [pow_add, ← mul_assoc, ← hvalue, ← hv]
    ring
  by_cases hneed : 0 ≤ u.decBitsNeeded.toInt + n
  · rw [if_pos hneed] at tvalue tbits tpos
    obtain ⟨j, hj⟩ : ∃ j, f + n = 8 + j := ⟨f + n - 8, by omega⟩
    refine ⟨j, by omega, by omega, by omega, ?_⟩
    rw [show (u.decBitsNeeded.toInt + n).toNat = j by omega] at tvalue
    rw [show t.rdPos.toNat - o.rdPos.toNat = u.rdPos.toNat - o.rdPos.toNat + 8 by omega, Memory.readBits_append,
      show o.rdPos.toNat + (u.rdPos.toNat - o.rdPos.toNat) = u.rdPos.toNat by omega, tvalue]
    rw [hj, pow_add, ← mul_assoc] at hshift
    simp only [State.nextByte, hstore]
    calc _ = v * 2 ^ n + (low + off) * 2 ^ n * 2 ^ 7 + o.store.readBits u.rdPos.toNat 8 * 2 ^ j := by ring
      _ = _ := by rw [hshift]; ring
  · rw [if_neg hneed] at tvalue tbits tpos
    exact ⟨f + n, by omega, by omega, by omega, by rw [tvalue, tpos]; exact hshift⟩

/-- Taking off the part of the interval below the selected one. -/
theorem State.Reads.sub {off : Nat} (h : o.Reads u low doublings)
    (hv : t.decValue.toNat + off * 2 ^ 7 = u.decValue.toNat) (hbits : t.decBitsNeeded = u.decBitsNeeded)
    (hpos : t.rdPos = u.rdPos) : o.Reads t (low + off) doublings := by
  obtain ⟨f, hf, ubits, upos, uvalue⟩ := h
  exact ⟨f, hf, hbits ▸ ubits, hpos ▸ upos, by rw [hpos, ← uvalue, ← hv]; ring⟩

/-- The leading bits `x` of a number lie where the number lies, at the lower resolution. -/
theorem leading_bounds {x y r g a b : Nat} (hy : y < 2 ^ r) (hlo : a * 2 ^ (g + r) ≤ x * 2 ^ r + y)
    (hhi : x * 2 ^ r + y < b * 2 ^ (g + r)) : a * 2 ^ g ≤ x ∧ x < b * 2 ^ g := by
  rw [pow_add, ← mul_assoc] at hlo hhi
  constructor
  · refine Nat.lt_succ_iff.1 (lt_of_mul_lt_mul_right (hlo.trans_lt ?_) (Nat.zero_le (2 ^ r)))
    rw [Nat.succ_mul]
    omega
  · exact lt_of_mul_lt_mul_right ((Nat.le_add_right _ _).trans_lt hhi) (Nat.zero_le (2 ^ r))

/-- Where the code string lies in a part of the interval, so does DEC_VALUE, at 7 bits more: what is not read yet and
what is read ahead do not matter (42_decoder.md R170). -/
theorem State.Reads.value_bounds {off w : Nat} (h : o.Reads u low doublings) (hend : u.rdPos.toNat ≤ o.wrPos.toNat)
    (hin : o.CodeIn (low + off) w doublings) :
    off * 2 ^ 7 ≤ u.decValue.toNat ∧ u.decValue.toNat < (off + w) * 2 ^ 7 := by
  obtain ⟨f, hf, -, hpos, hvalue⟩ := h
  obtain ⟨k, hlen, hlo, hhi⟩ := hin
  obtain ⟨g, hg⟩ := Nat.exists_eq_add_of_le hf
  obtain ⟨r, hr⟩ := Nat.exists_eq_add_of_le hend
  have hlen' : o.wrPos.toNat - o.rdPos.toNat = u.rdPos.toNat - o.rdPos.toNat + r := by omega
  rw [hlen', Memory.readBits_append, show k = g + r by omega] at hlo hhi
  obtain ⟨hlo, hhi⟩ := leading_bounds (Memory.readBits_lt _ _ _) hlo hhi
  replace hlo := Nat.mul_le_mul_right (2 ^ f) hlo
  replace hhi := Nat.mul_lt_mul_of_pos_right hhi (Nat.two_pow_pos f)
  have h7 : 2 ^ g * 2 ^ f = 2 ^ 7 := by rw [← pow_add, Nat.add_comm, ← hg]
  rw [mul_assoc, h7, ← hvalue] at hlo hhi
  omega

/-- A segment to decode, between the cursors of `o`: whole bytes, no window. -/
structure State.AtSegment (o : State) : Prop where
  live : o.Live
  real : o.count = false
  window : o.subActive = false
  start : o.rdPos.toNat % 8 = 0
  stop : o.wrPos.toNat % 8 = 0

/-- In `u` the decoder is within the segment of `o`, and stands where the unbounded coder stands in `d`: the same
interval and the same contexts; only the decoder, the contexts and the response have moved. -/
structure State.Follows (o u : State) (d : Ideal) : Prop where
  live : u.Live
  coding : u.decState = .coding
  frame : u = { o with
    ctx := u.ctx, decState := u.decState, decValue := u.decValue, decRange := u.decRange
    decBitsNeeded := u.decBitsNeeded, rdPos := u.rdPos, rsp := u.rsp }
  ctx : u.ctx = d.ctx
  range : u.decRange.toNat = d.range
  reads : o.Reads u d.low d.doublings

variable {d d' : Ideal} {i : Instr} {data : Word} {off w n : Nat}

theorem State.Follows.cfg_eq (h : o.Follows u d) : u.cfg = o.cfg := by rw [h.frame]

theorem State.Follows.store_eq (h : o.Follows u d) : u.store = o.store := by rw [h.frame]

/-- Without a window everything written can be read (20_memory.md R69). -/
theorem State.Follows.rdLimit_eq (ho : o.AtSegment) (h : o.Follows u d) : u.rdLimit = o.wrPos.toNat := by
  rw [h.frame]
  simp only [State.rdLimit, ho.window]
  rfl

theorem State.Follows.rdPos_le (ho : o.AtSegment) (h : o.Follows u d) : u.rdPos.toNat ≤ o.wrPos.toNat :=
  h.live.rdPos_le.trans_eq (h.rdLimit_eq ho)

theorem State.Follows.range_bounds (h : o.Follows u d) : 256 ≤ d.range ∧ d.range ≤ 510 :=
  h.range ▸ ⟨(h.live.decMid h.coding).rlo, (h.live.decMid h.coding).rhi⟩

/-- The byte a shift needs is there: the code string has bits beyond the doublings made, and ends with a whole byte. -/
theorem State.Follows.byte_there (ho : o.AtSegment) (h : o.Follows u d) (hin : o.CodeIn low w (d.doublings + n)) :
    ¬ (0 ≤ u.decBitsNeeded.toInt + n ∧ ¬ u.Avail 8) := by
  refine fun ⟨hneed, hnone⟩ => hnone ?_
  obtain ⟨f, hf, hbits, hpos, -⟩ := h.reads
  obtain ⟨k, hlen, -⟩ := hin
  have ha := (h.live.decMid h.coding).aligned
  have hend := h.rdPos_le ho
  have hstop := ho.stop
  have hstart := ho.start
  show u.rdPos.toNat + 8 ≤ u.rdLimit
  rw [h.rdLimit_eq ho]
  omega

/-- A decoder bin that does to the decoder what the unbounded coder does. -/
theorem State.Follows.step (h : o.Follows u d) (hreset : i ≠ .sysReset) (e : exec i u = .next t)
    (hframe : u.DecoderCtxFrame t data) (hstate : t.decState = .coding) (hctx : t.ctx = d'.ctx)
    (hrange : t.decRange.toNat = d'.range) (hreads : o.Reads t d'.low d'.doublings) : o.Follows t d' := by
  have hrsp : t.rsp = some ⟨none, data⟩ := by rw [hframe]
  refine ⟨live_of_completed h.live hreset e hrsp, hstate, ?_, hctx, hrange, hreads⟩
  rw [hframe, h.frame]

end Sys2Proof.Machine
end

section
/-! SUPPORT. Every bin of a segment is decoded as it was coded (42_decoder.md R173 to R177). -/

namespace Sys2Proof.Machine

variable {o s t u : State} {d : Ideal}

/-- The code string of the segment between the cursors of `o` lies in the interval of the unbounded coder `d`. -/
def State.Within (o : State) (d : Ideal) : Prop :=
  d.Holds (o.wrPos.toNat - o.rdPos.toNat) (o.store.readBits o.rdPos.toNat (o.wrPos.toNat - o.rdPos.toNat))

/-- A context bin (42_decoder.md R173). -/
theorem follows_context {ctx : Byte} {bin : Bool} (ho : o.AtSegment) (h : o.Follows u d) (hctx : ctx.toNat < o.cfg.nctx)
    (hin : o.Within (Ideal.code o.cfg d (.context ctx bin))) :
    ∃ t, exec (.decBin ctx) u = .next t ∧ t.rsp = some ⟨none, if bin then 1 else 0⟩ ∧
      o.Follows t (Ideal.code o.cfg d (.context ctx bin)) := by
  have hm := h.live.decMid h.coding
  have hspec := decBin_spec u ctx h.live
  rw [if_neg (by rw [h.cfg_eq]; omega), if_neg (not_not.2 h.coding)] at hspec
  obtain ⟨cell, hcell, hspec⟩ := hspec
  have hlps := lpsWidth_le h.live.ranges cell.state hm.rlo hm.rhi
  have hshift := binShift_le h.live.ranges cell.state u.decRange.toNat (bin == cell.mps)
  rw [h.cfg_eq, h.range] at hspec hlps hshift
  rw [h.ctx] at hcell
  have hbounds := h.reads.value_bounds (h.rdPos_le ho) (Ideal.part_of_context hcell hin)
  rw [Ideal.code_context_of_some hcell] at hin ⊢
  simp only at hspec hlps hshift hbounds hin ⊢
  generalize hl : lpsWidth o.cfg cell.state d.range = lps at *
  have hmps : decide (u.decValue.toNat < (d.range - lps) * 2 ^ 7) = (bin == cell.mps) := by
    unfold binWidth at hbounds
    cases hb : (bin == cell.mps) with
    | false =>
      rw [hb] at hbounds
      exact decide_eq_false (Nat.not_lt.2 hbounds.1)
    | true =>
      rw [hb] at hbounds
      exact decide_eq_true (hbounds.2.trans_eq (by simp))
  rw [hmps, if_neg (h.byte_there ho hin)] at hspec
  obtain ⟨t, e, hframe, hstate, hctx', hrange, hrefill⟩ := hspec
  refine ⟨t, e, ?_, h.step (i := .decBin ctx) (nomatch ·) e hframe hstate (by rw [hctx', h.ctx]) hrange ?_⟩
  · rw [hframe]
    cases bin <;> cases cell.mps <;> rfl
  · refine h.reads.shift (off := if bin == cell.mps then 0 else d.range - lps) hrefill ?_ h.store_eq hshift
    split_ifs at hbounds ⊢ <;> omega

/-- A bypass bin (42_decoder.md R174). -/
theorem follows_bypass {bin : Bool} (ho : o.AtSegment) (h : o.Follows u d)
    (hin : o.Within (Ideal.code o.cfg d (.bypass bin))) :
    ∃ t, exec .decBinEp u = .next t ∧ t.rsp = some ⟨none, if bin then 1 else 0⟩ ∧
      o.Follows t (Ideal.code o.cfg d (.bypass bin)) := by
  have hends := decBinEp_endsAs h.live h.coding
  rw [State.byteFault, if_neg (h.byte_there ho hin)] at hends
  obtain ⟨t, e, v, bin', hrefill, hbin, hvalue, hframe⟩ := hends
  have hframe' : u.DecoderCtxFrame t (binData bin') := by
    unfold State.DecoderCtxFrame
    rw [hframe]
  have hpos : v.rdPos.toNat ≤ o.wrPos.toNat := by
    have hlive := live_of_completed (i := .decBinEp) h.live (nomatch ·) e (congrArg State.rsp hframe)
    have htpos : t.rdPos = v.rdPos := by rw [hframe]
    have htlim : t.rdLimit = u.rdLimit := by rw [hframe]; rfl
    exact htpos ▸ hlive.rdPos_le.trans_eq (htlim.trans (h.rdLimit_eq ho))
  have hreads : o.Reads v (d.low * 2 ^ 1) (d.doublings + 1) :=
    h.reads.shift (off := 0) hrefill (by omega) h.store_eq (by decide)
  have hbounds := hreads.value_bounds hpos (Ideal.part_of_bypass hin)
  rw [h.range] at hbin hvalue
  obtain rfl : bin' = bin := by
    rw [hbin]
    cases bin with
    | false => exact decide_eq_false (by simpa using hbounds.2)
    | true => exact decide_eq_true hbounds.1
  refine ⟨t, e, by rw [hframe, binData_eq_iff.2 rfl], h.step (i := .decBinEp) (nomatch ·) e hframe' ?_ ?_ ?_ ?_⟩
  · rw [hframe]; exact h.coding
  · rw [hframe]; exact h.ctx
  · rw [hframe]; exact h.range
  · have hsub := hreads.sub (t := t) (off := if bin' then d.range else 0) (by split_ifs at hbounds hvalue ⊢ <;> omega)
      (by rw [hframe]) (by rw [hframe])
    rw [pow_one, Nat.mul_comm] at hsub
    exact hsub

/-- A terminate bin 0 (42_decoder.md R175). -/
theorem follows_goOn (ho : o.AtSegment) (h : o.Follows u d) (hin : o.Within (Ideal.code o.cfg d .goOn)) :
    ∃ t, exec .decBinTrm u = .next t ∧ t.rsp = some ⟨none, 0⟩ ∧ o.Follows t (Ideal.code o.cfg d .goOn) := by
  have hbounds := h.reads.value_bounds (off := 0) (h.rdPos_le ho) (Ideal.part_of_goOn hin)
  have hspec := decBinTrm u h.live
  simp only [h.range] at hspec
  rw [if_neg (not_not.2 h.coding), if_neg (by omega)] at hspec
  have hcode : Ideal.code o.cfg d .goOn =
      let n := if d.range - 2 < 256 then 1 else 0
      ⟨d.low * 2 ^ n, (d.range - 2) * 2 ^ n, d.doublings + n, d.ctx⟩ := by
    simp only [Ideal.code]
    split_ifs
    · simp only [pow_one, Nat.mul_comm]
    · simp
  rw [hcode] at hin ⊢
  generalize hn : (if d.range - 2 < 256 then 1 else 0 : Nat) = n at *
  have hn7 : n ≤ 7 := by
    rw [← hn]
    split_ifs <;> decide
  rw [if_neg (h.byte_there ho hin)] at hspec
  obtain ⟨t, e, hframe, hstate, hrange, hrefill⟩ := hspec
  have hframe' : u.DecoderCtxFrame t 0 := by
    unfold State.DecoderCtxFrame
    unfold State.DecoderFrame at hframe
    rw [hframe]
  refine ⟨t, e, congrArg State.rsp hframe, h.step (i := .decBinTrm) (nomatch ·) e hframe' hstate
    ((congrArg State.ctx hframe).trans h.ctx) hrange ?_⟩
  exact h.reads.shift (off := 0) hrefill (by omega) h.store_eq hn7

/-- Every bin before the terminating one; a context bin names a cell that there is. -/
theorem follows_decode {b : Bin} (ho : o.AtSegment) (h : o.Follows u d)
    (hctx : ∀ ctx bin, b = .context ctx bin → ctx.toNat < o.cfg.nctx) (hin : o.Within (Ideal.code o.cfg d b)) :
    ∃ t, exec b.decode u = .next t ∧ t.rsp = some ⟨none, if b.value then 1 else 0⟩ ∧
      o.Follows t (Ideal.code o.cfg d b) := by
  cases b with
  | context ctx bin => exact follows_context ho h (hctx ctx bin rfl) hin
  | bypass bin => exact follows_bypass ho h hin
  | goOn => exact follows_goOn ho h hin

/-- A command that completes puts its data in front of those of the rest. -/
theorem runData_of_completed {i : Instr} {rest : List Instr} {data : Word} (e : exec i s = .next t)
    (hrsp : t.rsp = some ⟨none, data⟩) :
    runData (i :: rest) s = (runData rest t).map fun r => (data :: r.1, r.2) := by
  simp only [runData, e, hrsp]

theorem follows_bins {bins : List Bin} (ho : o.AtSegment) (h : o.Follows u d)
    (hctx : ∀ b ∈ bins, ∀ ctx bin, b = .context ctx bin → ctx.toNat < o.cfg.nctx)
    (hin : o.Within (bins.foldl (Ideal.code o.cfg) d)) (rest : List Instr) :
    ∃ t, o.Follows t (bins.foldl (Ideal.code o.cfg) d) ∧ runData (bins.map Bin.decode ++ rest) u =
      (runData rest t).map fun r => (bins.map (fun b => if b.value then 1 else 0) ++ r.1, r.2) := by
  induction bins generalizing u d with
  | nil => exact ⟨u, h, by simp⟩
  | cons b bins ih =>
    have hfirst : o.Within (Ideal.code o.cfg d b) :=
      Ideal.holds_of_foldl ho.live.ranges (Ideal.code_range ho.live.ranges h.range_bounds) hin
    obtain ⟨v, e, hrsp, hv⟩ := follows_decode ho h (hctx b List.mem_cons_self) hfirst
    obtain ⟨t, ht, hrun⟩ := ih hv (fun b' hb' => hctx b' (List.mem_cons_of_mem _ hb')) hin
    refine ⟨t, ht, ?_⟩
    rw [List.map_cons, List.cons_append, runData_of_completed e hrsp, hrun, Option.map_map]
    rfl

end Sys2Proof.Machine
end

section
/-! SUPPORT. What a run of encoder commands leaves for the decoder (41_encoder.md R143 to R147). -/

namespace Sys2Proof.Machine

variable {o s t : State} {i : Instr} {data : Word}

/-- The commands of a coded segment (42_decoder.md R176). -/
inductive Encodes : Instr → Prop where
  | start : Encodes .encStart
  | bin (b : Bin) : Encodes b.encode
  | terminate : Encodes (.encBinTrm true)
  | finish : Encodes .encFinish

/-- `t` is `s` but for the contexts, the encoder, the written end of the buffer and the response. -/
def State.WriteFrame (s t : State) : Prop :=
  t = { s with
    ctx := t.ctx
    encState := t.encState, encTrm := t.encTrm, encLow := t.encLow, encRange := t.encRange
    encBitsLeft := t.encBitsLeft, encBufByte := t.encBufByte, encNumBuf := t.encNumBuf
    store := t.store, bbCap := t.bbCap, wrPos := t.wrPos, rsp := t.rsp }

theorem State.EncoderFrame.writeFrame (h : s.EncoderFrame t) : s.WriteFrame t := by
  unfold State.WriteFrame
  unfold State.EncoderFrame at h
  rw [h]

theorem State.EncoderCtxFrame.writeFrame (h : s.EncoderCtxFrame t) : s.WriteFrame t := by
  unfold State.WriteFrame
  unfold State.EncoderCtxFrame at h
  rw [h]

theorem writeFrame_of_encBinTrm {bin : Bool} (h : s.Live) (e : exec (.encBinTrm bin) s = .next t)
    (hrsp : t.rsp = some ⟨none, data⟩) : s.WriteFrame t := by
  have hspec := encBinTrm s bin h
  split at hspec
  · exact absurd hspec (not_raises_of_completed e hrsp)
  · exact (EndsAs.of_completed (i := .encBinTrm bin) (s := s) hspec e hrsp).1.writeFrame

/-- A context bin that completes names a cell that there is (41_encoder.md R144). -/
theorem encBin_completed {ctx : Byte} {bin : Bool} (h : s.Live) (e : exec (.encBin ctx bin) s = .next t)
    (hrsp : t.rsp = some ⟨none, data⟩) : ctx.toNat < s.cfg.nctx ∧ s.WriteFrame t := by
  have hspec := encBin_spec s ctx bin h
  split_ifs at hspec with hi he
  · exact absurd hspec (not_raises_of_completed e hrsp)
  · obtain ⟨cell, -, hends⟩ := hspec
    exact ⟨by omega, (EndsAs.of_completed (i := .encBin ctx bin) (s := s) hends e hrsp).1.writeFrame⟩
  · exact absurd hspec (not_raises_of_completed e hrsp)

/-- A command of a segment that completes moves nothing of the decoder, the window or the mode. -/
theorem Encodes.writeFrame (hi : Encodes i) (h : s.Live) (e : exec i s = .next t) (hrsp : t.rsp = some ⟨none, data⟩) :
    s.WriteFrame t := by
  cases hi with
  | start =>
    have hspec := encStart s
    split at hspec
    · exact absurd hspec (not_raises_of_completed e hrsp)
    · cases hspec.symm.trans e
      rfl
  | bin b =>
    cases b with
    | context ctx bin => exact (encBin_completed h e hrsp).2
    | bypass bin =>
      have hspec := encBinEp s bin h
      split at hspec
      · exact absurd hspec (not_raises_of_completed e hrsp)
      · exact (EndsAs.of_completed (i := .encBinEp bin) (s := s) hspec e hrsp).1.writeFrame
    | goOn => exact writeFrame_of_encBinTrm h e hrsp
  | terminate => exact writeFrame_of_encBinTrm h e hrsp
  | finish =>
    have hspec := encFinish s h
    by_cases he : s.encState = .coding ∧ s.encTrm = true
    · obtain ⟨-, hframe, -⟩ := (encFinish_endsAs h he).of_completed e hrsp
      unfold State.WriteFrame
      rw [hframe]
    · rw [if_pos he] at hspec
      exact absurd hspec (not_raises_of_completed e hrsp)

theorem Encodes.ne_sysReset (hi : Encodes i) : i ≠ .sysReset := by
  cases hi with
  | bin b => cases b <;> exact (nomatch ·)
  | _ => exact (nomatch ·)

/-- Between the commands of a segment started in `o`: what the decoder will need of `o` is still there. -/
structure State.Encoded (o s : State) : Prop where
  live : s.Live
  cfg : s.cfg = o.cfg
  decState : s.decState = o.decState
  window : s.subActive = o.subActive
  count : s.count = o.count

theorem Encodes.encoded (hi : Encodes i) (h : o.Encoded s) (e : exec i s = .next t)
    (hrsp : t.rsp = some ⟨none, data⟩) : o.Encoded t := by
  have hf := hi.writeFrame h.live e hrsp
  refine ⟨live_of_completed h.live hi.ne_sysReset e hrsp, ?_, ?_, ?_, ?_⟩
  · exact (congrArg State.cfg hf).trans h.cfg
  · exact (congrArg State.decState hf).trans h.decState
  · exact (congrArg State.subActive hf).trans h.window
  · exact (congrArg State.count hf).trans h.count

/-- What every command of a list keeps holds all along a run without a fault. -/
theorem runData_keeps {P : State → Prop} {is : List Instr} {ds : List Word}
    (hstep : ∀ i ∈ is, ∀ s t data, P s → exec i s = .next t → t.rsp = some ⟨none, data⟩ → P t) (h : P s)
    (hrun : runData is s = some (ds, t)) :
    P t ∧ ∀ i ∈ is, ∃ u v data, P u ∧ exec i u = .next v ∧ v.rsp = some ⟨none, data⟩ := by
  induction is generalizing s ds with
  | nil =>
    cases hrun
    exact ⟨h, by simp⟩
  | cons i is ih =>
    obtain ⟨u, data, ds', e, hrsp, hrun⟩ := runData_cons hrun
    obtain ⟨ht, hmem⟩ := ih (fun j hj => hstep j (List.mem_cons_of_mem _ hj))
      (hstep i List.mem_cons_self s u data h e hrsp) hrun
    refine ⟨ht, List.forall_mem_cons.2 ⟨⟨s, u, data, h, e, hrsp⟩, hmem⟩⟩

theorem encodes_of_mem_encodeSegment {bins : List Bin} (h : i ∈ encodeSegment bins) : Encodes i := by
  simp only [encodeSegment, List.cons_append, List.mem_cons, List.mem_append, List.mem_map, List.not_mem_nil,
    or_false] at h
  obtain rfl | ⟨b, -, rfl⟩ | rfl | rfl := h
  · exact .start
  · exact .bin b
  · exact .terminate
  · exact .finish

/-- A segment that was encoded leaves the decoder as it was, and its context bins name cells that there are. -/
theorem encoded_of_encodeSegment {bins : List Bin} {ds : List Word} (h : s.Live)
    (hrun : runData (encodeSegment bins) s = some (ds, t)) :
    s.Encoded t ∧ ∀ b ∈ bins, ∀ ctx bin, b = .context ctx bin → ctx.toNat < s.cfg.nctx := by
  obtain ⟨ht, hmem⟩ := runData_keeps (P := s.Encoded)
    (fun i hi u v _ hu => (encodes_of_mem_encodeSegment hi).encoded hu) ⟨h, rfl, rfl, rfl, rfl⟩ hrun
  refine ⟨ht, ?_⟩
  rintro _ hb ctx bin rfl
  obtain ⟨u, v, _, hu, e, hrsp⟩ := hmem (.encBin ctx bin) (by
    simp only [encodeSegment, List.cons_append, List.mem_cons, List.mem_append, List.mem_map]
    exact .inr (.inl ⟨_, hb, rfl⟩))
  exact hu.cfg ▸ (encBin_completed hu.live e hrsp).1

end Sys2Proof.Machine
end

section
/-! SUPPORT. The inverse law (42_decoder.md R176): DEC_START, the bins and DEC_BIN_TRM over the segment that was
encoded. -/

namespace Sys2Proof.Machine

variable {o s t u : State} {d : Ideal}

/-- A segment has two bytes or more (41_encoder.md R147). -/
theorem State.CodeIn.avail {low width : Nat} (ho : o.AtSegment) (hin : o.CodeIn low width 0) : o.Avail 16 := by
  obtain ⟨k, hlen, -⟩ := hin
  have hstart := ho.start
  have hstop := ho.stop
  have hlim : o.rdLimit = o.wrPos.toNat := by simp [State.rdLimit, ho.window]
  unfold State.Avail
  omega

/-- The first 16 bits of a code string in [0, width) x 2^-9 are below width x 2^7. -/
theorem State.CodeIn.first_lt {width : Nat} (hin : o.CodeIn 0 width 0) (hav : o.rdPos.toNat + 16 ≤ o.wrPos.toNat) :
    o.store.readBits o.rdPos.toNat 16 < width * 2 ^ 7 := by
  obtain ⟨k, hlen, hlo, hhi⟩ := hin
  obtain ⟨r, hr⟩ := Nat.exists_eq_add_of_le hav
  rw [show o.wrPos.toNat - o.rdPos.toNat = 16 + r by omega, Memory.readBits_append, show k = 7 + r by omega] at hlo hhi
  have hlt := (leading_bounds (Memory.readBits_lt _ _ _) hlo hhi).2
  rwa [Nat.zero_add] at hlt

/-- DEC_START at the beginning of a segment (42_decoder.md R172): the code string lies in [0, 510) x 2^-9, so that its
first byte is not 0xFF. -/
theorem follows_start (ho : o.AtSegment) (hd : o.decState ≠ .coding) (hin : o.Within (Ideal.start o.ctx)) :
    ∃ u, exec .decStart o = .next u ∧ u.rsp = some ⟨none, 0⟩ ∧ o.Follows u (Ideal.start o.ctx) := by
  have hav := State.CodeIn.avail ho hin
  have hle : o.rdPos.toNat + 16 ≤ o.wrPos.toNat := hav.trans ho.live.rdLimit_le
  have hsmall := State.CodeIn.first_lt (width := 510) hin hle
  have hlt := o.wrPos.isLt
  have hpos : (BitVec.ofNat 32 (o.rdPos.toNat + 16)).toNat = o.rdPos.toNat + 16 := by rw [BitVec.toNat_ofNat]; omega
  generalize hvalue : o.store.readBits o.rdPos.toNat 16 = value at hsmall
  have hval : (BitVec.ofNat 17 value).toNat = value := by rw [BitVec.toNat_ofNat]; omega
  have hends := decStart_endsAs ho.live hd ho.real ho.start hav hvalue
  rw [if_neg (Nat.not_le.2 hsmall)] at hends
  obtain ⟨u, e, hu⟩ := hends
  have hlive : u.Live := live_of_completed (i := .decStart) ho.live (nomatch ·) e (congrArg State.rsp hu)
  subst hu
  refine ⟨_, e, rfl, hlive, rfl, rfl, rfl, rfl, 0, by decide, rfl, hpos, ?_⟩
  simp only [hpos, Nat.add_sub_cancel_left, hvalue, hval, Ideal.start]
  omega

/-- The code string ends in the part that the terminating bin selects (41_encoder.md R146, R147). -/
theorem State.codeIn_terminate {pad : Nat} (hlen : o.wrPos.toNat = o.rdPos.toNat + (d.length + 1 + pad))
    (hcode : o.store.readBits o.rdPos.toNat (d.length + 1 + pad) = (d.bits * 2 + 1) * 2 ^ pad) :
    o.CodeIn (d.low + (d.range - 2)) 2 d.doublings := by
  unfold State.CodeIn
  rw [hlen, Nat.add_sub_cancel_left, hcode]
  exact Ideal.part_of_terminate

/-- DEC_BIN_TRM at the end of a segment (42_decoder.md R175): the last byte fetched is the last one of the segment, and
holds the stop bit behind the bits used. -/
theorem follows_terminate {pad : Nat} (ho : o.AtSegment) (h : o.Follows u d)
    (hlen : o.wrPos.toNat = o.rdPos.toNat + (d.length + 1 + pad)) (hpad : pad ≤ 7)
    (hcode : o.store.readBits o.rdPos.toNat (d.length + 1 + pad) = (d.bits * 2 + 1) * 2 ^ pad) :
    ∃ t, exec .decBinTrm u = .next t ∧ t.rsp = some ⟨none, 1⟩ ∧ t.ctx = d.ctx ∧ t.rdPos = o.wrPos ∧
      t.decState = .terminated := by
  have hbounds := h.reads.value_bounds (h.rdPos_le ho) (State.codeIn_terminate hlen hcode)
  have hstart := ho.start
  have hstop := ho.stop
  have ha := (h.live.decMid h.coding).aligned
  obtain ⟨f, hf, hbits, hpos, -⟩ := h.reads
  have hlength : d.length = 8 + d.doublings := by unfold Ideal.length; omega
  have hrd : u.rdPos = o.wrPos := BitVec.eq_of_toNat_eq (by omega)
  have hf7 : pad + f = 7 := by omega
  have htail : o.store.readBits (o.wrPos.toNat - 8) 8 * 2 ^ f % 256 = 0x80 := by
    have hlast := Memory.readBits_append o.store o.rdPos.toNat (d.length + 1 + pad - 8) 8
    rw [show d.length + 1 + pad - 8 + 8 = d.length + 1 + pad by omega,
      show o.rdPos.toNat + (d.length + 1 + pad - 8) = o.wrPos.toNat - 8 by omega, hcode] at hlast
    have hbit : (d.bits * 2 + 1) * 2 ^ pad * 2 ^ f = d.bits * 256 + 0x80 := by
      rw [mul_assoc, ← pow_add, hf7]
      omega
    rw [hlast, Nat.add_mul, Nat.mul_right_comm] at hbit
    omega
  have hspec := decBinTrm u h.live
  simp only [h.range] at hspec
  rw [if_neg (not_not.2 h.coding), if_pos hbounds.1, h.store_eq, hrd, if_neg ?_] at hspec
  · exact ⟨_, hspec, rfl, h.ctx, rfl, rfl⟩
  · rw [show (8 + u.decBitsNeeded.toInt).toNat = f by omega]
    exact not_not.2 htail

/-- The commands of a segment decode it where its code string is that of the unbounded coder (42_decoder.md R176). -/
theorem runData_decodeSegment {bins : List Bin} {pad : Nat} (ho : o.AtSegment) (hdec : o.decState ≠ .coding)
    (hcells : ∀ b ∈ bins, ∀ ctx bin, b = .context ctx bin → ctx.toNat < o.cfg.nctx)
    (hd : bins.foldl (Ideal.code o.cfg) (Ideal.start o.ctx) = d)
    (hlen : o.wrPos.toNat = o.rdPos.toNat + (d.length + 1 + pad)) (hpad : pad ≤ 7)
    (hcode : o.store.readBits o.rdPos.toNat (d.length + 1 + pad) = (d.bits * 2 + 1) * 2 ^ pad) :
    ∃ u, runData (decodeSegment bins) o = some (0 :: bins.map (fun b => if b.value then 1 else 0) ++ [1], u) ∧
      u.ctx = d.ctx ∧ u.rdPos = o.wrPos ∧ u.decState = .terminated := by
  have hrange : 256 ≤ (Ideal.start o.ctx).range ∧ (Ideal.start o.ctx).range ≤ 510 := by simp [Ideal.start]
  have hall : o.Within d := by
    have hdrange := Ideal.foldl_range ho.live.ranges hrange (bins := bins)
    rw [hd] at hdrange
    exact (State.codeIn_terminate hlen hcode).of_part (by omega)
  have hfirst : o.Within (Ideal.start o.ctx) := Ideal.holds_of_foldl ho.live.ranges hrange (by rw [hd]; exact hall)
  obtain ⟨u, estart, ustart, hfollows⟩ := follows_start ho hdec hfirst
  obtain ⟨v, hv, hrun⟩ := follows_bins ho hfollows hcells (by rw [hd]; exact hall) [.decBinTrm]
  rw [hd] at hv
  obtain ⟨w, eterm, wterm, hctx, hpos, hstate⟩ := follows_terminate ho hv hlen hpad hcode
  refine ⟨w, ?_, hctx, hpos, hstate⟩
  unfold decodeSegment
  rw [List.cons_append, runData_of_completed estart ustart, hrun, runData_of_completed eterm wterm]
  rfl

/-- The segment that was encoded, as the decoder finds it: the contexts and the read cursor set back (42_decoder.md
R176). -/
theorem atSegment_of_encoded (h : s.Live) (henc : s.Encoded t) (hreal : s.count = false) (hwindow : s.subActive = false)
    (hdec : s.decState ≠ .coding) (hle : s.wrPos.toNat ≤ t.wrPos.toNat) (hstart : s.wrPos.toNat % 8 = 0)
    (hstop : t.wrPos.toNat % 8 = 0) : State.AtSegment { t with ctx := s.ctx, rdPos := s.wrPos } := by
  obtain ⟨hlive, hcfg, htdec, htwindow, htreal⟩ := henc
  have hlim : t.rdLimit = t.wrPos.toNat := by simp [State.rdLimit, htwindow.trans hwindow]
  refine ⟨hlive.of_in rfl ?_ (hle.trans_eq hlim.symm) ?_, htreal.trans hreal, htwindow.trans hwindow, hstart, hstop⟩
  · rw [h.ctx_length, hlive.ctx_length, hcfg]
  · exact fun hcoding => absurd (htdec.symm.trans hcoding) hdec

/-- Settles O32: the code string of the segment is the one of the unbounded coder (`carryPropagation`) and lies in its
interval after every bin, so that the decoder follows it from DEC_START to the terminating bin. -/
theorem inverseLaw : Obligations.InverseLaw := by
  intro s t bins ds h hreal hwindow hdec hrun
  obtain ⟨hpos, hpos8, hcode, -, hctx⟩ := carryPropagation s t bins ds h hreal hrun
  obtain ⟨henc, hcells⟩ := encoded_of_encodeSegment h hrun
  have hcfg := henc.cfg
  rw [← hcfg] at hpos hcode hctx hcells
  have ho := atSegment_of_encoded h henc hreal hwindow hdec (by omega) (by omega) hpos8
  obtain ⟨u, e, uctx, upos, ustate⟩ := runData_decodeSegment ho (fun hc => hdec (henc.decState.symm.trans hc)) hcells
    rfl (hpos.trans (by simp only [Nat.add_assoc])) (by omega) hcode
  exact ⟨u, e, uctx.trans hctx.symm, upos, ustate⟩

end Sys2Proof.Machine
end

section
/-! SUPPORT. The bit buffer's commands one by one (43_bitbuffer.md R190 to R198): each is its checks in the order of its
rule, then one shared operation. -/

namespace Sys2Proof.Machine

/-- An assignment to a register of 32 bits that can hold the value (00_scope.md R10). -/
theorem assign_of_lt {s : State} {e : Nat} {upd : State → State} (h : e < 2 ^ 32) :
    assign (fitsU 32 (e : Int)) upd s = .ok () (upd s) := by
  rw [assign_run, fitsU_natCast, decide_eq_true h, if_pos rfl]

theorem setRdPos_run {s : State} (pos : Word) : setRdPos pos.toNat s = .ok () { s with rdPos := pos } := by
  refine (assign_of_lt pos.isLt).trans ?_
  rw [ofInt_natCast, BitVec.ofNat_toNat, BitVec.setWidth_eq]

theorem setSubEnd_run {s : State} {e : Nat} (h : e < 2 ^ 32) :
    setSubEnd e s = .ok () { s with subEnd := BitVec.ofNat 32 e } := by
  refine (assign_of_lt h).trans ?_
  rw [ofInt_natCast]

theorem setBbCap_run {s : State} {e : Nat} (h : e < 2 ^ 32) :
    setBbCap e s = .ok () { s with bbCap := BitVec.ofNat 32 e } := by
  refine (assign_of_lt h).trans ?_
  rw [ofInt_natCast]

/-- A step that completes, in front of the rest of a command. -/
theorem answer_of_step {α : Type} {op : Byte} {m : Cmd α} {f : α → Cmd Word} {s t : State} {a : α}
    (h : m s = .ok a t) : answer op (m >>= f) s = answer op (f a) t := by
  simp only [answer, bind_run, h]

/-! Emptying the buffer (43_bitbuffer.md R190, R194). -/

section

variable {s : State}

/-- The check in front of both commands: an engine is CODING. -/
theorem coding_check_iff :
    (s.encState == .coding || s.decState == .coding) = true ↔ s.encState = .coding ∨ s.decState = .coding := by
  simp

/-- The last steps of both commands. -/
theorem answer_emptyBuffer (op : Byte) :
    answer op (emptyBuffer >>= fun _ => pure 0) s =
      .next { s with wrPos := 0, rdPos := 0, subActive := false, subEnd := 0, rsp := some ⟨none, 0⟩ } := rfl

theorem exec_bbInit_of_idle {count : Bool} (hl : s.cfg.legal = true)
    (h : ¬ (s.encState = .coding ∨ s.decState = .coding)) :
    exec (.bbInit count) s = .next { s with
      count := count, bbCap := BitVec.ofNat 32 s.cfg.cap0, wrPos := 0, rdPos := 0, subActive := false, subEnd := 0
      rsp := some ⟨none, 0⟩ } :=
  (answer_of_check_passed (Bool.eq_false_iff.2 (coding_check_iff.not.2 h))).trans <|
    (answer_of_step (modify_run s fun t => { t with count := count })).trans <|
      (answer_of_step (setBbCap_run (State.cap0_legal hl).1)).trans (answer_emptyBuffer 0x40)

theorem bbInit_raises_state {count : Bool} (h : s.encState = .coding ∨ s.decState = .coding) :
    raises (.bbInit count) s .state :=
  answer_of_check_failed (coding_check_iff.2 h)

theorem exec_bbResetBits_of_idle (h : ¬ (s.encState = .coding ∨ s.decState = .coding)) :
    exec .bbResetBits s = .next { s with
      wrPos := 0, rdPos := 0, subActive := false, subEnd := 0, rsp := some ⟨none, 0⟩ } :=
  (answer_of_check_passed (Bool.eq_false_iff.2 (coding_check_iff.not.2 h))).trans (answer_emptyBuffer 0x44)

theorem bbResetBits_raises_state (h : s.encState = .coding ∨ s.decState = .coding) : raises .bbResetBits s .state :=
  answer_of_check_failed (coding_check_iff.2 h)

end

/-- Settles O34: the check, then assignments that all fit, CAP0 because the parameters are legal. -/
theorem emptyingTheBuffer : Obligations.EmptyingTheBuffer := by
  intro s hl
  refine ⟨fun count => ?_, ?_⟩
  · split_ifs with h
    · exact bbInit_raises_state h
    · exact exec_bbInit_of_idle hl h
  · split_ifs with h
    · exact bbResetBits_raises_state h
    · exact exec_bbResetBits_of_idle h

/-! The cursors, a byte of the store, and the window (43_bitbuffer.md R193, R195 to R198). -/

section

variable {op : Byte} {s : State}

/-- A register of the buffer takes a value that fits its 32 bits, last thing in a command. -/
theorem answer_setRdPos (pos : Word) :
    answer op (setRdPos pos.toNat >>= fun _ => pure 0) s = .next { s with rdPos := pos, rsp := some ⟨none, 0⟩ } :=
  answer_of_step (setRdPos_run pos)

/-- MemRead of a byte that is wholly written, last thing in a command (43_bitbuffer.md R196). -/
theorem answer_memRead_byte {k : Nat} (h : 8 * (k + 1) ≤ s.wrPos.toNat) :
    answer op (do return BitVec.ofNat 32 (← memRead ((8 * k : Nat)) 8)) s =
      .next { s with rsp := some ⟨none, (s.store.read k).setWidth 32⟩ } := by
  obtain ⟨v, t, hrun, rfl, rfl⟩ := (memRead_sat (s := s) (addr := 8 * k) (n := 8) (by omega)).completes
  refine (answer_ok (t := t) (by rw [bind_run, hrun]; rfl)).trans ?_
  rw [Memory.readBits_byte, BitVec.ofNat_toNat]
  rfl

end

/-- Settles O37: the checks in their order; then nothing changes but the read cursor, and a byte that is wholly written
can be read. -/
theorem cursorsAndPeeks : Obligations.CursorsAndPeeks := by
  refine ⟨fun s => rfl, fun s pos => ?_, fun s index => ?_⟩
  · split_ifs with hstate hindex
    · exact answer_of_check_failed (by simpa [or_assoc] using hstate)
    · exact (answer_of_check_passed (by simpa [and_assoc] using hstate)).trans
        (answer_of_check_failed (decide_eq_true hindex))
    · exact (answer_of_check_passed (by simpa [and_assoc] using hstate)).trans
        ((answer_of_check_passed (decide_eq_false hindex)).trans (answer_setRdPos pos))
  · split_ifs with hcount hindex
    · exact answer_of_check_failed hcount
    · exact (answer_of_check_passed (Bool.eq_false_iff.2 hcount)).trans
        (answer_of_check_failed (decide_eq_true hindex))
    · exact (answer_of_check_passed (Bool.eq_false_iff.2 hcount)).trans
        ((answer_of_check_passed (decide_eq_false hindex)).trans (answer_memRead_byte (by omega)))

section

variable {s : State} {nbytes : Word}

/-- The two checks of BB_SUB_OPEN that raise ERR_STATE (43_bitbuffer.md R197). -/
theorem bbSubOpen_raises_state
    (h : s.decState = .coding ∨ s.count = true ∨ s.subActive = true ∨ s.rdPos.toNat % 8 ≠ 0) :
    raises (.bbSubOpen nbytes) s .state := by
  by_cases hfirst : (s.decState == .coding || s.count || s.subActive) = true
  · exact answer_of_check_failed hfirst
  · have hoff : s.rdPos.toNat % 8 ≠ 0 := by
      simp only [Bool.or_eq_true, beq_iff_eq, or_assoc] at hfirst
      tauto
    exact (answer_of_check_passed (Bool.eq_false_iff.2 hfirst)).trans (answer_of_check_failed (decide_eq_true hoff))

/-- Both pass. -/
theorem exec_bbSubOpen_of_checked
    (h : ¬ (s.decState = .coding ∨ s.count = true ∨ s.subActive = true ∨ s.rdPos.toNat % 8 ≠ 0)) :
    exec (.bbSubOpen nbytes) s = answer 0x47 (do
      raiseIf (s.rdPos.toNat + 8 * nbytes.toNat > s.wrPos.toNat) .exhausted
      setSubEnd ((s.rdPos.toNat + 8 * nbytes.toNat : Nat))
      setSubActive true
      return 0) s := by
  simp only [not_or, not_not] at h
  obtain ⟨hdec, hcount, hactive, halign⟩ := h
  exact (answer_of_check_passed (by simp [hdec, hcount, hactive])).trans
    (answer_of_check_passed (decide_eq_false (not_not.2 halign)))

end

/-- Settles O38: the checks in their order; the end of a window that is written fits BB_SUB_END. -/
theorem subStreamWindow : Obligations.SubStreamWindow := by
  refine ⟨fun s nbytes => ?_, fun s => ?_⟩
  · split_ifs with hstate hshort
    · exact bbSubOpen_raises_state hstate
    · exact (exec_bbSubOpen_of_checked hstate).trans (answer_of_check_failed (decide_eq_true hshort))
    · have hfit : s.rdPos.toNat + 8 * nbytes.toNat < 2 ^ 32 := by have := s.wrPos.isLt; omega
      exact (exec_bbSubOpen_of_checked hstate).trans ((answer_of_check_passed (decide_eq_false hshort)).trans
        (answer_of_step (setSubEnd_run hfit)))
  · split_ifs with hstate
    · exact answer_of_check_failed (by simpa using hstate)
    · exact (answer_of_check_passed (by simpa using hstate)).trans (answer_of_step (setRdPos_run s.subEnd))

/-! BB_WRITE and BB_READ (43_bitbuffer.md R191, R192). -/

section

variable {s : State} {n : Byte} {bits : Word}

/-- The checks of BB_WRITE pass. -/
theorem exec_bbWrite_of_checked (hn : ¬ 32 < n.toNat) (he : ¬ s.encState = .coding) :
    exec (.bbWrite n bits) s = answer 0x41 (do
      putBits (lowBits bits n.toNat) n.toNat
      return 0) s :=
  (answer_of_check_passed (decide_eq_false hn)).trans (answer_of_check_passed (by simpa using he))

/-- BB_WRITE once its checks have passed: PutBits and its fault for want of room. -/
theorem bbWrite_endsAs (h : s.Live) (hn : ¬ 32 < n.toNat) (he : ¬ s.encState = .coding) :
    EndsAs (.bbWrite n bits) s (if s.Room n.toNat then none else some s.outCause)
      (s.Appended n.toNat (bits.toNat % 2 ^ n.toNat)) := by
  refine endsAs_of_sat (i := .bbWrite n bits) (nomatch ·) (exec_bbWrite_of_checked hn he) ?_
  rw [sat_bind]
  refine (putBits_sat h.capOk (not_lt.1 hn) (Nat.mod_lt _ (by positivity))).mono ?_ fun _ t ht => sat_pure.2 ?_
  · rintro c ⟨rfl, hroom⟩
    exact if_neg hroom
  · exact ⟨if_pos ht.2, ht.1.appended h.wf⟩

/-- The checks of BB_READ pass. -/
theorem exec_bbRead_of_checked (hn : ¬ 32 < n.toNat) (hs : ¬ (s.decState = .coding ∨ s.count = true)) :
    exec (.bbRead n) s = answer 0x42 (do return BitVec.ofNat 32 (← getBits n.toNat)) s :=
  (answer_of_check_passed (decide_eq_false hn)).trans (answer_of_check_passed (by simpa using hs))

/-- BB_READ once its checks have passed: GetBits and its fault for want of bits. -/
theorem bbRead_endsAs (h : s.Live) (hn : ¬ 32 < n.toNat) (hs : ¬ (s.decState = .coding ∨ s.count = true)) :
    EndsAs (.bbRead n) s (if s.Avail n.toNat then none else some .exhausted) (· = { s with
      rdPos := BitVec.ofNat 32 (s.rdPos.toNat + n.toNat)
      rsp := some ⟨none, BitVec.ofNat 32 (s.store.readBits s.rdPos.toNat n.toNat)⟩ }) := by
  have hcount : s.count = false := by simpa using (not_or.1 hs).2
  refine endsAs_of_sat (i := .bbRead n) (nomatch ·) (exec_bbRead_of_checked hn hs) ?_
  rw [sat_bind]
  refine (getBits_sat (h.readOk hcount)).mono ?_ ?_
  · rintro c ⟨rfl, hshort⟩
    exact if_neg hshort
  · rintro v t ⟨hav, rfl, hframe, hpos⟩
    refine sat_pure.2 ⟨if_pos hav, ?_⟩
    rw [hframe, ← hpos, BitVec.ofNat_toNat, BitVec.setWidth_eq]
    rfl

end

/-- Settles O35: the two checks, then PutBits (`bbWrite_endsAs`), whose fault is ERR_OVERFLOW at the largest position and
ERR_RESOURCE below it. -/
theorem bbWrite : Obligations.BbWrite := by
  intro s n bits h
  split_ifs with hn he hover hfull
  · exact answer_of_check_failed (decide_eq_true hn)
  · exact (answer_of_check_passed (decide_eq_false hn)).trans (answer_of_check_failed (by simpa using he))
  · obtain ⟨hcause, hroom⟩ := h.capOk.overflow (not_lt.1 hn) hover
    have hends := bbWrite_endsAs (bits := bits) h hn he
    rwa [if_neg hroom, hcause] at hends
  · obtain ⟨hcause, hroom⟩ := State.resource_of_full hfull.1 (not_le.1 hover) hfull.2
    have hends := bbWrite_endsAs (bits := bits) h hn he
    rwa [if_neg hroom, hcause] at hends
  · have hroom : s.Room n.toNat := ⟨not_le.1 hover, fun hcount => not_lt.1 fun hlt => hfull ⟨hcount, hlt⟩⟩
    have hends := bbWrite_endsAs (bits := bits) h hn he
    rwa [if_pos hroom] at hends

/-- Settles O36: the two checks, then GetBits up to the read limit (`bbRead_endsAs`). -/
theorem bbRead : Obligations.BbRead := by
  intro s n h
  change if _ then _ else if _ then _ else if s.rdLimit < _ then _ else _
  split_ifs with hn hs hshort
  · exact answer_of_check_failed (decide_eq_true hn)
  · exact (answer_of_check_passed (decide_eq_false hn)).trans (answer_of_check_failed (by simpa using hs))
  · have hends := bbRead_endsAs h hn hs
    rwa [if_neg (not_le.2 hshort : ¬ s.Avail n.toNat)] at hends
  · have hends := bbRead_endsAs h hn hs
    rw [if_pos (not_lt.1 hshort : s.Avail n.toNat)] at hends
    obtain ⟨t, e, rfl⟩ := hends
    exact e

end Sys2Proof.Machine
end

section
/-! SUPPORT. What BB_WRITE put out BB_READ takes in, in any parts (43_bitbuffer.md R199): the writes make one bit string
in the store, and the reads cut it up. -/

namespace Sys2Proof.Machine

/-! Numbers of so many bits each, joined. -/

theorem concat_lt {l : List (Nat × Nat)} (h : ∀ p ∈ l, p.2 < 2 ^ p.1) : concat l < 2 ^ (l.map (·.1)).sum := by
  induction l with
  | nil => decide
  | cons p rest ih =>
    obtain ⟨hp, hrest⟩ := List.forall_mem_cons.1 h
    have hlt := ih hrest
    calc p.2 * 2 ^ (rest.map (·.1)).sum + concat rest
        < p.2 * 2 ^ (rest.map (·.1)).sum + 2 ^ (rest.map (·.1)).sum := by omega
      _ = (p.2 + 1) * 2 ^ (rest.map (·.1)).sum := by ring
      _ ≤ 2 ^ p.1 * 2 ^ (rest.map (·.1)).sum := Nat.mul_le_mul_right _ hp
      _ = 2 ^ (p.1 + (rest.map (·.1)).sum) := (pow_add ..).symm

/-- A number below `K` and a multiple of `K` are told apart in their sum. -/
theorem eq_and_eq_of_mul_add_eq {K a b c d : Nat} (h : a * K + b = c * K + d) (hb : b < K) (hd : d < K) :
    a = c ∧ b = d := by
  have hmod := congrArg (· % K) h
  simp only [Nat.mul_add_mod_self_right, Nat.mod_eq_of_lt hb, Nat.mod_eq_of_lt hd] at hmod
  subst hmod
  exact ⟨Nat.eq_of_mul_eq_mul_right (Nat.zero_lt_of_lt hb) (Nat.add_right_cancel h), rfl⟩

namespace Memory

/-- The bit string from bit address `addr` on, cut into numbers of so many bits each. -/
def parts (m : Memory) : Nat → List Nat → List Nat
  | _, [] => []
  | addr, n :: rest => m.readBits addr n :: m.parts (addr + n) rest

variable {m : Memory} {addr : Nat} {ns : List Nat}

theorem length_parts : (m.parts addr ns).length = ns.length := by
  induction ns generalizing addr with
  | nil => rfl
  | cons n rest ih => exact congrArg (· + 1) ih

theorem parts_lt : ∀ p ∈ ns.zip (m.parts addr ns), p.2 < 2 ^ p.1 := by
  induction ns generalizing addr with
  | nil => exact fun _ h => nomatch h
  | cons n rest ih => exact List.forall_mem_cons.2 ⟨readBits_lt m addr n, ih⟩

/-- The parts joined are the string. -/
theorem concat_parts : concat (ns.zip (m.parts addr ns)) = m.readBits addr ns.sum := by
  induction ns generalizing addr with
  | nil => rfl
  | cons n rest ih =>
    rw [List.sum_cons, readBits_append, ← ih, parts, List.zip_cons_cons, concat, List.map_fst_zip length_parts.ge]

/-- A string that joins numbers is cut into them. -/
theorem parts_of_concat {l : List (Nat × Nat)} (h : ∀ p ∈ l, p.2 < 2 ^ p.1)
    (hm : m.readBits addr (l.map (·.1)).sum = concat l) : m.parts addr (l.map (·.1)) = l.map (·.2) := by
  induction l generalizing addr with
  | nil => rfl
  | cons p rest ih =>
    obtain ⟨hp, hrest⟩ := List.forall_mem_cons.1 h
    have hlt := concat_lt hrest
    have hread := readBits_lt m (addr + p.1) (rest.map (·.1)).sum
    rw [List.map_cons, List.sum_cons, readBits_append, concat] at hm
    obtain ⟨hhead, htail⟩ := eq_and_eq_of_mul_add_eq hm hread hlt
    rw [List.map_cons, List.map_cons, parts, hhead, ih hrest htail]

end Memory

/-- What a list of BB_WRITE commands writes: of each the number of bits, and the low bits themselves. -/
def written (writes : List (Byte × Word)) : List (Nat × Nat) :=
  writes.map fun p => (p.1.toNat, p.2.toNat % 2 ^ p.1.toNat)

theorem written_lt (writes : List (Byte × Word)) : ∀ p ∈ written writes, p.2 < 2 ^ p.1 := by
  intro p hp
  obtain ⟨w, -, rfl⟩ := List.mem_map.1 hp
  exact Nat.mod_lt _ (by positivity)

/-! The writes (43_bitbuffer.md R191). -/

/-- `t` is `s` in real mode with the `n`-bit string `v` put out behind what was written before. -/
structure State.Wrote (s : State) (n v : Nat) (t : State) : Prop where
  live : t.Live
  frame : t = { s with store := t.store, bbCap := t.bbCap, wrPos := t.wrPos, rsp := t.rsp }
  pos : t.wrPos.toNat = s.wrPos.toNat + n
  below : ∀ p < s.wrPos.toNat, t.store.bit p = s.store.bit p
  value : t.store.readBits s.wrPos.toNat n = v

section

variable {s t u : State}

theorem State.Wrote.refl (h : s.Live) : s.Wrote 0 0 s := ⟨h, rfl, rfl, fun _ _ => rfl, rfl⟩

theorem State.Wrote.append {n v k w : Nat} (h : s.Wrote n v t) (g : t.Wrote k w u) :
    s.Wrote (n + k) (v * 2 ^ k + w) u := by
  have hpos := h.pos
  refine ⟨g.live, ?_, by rw [g.pos]; omega, fun p hp => (g.below p (by omega)).trans (h.below p hp), ?_⟩
  · rw [g.frame, h.frame]
  · rw [Memory.readBits_append, ← hpos, g.value, ← h.value,
      Memory.readBits_congr fun p _ hp => g.below p (hp.trans_eq hpos.symm)]

theorem exec_bbWrite_wrote {n : Byte} {bits : Word} (h : s.Live) (hreal : s.count = false) (he : s.encState ≠ .coding)
    (hn : n.toNat ≤ 32) (hroom : s.Room n.toNat) :
    ∃ t, exec (.bbWrite n bits) s = .next t ∧ t.rsp = some ⟨none, 0⟩ ∧
      s.Wrote n.toNat (bits.toNat % 2 ^ n.toNat) t := by
  have hends := bbWrite_endsAs (bits := bits) h (not_lt.2 hn) he
  rw [if_pos hroom] at hends
  obtain ⟨t, e, hframe, hpos, -, -, hbits⟩ := hends
  have hrsp : t.rsp = some ⟨none, 0⟩ := by rw [hframe]
  obtain ⟨-, hbit⟩ := hbits hreal
  refine ⟨t, e, hrsp, live_of_completed (i := .bbWrite n bits) h (nomatch ·) e hrsp, ?_, hpos, fun p hp => ?_, ?_⟩
  · rw [hrsp]
    exact hframe
  · rw [hbit, if_neg (by omega)]
  · rw [Memory.readBits_of_bits fun p h1 h2 => (hbit p).trans (if_pos ⟨h1, h2⟩), Nat.mod_mod]

/-- BB_WRITE commands for which there is room all complete and put their strings out one behind the other. -/
theorem runData_writes {writes : List (Byte × Word)} (rest : List Instr) (h : s.Live) (hreal : s.count = false)
    (he : s.encState ≠ .coding) (hn : ∀ p ∈ writes, p.1.toNat ≤ 32)
    (hroom : s.Room ((written writes).map (·.1)).sum) :
    ∃ t, s.Wrote ((written writes).map (·.1)).sum (concat (written writes)) t ∧
      runData (writes.map (fun p => .bbWrite p.1 p.2) ++ rest) s =
        (runData rest t).map fun r => (writes.map (fun _ => 0) ++ r.1, r.2) := by
  induction writes generalizing s with
  | nil => exact ⟨s, .refl h, by simp⟩
  | cons p writes ih =>
    obtain ⟨hp, hn⟩ := List.forall_mem_cons.1 hn
    obtain ⟨hlt, hfit⟩ := hroom
    have hsum : ((written (p :: writes)).map (·.1)).sum = p.1.toNat + ((written writes).map (·.1)).sum := rfl
    obtain ⟨u, e, hrsp, hu⟩ := exec_bbWrite_wrote (bits := p.2) h hreal he hp
      ⟨by omega, fun hc => by have := hfit hc; omega⟩
    have hcfg : u.cfg = s.cfg := by rw [hu.frame]
    have hcount : u.count = s.count := by rw [hu.frame]
    have henc : u.encState = s.encState := by rw [hu.frame]
    have hpos := hu.pos
    obtain ⟨t, ht, hrun⟩ := ih hu.live (hcount.trans hreal) (henc ▸ he) hn
      ⟨by omega, fun hc => by have := hfit (hcount.symm.trans hc); rw [hcfg]; omega⟩
    refine ⟨t, hu.append ht, ?_⟩
    rw [List.map_cons, List.cons_append, runData_of_completed e hrsp, hrun, Option.map_map]
    rfl

/-! The reads (43_bitbuffer.md R192). -/

theorem exec_bbRead_takes {n : Byte} (h : s.Live) (hreal : s.count = false) (hd : s.decState ≠ .coding)
    (hn : n.toNat ≤ 32) (hav : s.Avail n.toNat) :
    ∃ d u, exec (.bbRead n) s = .next u ∧ u.rsp = some ⟨none, d⟩ ∧ u.Live ∧
      u = { s with rdPos := u.rdPos, rsp := u.rsp } ∧ u.rdPos.toNat = s.rdPos.toNat + n.toNat ∧
      d.toNat = s.store.readBits s.rdPos.toNat n.toNat := by
  have hends := bbRead_endsAs h (not_lt.2 hn) (by simp [hd, hreal])
  rw [if_pos hav] at hends
  obtain ⟨u, e, rfl⟩ := hends
  refine ⟨_, _, e, rfl, live_of_completed (i := .bbRead n) h (nomatch ·) e rfl, rfl, ?_, ?_⟩
  · have hlt := s.wrPos.isLt
    have hle := h.rdLimit_le
    unfold State.Avail at hav
    rw [BitVec.toNat_ofNat, Nat.mod_eq_of_lt (by omega)]
  · have hlt := Memory.readBits_lt s.store s.rdPos.toNat n.toNat
    rw [BitVec.toNat_ofNat, Nat.mod_eq_of_lt (hlt.trans_le (Nat.pow_le_pow_right (by decide) hn))]

/-- BB_READ commands for which there are bits all complete and return the parts of the string at the read cursor. -/
theorem runData_reads {reads : List Byte} (h : s.Live) (hreal : s.count = false) (hd : s.decState ≠ .coding)
    (hwindow : s.subActive = false) (hn : ∀ n ∈ reads, n.toNat ≤ 32)
    (hav : s.rdPos.toNat + (reads.map (·.toNat)).sum ≤ s.wrPos.toNat) :
    ∃ ds t, runData (reads.map .bbRead) s = some (ds, t) ∧
      ds.map (·.toNat) = s.store.parts s.rdPos.toNat (reads.map (·.toNat)) ∧
      t.rdPos.toNat = s.rdPos.toNat + (reads.map (·.toNat)).sum ∧ t.wrPos = s.wrPos := by
  induction reads generalizing s with
  | nil => exact ⟨[], s, rfl, rfl, rfl, rfl⟩
  | cons n reads ih =>
    obtain ⟨hn32, hn⟩ := List.forall_mem_cons.1 hn
    simp only [List.map_cons, List.sum_cons] at hav ⊢
    have hlim : s.rdLimit = s.wrPos.toNat := by simp [State.rdLimit, hwindow]
    obtain ⟨d, u, e, hrsp, hlive, hframe, hpos, hdata⟩ :=
      exec_bbRead_takes h hreal hd hn32 (by unfold State.Avail; omega)
    have hstore : u.store = s.store := by rw [hframe]
    have hwr : u.wrPos = s.wrPos := by rw [hframe]
    obtain ⟨ds, t, hrun, hds, htpos, htwr⟩ := ih hlive (by rw [hframe]; exact hreal) (by rw [hframe]; exact hd)
      (by rw [hframe]; exact hwindow) hn (by rw [hpos, hwr]; omega)
    refine ⟨d :: ds, t, ?_, ?_, by rw [htpos]; omega, htwr.trans hwr⟩
    · rw [runData_of_completed e hrsp, hrun]
      rfl
    · rw [List.map_cons, hdata, hds, hstore, hpos]
      rfl

/-- BB_RD_SEEK pos=0, always below the write cursor (43_bitbuffer.md R195). -/
theorem exec_bbRdSeek_zero (hd : s.decState ≠ .coding) (hreal : s.count = false) (hwindow : s.subActive = false) :
    exec (.bbRdSeek 0) s = .next { s with rdPos := 0, rsp := some ⟨none, 0⟩ } := by
  have hseek := cursorsAndPeeks.2.1 s 0
  have hle : ¬ s.wrPos.toNat < (0 : Word).toNat := Nat.not_lt_zero _
  rwa [if_neg (by simp [hd, hreal, hwindow]), if_neg hle] at hseek

end

/-- Settles O39: after BB_INIT the writes put out one string from position 0 on (`runData_writes`); the reads from
position 0 return its parts (`runData_reads`), which joined are the string again, and cut as it was written are the
values written. -/
theorem writeThenRead : Obligations.WriteThenRead := by
  intro s writes reads h he hd hwrites hreads _ total hsum hcap hlt
  have einit := exec_bbInit_of_idle (count := false) h.legal (not_or.2 ⟨he, hd⟩)
  have hinit := live_of_completed (i := .bbInit false) h (nomatch ·) einit rfl
  obtain ⟨t, ht, hrun⟩ := runData_writes (.bbRdSeek 0 :: reads.map .bbRead) hinit rfl he hwrites
    ⟨(Nat.zero_add _).trans_lt hlt, fun _ => (Nat.zero_add _).trans_le hcap⟩
  have hreal : t.count = false := by rw [ht.frame]
  have hdec : t.decState ≠ .coding := by rw [ht.frame]; exact hd
  have hwindow : t.subActive = false := by rw [ht.frame]
  have hpos : t.wrPos.toNat = total := ht.pos.trans (Nat.zero_add _)
  have eseek := exec_bbRdSeek_zero hdec hreal hwindow
  have hseek := live_of_completed (i := .bbRdSeek 0) ht.live (nomatch ·) eseek rfl
  obtain ⟨ds, u, hreadrun, hds, hrd, hwr⟩ := runData_reads hseek hreal hdec hwindow hreads
    (((Nat.zero_add _).trans hsum).trans_le hpos.ge)
  have hds : ds.map (·.toNat) = t.store.parts 0 (reads.map (·.toNat)) := hds
  have hlen : ds.length = reads.length := by
    have hl := congrArg List.length hds
    rwa [Memory.length_parts, List.length_map, List.length_map] at hl
  have hstring : t.store.readBits 0 total = concat (written writes) := ht.value
  refine ⟨ds, u, ?_, hlen, ?_, ?_, ?_, hrd.trans ((Nat.zero_add _).trans hsum), hwr ▸ hpos⟩
  · rw [List.cons_append, runData_of_completed einit rfl, hrun, runData_of_completed eseek rfl, hreadrun]
    rfl
  · intro nd hnd
    refine Memory.parts_lt (m := t.store) (addr := 0) (ns := reads.map (·.toNat)) (nd.1.toNat, nd.2.toNat) ?_
    rw [← hds, List.zip_map]
    exact List.mem_map_of_mem hnd
  · rw [hds]
    exact Memory.concat_parts.trans ((congrArg _ hsum).trans hstring)
  · rintro rfl
    have hns : (writes.map (·.1)).map (·.toNat) = (written writes).map (·.1) := by simp [written]
    rw [hds, hns]
    exact Memory.parts_of_concat (written_lt writes) hstring

end Sys2Proof.Machine
end

section
/-! SUPPORT. Two runs side by side (43_bitbuffer.md R200, R201): `Alike`, for pseudocode that runs the same from two
states that differ in the bit buffer's store, capacity and mode alone. Only PutBits and GetBits look at these. -/

namespace Sys2Proof.Machine

/-- What two such states may differ in; the response on offer, which no command looks at, included. -/
structure Patch where
  store : Memory
  bbCap : Word
  count : Bool
  rsp : Option Response

/-- The other state. -/
def State.patched (s : State) (d : Patch) : State :=
  { s with store := d.store, bbCap := d.bbCap, count := d.count, rsp := d.rsp }

/-- After a fault nothing is left of what the two states differed in (60_exceptions.md R282). -/
theorem State.takeFault_patched (s : State) (d : Patch) (op : Byte) (c : Cause) :
    (s.patched d).takeFault op c = s.takeFault op c := rfl

/-- `s` and its patched twin: both capacities are legal, and where output has room in `s` it has room in the twin, since
a real twin is one of a real state. Where `same` holds they differ in the capacity alone: they are exact twins. -/
structure State.Twin (same : Prop) (s : State) (d : Patch) : Prop where
  capOk : s.CapOk
  patched_capOk : (s.patched d).CapOk
  real : d.count = false → s.count = false
  store : same → d.store = s.store
  count : same → d.count = s.count

/-- `t` has the bit buffer of `s`, the read cursor and the window apart. -/
def State.SameBuffer (s t : State) : Prop :=
  t.cfg = s.cfg ∧ t.store = s.store ∧ t.wrPos = s.wrPos ∧ t.bbCap = s.bbCap ∧ t.count = s.count

variable {same : Prop}

theorem State.CapOk.congr {s t : State} (h : s.CapOk) (hcfg : t.cfg = s.cfg) (hpos : t.wrPos = s.wrPos)
    (hcap : t.bbCap = s.bbCap) (hcount : t.count = s.count) : t.CapOk :=
  ⟨hcfg ▸ h.legal, hcap ▸ h.power, hcap ▸ hcfg ▸ h.lo, hcap ▸ hcfg ▸ h.hi, hcount ▸ hpos ▸ hcap ▸ h.fit⟩

theorem State.Twin.congr {s t : State} {d : Patch} (h : s.Twin same d) (hst : s.SameBuffer t) : t.Twin same d := by
  obtain ⟨hcfg, hstore, hpos, hcap, hcount⟩ := hst
  exact ⟨h.capOk.congr hcfg hpos hcap hcount, h.patched_capOk.congr hcfg hpos rfl rfl,
    fun hd => hcount.trans (h.real hd), fun hx => (h.store hx).trans hstore.symm,
    fun hx => (h.count hx).trans hcount.symm⟩

/-- Responses may differ. -/
theorem State.Twin.respond {s : State} {d : Patch} (h : s.Twin same d) (a : Word) (r : Option Response) :
    (s.respond a).Twin same { d with rsp := r } := by
  obtain ⟨hcap, hcap', hreal, hstore, hcount⟩ := h
  exact ⟨hcap.congr rfl rfl rfl rfl, hcap'.congr rfl rfl rfl rfl, hreal, hstore, hcount⟩

/-- A state is a twin of its own. -/
theorem State.Twin.self {s : State} (h : s.CapOk) : s.Twin same ⟨s.store, s.bbCap, s.count, s.rsp⟩ :=
  ⟨h, h, id, fun _ => rfl, fun _ => rfl⟩

/-- Where the pseudocode completes, it completes from the twin too, with the same result and in a twin of its end; from
an exact twin it also ends in the same fault. -/
@[irreducible] def Alike (same : Prop) {α : Type} (m : Cmd α) : Prop :=
  ∀ s d, s.Twin same d → match m s with
    | .ok a t => ∃ d', m (s.patched d) = .ok a (t.patched d') ∧ t.Twin same d'
    | .error e _ => same → ∃ t', m (s.patched d) = .error e t'

section

variable {α β : Type}

theorem Alike.of_ok {m : Cmd α} {s t : State} {d : Patch} {a : α} (h : Alike same m) (hs : s.Twin same d)
    (e : m s = .ok a t) : ∃ d', m (s.patched d) = .ok a (t.patched d') ∧ t.Twin same d' := by
  unfold Alike at h
  have hsd := h s d hs
  rwa [e] at hsd

theorem Alike.of_error {m : Cmd α} {s t : State} {d : Patch} {x : Stop} (h : Alike same m) (hs : s.Twin same d)
    (e : m s = .error x t) (hx : same) : ∃ t', m (s.patched d) = .error x t' := by
  unfold Alike at h
  have hsd := h s d hs
  rw [e] at hsd
  exact hsd hx

theorem alike_pure {a : α} : Alike same (pure a : Cmd α) := by
  unfold Alike
  exact fun s d hs => ⟨d, rfl, hs⟩

theorem alike_raise {c : Cause} : Alike same (raise c : Cmd α) := by
  unfold Alike
  exact fun s d _ _ => ⟨_, rfl⟩

theorem alike_halt {f : Fault} : Alike same (halt f : Cmd α) := by
  unfold Alike
  exact fun s d _ _ => ⟨_, rfl⟩

theorem Alike.bind {m : Cmd α} {f : α → Cmd β} (h : Alike same m) (g : ∀ a, Alike same (f a)) :
    Alike same (m >>= f) := by
  unfold Alike
  intro s d hs
  rw [bind_run, bind_run]
  cases hm : m s with
  | ok a t =>
    obtain ⟨d', hm', ht⟩ := h.of_ok hs hm
    have hf := g a
    unfold Alike at hf
    rw [hm']
    exact hf t d' ht
  | error x t =>
    intro hx
    obtain ⟨t', hm'⟩ := h.of_error hs hm hx
    exact ⟨t', by rw [hm']⟩

/-- The state may be read, as long as what is done with it is the same in the twin. -/
theorem alike_get_of {f : State → Cmd β} (hf : ∀ s d, s.Twin same d → f (s.patched d) = f s)
    (h : ∀ s, Alike same (f s)) : Alike same (get >>= f) := by
  unfold Alike
  intro s d hs
  have hrun := h s
  unfold Alike at hrun
  have hget : (get >>= f : Cmd β) (s.patched d) = f s (s.patched d) := congrFun (hf s d hs) _
  rw [hget]
  exact hrun s d hs

/-- Reading anything but what the two differ in. -/
theorem alike_get {f : State → Cmd β} (hf : ∀ s d, f (s.patched d) = f s) (h : ∀ s, Alike same (f s)) :
    Alike same (get >>= f) :=
  alike_get_of (fun s d _ => hf s d) h

theorem Alike.map {m : Cmd α} {f : α → β} (h : Alike same m) : Alike same (f <$> m) := by
  rw [map_eq_pure_bind]
  exact h.bind fun _ => alike_pure

theorem alike_ite {p : Prop} [Decidable p] {m n : Cmd α} (h : Alike same m) (g : Alike same n) :
    Alike same (if p then m else n) := by
  split
  · exact h
  · exact g

theorem alike_raiseIf {b : Bool} {c : Cause} : Alike same (raiseIf b c) := alike_ite alike_raise alike_pure

theorem alike_assign {fits : Bool} {upd : State → State} (hupd : ∀ s : State, s.SameBuffer (upd s))
    (hpatch : ∀ (s : State) d, upd (s.patched d) = (upd s).patched d) : Alike same (assign fits upd) := by
  unfold Alike
  intro s d hs
  cases fits with
  | false => exact fun _ => ⟨_, rfl⟩
  | true => exact ⟨d, congrArg (EStateM.Result.ok ()) (hpatch s d), hs.congr (hupd s)⟩

theorem alike_modify {upd : State → State} (hupd : ∀ s : State, s.SameBuffer (upd s))
    (hpatch : ∀ (s : State) d, upd (s.patched d) = (upd s).patched d) : Alike same (modify upd : Cmd Unit) :=
  alike_assign (fits := true) hupd hpatch

theorem Alike.repeat {body : Cmd Unit} {n : Nat} (h : Alike same body) : Alike same (repeatCmd body n) := by
  induction n with
  | zero => exact alike_pure
  | succ n ih => exact h.bind fun _ => ih

end

/-! The primitives (00_scope.md R10, 20_memory.md R63 to R68). -/

section

variable {e : Int}

theorem alike_setEncLow : Alike same (setEncLow e) :=
  alike_assign (fun _ => ⟨rfl, rfl, rfl, rfl, rfl⟩) fun _ _ => rfl
theorem alike_setEncRange : Alike same (setEncRange e) :=
  alike_assign (fun _ => ⟨rfl, rfl, rfl, rfl, rfl⟩) fun _ _ => rfl
theorem alike_setEncBitsLeft : Alike same (setEncBitsLeft e) :=
  alike_assign (fun _ => ⟨rfl, rfl, rfl, rfl, rfl⟩) fun _ _ => rfl
theorem alike_setEncBufByte : Alike same (setEncBufByte e) :=
  alike_assign (fun _ => ⟨rfl, rfl, rfl, rfl, rfl⟩) fun _ _ => rfl
theorem alike_setEncNumBuf : Alike same (setEncNumBuf e) :=
  alike_assign (fun _ => ⟨rfl, rfl, rfl, rfl, rfl⟩) fun _ _ => rfl
theorem alike_setDecValue : Alike same (setDecValue e) :=
  alike_assign (fun _ => ⟨rfl, rfl, rfl, rfl, rfl⟩) fun _ _ => rfl
theorem alike_setDecRange : Alike same (setDecRange e) :=
  alike_assign (fun _ => ⟨rfl, rfl, rfl, rfl, rfl⟩) fun _ _ => rfl
theorem alike_setDecBitsNeeded : Alike same (setDecBitsNeeded e) :=
  alike_assign (fun _ => ⟨rfl, rfl, rfl, rfl, rfl⟩) fun _ _ => rfl
theorem alike_setRdPos : Alike same (setRdPos e) :=
  alike_assign (fun _ => ⟨rfl, rfl, rfl, rfl, rfl⟩) fun _ _ => rfl
theorem alike_setSubEnd : Alike same (setSubEnd e) :=
  alike_assign (fun _ => ⟨rfl, rfl, rfl, rfl, rfl⟩) fun _ _ => rfl

end

section

variable {e : Engine} {b : Bool} {i : Nat} {c : CtxCell}

theorem alike_setEncState : Alike same (setEncState e) :=
  alike_modify (fun _ => ⟨rfl, rfl, rfl, rfl, rfl⟩) fun _ _ => rfl
theorem alike_setEncTrm : Alike same (setEncTrm b) :=
  alike_modify (fun _ => ⟨rfl, rfl, rfl, rfl, rfl⟩) fun _ _ => rfl
theorem alike_setDecState : Alike same (setDecState e) :=
  alike_modify (fun _ => ⟨rfl, rfl, rfl, rfl, rfl⟩) fun _ _ => rfl
theorem alike_setSubActive : Alike same (setSubActive b) :=
  alike_modify (fun _ => ⟨rfl, rfl, rfl, rfl, rfl⟩) fun _ _ => rfl
theorem alike_writeCtx : Alike same (writeCtx i c) :=
  alike_modify (fun _ => ⟨rfl, rfl, rfl, rfl, rfl⟩) fun _ _ => rfl

end

theorem alike_readCtx {i : Nat} : Alike same (readCtx i) := by
  unfold Alike readCtx
  intro s d hs
  have hctx : (s.patched d).ctx = s.ctx := rfl
  rw [hctx]
  cases s.ctx[i]? with
  | none => exact fun _ => ⟨_, rfl⟩
  | some cell => exact ⟨d, rfl, hs⟩

theorem alike_countOf {e : Int} : Alike same (countOf e) := alike_ite alike_pure alike_halt

/-! PutBits (20_memory.md R66): whether it completes depends on the write cursor, the mode and CAP_MAX, not on the
capacity. -/

section

variable {s t : State} {d : Patch} {n v : Nat}

theorem putBits_of_unfit (h : ¬ (n ≤ 32 ∧ v < 2 ^ n)) : putBits v n s = .error (.halt .unfit) s := by
  simp [putBits, h]

theorem putBits_completes (hc : s.CapOk) (hfit : n ≤ 32 ∧ v < 2 ^ n) (hr : s.Room n) :
    ∃ t, putBits v n s = .ok () t ∧ s.Put n v t := by
  obtain ⟨⟨⟩, t, e, ht⟩ := ((putBits_sat hc hfit.1 hfit.2).mono (R := fun _ => False) (fun c hc => hc.2 hr)
    fun _ t ht => ht.1).completes
  exact ⟨t, e, ht⟩

theorem putBits_raises (hc : s.CapOk) (hfit : n ≤ 32 ∧ v < 2 ^ n) (hr : ¬ s.Room n) :
    ∃ t, putBits v n s = .error (.raise s.outCause) t := by
  have hsat := putBits_sat hc hfit.1 hfit.2
  unfold Sat at hsat
  split at hsat
  · exact absurd hsat.2 hr
  · next c t e => exact ⟨t, hsat.1 ▸ e⟩
  · exact hsat.elim

theorem State.Twin.room (h : s.Twin same d) (hr : s.Room n) : (s.patched d).Room n :=
  ⟨hr.1, fun hreal => hr.2 (h.real hreal)⟩

theorem State.Twin.not_room (h : s.Twin same d) (hx : same) (hr : ¬ s.Room n) :
    ¬ (s.patched d).Room n ∧ (s.patched d).outCause = s.outCause := by
  have hcount : (s.patched d).count = s.count := h.count hx
  refine ⟨fun hd => hr ⟨hd.1, fun hreal => hd.2 (hcount.trans hreal)⟩, ?_⟩
  unfold State.outCause
  rw [hcount]
  rfl

/-- The same bits put out in both. -/
theorem State.Twin.put {t' : State} (h : s.Twin same d) (ht : s.Put n v t) (ht' : (s.patched d).Put n v t') :
    ∃ d', t' = t.patched d' ∧ t.Twin same d' := by
  have hpos : t'.wrPos = t.wrPos := BitVec.eq_of_toNat_eq (ht'.pos.trans ht.pos.symm)
  have hpatch : t' = t.patched ⟨t'.store, t'.bbCap, d.count, d.rsp⟩ := by
    rw [ht'.frame, ht.frame, hpos]
    rfl
  have hcount : t.count = s.count := by rw [ht.frame]
  refine ⟨_, hpatch, ht.capOk h.capOk, hpatch ▸ ht'.capOk h.patched_capOk, fun hd => hcount.trans (h.real hd),
    fun hx => ?_, fun hx => (h.count hx).trans hcount.symm⟩
  have hstore : (s.patched d).store = s.store := h.store hx
  have hmode : (s.patched d).count = s.count := h.count hx
  cases hs : s.count with
  | true => exact (ht'.counting (hmode.trans hs)).1.trans (hstore.trans (ht.counting hs).1.symm)
  | false =>
    refine (ht'.real (hmode.trans hs)).1.trans (Eq.trans ?_ (ht.real hs).1.symm)
    rw [hstore]
    rfl

end

theorem alike_putBits {v n : Nat} : Alike same (putBits v n) := by
  unfold Alike
  intro s d hs
  by_cases hfit : n ≤ 32 ∧ v < 2 ^ n
  · by_cases hr : s.Room n
    · obtain ⟨t, e, ht⟩ := putBits_completes hs.capOk hfit hr
      obtain ⟨t', e', ht'⟩ := putBits_completes hs.patched_capOk hfit (hs.room hr)
      obtain ⟨d', rfl, htwin⟩ := hs.put ht ht'
      rw [e]
      exact ⟨d', e', htwin⟩
    · obtain ⟨t, e⟩ := putBits_raises hs.capOk hfit hr
      rw [e]
      intro hx
      obtain ⟨hr', hcause⟩ := hs.not_room hx hr
      exact hcause ▸ putBits_raises hs.patched_capOk hfit hr'
  · rw [putBits_of_unfit hfit]
    exact fun _ => ⟨_, putBits_of_unfit hfit⟩

/-! Input: the store and the mode are looked at, so that the twins must be exact (20_memory.md R63, R68). -/

section

variable (hx : same)

include hx

theorem alike_memRead {addr : Int} {n : Nat} : Alike same (memRead addr n) := by
  unfold Alike memRead
  intro s d hs
  have hpos : (s.patched d).wrPos = s.wrPos := rfl
  have hstore : (s.patched d).store = s.store := hs.store hx
  rw [hpos, hstore]
  split
  · next hrun =>
    split at hrun
    · next hok =>
      cases hrun
      exact ⟨d, if_pos hok, hs⟩
    · cases hrun
  · next hrun =>
    split at hrun
    · cases hrun
    · next hbad =>
      cases hrun
      exact fun _ => ⟨_, if_neg hbad⟩

theorem alike_getBits {n : Nat} : Alike same (getBits n) := by
  refine alike_get_of (fun s d hs => ?_) fun _ => alike_raiseIf.bind fun _ => alike_raiseIf.bind fun _ =>
    (alike_memRead hx).bind fun _ => alike_setRdPos.bind fun _ => alike_pure
  have hcount : (s.patched d).count = s.count := hs.count hx
  rw [hcount]
  rfl

end

end Sys2Proof.Machine
end

section
/-! SUPPORT. The shared procedures run alike (40_context.md, 41_encoder.md, 42_decoder.md, 44_syntax.md): those of the
encoder and of output from any twins, those of the decoder and of input from exact ones. -/

namespace Sys2Proof.Machine

variable {same : Prop}

/-! Context cells and the encoder. -/

theorem alike_updateMps {i : Nat} : Alike same (updateMps i) :=
  alike_readCtx.bind fun _ => alike_get (fun _ _ => rfl) fun _ => alike_writeCtx

theorem alike_updateLps {i : Nat} : Alike same (updateLps i) :=
  alike_readCtx.bind fun _ => alike_get (fun _ _ => rfl) fun _ => alike_writeCtx

theorem alike_releaseRun {v : Nat} : Alike same (releaseRun v) :=
  alike_get (fun _ _ => rfl) fun _ => Alike.repeat <|
    alike_putBits.bind fun _ => alike_get (fun _ _ => rfl) fun _ => alike_setEncNumBuf

theorem alike_writeOut : Alike same writeOut :=
  alike_get (fun _ _ => rfl) fun _ => alike_setEncBitsLeft.bind fun _ => alike_setEncLow.bind fun _ => alike_ite
    (alike_raiseIf.bind fun _ => alike_setEncNumBuf)
    (alike_ite
      (alike_putBits.bind fun _ => alike_setEncBufByte.bind fun _ => alike_releaseRun)
      (alike_setEncNumBuf.bind fun _ => alike_setEncBufByte))

theorem alike_testWriteOut : Alike same testWriteOut :=
  alike_get (fun _ _ => rfl) fun _ => alike_ite alike_writeOut alike_pure

theorem alike_encBin {i : Nat} {b : Bool} : Alike same (encBin i b) :=
  alike_readCtx.bind fun _ => alike_get (fun _ _ => rfl) fun _ => alike_setEncRange.bind fun _ =>
    alike_get (fun _ _ => rfl) fun _ => alike_ite
      (alike_setEncLow.bind fun _ => alike_setEncRange.bind fun _ => alike_updateLps.bind fun _ =>
        alike_setEncBitsLeft.bind fun _ => alike_testWriteOut)
      (alike_updateMps.bind fun _ => alike_ite
        (alike_setEncLow.bind fun _ => alike_setEncRange.bind fun _ => alike_setEncBitsLeft.bind fun _ =>
          alike_testWriteOut)
        alike_pure)

theorem alike_encEp {b : Bool} : Alike same (encEp b) := by
  have hout : ∀ n : Int, Alike same (do setEncBitsLeft n; testWriteOut) := fun _ =>
    alike_setEncBitsLeft.bind fun _ => alike_testWriteOut
  exact alike_get (fun _ _ => rfl) fun _ => alike_setEncLow.bind fun _ => alike_ite
    (alike_get (fun _ _ => rfl) fun _ => alike_setEncLow.bind fun _ => hout _) (hout _)

theorem alike_requireEncoding : Alike same requireEncoding := alike_get (fun _ _ => rfl) fun _ => alike_raiseIf

theorem alike_padZeros : Alike same padZeros := alike_get (fun _ _ => rfl) fun _ => alike_putBits.repeat

/-! Output on a path (44_syntax.md R221, R222). -/

section

variable {path : Path}

theorem alike_emit {b : Bool} {i : Nat} : Alike same (emit path b i) := by
  cases path with
  | raw => exact alike_putBits
  | ep => exact alike_encEp
  | ctx => exact alike_encBin

theorem alike_checkWr : Alike same (checkWr path) := by
  cases path with
  | raw => exact alike_get (fun _ _ => rfl) fun _ => alike_raiseIf
  | ep => exact alike_requireEncoding
  | ctx => exact alike_requireEncoding

theorem alike_wrFlc {v n : Nat} : Alike same (wrFlc path v n) := by
  induction n with
  | zero => exact alike_pure
  | succ n ih => exact alike_emit.bind fun _ => ih

theorem alike_wrUvlc {v : Nat} : Alike same (wrUvlc path v) :=
  alike_emit.repeat.bind fun _ => alike_emit.bind fun _ => alike_wrFlc

theorem alike_wrOnes {ctx : Byte} {spanm1 : BitVec 6} {n k : Nat} : Alike same (wrOnes path ctx spanm1 n k) := by
  induction n generalizing k with
  | zero => exact alike_pure
  | succ n ih => exact alike_emit.bind fun _ => ih

end

/-! The decoder, and input on a path. -/

theorem alike_requireDecoding : Alike same requireDecoding := alike_get (fun _ _ => rfl) fun _ => alike_raiseIf

section

variable {path : Path} (hx : same)

include hx

theorem alike_decDouble {scaled : Nat} : Alike same (decDouble scaled) :=
  alike_get (fun _ _ => rfl) fun _ => alike_setDecRange.bind fun _ => alike_setDecValue.bind fun _ =>
    alike_setDecBitsNeeded.bind fun _ => alike_get (fun _ _ => rfl) fun _ => alike_ite
      (alike_setDecBitsNeeded.bind fun _ => (alike_getBits hx).bind fun _ =>
        alike_get (fun _ _ => rfl) fun _ => alike_setDecValue)
      alike_pure

theorem alike_decBin {i : Nat} : Alike same (decBin i) :=
  alike_readCtx.bind fun _ => alike_get (fun _ _ => rfl) fun _ => alike_setDecRange.bind fun _ =>
    alike_get (fun _ _ => rfl) fun _ => alike_ite
      (alike_updateMps.bind fun _ => alike_ite ((alike_decDouble hx).bind fun _ => alike_pure) alike_pure)
      (alike_setDecValue.bind fun _ => alike_setDecRange.bind fun _ => alike_updateLps.bind fun _ =>
        alike_setDecBitsNeeded.bind fun _ => alike_get (fun _ _ => rfl) fun _ => alike_ite
          ((alike_getBits hx).bind fun _ => alike_setDecValue.bind fun _ => alike_setDecBitsNeeded.bind fun _ =>
            alike_pure)
          alike_pure)

theorem alike_decEp : Alike same decEp := by
  have hcompare : Alike same (do
      let t ← get
      let scaled := t.decRange.toNat * 2 ^ 7
      if t.decValue.toNat ≥ scaled then
        setDecValue ((t.decValue.toNat - scaled : Nat))
        return true
      else
        return false) :=
    alike_get (fun _ _ => rfl) fun _ => alike_ite (alike_setDecValue.bind fun _ => alike_pure) alike_pure
  exact alike_get (fun _ _ => rfl) fun _ => alike_setDecValue.bind fun _ => alike_setDecBitsNeeded.bind fun _ =>
    alike_get (fun _ _ => rfl) fun _ => alike_ite
      (alike_setDecBitsNeeded.bind fun _ => (alike_getBits hx).bind fun _ =>
        alike_get (fun _ _ => rfl) fun _ => alike_setDecValue.bind fun _ => hcompare)
      hcompare

theorem alike_take {i : Nat} : Alike same (take path i) := by
  cases path with
  | raw => exact (alike_getBits hx).map
  | ep => exact alike_decEp hx
  | ctx => exact alike_decBin hx

theorem alike_checkRd : Alike same (checkRd path) := by
  cases path with
  | raw =>
    refine alike_get_of (fun s d hs => ?_) fun _ => alike_raiseIf
    have hcount : (s.patched d).count = s.count := hs.count hx
    rw [hcount]
    rfl
  | ep => exact alike_requireDecoding
  | ctx => exact alike_requireDecoding

theorem alike_rdFlc {n v : Nat} : Alike same (rdFlc path n v) := by
  induction n generalizing v with
  | zero => exact alike_pure
  | succ n ih => exact (alike_take hx).bind fun _ => ih

theorem alike_rdPrefix {n l : Nat} : Alike same (rdPrefix path n l) := by
  induction n generalizing l with
  | zero => exact alike_raise
  | succ n ih => exact (alike_take hx).bind fun _ => alike_ite alike_pure ih

theorem alike_rdUvlc : Alike same (rdUvlc path) :=
  (alike_rdPrefix hx).bind fun _ => (alike_rdFlc hx).bind fun _ => alike_pure

theorem alike_rdOnes {ctx : Byte} {spanm1 : BitVec 6} {n k : Nat} : Alike same (rdOnes path ctx spanm1 n k) := by
  induction n generalizing k with
  | zero => exact alike_pure
  | succ n ih => exact (alike_take hx).bind fun _ => alike_ite ih alike_pure

theorem alike_rdZeros {n : Nat} : Alike same (rdZeros n) := by
  induction n with
  | zero => exact alike_pure
  | succ n ih => exact (alike_getBits hx).bind fun _ => alike_raiseIf.bind fun _ => ih

theorem alike_rdFf8 {n v : Nat} : Alike same (rdFf8 n v) := by
  induction n generalizing v with
  | zero => exact alike_raise
  | succ n ih => exact (alike_getBits hx).bind fun _ => alike_raiseIf.bind fun _ => alike_ite alike_pure ih

end

end Sys2Proof.Machine
end

section
/-! SUPPORT. Commands from twins (43_bitbuffer.md R200, R201): where the command completes it completes from the twin
too, in a twin of its end, and from an exact twin it answers alike. -/

namespace Sys2Proof.Machine

variable {same : Prop} {i : Instr} {s t : State} {d : Patch}

/-- The command runs the same pseudocode from both, and that runs alike. -/
def RunsAlike (same : Prop) (i : Instr) (s : State) (d : Patch) : Prop :=
  ∃ m, exec i s = answer i.op m s ∧ exec i (s.patched d) = answer i.op m (s.patched d) ∧ Alike same m

theorem encBinTrm_runsAlike (bin : Bool) : RunsAlike same (.encBinTrm bin) s d :=
  ⟨_, rfl, rfl, alike_requireEncoding.bind fun _ => alike_setEncRange.bind fun _ =>
    alike_get (fun _ _ => rfl) fun _ => alike_ite
      (alike_setEncLow.bind fun _ => alike_setEncRange.bind fun _ => alike_setEncBitsLeft.bind fun _ =>
        alike_setEncTrm.bind fun _ => alike_testWriteOut.bind fun _ => alike_pure)
      (alike_ite
        (alike_setEncLow.bind fun _ => alike_setEncRange.bind fun _ => alike_setEncBitsLeft.bind fun _ =>
          alike_testWriteOut.bind fun _ => alike_pure)
        alike_pure)⟩

/-- The bits left in ENC_LOW, the stop bit and the padding (41_encoder.md R147). -/
theorem alike_finishSegment {bitsLeft : Nat} : Alike same (finishSegment bitsLeft) :=
  alike_countOf.bind fun _ => alike_get (fun _ _ => rfl) fun _ => alike_putBits.bind fun _ =>
    alike_putBits.bind fun _ => alike_padZeros.bind fun _ => alike_setEncNumBuf.bind fun _ =>
    alike_setEncTrm.bind fun _ => alike_setEncState.bind fun _ => alike_pure

theorem encFinish_runsAlike : RunsAlike same .encFinish s d :=
  ⟨_, rfl, rfl, alike_raiseIf.bind fun _ => alike_ite
    (alike_putBits.bind fun _ => alike_releaseRun.bind fun _ => alike_setEncLow.bind fun _ => alike_finishSegment)
    (alike_ite
      (alike_putBits.bind fun _ => alike_releaseRun.bind fun _ => alike_finishSegment)
      (alike_releaseRun.bind fun _ => alike_finishSegment))⟩

/-- The commands that neither read the store nor empty the buffer, SYS_RDREG apart. -/
theorem runsAlike_of_writes (hreads : readsStore i = false) (hempty : empties i = false) (hreg : ∀ n, i ≠ .sysRdreg n) :
    RunsAlike same i s d := by
  cases i with
  | nop => exact ⟨pure 0, rfl, rfl, alike_pure⟩
  | sysRdreg n => exact absurd rfl (hreg n)
  | ctxInit ctx qp slope offset =>
    exact ⟨_, rfl, rfl, alike_raiseIf.bind fun _ => alike_raiseIf.bind fun _ => alike_writeCtx.bind fun _ => alike_pure⟩
  | ctxSet ctx state mps =>
    exact ⟨_, rfl, rfl, alike_raiseIf.bind fun _ => alike_writeCtx.bind fun _ => alike_pure⟩
  | ctxGet ctx => exact ⟨_, rfl, rfl, alike_raiseIf.bind fun _ => alike_readCtx.bind fun _ => alike_pure⟩
  | encStart =>
    exact ⟨_, rfl, rfl, alike_raiseIf.bind fun _ => alike_raiseIf.bind fun _ => alike_setEncLow.bind fun _ =>
      alike_setEncRange.bind fun _ => alike_setEncBitsLeft.bind fun _ => alike_setEncNumBuf.bind fun _ =>
      alike_setEncBufByte.bind fun _ => alike_setEncTrm.bind fun _ => alike_setEncState.bind fun _ => alike_pure⟩
  | encBin ctx bin =>
    exact ⟨_, rfl, rfl, alike_raiseIf.bind fun _ => alike_requireEncoding.bind fun _ => alike_encBin.bind fun _ =>
      alike_pure⟩
  | encBinEp bin =>
    exact ⟨_, rfl, rfl, alike_requireEncoding.bind fun _ => alike_encEp.bind fun _ => alike_pure⟩
  | encBinTrm bin => exact encBinTrm_runsAlike bin
  | encFinish => exact encFinish_runsAlike
  | bbWrite n bits =>
    exact ⟨_, rfl, rfl, alike_raiseIf.bind fun _ => alike_raiseIf.bind fun _ => alike_putBits.bind fun _ => alike_pure⟩
  | bbGetWritten =>
    exact ⟨do return (← get).wrPos, rfl, rfl, alike_get (fun _ _ => rfl) fun _ => alike_pure⟩
  | seWrFlc n path value =>
    exact ⟨_, rfl, rfl, alike_raiseIf.bind fun _ => alike_raiseIf.bind fun _ => alike_checkWr.bind fun _ =>
      alike_wrFlc.bind fun _ => alike_pure⟩
  | seWrUvlc path value =>
    exact ⟨_, rfl, rfl, alike_raiseIf.bind fun _ => alike_raiseIf.bind fun _ => alike_checkWr.bind fun _ =>
      alike_wrUvlc.bind fun _ => alike_pure⟩
  | seWrSvlc path value =>
    exact ⟨_, rfl, rfl, alike_raiseIf.bind fun _ => alike_raiseIf.bind fun _ => alike_checkWr.bind fun _ =>
      alike_wrUvlc.bind fun _ => alike_pure⟩
  | seWrTu ctx max path spanm1 sym =>
    exact ⟨_, rfl, rfl, alike_raiseIf.bind fun _ => alike_raiseIf.bind fun _ => alike_raiseIf.bind fun _ =>
      alike_checkWr.bind fun _ => alike_wrOnes.bind fun _ =>
      alike_ite (alike_emit.bind fun _ => alike_pure) alike_pure⟩
  | seWrTrail =>
    exact ⟨_, rfl, rfl, alike_checkWr.bind fun _ => alike_putBits.bind fun _ => alike_padZeros.bind fun _ => alike_pure⟩
  | seWrFf8 value =>
    exact ⟨_, rfl, rfl, alike_checkWr.bind fun _ => alike_putBits.repeat.bind fun _ => alike_putBits.bind fun _ =>
      alike_pure⟩
  | sysReset | bbInit _ | bbResetBits => cases hempty
  | _ => cases hreads

theorem decBinTrm_runsAlike (hx : same) : RunsAlike same .decBinTrm s d :=
  ⟨_, rfl, rfl, alike_requireDecoding.bind fun _ => alike_setDecRange.bind fun _ =>
    alike_get (fun _ _ => rfl) fun _ => alike_ite
      ((alike_memRead hx).bind fun _ => alike_countOf.bind fun _ => alike_raiseIf.bind fun _ =>
        alike_setDecState.bind fun _ => alike_pure)
      (alike_ite ((alike_decDouble hx).bind fun _ => alike_pure) alike_pure)⟩

/-- The commands that read the store, from an exact twin. -/
theorem runsAlike_of_reads (hx : same) (hs : s.Twin same d) (hreads : readsStore i = true) :
    RunsAlike same i s d := by
  obtain ⟨store, cap, count, rsp⟩ := d
  obtain rfl : count = s.count := hs.count hx
  cases i with
  | decStart =>
    exact ⟨_, rfl, rfl, alike_raiseIf.bind fun _ => alike_raiseIf.bind fun _ => alike_raiseIf.bind fun _ =>
      alike_setDecRange.bind fun _ => alike_setDecBitsNeeded.bind fun _ => (alike_getBits hx).bind fun _ =>
      (alike_getBits hx).bind fun _ => alike_raiseIf.bind fun _ => alike_setDecValue.bind fun _ =>
      alike_setDecState.bind fun _ => alike_pure⟩
  | decBin ctx =>
    exact ⟨_, rfl, rfl, alike_raiseIf.bind fun _ => alike_requireDecoding.bind fun _ => (alike_decBin hx).bind fun _ =>
      alike_pure⟩
  | decBinEp => exact ⟨_, rfl, rfl, alike_requireDecoding.bind fun _ => (alike_decEp hx).bind fun _ => alike_pure⟩
  | decBinTrm => exact decBinTrm_runsAlike hx
  | bbRead n =>
    exact ⟨_, rfl, rfl, alike_raiseIf.bind fun _ => alike_raiseIf.bind fun _ => (alike_getBits hx).bind fun _ =>
      alike_pure⟩
  | bbRdSeek pos =>
    exact ⟨_, rfl, rfl, alike_raiseIf.bind fun _ => alike_raiseIf.bind fun _ => alike_setRdPos.bind fun _ => alike_pure⟩
  | bbGetByte index =>
    exact ⟨_, rfl, rfl, alike_raiseIf.bind fun _ => alike_raiseIf.bind fun _ => (alike_memRead hx).bind fun _ =>
      alike_pure⟩
  | bbSubOpen nbytes =>
    exact ⟨_, rfl, rfl, alike_raiseIf.bind fun _ => alike_raiseIf.bind fun _ => alike_raiseIf.bind fun _ =>
      alike_setSubEnd.bind fun _ => alike_setSubActive.bind fun _ => alike_pure⟩
  | bbSubClose =>
    exact ⟨_, rfl, rfl, alike_raiseIf.bind fun _ => alike_setRdPos.bind fun _ => alike_setSubActive.bind fun _ =>
      alike_pure⟩
  | seRdFlc n path =>
    exact ⟨_, rfl, rfl, alike_raiseIf.bind fun _ => alike_raiseIf.bind fun _ => (alike_checkRd hx).bind fun _ =>
      (alike_rdFlc hx).bind fun _ => alike_pure⟩
  | seRdUvlc path =>
    exact ⟨_, rfl, rfl, alike_raiseIf.bind fun _ => (alike_checkRd hx).bind fun _ => (alike_rdUvlc hx).bind fun _ =>
      alike_pure⟩
  | seRdSvlc path =>
    exact ⟨_, rfl, rfl, alike_raiseIf.bind fun _ => (alike_checkRd hx).bind fun _ => (alike_rdUvlc hx).bind fun _ =>
      alike_pure⟩
  | seRdTu ctx max path spanm1 =>
    exact ⟨_, rfl, rfl, alike_raiseIf.bind fun _ => alike_raiseIf.bind fun _ => (alike_checkRd hx).bind fun _ =>
      (alike_rdOnes hx).bind fun _ => alike_pure⟩
  | seRdTrail =>
    exact ⟨_, rfl, rfl, (alike_checkRd hx).bind fun _ => (alike_getBits hx).bind fun _ => alike_raiseIf.bind fun _ =>
      alike_get (fun _ _ => rfl) fun _ => (alike_rdZeros hx).bind fun _ => alike_pure⟩
  | seRdFf8 =>
    exact ⟨_, rfl, rfl, (alike_checkRd hx).bind fun _ => (alike_rdFf8 hx).bind fun _ => alike_pure⟩
  | _ => cases hreads

/-- How the command answers from the twin, given that it answers with `t` from `s`: it completes in a twin of `t`, with
the same data if the twins are exact; or it has taken a fault, the same one if the twins are exact. -/
def Mirrors (same : Prop) (i : Instr) (s : State) (d : Patch) (t : State) : Prop :=
  (∃ a b d', t.rsp = some ⟨none, a⟩ ∧ d'.rsp = some ⟨none, b⟩ ∧ (same → b = a) ∧
    exec i (s.patched d) = .next (t.patched d') ∧ t.Twin same d') ∨
  ∃ c, raises i s c ∧ (same → raises i (s.patched d) c)

/-- The command completes with a response in both. -/
theorem mirrors_of_respond {u : State} {a b : Word} {d' : Patch} (hu : u.Twin same d') (hab : same → b = a)
    (e : exec i (s.patched d) = .next ((u.patched d').respond b)) : Mirrors same i s d (u.respond a) :=
  .inl ⟨a, b, { d' with rsp := some ⟨none, b⟩ }, rfl, rfl, hab, e, hu.respond a _⟩

theorem mirrors_of_runsAlike (hs : s.Twin same d) (hreset : i ≠ .sysReset) (h : RunsAlike same i s d)
    (e : exec i s = .next t) : Mirrors same i s d t := by
  obtain ⟨m, hm, hm', halike⟩ := h
  rcases answer_cases (hm.symm.trans e) with ⟨a, u, hu, rfl⟩ | ⟨c, u, hu, rfl⟩
  · obtain ⟨d', hu', htwin⟩ := halike.of_ok hs hu
    exact mirrors_of_respond htwin (fun _ => rfl) (hm'.trans (answer_ok hu'))
  · refine .inr ⟨c, raises_of_rsp hreset e rfl, fun hx => ?_⟩
    obtain ⟨u', hu'⟩ := halike.of_error hs hu hx
    exact raises_of_rsp hreset (hm'.trans (answer_raise hu')) rfl

/-! The commands that empty the buffer, and SYS_RDREG. -/

theorem State.capOk_of_empty (hl : s.cfg.legal = true) (hcap : s.bbCap = BitVec.ofNat 32 s.cfg.cap0)
    (hpos : s.wrPos = 0) : s.CapOk := by
  obtain ⟨-, hpower, hlo, hhi⟩ := State.cap0_legal hl
  rw [← hcap] at hpower hlo hhi
  exact ⟨hl, hpower, hlo, hhi, fun _ => hpos ▸ Nat.zero_le _⟩

theorem mirrors_sysReset (hs : s.Twin same d) (e : exec .sysReset s = .next t) : Mirrors same .sysReset s d t := by
  cases (exec_sysReset s).symm.trans e
  exact mirrors_of_respond (.self (State.resetCore_live hs.capOk.legal).capOk) (fun _ => rfl)
    (exec_sysReset (s.patched d))

theorem mirrors_bbInit {count : Bool} (hs : s.Twin same d) (e : exec (.bbInit count) s = .next t) :
    Mirrors same (.bbInit count) s d t := by
  have hl := hs.capOk.legal
  by_cases h : s.encState = .coding ∨ s.decState = .coding
  · exact .inr ⟨.state, bbInit_raises_state h, fun _ => bbInit_raises_state h⟩
  · cases (exec_bbInit_of_idle hl h).symm.trans e
    exact .inl ⟨0, 0, ⟨d.store, BitVec.ofNat 32 s.cfg.cap0, count, some ⟨none, 0⟩⟩, rfl, rfl, fun _ => rfl,
      exec_bbInit_of_idle (s := s.patched d) hl h,
      State.capOk_of_empty hl rfl rfl, State.capOk_of_empty hl rfl rfl, id, hs.store, fun _ => rfl⟩

theorem mirrors_bbResetBits (hs : s.Twin same d) (e : exec .bbResetBits s = .next t) :
    Mirrors same .bbResetBits s d t := by
  by_cases h : s.encState = .coding ∨ s.decState = .coding
  · exact .inr ⟨.state, bbResetBits_raises_state h, fun _ => bbResetBits_raises_state h⟩
  · cases (exec_bbResetBits_of_idle h).symm.trans e
    obtain ⟨hc, hc', hreal, hstore, hcount⟩ := hs
    exact .inl ⟨0, 0, { d with rsp := some ⟨none, 0⟩ }, rfl, rfl, fun _ => rfl,
      exec_bbResetBits_of_idle (s := s.patched d) h,
      ⟨hc.legal, hc.power, hc.lo, hc.hi, fun _ => Nat.zero_le _⟩,
      ⟨hc'.legal, hc'.power, hc'.lo, hc'.hi, fun _ => Nat.zero_le _⟩, hreal, hstore, hcount⟩

/-- A register of an exact twin other than BB_CAP reads the same (10_state.md R44). -/
theorem readReg_patched {r : Reg} (hcount : d.count = s.count) (hr : r ≠ .bbCap) :
    readReg (s.patched d) r = readReg s r := by
  obtain ⟨store, cap, count, rsp⟩ := d
  obtain rfl : count = s.count := hcount
  cases r with
  | bbCap => exact absurd rfl hr
  | _ => rfl

theorem eq_of_regOfNumber_bbCap {n : Byte} (h : regOfNumber n = some .bbCap) : n = 0x32 := by
  revert n
  decide

theorem mirrors_sysRdreg {n : Byte} (hs : s.Twin same d) (hn : same → n ≠ 0x32) (e : exec (.sysRdreg n) s = .next t) :
    Mirrors same (.sysRdreg n) s d t := by
  cases hr : regOfNumber n with
  | none => exact .inr ⟨.index, exec_sysRdreg_of_none hr s, fun _ => exec_sysRdreg_of_none hr (s.patched d)⟩
  | some r =>
    cases (exec_sysRdreg_of_some hr s).symm.trans e
    refine mirrors_of_respond hs (fun hx => readReg_patched (hs.count hx) ?_) (exec_sysRdreg_of_some hr (s.patched d))
    rintro rfl
    exact hn hx (eq_of_regOfNumber_bbCap hr)

/-- Every command, from twins; those that read the store, and the read of BB_CAP, where the twins are as alike as it
takes. -/
theorem exec_mirrors (hs : s.Twin same d) (hreads : readsStore i = true → same) (hcap : same → i ≠ .sysRdreg 0x32)
    (e : exec i s = .next t) : Mirrors same i s d t := by
  cases i with
  | sysReset => exact mirrors_sysReset hs e
  | bbInit count => exact mirrors_bbInit hs e
  | bbResetBits => exact mirrors_bbResetBits hs e
  | sysRdreg n => exact mirrors_sysRdreg hs (fun hx hn => hcap hx (congrArg _ hn)) e
  | decStart | decBin _ | decBinEp | decBinTrm | bbRead _ | bbRdSeek _ | bbGetByte _ | bbSubOpen _ | bbSubClose
  | seRdFlc _ _ | seRdUvlc _ | seRdSvlc _ | seRdTu _ _ _ _ | seRdTrail | seRdFf8 =>
    exact mirrors_of_runsAlike hs (nomatch ·) (runsAlike_of_reads (hreads rfl) hs rfl) e
  | _ => exact mirrors_of_runsAlike hs (nomatch ·) (runsAlike_of_writes rfl rfl fun _ h => nomatch h) e

/-! Growth is invisible (43_bitbuffer.md R201). -/

/-- The twin with another capacity. -/
theorem twin_of_cap {cap : Word} (h : s.Live) (h' : State.Live { s with bbCap := cap }) :
    s.Twin True ⟨s.store, cap, s.count, s.rsp⟩ :=
  ⟨h.capOk, h'.capOk, id, fun _ => rfl, fun _ => rfl⟩

/-- Emptying the buffer never makes the capacity larger (43_bitbuffer.md R190, R194, 10_state.md R47). -/
theorem bbCap_le_of_empties (h : s.Live) (hempty : empties i = true) (e : exec i s = .next t) (hf : t.fault = none) :
    t.bbCap.toNat ≤ s.bbCap.toNat := by
  have hcap0 : (BitVec.ofNat 32 s.cfg.cap0).toNat ≤ s.bbCap.toNat := by
    rw [BitVec.toNat_ofNat]
    exact (Nat.mod_le _ _).trans h.capOk.lo
  obtain ⟨hinit, hbits⟩ := emptyingTheBuffer s h.legal
  cases i with
  | sysReset =>
    cases (exec_sysReset s).symm.trans e
    exact hcap0
  | bbInit count =>
    have hinit := hinit count
    split_ifs at hinit with hc
    · cases hinit.symm.trans e
      exact absurd hf (takeFault_fault_ne_none _ _ _)
    · cases hinit.symm.trans e
      exact hcap0
  | bbResetBits =>
    split_ifs at hbits with hc
    · cases hbits.symm.trans e
      exact absurd hf (takeFault_fault_ne_none _ _ _)
    · cases hbits.symm.trans e
      exact le_rfl
  | _ => cases hempty

/-- Settles O41: two states that differ in BB_CAP are exact twins, from which every command answers alike
(`exec_mirrors`); a command that makes the capacity larger does not empty the buffer, and so appends only. -/
theorem growthInvisible : Obligations.GrowthInvisible := by
  refine ⟨fun s t cap i h h' hi e => ?_, fun s t i h e hf hlt => ?_⟩
  · rcases exec_mirrors (twin_of_cap h h') (fun _ => trivial) (fun _ => hi) e with
      ⟨a, b, d', ha, hb, hab, e', htwin⟩ | ⟨c, hc, hc'⟩
    · obtain ⟨store, cap', count, rsp⟩ := d'
      obtain rfl : store = t.store := htwin.store trivial
      obtain rfl : count = t.count := htwin.count trivial
      obtain rfl : rsp = t.rsp := by rw [ha, ← hab trivial]; exact hb
      exact ⟨cap', e'⟩
    · cases hc.symm.trans e
      exact ⟨_, (hc' trivial).trans (congrArg _ (s.takeFault_patched _ i.op c))⟩
  · cases hempty : empties i with
    | false => exact appendOnly s t i h hempty e hf
    | true => exact absurd hlt (not_lt.2 (bbCap_le_of_empties h hempty e hf))

/-! Counting mode (43_bitbuffer.md R200). -/

/-- BB_INIT with count=1 leaves a twin of what BB_INIT with count=0 leaves (43_bitbuffer.md R190). -/
theorem twin_of_bbInit (hl : s.cfg.legal = true) (hidle : ¬ (s.encState = .coding ∨ s.decState = .coding))
    (e : exec (.bbInit false) s = .next t) :
    ∃ d, exec (.bbInit true) s = .next (t.patched d) ∧ d.rsp = some ⟨none, 0⟩ ∧ t.Twin False d := by
  cases (exec_bbInit_of_idle hl hidle).symm.trans e
  exact ⟨⟨s.store, BitVec.ofNat 32 s.cfg.cap0, true, some ⟨none, 0⟩⟩, exec_bbInit_of_idle hl hidle, rfl,
    State.capOk_of_empty hl rfl rfl, State.capOk_of_empty hl rfl rfl, (nomatch ·), False.elim, False.elim⟩

/-- A run without a fault is one from every twin. -/
theorem runData_twin {commands : List Instr} {ds : List Word} (hs : s.Twin False d)
    (hreads : ∀ i ∈ commands, readsStore i = false) (hrun : runData commands s = some (ds, t)) :
    ∃ ds' d', runData commands (s.patched d) = some (ds', t.patched d') := by
  induction commands generalizing s d ds with
  | nil =>
    cases hrun
    exact ⟨[], d, rfl⟩
  | cons i commands ih =>
    obtain ⟨hi, hreads⟩ := List.forall_mem_cons.1 hreads
    obtain ⟨u, a, ds', e, hrsp, hrun⟩ := runData_cons hrun
    rcases exec_mirrors hs (fun h => nomatch hi.symm.trans h) False.elim e with
      ⟨-, b, d', -, hb, -, e', htwin⟩ | ⟨c, hc, -⟩
    · obtain ⟨ds'', d'', hrun'⟩ := ih htwin hreads hrun
      exact ⟨b :: ds'', d'', by rw [runData_of_completed e' hb, hrun']; rfl⟩
    · exact absurd hc (not_raises_of_completed e hrsp)

/-- Settles O40: after BB_INIT the counting state is a twin of the real one, and a run without a fault is one from the
twin too, with the same write cursor (`runData_twin`). -/
theorem countingEqualsReal : Obligations.CountingEqualsReal := by
  intro s t commands ds h hreads hrun
  obtain ⟨u, a, ds', e, hrsp, hrun⟩ := runData_cons hrun
  have hidle : ¬ (s.encState = .coding ∨ s.decState = .coding) := fun hc =>
    not_raises_of_completed e hrsp (bbInit_raises_state hc)
  obtain ⟨d, e', hd, htwin⟩ := twin_of_bbInit h.legal hidle e
  obtain ⟨ds'', d', hrun'⟩ := runData_twin htwin hreads hrun
  exact ⟨0 :: ds'', t.patched d', by rw [runData_of_completed e' hd, hrun']; rfl, rfl⟩

end Sys2Proof.Machine
end

section
/-! SUPPORT. A list of commands against pseudocode (44_syntax.md R223): the response on offer, which no command looks at,
is all that tells a command in the middle of a list from the step of the pseudocode that does the same. -/

namespace Sys2Proof.Machine

variable {s t u : State} {i : Instr} {m : Cmd Word}

section

variable {α β : Type} {m : Cmd α} {f : α → Cmd β} {a : α} {b : β} {x : Stop}

theorem bind_of_ok (h : m s = .ok a t) : (m >>= f) s = f a t := by rw [bind_run, h]

theorem bind_of_error (h : m s = .error x t) : (m >>= f) s = .error x t := by rw [bind_run, h]

/-- Pseudocode that completes did so step by step. -/
theorem bind_eq_ok (h : (m >>= f) s = .ok b t) : ∃ a u, m s = .ok a u ∧ f a u = .ok b t := by
  cases hm : m s with
  | ok a u => exact ⟨a, u, rfl, (bind_of_ok hm).symm.trans h⟩
  | error x u => cases (bind_of_error hm).symm.trans h

/-- What fails before a result is made of what it answers. -/
theorem error_of_bind_pure {g : α → β} (h : (do return g (← m)) s = .error x t) : m s = .error x t := by
  cases hm : m s with
  | ok a u => cases (bind_of_ok hm).symm.trans h
  | error y u =>
    cases (bind_of_error hm).symm.trans h
    rfl

variable {R : Cause → Prop} {Q : α → State → Prop}

theorem sat_of_ok (e : m s = .ok a t) (h : Q a t) : Sat m s R Q := by
  unfold Sat
  rwa [e]

theorem sat_of_raise {c : Cause} (e : m s = .error (.raise c) t) (h : R c) : Sat m s R Q := by
  unfold Sat
  rwa [e]

end

/-- What two guarantees say together. -/
theorem Sat.and {α : Type} {m : Cmd α} {R R' : Cause → Prop} {Q Q' : α → State → Prop} (h : Sat m s R Q)
    (h' : Sat m s R' Q') : Sat m s (fun c => R c ∧ R' c) fun a t => Q a t ∧ Q' a t := by
  unfold Sat at *
  split
  · next e => rw [e] at h h'; exact ⟨h, h'⟩
  · next e => rw [e] at h h'; exact ⟨h, h'⟩
  · next e => rw [e] at h; exact h

/-- Pseudocode that raises `c` makes its command answer with it. -/
theorem raises_of_error {c : Cause} (hreset : i ≠ .sysReset) (hm : exec i s = answer i.op m s)
    (e : m s = .error (.raise c) t) : raises i s c :=
  raises_of_rsp hreset (hm.trans (answer_raise e)) rfl

/-- The growth that a write cursor needs is one number (20_memory.md R67): BB_CAP is doubled as often as it must be. -/
theorem State.Grown.bbCap_eq (ht : s.Grown t) (hu : s.Grown u) (hpos : t.wrPos = u.wrPos) (ct : t.CapOk) (cu : u.CapOk)
    (et : t.count = s.count) (eu : u.count = s.count) : t.bbCap = u.bbCap := by
  cases hc : s.count with
  | true => exact (ht.1 hc).trans (hu.1 hc).symm
  | false =>
    obtain ⟨j, hj, hj'⟩ := ht.2 hc
    obtain ⟨k, hk, hk'⟩ := hu.2 hc
    have ft := ct.fit (et.trans hc)
    have fu := cu.fit (eu.trans hc)
    rw [hpos] at hj' ft
    have twice : ∀ {a b : Nat}, a < b → 2 * (s.bbCap.toNat * 2 ^ a) ≤ s.bbCap.toNat * 2 ^ b := fun {a b} hab => by
      have := Nat.pow_le_pow_right (n := 2) (by decide) hab
      rw [pow_succ] at this
      nlinarith
    apply BitVec.eq_of_toNat_eq
    rcases lt_trichotomy j k with hlt | rfl | hlt
    · have := twice hlt
      omega
    · rw [hj, hk]
    · have := twice hlt
      omega

/-- The state with another response on offer. -/
def State.withRsp (s : State) (r : Option Response) : State := { s with rsp := r }

@[simp] theorem State.withRsp_withRsp (s : State) (r r' : Option Response) :
    (s.withRsp r).withRsp r' = s.withRsp r' := rfl

@[simp] theorem State.withRsp_rsp (s : State) : s.withRsp s.rsp = s := rfl

theorem State.respond_eq_withRsp (s : State) (d : Word) : s.respond d = s.withRsp (some ⟨none, d⟩) := rfl

/-- From `s`, whatever response is on offer, the command ends as `m` does. -/
def Performs (i : Instr) (m : Cmd Word) (s : State) : Prop :=
  ∀ r, match m s with
    | .ok d t => exec i (s.withRsp r) = .next (t.respond d)
    | .error (.raise c) _ => raises i (s.withRsp r) c
    | .error (.halt _) _ => False

/-- Pseudocode that runs alike from twins, and lets BB_CAP grow no further than it must, is performed whatever response
is on offer. -/
theorem performs_of_alike (hreset : i ≠ .sysReset) (hc : s.CapOk)
    (hm : ∀ r, exec i (s.withRsp r) = answer i.op m (s.withRsp r)) (halike : Alike True m)
    (hends : ∀ r, Sat m (s.withRsp r) (fun _ => True) fun _ t => t.count = s.count ∧ s.Grown t) : Performs i m s := by
  intro r
  have htwin : s.Twin True ⟨s.store, s.bbCap, s.count, r⟩ := ⟨hc, hc.congr rfl rfl rfl rfl, id, fun _ => rfl, fun _ => rfl⟩
  have hg := hends s.rsp
  rw [State.withRsp_rsp] at hg
  cases hrun : m s with
  | ok d t =>
    obtain ⟨d', hrun', ht⟩ := halike.of_ok htwin hrun
    have hstore := ht.store trivial
    have hcount := ht.count trivial
    obtain ⟨hs, hgrown⟩ := hg.of_ok hrun
    obtain ⟨hs', hgrown'⟩ := (hends r).of_ok hrun'
    have hcap : t.bbCap = d'.bbCap := hgrown.bbCap_eq hgrown' rfl ht.capOk ht.patched_capOk hs hs'
    have hend : (t.patched d').respond d = t.respond d := by
      unfold State.patched
      rw [hstore, hcount, ← hcap]
      rfl
    exact (hm r).trans ((answer_ok hrun').trans (congrArg _ hend))
  | error x t =>
    obtain ⟨t', hrun'⟩ := halike.of_error htwin hrun trivial
    cases x with
    | raise c => exact raises_of_error hreset (hm r) hrun'
    | halt f =>
      have := hends r
      unfold Sat at this
      rw [show m (s.withRsp r) = _ from hrun'] at this
      exact this

/-- Pieces of pseudocode one after the other, each with its data. -/
def runAll : List (Cmd Word) → Cmd (List Word)
  | [] => pure []
  | m :: ms => do
    let d ← m
    let ds ← runAll ms
    return d :: ds

/-- A command that takes a fault ends the list (44_syntax.md R223). -/
theorem runData_of_raises {c : Cause} {rest : List Instr} (h : raises i s c) :
    runData (i :: rest) s = none ∧ runCause (i :: rest) s = some c := by
  unfold raises at h
  simp only [runData, runCause, h]
  exact ⟨rfl, rfl⟩

theorem runCause_of_completed {data : Word} {rest : List Instr} (e : exec i s = .next t)
    (hrsp : t.rsp = some ⟨none, data⟩) : runCause (i :: rest) s = runCause rest t := by
  simp only [runCause, e, hrsp]

/-- The commands that perform steps of pseudocode run as the steps do, one after the other: `P` is what every step needs
and every step keeps. -/
theorem runData_performs {α : Type} {cmd : α → Instr} {step : α → Cmd Word} {P : State → Prop} {l : List α}
    (hstep : ∀ s, P s → ∀ a ∈ l, Performs (cmd a) (step a) s)
    (hkeep : ∀ s, P s → ∀ a ∈ l, Sat (step a) s (fun _ => True) fun _ t => P t) (h : P s) (r : Option Response) :
    match runAll (l.map step) s with
    | .ok ds t => ∃ r', runData (l.map cmd) (s.withRsp r) = some (ds, t.withRsp r')
    | .error (.raise c) _ => runData (l.map cmd) (s.withRsp r) = none ∧ runCause (l.map cmd) (s.withRsp r) = some c
    | .error (.halt _) _ => False := by
  induction l generalizing s r with
  | nil => exact ⟨r, rfl⟩
  | cons a l ih =>
    obtain ⟨hfirst, hrest⟩ := forall_and.1 fun s => forall_and.1 fun (hs : P s) => List.forall_mem_cons.1 (hstep s hs)
    obtain ⟨hkeep, hkeeps⟩ := forall_and.1 fun s => forall_and.1 fun (hs : P s) => List.forall_mem_cons.1 (hkeep s hs)
    have hperf := hfirst s h r
    have hk := hkeep s h
    simp only [List.map_cons, runAll, bind_run]
    cases hrun : step a s with
    | ok d t =>
      rw [hrun] at hperf
      have htail := ih hrest hkeeps (hk.of_ok hrun) (some ⟨none, d⟩)
      rw [← State.respond_eq_withRsp] at htail
      rw [runData_of_completed hperf rfl, runCause_of_completed hperf rfl]
      simp only
      cases htl : runAll (l.map step) t with
      | ok ds u =>
        rw [htl] at htail
        obtain ⟨r', htail⟩ := htail
        exact ⟨r', by rw [htail]; rfl⟩
      | error x u =>
        rw [htl] at htail
        cases x with
        | raise c => exact ⟨by rw [htail.1]; rfl, htail.2⟩
        | halt f => exact htail
    | error x t =>
      rw [hrun] at hperf
      cases x with
      | raise c => exact runData_of_raises hperf
      | halt f => exact hperf

end Sys2Proof.Machine
end

section
/-! SUPPORT. Output on a path bin by bin (44_syntax.md R220 to R223): the code of a write command is a list of bins; on
RAW the bins are appended bits, on the other paths they are bin commands. -/

namespace Sys2Proof.Machine

variable {s t u : State} {i : Instr} {path : Path} {n k v w N : Nat}

/-- What TestWriteOut does to the room that is left (41_encoder.md R142): a bin resolves at most one byte. -/
theorem State.WroteOut.encRoom {low bl : Nat} (h : s.WroteOut low bl t) (hcount : t.count = s.count)
    (hcfg : t.cfg = s.cfg) (hr : s.EncRoom (k + 1)) : t.EncRoom k := by
  obtain ⟨⟨hlt, hfit⟩, hnum⟩ := hr
  have fits : ∀ p, p ≤ s.wrPos.toNat + 8 * (s.encNumBuf.toNat + (k + 1)) → p < 2 ^ 32 ∧
      (t.count = false → p ≤ 32 * t.cfg.capMax) := fun p hp =>
    ⟨by omega, fun hc => by rw [hcfg]; exact hp.trans (hfit (hcount ▸ hc))⟩
  unfold State.WroteOut at h
  unfold State.EncRoom State.Room
  split_ifs at h
  all_goals
    obtain ⟨-, -, hnb, -, hpos, -⟩ := h
    rw [hnb, hpos]
    exact ⟨fits _ (by omega), by omega⟩

/-- With room for one bin TestWriteOut raises nothing. -/
theorem State.outFault_of_encRoom (hr : s.EncRoom 1) (low bl : Nat) : s.outFault low bl = none := by
  obtain ⟨⟨hlt, hfit⟩, hnum⟩ := hr
  unfold State.outFault
  split_ifs with h1 h2 h3 h4
  · rfl
  · rfl
  · omega
  · rfl
  · exact absurd ⟨by omega, fun hc => by have := hfit hc; omega⟩ h4

theorem State.WroteOut.grown {low bl : Nat} (h : s.WroteOut low bl t) : s.Grown t := by
  have same : t.bbCap = s.bbCap → s.Grown t := fun e =>
    ⟨fun _ => e, fun _ => ⟨0, by rw [e, pow_zero, mul_one], .inl rfl⟩⟩
  unfold State.WroteOut at h
  split_ifs at h
  · exact same h.2.2.2.2.2.2
  · exact same h.2.2.2.2.2.2
  · exact same h.2.2.2.2.2.2
  · exact h.2.2.2.2.2.1

/-- One bin of an arithmetic path: what it grows, the room it takes, and its fault. -/
theorem emit_coded (hp : path ≠ .raw) (h : s.Live) {b : Bool} {j : Nat} (hr : wrReady s path j) :
    Sat (emit path b j) s (fun _ => ¬ s.EncRoom 1) fun _ t =>
      t.count = s.count ∧ s.Grown t ∧ ∀ k, s.EncRoom (k + 1) → t.EncRoom k := by
  have fails : ∀ {low bl c}, s.outFault low bl = some c → ¬ s.EncRoom 1 := fun e hroom => by
    rw [State.outFault_of_encRoom hroom] at e
    cases e
  cases path with
  | raw => exact absurd rfl hp
  | ep =>
    obtain ⟨hm, hlo, -⟩ := h.encMid hr.1
    refine (encEp_sat hm hlo h.capOk h.wf).mono (fun _ => fails) ?_
    rintro _ t ⟨hT, -⟩
    exact ⟨hT.grew.count, hT.wrote.grown, fun k => hT.wrote.encRoom hT.grew.count hT.grew.cfg⟩
  | ctx =>
    obtain ⟨hm, hlo, -⟩ := h.encMid hr.1.1
    obtain ⟨cell, hcell⟩ := h.cell hr.2
    refine (encBin_sat hcell hm hlo h.capOk h.wf).mono (fun _ => fails) ?_
    rintro _ t ⟨hT, -⟩
    exact ⟨hT.grew.count, hT.wrote.grown, fun k => hT.wrote.encRoom hT.grew.count hT.grew.cfg⟩

/-- The bin command that codes a bin, with its context index on CTX (44_syntax.md R223). -/
def encodeCommand (path : Path) (b : Bool × Nat) : Instr :=
  match path with
  | .ctx => .encBin (BitVec.ofNat 8 b.2) b.1
  | _ => .encBinEp b.1

/-- One bin put out, with the data of a bin command. -/
def emitBin (path : Path) (b : Bool × Nat) : Cmd Word := do
  emit path b.1 b.2
  return 0

/-- The bins of a code put out one after the other. -/
def emitAll (path : Path) (bins : List (Bool × Nat)) : Cmd Unit := do
  let _ ← runAll (bins.map (emitBin path))
  return ()

@[simp] theorem emitAll_nil : emitAll path [] = pure () := by
  simp [emitAll, runAll]

@[simp] theorem emitAll_cons (b : Bool × Nat) (bins : List (Bool × Nat)) :
    emitAll path (b :: bins) = (do emit path b.1 b.2; emitAll path bins) := by
  simp [emitAll, runAll, emitBin]

theorem emitAll_append (bins rest : List (Bool × Nat)) :
    emitAll path (bins ++ rest) = (do emitAll path bins; emitAll path rest) := by
  induction bins with
  | nil => simp
  | cons b bins ih => simp [ih]

theorem exec_encodeCommand {b : Bool × Nat} (hp : path ≠ .raw) (h : s.Live) (hr : wrReady s path b.2) :
    exec (encodeCommand path b) s = answer (encodeCommand path b).op (emitBin path b) s := by
  cases path with
  | raw => exact absurd rfl hp
  | ep => exact answer_of_encoding hr
  | ctx =>
    obtain ⟨he, hlt⟩ := hr
    obtain ⟨⟨-, hle⟩, -⟩ := legal_iff.1 h.legal
    have hidx : (BitVec.ofNat 8 b.2).toNat = b.2 := by rw [BitVec.toNat_ofNat]; omega
    refine (answer_of_check_passed ?_).trans ((answer_of_encoding he).trans ?_)
    · rw [hidx]
      exact decide_eq_false (not_le.2 hlt)
    · rw [hidx]
      rfl

theorem performs_encodeCommand {b : Bool × Nat} (hp : path ≠ .raw) (h : s.Live) (hr : wrReady s path b.2) :
    Performs (encodeCommand path b) (emitBin path b) s := by
  refine performs_of_alike (by cases path <;> exact (nomatch ·)) h.capOk
    (fun r => exec_encodeCommand (s := s.withRsp r) hp h hr) (alike_emit.bind fun _ => alike_pure) fun r => ?_
  unfold emitBin
  rw [sat_bind]
  refine (emit_coded (s := s.withRsp r) hp h hr).mono (fun _ _ => trivial) ?_
  rintro _ t ⟨hcount, hgrown, -⟩
  exact sat_pure.2 ⟨hcount, hgrown⟩

/-- What the bins of a code need of the encoder, before each of them. -/
def EmitReady (path : Path) (bins : List (Bool × Nat)) (s : State) : Prop :=
  s.Live ∧ ∀ b ∈ bins, wrReady s path b.2

theorem emitBin_keeps_ready {bins : List (Bool × Nat)} (h : EmitReady path bins s) {b : Bool × Nat} (hb : b ∈ bins) :
    Sat (emitBin path b) s (fun _ => True) fun _ t => EmitReady path bins t := by
  obtain ⟨hlive, hready⟩ := h
  unfold emitBin
  rw [sat_bind]
  refine (emit_live hlive (hready b hb)).mono (fun _ => id) ?_
  rintro _ t ⟨ht, e1, e2, e3⟩
  exact sat_pure.2 ⟨ht, fun b' hb' => wrReady_congr (hready b' hb') e1 e2 e3⟩

/-- With room for what that many bins may write out, the bins all complete. -/
theorem emitAll_completes {bins : List (Bool × Nat)} (hp : path ≠ .raw) (h : EmitReady path bins s)
    (hroom : s.EncRoom bins.length) : ∃ t, emitAll path bins s = .ok () t := by
  induction bins generalizing s with
  | nil => exact ⟨s, by simp⟩
  | cons b bins ih =>
    obtain ⟨hlive, hready⟩ := h
    obtain ⟨hb, hready⟩ := List.forall_mem_cons.1 hready
    have hsat := (emit_coded hp hlive hb (b := b.1)).and (emit_live hlive hb)
    have hone : s.EncRoom 1 := by
      obtain ⟨⟨hlt, hfit⟩, hnum⟩ := hroom
      rw [List.length_cons] at hlt hfit hnum
      exact ⟨⟨by omega, fun hc => by have := hfit hc; omega⟩, by omega⟩
    obtain ⟨⟨⟩, t, e, ⟨-, -, hleft⟩, ht, e1, e2, e3⟩ :=
      (hsat.mono (R := fun _ => False) (fun _ hc => hc.1 hone) fun _ _ => id).completes
    obtain ⟨u, eu⟩ := ih ⟨ht, fun b' hb' => wrReady_congr (hready b' hb') e1 e2 e3⟩ (hleft _ hroom)
    exact ⟨u, by rw [emitAll_cons, bind_run, e]; exact eu⟩

/-- How the bins of a code end, told by the data of their steps. -/
theorem emitAll_run (bins : List (Bool × Nat)) (s : State) :
    (do emitAll path bins; return 0 : Cmd Word) s = match runAll (bins.map (emitBin path)) s with
      | .ok _ t => .ok 0 t
      | .error x t => .error x t := by
  simp only [emitAll, bind_run]
  cases runAll (bins.map (emitBin path)) s <;> rfl

/-- On an arithmetic path a code is coded as its bin commands code it (44_syntax.md R223). -/
theorem codesAs_of_emitAll {bins : List (Bool × Nat)} (hreset : i ≠ .sysReset) (hp : path ≠ .raw)
    (h : EmitReady path bins s) (hm : exec i s = answer i.op (do emitAll path bins; return 0) s) :
    CodesAs i (bins.map (encodeCommand path)) s := by
  have hruns := runData_performs (cmd := encodeCommand path) (step := emitBin path)
    (fun s hs b hb => performs_encodeCommand hp hs.1 (hs.2 b hb)) (fun s hs b hb => emitBin_keeps_ready hs hb) h s.rsp
  rw [State.withRsp_rsp] at hruns
  have hend := emitAll_run (path := path) bins s
  have hok : s.EncRoom bins.length → ∃ t, (do emitAll path bins; return 0 : Cmd Word) s = .ok 0 t := fun hroom => by
    obtain ⟨t, e⟩ := emitAll_completes hp h hroom
    exact ⟨t, by rw [bind_run, e]; rfl⟩
  unfold CodesAs
  rw [List.length_map]
  cases hrun : runAll (bins.map (emitBin path)) s with
  | ok ds u =>
    rw [hrun] at hruns hend
    obtain ⟨r', hruns⟩ := hruns
    rw [hruns]
    exact ⟨fun _ => ⟨_, rfl⟩, hm.trans (answer_ok (t := u) hend)⟩
  | error x u =>
    rw [hrun] at hruns hend
    cases x with
    | raise c =>
      obtain ⟨hnone, hcause⟩ := hruns
      rw [hnone]
      refine ⟨fun hroom => ?_, c, hcause, raises_of_error hreset hm hend⟩
      obtain ⟨t, e⟩ := hok hroom
      cases e.symm.trans hend
    | halt f => exact hruns.elim

end Sys2Proof.Machine
end

section
/-! SUPPORT. The syntax write commands (44_syntax.md R224 to R229): what each code is as a list of bins, and where it goes
on each path. -/

namespace Sys2Proof.Machine

variable {s t u : State} {i : Instr} {path : Path} {n k v w N : Nat}

/-! The codes as lists of bins. -/

theorem bitsOf_succ (n v : Nat) : bitsOf (n + 1) v = v.testBit n :: bitsOf n v := by
  unfold bitsOf
  rw [List.range_succ_eq_map, List.map_cons, List.map_map]
  refine congrArg _ (List.map_congr_left fun k _ => ?_)
  simp only [Function.comp_apply]
  congr 1
  omega

/-- Bits that two numbers share. -/
theorem bitsOf_congr (h : ∀ j < n, v.testBit j = w.testBit j) : bitsOf n v = bitsOf n w :=
  List.map_congr_left fun k hk => h _ (by have := List.mem_range.1 hk; omega)

/-- Bins that use no context index. -/
def noContext (bins : List Bool) : List (Bool × Nat) := bins.map fun b => (b, 0)

theorem wrFlc_eq_emitAll (path : Path) (v n : Nat) : wrFlc path v n = emitAll path (noContext (bitsOf n v)) := by
  induction n with
  | zero => exact emitAll_nil.symm
  | succ n ih => rw [bitsOf_succ, noContext, List.map_cons, emitAll_cons, wrFlc, ih, noContext]

theorem repeatCmd_eq_emitAll (path : Path) (b : Bool) (j n : Nat) :
    repeatCmd (emit path b j) n = emitAll path (List.replicate n (b, j)) := by
  induction n with
  | zero => exact emitAll_nil.symm
  | succ n ih => rw [List.replicate_succ, emitAll_cons, repeatCmd, ih]

/-- Leading zeros. -/
theorem bitsOf_of_lt (h : v < 2 ^ n) (k : Nat) : bitsOf (k + n) v = List.replicate k false ++ bitsOf n v := by
  induction k with
  | zero => simp
  | succ k ih =>
    have hz : v.testBit (k + n) = false :=
      Nat.testBit_lt_two_pow (h.trans_le (Nat.pow_le_pow_right (by decide) (by omega)))
    rw [show k + 1 + n = k + n + 1 by omega, bitsOf_succ, ih, hz]
    rfl

/-- The code of R225: the 2L + 1 bits of v + 1. -/
theorem wrUvlc_eq_emitAll {l : Nat} (path : Path) (h : 2 ^ l ≤ v + 1) (h' : v + 1 < 2 ^ (l + 1)) :
    wrUvlc path v = emitAll path (noContext (bitsOf (2 * l + 1) (v + 1))) := by
  have hlog : (v + 1).log2 = l := (Nat.log2_eq_iff (by omega)).2 ⟨h, h'⟩
  have hone : v + 1 = 2 ^ l + (v + 1 - 2 ^ l) := by omega
  have hsuffix : v + 1 - 2 ^ l < 2 ^ l := by rw [pow_succ] at h'; omega
  have htop : (v + 1).testBit l = true := by
    rw [hone, Nat.testBit_two_pow_add_eq, Nat.testBit_lt_two_pow hsuffix]
    rfl
  have hlow : bitsOf l (v + 1) = bitsOf l (v + 1 - 2 ^ l) := bitsOf_congr fun j hj => by
    conv_lhs => rw [hone, Nat.testBit_two_pow_add_gt hj]
  rw [show 2 * l + 1 = l + (l + 1) by omega, bitsOf_of_lt h', bitsOf_succ, htop, hlow, noContext, List.map_append,
    emitAll_append, List.map_cons, emitAll_cons, List.map_replicate, ← repeatCmd_eq_emitAll, ← noContext,
    ← wrFlc_eq_emitAll]
  simp only [wrUvlc, hlog]

/-! On RAW the bins are appended bits (44_syntax.md R221). -/

/-- PutBits behind what was put out from `s` on: one longer string, or the fault of a string of `N` bits. -/
theorem State.Put.then_putBits (h : s.Put n v t) (hc : s.CapOk) (hk : k ≤ 32) (hw : w < 2 ^ k) (hN : n + k ≤ N) :
    Sat (putBits w k) t (fun c => c = s.outCause ∧ ¬ s.Room N) fun _ u => s.Put (n + k) (v * 2 ^ k + w) u := by
  have hlow : t.encLow = s.encLow := by rw [h.frame]
  have hnum : t.encNumBuf = s.encNumBuf := by rw [h.frame]
  have hf : s.Flushed n v t := by
    unfold State.Flushed
    rw [hlow, hnum]
    exact h
  refine (putBits_flushed hc hf hk hw hN).mono (fun _ => id) ?_
  rintro _ u ⟨hu, ulow, unum⟩
  unfold State.Flushed at hu
  rwa [ulow, unum, hlow, hnum] at hu

theorem emitAll_raw_sat (h : s.Put n v t) (hc : s.CapOk) (hN : n + k ≤ N) :
    Sat (emitAll .raw (noContext (bitsOf k w))) t (fun c => c = s.outCause ∧ ¬ s.Room N) fun _ u =>
      s.Put (n + k) (v * 2 ^ k + w % 2 ^ k) u := by
  induction k generalizing n v t with
  | zero => 
    rw [Nat.pow_zero, Nat.mod_one, Nat.mul_one]
    exact (emitAll_nil (path := .raw)) ▸ sat_pure.2 h
  | succ k ih =>
    rw [bitsOf_succ, noContext, List.map_cons, emitAll_cons, sat_bind]
    refine (h.then_putBits hc (k := 1) (by decide) (by cases w.testBit k <;> decide) (by omega)).mono
      (fun _ => id) fun _ u hu => ?_
    have hvalue : v * 2 ^ (k + 1) + w % 2 ^ (k + 1) = (v * 2 ^ 1 + (w.testBit k).toNat) * 2 ^ k + w % 2 ^ k := by
      rw [Nat.mod_pow_succ, Nat.toNat_testBit]
      ring
    rw [show n + (k + 1) = n + 1 + k by omega, hvalue]
    exact ih hu (by omega)

/-- The same bits several times: `f` says what they make as a number. -/
theorem State.Put.then_repeat {f : Nat → Nat} (hf : ∀ j, f (j + 1) = f j * 2 ^ k + w) (h : s.Put n (f 0) t)
    (hc : s.CapOk) (hk : k ≤ 32) (hw : w < 2 ^ k) {m : Nat} (hN : n + k * m ≤ N) :
    Sat (repeatCmd (putBits w k) m) t (fun c => c = s.outCause ∧ ¬ s.Room N) fun _ u => s.Put (n + k * m) (f m) u := by
  refine sat_repeat (P := fun j u => s.Put (n + k * j) (f j) u) h fun j u hj hu => ?_
  have hle : k * (j + 1) ≤ k * m := Nat.mul_le_mul_left k hj
  rw [hf, Nat.mul_add, Nat.mul_one, ← Nat.add_assoc] at *
  exact hu.then_putBits hc hk hw (by omega)

/-! The engine check of a write command (44_syntax.md R222). -/

section

variable {op : Byte} {f : Unit → Cmd Word}

theorem answer_of_checkWr_raw_failed (h : s.encState = .coding) :
    answer op (checkWr .raw >>= f) s = .next (s.takeFault op .state) :=
  answer_of_check_failed (f := f) (by simpa using h)

theorem answer_of_checkWr_raw_passed (h : s.encState ≠ .coding) :
    answer op (checkWr .raw >>= f) s = answer op (f ()) s :=
  answer_of_check_passed (by simpa using h)

theorem answer_of_checkWr_coded_failed (hp : path ≠ .raw) (h : ¬ s.Encoding) :
    answer op (checkWr path >>= f) s = .next (s.takeFault op .state) := by
  cases path with
  | raw => exact absurd rfl hp
  | ep => exact answer_of_not_encoding h
  | ctx => exact answer_of_not_encoding h

theorem answer_of_checkWr_coded_passed (hp : path ≠ .raw) (h : s.Encoding) :
    answer op (checkWr path >>= f) s = answer op (f ()) s := by
  cases path with
  | raw => exact absurd rfl hp
  | ep => exact answer_of_encoding h
  | ctx => exact answer_of_encoding h

end

/-- A command that, once its check has passed, puts out the `n`-bit string `v` at the write cursor. -/
theorem writesCode_raw {m : Cmd Word} (h : s.Live) (hreset : i ≠ .sysReset)
    (hm : exec i s = answer i.op (do checkWr .raw; m) s)
    (hsat : Sat m s (fun c => c = s.outCause ∧ ¬ s.Room n) fun d t => d = 0 ∧ s.Put n v t) :
    WritesCode i .raw n v s := by
  change if s.encState = .coding then _ else _
  by_cases he : s.encState = .coding
  · rw [if_pos he]
    exact hm.trans (answer_of_checkWr_raw_failed he)
  · rw [if_neg he]
    refine EndsAs.ite (endsAs_of_sat hreset (hm.trans (answer_of_checkWr_raw_passed he)) (hsat.mono ?_ ?_))
    · rintro _ ⟨rfl, hroom⟩
      exact if_neg hroom
    · rintro _ t ⟨rfl, hput⟩
      exact ⟨if_pos hput.had_room, hput.appended h.wf⟩

theorem encodeCommand_noContext (hc : path ≠ .ctx) (bins : List Bool) :
    (noContext bins).map (encodeCommand path) = bins.map .encBinEp := by
  unfold noContext
  rw [List.map_map]
  cases path with
  | ctx => exact absurd rfl hc
  | _ => rfl

/-- A command that, once its check has passed, puts the `n` bits of `v` out on its path. -/
theorem writesCode_of_emitAll (h : s.Live) (hreset : i ≠ .sysReset) (hc : path ≠ .ctx) (hv : v < 2 ^ n)
    (hm : exec i s = answer i.op (do checkWr path; emitAll path (noContext (bitsOf n v)); return 0) s) :
    WritesCode i path n v s := by
  cases path with
  | ctx => exact absurd rfl hc
  | raw =>
    refine writesCode_raw h hreset hm ?_
    rw [sat_bind]
    refine (emitAll_raw_sat (.refl h.capOk) h.capOk (by omega)).mono (fun _ => id) fun _ t ht => sat_pure.2 ⟨rfl, ?_⟩
    rwa [Nat.mod_eq_of_lt hv, Nat.zero_mul, Nat.zero_add, Nat.zero_add] at ht
  | ep =>
    change if s.Encoding then _ else _
    split_ifs with he
    · rw [← encodeCommand_noContext hc]
      refine codesAs_of_emitAll hreset (nomatch ·) ⟨h, fun b hb => ?_⟩
        (hm.trans (answer_of_checkWr_coded_passed (nomatch ·) he))
      exact he
    · exact hm.trans (answer_of_checkWr_coded_failed (nomatch ·) he)

/-! The commands. -/

theorem rawOrEp_of_ne_ctx (h : path ≠ .ctx) : path.rawOrEp = true := by
  cases path with
  | ctx => exact absurd rfl h
  | _ => rfl

section

variable {op : Byte} {f : Unit → Cmd Word}

/-- The check of form passes on RAW and EP (30_encoding.md R98). -/
theorem answer_of_form (h : path ≠ .ctx) :
    answer op (raiseIf (!path.rawOrEp) .illegal >>= f) s = answer op (f ()) s :=
  answer_of_check_passed (by rw [rawOrEp_of_ne_ctx h]; rfl)

end

/-- Settles O43: the two checks, then the n low bits of the operand on the path. -/
theorem seWrFlc : Obligations.SeWrFlc := by
  intro s n path value h hc
  split_ifs with hn
  · exact (answer_of_form hc).trans (answer_of_check_failed (decide_eq_true hn))
  · refine writesCode_of_emitAll h (nomatch ·) hc (Nat.mod_lt _ (by positivity)) ?_
    rw [← wrFlc_eq_emitAll]
    exact (answer_of_form hc).trans (answer_of_check_passed (decide_eq_false hn))

/-- Every number from 1 on lies between two neighbouring powers of two. -/
theorem exists_log (x : Nat) : ∃ l, 2 ^ l ≤ x + 1 ∧ x + 1 < 2 ^ (l + 1) :=
  ⟨(x + 1).log2, Nat.log2_self_le (by omega), Nat.lt_log2_self⟩

/-- x fits the 2L + 1 bits of its code. -/
theorem uvlc_lt {l x : Nat} (h : x < 2 ^ (l + 1)) : x < 2 ^ (2 * l + 1) :=
  h.trans_le (Nat.pow_le_pow_right (by decide) (by omega))

/-- A command that, once its check has passed, puts out the Exp-Golomb code of `v` (44_syntax.md R225). -/
theorem writesCode_of_wrUvlc {l : Nat} (h : s.Live) (hreset : i ≠ .sysReset) (hc : path ≠ .ctx) (h1 : 2 ^ l ≤ v + 1)
    (h2 : v + 1 < 2 ^ (l + 1)) (hm : exec i s = answer i.op (do checkWr path; wrUvlc path v; return 0) s) :
    WritesCode i path (2 * l + 1) (v + 1) s := by
  rw [wrUvlc_eq_emitAll path h1 h2] at hm
  exact writesCode_of_emitAll h hreset hc (uvlc_lt h2) hm

/-- Settles O44: the check of the operand, then its Exp-Golomb code on the path. -/
theorem seWrUvlc : Obligations.SeWrUvlc := by
  intro s path value h hc
  have hmax : value.toNat > 0xFFFFFFFE ↔ value = 0xFFFFFFFF := by bv_omega
  split_ifs with hv
  · exact (answer_of_form hc).trans (answer_of_check_failed (decide_eq_true (hmax.2 hv)))
  · obtain ⟨l, h1, h2⟩ := exists_log value.toNat
    exact ⟨l, h1, h2, writesCode_of_wrUvlc h (nomatch ·) hc h1 h2
      ((answer_of_form hc).trans (answer_of_check_passed (decide_eq_false (hmax.not.2 hv))))⟩

theorem zigzag_eq (v : Int) : (zigzag v : Int) = if v ≤ 0 then -2 * v else 2 * v - 1 := by
  unfold zigzag
  split_ifs <;> omega

/-- Settles O45: the check of the operand, then the Exp-Golomb code of its zig-zag number. -/
theorem seWrSvlc : Obligations.SeWrSvlc := by
  intro s path value h hc
  by_cases hv : value = 0x80000000
  · rw [if_pos hv]
    exact (answer_of_form hc).trans (answer_of_check_failed (beq_iff_eq.2 hv))
  · rw [if_neg hv]
    obtain ⟨l, h1, h2⟩ := exists_log (zigzag value.toInt)
    exact ⟨_, l, zigzag_eq _, h1, h2, writesCode_of_wrUvlc h (nomatch ·) hc h1 h2
      ((answer_of_form hc).trans (answer_of_check_passed (beq_eq_false_iff_ne.2 hv)))⟩

/-- Settles O47: the one, then the zeros up to the byte boundary behind it. -/
theorem seWrTrail : Obligations.SeWrTrail := by
  intro s h
  refine writesCode_raw (m := do putBits 1 1; padZeros; return 0) h (nomatch ·) rfl ?_
  simp only [padZeros, sat_bind, sat_get, sat_pure]
  refine (State.Put.then_putBits (.refl h.capOk) h.capOk (k := 1) (by decide) (by decide) (by omega)).mono
    (fun _ => id) fun _ t ht => ?_
  have hcount : alignCount t.wrPos.toNat = 7 - s.wrPos.toNat % 8 := by
    have := ht.pos
    unfold alignCount
    omega
  rw [hcount]
  refine (State.Put.then_repeat (f := fun j => 2 ^ j) (fun j => pow_succ 2 j) ht h.capOk (by decide) (by decide)
    (by omega)).mono (fun _ => id) fun _ u hu => ⟨trivial, ?_⟩
  rwa [show 8 - s.wrPos.toNat % 8 = 0 + 1 + 1 * (7 - s.wrPos.toNat % 8) by omega]

/-- Settles O48: the bytes 0xFF, then the last byte. -/
theorem seWrFf8 : Obligations.SeWrFf8 := by
  intro s value h q
  refine writesCode_raw (m := do repeatCmd (putBits 0xFF 8) q; putBits (value.toNat % 255) 8; return 0) h (nomatch ·)
    rfl ?_
  simp only [sat_bind, sat_pure]
  have hrun : ∀ j, 256 ^ (j + 1) - 1 = (256 ^ j - 1) * 2 ^ 8 + 0xFF := fun j => by
    have := Nat.one_le_pow j 256 (by decide)
    rw [pow_succ]
    omega
  refine (State.Put.then_repeat (f := fun j => 256 ^ j - 1) hrun (.refl h.capOk) h.capOk (by decide) (by decide)
    (by omega)).mono (fun _ => id) fun _ t ht => ?_
  refine (ht.then_putBits h.capOk (by decide) (by omega) (by omega)).mono (fun _ => id) fun _ u hu => ⟨trivial, ?_⟩
  rwa [show 8 * (q + 1) = 0 + 8 * q + 8 by omega]

/-! SE_WR_TU (44_syntax.md R227). -/

/-- The first `n` bins from bin number `k` on, all ones. -/
def onesFrom (ctx : Byte) (spanm1 : BitVec 6) (n k : Nat) : List (Bool × Nat) :=
  (List.range' k n).map fun j => (true, tuCtx ctx spanm1 j)

theorem wrOnes_eq_emitAll (path : Path) (ctx : Byte) (spanm1 : BitVec 6) (n k : Nat) :
    wrOnes path ctx spanm1 n k = emitAll path (onesFrom ctx spanm1 n k) := by
  induction n generalizing k with
  | zero => exact emitAll_nil.symm
  | succ n ih => rw [onesFrom, List.range'_succ, List.map_cons, emitAll_cons, wrOnes, ih, onesFrom]

/-- The bins of a truncated unary code with their contexts (44_syntax.md R227). -/
def tuBins (ctx : Byte) (spanm1 : BitVec 6) (bins : List Bool) : List (Bool × Nat) :=
  bins.zipIdx.map fun bk => (bk.1, tuCtx ctx spanm1 bk.2)

theorem zipIdx_replicate_true (ctx : Byte) (spanm1 : BitVec 6) (n k : Nat) :
    ((List.replicate n true).zipIdx k).map (fun bk => (bk.1, tuCtx ctx spanm1 bk.2)) = onesFrom ctx spanm1 n k := by
  induction n generalizing k with
  | zero => rfl
  | succ n ih => rw [List.replicate_succ, List.zipIdx_cons, List.map_cons, ih, onesFrom, onesFrom, List.range'_succ,
      List.map_cons]

/-- The ones, and the bin behind them if there is one. -/
theorem emitAll_tuBins (path : Path) (ctx : Byte) (spanm1 : BitVec 6) (n : Nat) (last : List Bool) :
    emitAll path (tuBins ctx spanm1 (List.replicate n true ++ last)) = (do
      wrOnes path ctx spanm1 n 0
      emitAll path ((last.zipIdx n).map fun bk => (bk.1, tuCtx ctx spanm1 bk.2))) := by
  rw [tuBins, List.zipIdx_append, List.map_append, zipIdx_replicate_true, emitAll_append, wrOnes_eq_emitAll,
    List.length_replicate, Nat.zero_add]

theorem encodeCommand_tuBins (ctx : Byte) (spanm1 : BitVec 6) (bins : List Bool) :
    (tuBins ctx spanm1 bins).map (encodeCommand path) = tuWrites path ctx spanm1 bins := by
  unfold tuBins tuWrites
  rw [List.map_map]
  cases path <;> rfl

/-- The bins of SE_WR_TU, the zero included unless sym = max, are its pseudocode (44_syntax.md R227). -/
theorem seWrTu_bins (path : Path) (ctx : Byte) (spanm1 : BitVec 6) {sym max : Byte} (hmax : ¬ max.toNat < sym.toNat) :
    (do
      wrOnes path ctx spanm1 sym.toNat 0
      if sym.toNat < max.toNat then emit path false (tuCtx ctx spanm1 sym.toNat)
      return 0 : Cmd Word) = (do
      emitAll path (tuBins ctx spanm1 (List.replicate sym.toNat true ++ if sym = max then [] else [false]))
      return 0) := by
  rw [emitAll_tuBins]
  by_cases he : sym = max
  · simp [he]
  · have hlt : sym.toNat < max.toNat := by bv_omega
    simp [he, hlt]

/-- The check of form passes on EP without a context operand and on CTX (30_encoding.md R98). -/
theorem tuLegal_of_path {ctx : Byte} {spanm1 : BitVec 6} (h : path = .ep ∧ ctx = 0 ∧ spanm1 = 0 ∨ path = .ctx) :
    path.tuLegal ctx spanm1 = true ∧ path ≠ .raw := by
  rcases h with ⟨rfl, rfl, rfl⟩ | rfl
  · exact ⟨rfl, (nomatch ·)⟩
  · exact ⟨rfl, (nomatch ·)⟩

/-- The index check of a truncated unary code (44_syntax.md R227). -/
theorem tu_check_iff {ctx : Byte} {spanm1 : BitVec 6} {nctx : Nat} :
    (path == .ctx && decide (ctx.toNat + spanm1.toNat ≥ nctx)) = true ↔ path = .ctx ∧ nctx ≤ ctx.toNat + spanm1.toNat := by
  simp

theorem exec_seWrTu_of_checked {ctx max sym : Byte} {spanm1 : BitVec 6}
    (hform : path.tuLegal ctx spanm1 = true) (hmax : ¬ max.toNat < sym.toNat)
    (hidx : ¬ (path = .ctx ∧ s.cfg.nctx ≤ ctx.toNat + spanm1.toNat)) :
    exec (.seWrTu ctx max path spanm1 sym) s = answer 0x53 (do
      checkWr path
      emitAll path (tuBins ctx spanm1 (List.replicate sym.toNat true ++ if sym = max then [] else [false]))
      return 0) s := by
  rw [← seWrTu_bins path ctx spanm1 hmax]
  exact (answer_of_check_passed (by rw [hform]; rfl)).trans ((answer_of_check_passed (decide_eq_false hmax)).trans
    (answer_of_check_passed (Bool.eq_false_iff.2 (tu_check_iff.not.2 hidx))))

/-- Settles O46: the three checks in their order, then the bins of the code. -/
theorem seWrTu : Obligations.SeWrTu := by
  intro s ctx max path spanm1 sym h hpath
  obtain ⟨hform, hp⟩ := tuLegal_of_path hpath
  have hlegal : (!path.tuLegal ctx spanm1) = false := by rw [hform]; rfl
  by_cases hmax : max.toNat < sym.toNat
  · rw [if_pos hmax]
    exact (answer_of_check_passed hlegal).trans (answer_of_check_failed (decide_eq_true hmax))
  rw [if_neg hmax]
  by_cases hidx : path = .ctx ∧ s.cfg.nctx ≤ ctx.toNat + spanm1.toNat
  · rw [if_pos hidx]
    exact (answer_of_check_passed hlegal).trans ((answer_of_check_passed (decide_eq_false hmax)).trans
      (answer_of_check_failed (tu_check_iff.2 hidx)))
  rw [if_neg hidx]
  have hm := exec_seWrTu_of_checked hform hmax hidx
  by_cases he : s.Encoding
  · rw [if_neg (not_not.2 he), ← encodeCommand_tuBins]
    refine codesAs_of_emitAll (nomatch ·) hp ⟨h, fun b hb => ?_⟩
      (hm.trans (answer_of_checkWr_coded_passed hp he))
    obtain ⟨bk, -, rfl⟩ := List.mem_map.1 hb
    have hle := tuCtx_le ctx spanm1 bk.2
    rcases hpath with ⟨rfl, -⟩ | rfl
    · exact he
    · exact ⟨he, hle.trans_lt (not_le.1 fun hle => hidx ⟨rfl, hle⟩)⟩
  · rw [if_pos he]
    exact hm.trans (answer_of_checkWr_coded_failed hp he)

end Sys2Proof.Machine
end

section
/-! SUPPORT. Bits taken at the read cursor (20_memory.md R68): the state they leave, and what is before the read limit
then. -/

namespace Sys2Proof.Machine

variable {s : State} {a b n : Nat}

/-- The state with `n` bits taken. -/
def State.advance (s : State) (n : Nat) : State := { s with rdPos := BitVec.ofNat 32 (s.rdPos.toNat + n) }

@[simp] theorem State.advance_store : (s.advance n).store = s.store := rfl

@[simp] theorem State.advance_rdLimit : (s.advance n).rdLimit = s.rdLimit := rfl

@[simp] theorem State.advance_zero : s.advance 0 = s := by
  simp [State.advance]

theorem State.advance_advance : (s.advance a).advance b = s.advance (a + b) := by
  have : BitVec.ofNat 32 ((BitVec.ofNat 32 (s.rdPos.toNat + a)).toNat + b) = BitVec.ofNat 32 (s.rdPos.toNat + (a + b)) := by
    apply BitVec.eq_of_toNat_eq
    simp only [BitVec.toNat_ofNat]
    omega
  unfold State.advance
  rw [this]

theorem State.ReadOk.advance (h : s.ReadOk) (n : Nat) : (s.advance n).ReadOk := h

theorem State.ReadOk.rdPos_advance (h : s.ReadOk) (hav : s.Avail n) : (s.advance n).rdPos.toNat = s.rdPos.toNat + n := by
  have hlim := h.2
  have hlt := s.wrPos.isLt
  unfold State.Avail at hav
  exact (BitVec.toNat_ofNat _ _).trans (Nat.mod_eq_of_lt (by omega))

theorem State.ReadOk.avail_advance (h : s.ReadOk) (hav : s.Avail a) : (s.advance a).Avail b ↔ s.Avail (a + b) := by
  unfold State.Avail
  rw [h.rdPos_advance hav, State.advance_rdLimit, Nat.add_assoc]

theorem getBits_of_avail (h : s.ReadOk) (hav : s.Avail n) :
    getBits n s = .ok (s.store.readBits s.rdPos.toNat n) (s.advance n) := by
  obtain ⟨v, t, e, rfl, rfl⟩ := (getBits_sat_of_avail (R := fun _ => False)
    (Q := fun v t => v = s.store.readBits s.rdPos.toNat n ∧ t = s.advance n) h hav ⟨rfl, rfl⟩).completes
  exact e

theorem getBits_of_not_avail (h : s.ReadOk) (hav : ¬ s.Avail n) : getBits n s = .error (.raise .exhausted) s := by
  have hgt : s.rdPos.toNat + n > s.rdLimit := not_le.1 hav
  simp [getBits, h.1, hgt]

/-- A bit more in front. -/
theorem Memory.readBits_one_add (m : Memory) (addr n : Nat) :
    m.readBits addr (n + 1) = m.readBits addr 1 * 2 ^ n + m.readBits (addr + 1) n := by
  rw [Nat.add_comm n 1, Memory.readBits_append]

end Sys2Proof.Machine
end

section
/-! SUPPORT. Input on a path bin by bin (44_syntax.md R220 to R223): on the arithmetic paths the bins are those that bin
commands return, on RAW the bits of the store. -/

namespace Sys2Proof.Machine

variable {s t u : State} {i : Instr} {path : Path} {n k v w : Nat} {is : List Nat} {ds : List Word}

/-- One bin on any path takes at most a byte, and fails only for want of one. -/
theorem take_sat (h : s.Live) {j : Nat} (hr : rdReady s path j) :
    Sat (take path j) s (fun c => c = .exhausted ∧ ¬ s.Avail 8) fun _ t =>
      t.count = s.count ∧ t.bbCap = s.bbCap ∧ t.rdLimit = s.rdLimit ∧ t.rdPos.toNat ≤ s.rdPos.toNat + 8 := by
  have pos : ∀ {v n : Nat} {u : State}, s.Refilled v n u → u.rdPos.toNat ≤ s.rdPos.toNat + 8 := fun hu => by
    rw [hu.pos]
    split_ifs <;> omega
  cases path with
  | raw =>
    unfold take
    rw [sat_bind]
    refine (getBits_sat (h.readOk hr.2)).mono ?_ ?_
    · rintro c ⟨rfl, hav⟩
      exact ⟨rfl, fun h8 => hav (by unfold State.Avail at *; omega)⟩
    · rintro x t ⟨-, -, hframe, hpos⟩
      exact sat_pure.2 ⟨by rw [hframe], by rw [hframe], by rw [hframe]; rfl, by omega⟩
  | ep =>
    refine (decEp_sat (h.decMid hr)).mono (fun c hc => ⟨hc.1, fun hav => hc.2 fun _ => hav⟩) ?_
    rintro x t ⟨-, ⟨u, hu, hpos, -⟩, hframe⟩
    exact ⟨by rw [hframe], by rw [hframe], by rw [hframe]; rfl, hpos ▸ pos hu⟩
  | ctx =>
    obtain ⟨cell, hcell⟩ := h.cell hr.2
    refine (decBin_sat hcell (h.decMid hr.1) h.ranges).mono (fun c hc => ⟨hc.1, fun hav => hc.2 fun _ => hav⟩) ?_
    rintro x t ⟨-, hu, -, -, hframe⟩
    exact ⟨by rw [hframe], by rw [hframe], by rw [hframe]; rfl, pos hu⟩

/-- The bin command that reads a bin, with its context index on CTX (44_syntax.md R223). -/
def decodeCommand (path : Path) (j : Nat) : Instr :=
  match path with
  | .ctx => .decBin (BitVec.ofNat 8 j)
  | _ => .decBinEp

/-- One bin taken, as the data of a bin command. -/
def takeBin (path : Path) (j : Nat) : Cmd Word := do return binData (← take path j)

/-- The bins of a code taken one after the other. -/
def takeAll (path : Path) (is : List Nat) : Cmd (List Word) := runAll (is.map (takeBin path))

@[simp] theorem takeAll_nil : takeAll path [] = pure [] := rfl

@[simp] theorem takeAll_cons (j : Nat) (is : List Nat) :
    takeAll path (j :: is) = (do
      let b ← take path j
      let ds ← takeAll path is
      return binData b :: ds) := by
  simp [takeAll, runAll, takeBin]

theorem takeAll_append (is js : List Nat) :
    takeAll path (is ++ js) = (do
      let ds ← takeAll path is
      let ds' ← takeAll path js
      return ds ++ ds') := by
  induction is with
  | nil => simp
  | cons j is ih => simp [ih]

theorem exec_decodeCommand {j : Nat} (hp : path ≠ .raw) (h : s.Live) (hr : rdReady s path j) :
    exec (decodeCommand path j) s = answer (decodeCommand path j).op (takeBin path j) s := by
  cases path with
  | raw => exact absurd rfl hp
  | ep => exact answer_of_decoding hr
  | ctx =>
    obtain ⟨hd, hlt⟩ := hr
    obtain ⟨⟨-, hle⟩, -⟩ := legal_iff.1 h.legal
    have hidx : (BitVec.ofNat 8 j).toNat = j := by rw [BitVec.toNat_ofNat]; omega
    refine (answer_of_check_passed ?_).trans ((answer_of_decoding hd).trans ?_)
    · rw [hidx]
      exact decide_eq_false (not_le.2 hlt)
    · rw [hidx]
      rfl

theorem performs_decodeCommand {j : Nat} (hp : path ≠ .raw) (h : s.Live) (hr : rdReady s path j) :
    Performs (decodeCommand path j) (takeBin path j) s := by
  refine performs_of_alike (by cases path <;> exact (nomatch ·)) h.capOk
    (fun r => exec_decodeCommand (s := s.withRsp r) hp h hr) ((alike_take trivial).bind fun _ => alike_pure) fun r => ?_
  unfold takeBin
  rw [sat_bind]
  refine (take_sat (s := s.withRsp r) h hr).mono (fun _ _ => trivial) ?_
  rintro _ t ⟨hcount, hcap, -⟩
  exact sat_pure.2 ⟨hcount, fun _ => hcap, fun _ => ⟨0, by rw [hcap]; exact (mul_one _).symm, .inl rfl⟩⟩

/-- What the bins of a code need of the decoder, before each of them. -/
def TakeReady (path : Path) (is : List Nat) (s : State) : Prop := s.Live ∧ ∀ j ∈ is, rdReady s path j

theorem takeBin_keeps_ready (h : TakeReady path is s) {j : Nat} (hj : j ∈ is) :
    Sat (takeBin path j) s (fun _ => True) fun _ t => TakeReady path is t := by
  obtain ⟨hlive, hready⟩ := h
  unfold takeBin
  rw [sat_bind]
  refine (take_live hlive (hready j hj)).mono (fun _ => id) ?_
  rintro _ t ⟨ht, e1, e2, e3⟩
  exact sat_pure.2 ⟨ht, fun j' hj' => rdReady_congr (hready j' hj') e1 e2 e3⟩

/-- Bins fail only for want of bits, and not with a byte for each of them. -/
theorem takeAll_sat (h : TakeReady path is s) :
    Sat (takeAll path is) s (fun c => c = .exhausted ∧ ¬ s.Avail (8 * is.length)) fun _ t => TakeReady path is t := by
  suffices ∀ js : List Nat, (∀ j ∈ js, j ∈ is) → ∀ s, TakeReady path is s →
      Sat (takeAll path js) s (fun c => c = .exhausted ∧ ¬ s.Avail (8 * js.length)) fun _ t => TakeReady path is t from
    this is (fun _ => id) s h
  intro js
  induction js with
  | nil => exact fun _ s h => sat_pure.2 h
  | cons j js ih =>
    intro hsub s h
    obtain ⟨hlive, hready⟩ := h
    obtain ⟨hj, hsub⟩ := List.forall_mem_cons.1 hsub
    rw [takeAll_cons, sat_bind]
    refine ((take_sat hlive (hready j hj)).and (take_live hlive (hready j hj))).mono ?_ ?_
    · rintro c ⟨⟨rfl, hav⟩, -⟩
      exact ⟨rfl, fun h8 => hav (by rw [List.length_cons] at h8; unfold State.Avail at *; omega)⟩
    · rintro b t ⟨⟨-, -, hlim, hpos⟩, ht, e1, e2, e3⟩
      rw [sat_bind]
      refine (ih hsub t ⟨ht, fun j' hj' => rdReady_congr (hready j' hj') e1 e2 e3⟩).mono ?_ fun _ _ hu => sat_pure.2 hu
      rintro c ⟨rfl, hav⟩
      exact ⟨rfl, fun h8 => hav (by rw [List.length_cons] at h8; unfold State.Avail at *; omega)⟩

/-- On an arithmetic path the bins are those that the bin commands return (44_syntax.md R223). -/
theorem runData_decodeCommands (hp : path ≠ .raw) (h : TakeReady path is s) :
    match takeAll path is s with
    | .ok ds t => ∃ r, runData (is.map (decodeCommand path)) s = some (ds, t.withRsp r)
    | .error x _ => x = .raise .exhausted ∧ runData (is.map (decodeCommand path)) s = none := by
  have hruns := runData_performs (cmd := decodeCommand path) (step := takeBin path)
    (fun s hs j hj => performs_decodeCommand hp hs.1 (hs.2 j hj)) (fun s hs j hj => takeBin_keeps_ready hs hj) h s.rsp
  have hsat := takeAll_sat h
  rw [State.withRsp_rsp] at hruns
  unfold takeAll at hsat ⊢
  cases hrun : runAll (is.map (takeBin path)) s with
  | ok ds t =>
    rw [hrun] at hruns
    exact hruns
  | error x t =>
    rw [hrun] at hruns
    cases x with
    | raise c =>
      obtain ⟨rfl, -⟩ := hsat.of_raise hrun
      exact ⟨rfl, hruns.1⟩
    | halt f => exact hruns.elim

/-! The bits of a number (44_syntax.md R234). -/

/-- Bits behind the bits `v` already taken. -/
def pushBits (v : Nat) (ds : List Word) : Nat := ds.foldl (fun v d => 2 * v + d.toNat) v

theorem pushBits_eq (v : Nat) (ds : List Word) : pushBits v ds = v * 2 ^ ds.length + bitsValue ds := by
  induction ds generalizing v with
  | nil => rw [List.length_nil, pow_zero, mul_one]; rfl
  | cons d ds ih =>
    have hones : ((ds.map fun d => (1, d.toNat)).map (·.1)).sum = ds.length := by
      simp [Function.comp_def]
    have hcons : bitsValue (d :: ds) = d.toNat * 2 ^ ds.length + bitsValue ds := by
      rw [← hones]
      rfl
    rw [hcons, List.length_cons, pow_succ]
    refine (ih _).trans ?_
    ring

theorem toNat_binData (b : Bool) : (binData b).toNat = b.toNat := by
  cases b <;> rfl

theorem rdFlc_eq_takeAll (path : Path) (n v : Nat) :
    rdFlc path n v = (do return pushBits v (← takeAll path (List.replicate n 0))) := by
  induction n generalizing v with
  | zero => rfl
  | succ n ih => simp [rdFlc, ih, List.replicate_succ, pushBits, toNat_binData]

/-- Bits of a number read in two parts. -/
theorem rdFlc_add (path : Path) (n k v : Nat) :
    rdFlc path (n + k) v = (do rdFlc path k (← rdFlc path n v)) := by
  induction n generalizing v with
  | zero => simp [rdFlc]
  | succ n ih => rw [Nat.succ_add]; simp [rdFlc, ih]

/-- What was taken before stands in front. -/
theorem rdFlc_eq_add (path : Path) (n v : Nat) :
    rdFlc path n v = (do return v * 2 ^ n + (← rdFlc path n 0)) := by
  induction n generalizing v with
  | zero => simp [rdFlc]
  | succ n ih =>
    simp only [rdFlc, bind_assoc]
    congr 1
    funext b
    rw [ih, ih (2 * 0 + b.toNat)]
    simp only [bind_assoc, pure_bind]
    congr 1
    funext x
    congr 1
    ring

end Sys2Proof.Machine
end

section
/-! SUPPORT. The syntax read commands of fixed-length and Exp-Golomb codes (44_syntax.md R234 to R236): the pseudocode
takes the bits that `takeBits` says come next on the path. -/

namespace Sys2Proof.Machine

variable {s t u : State} {i : Instr} {path : Path} {n k l v w x y : Nat} {d : Word}

/-! The engine check of a read command (44_syntax.md R222). -/

section

variable {op : Byte} {f : Unit → Cmd Word}

theorem answer_of_checkRd_failed (h : s.canRead path = false) :
    answer op (checkRd path >>= f) s = .next (s.takeFault op .state) := by
  cases path with
  | raw => exact answer_of_check_failed (f := f) (by simpa [State.canRead, or_iff_not_imp_left] using h)
  | ep => exact answer_of_not_decoding (by simpa [State.canRead] using h)
  | ctx => exact answer_of_not_decoding (by simpa [State.canRead] using h)

theorem answer_of_checkRd_passed (h : s.canRead path = true) :
    answer op (checkRd path >>= f) s = answer op (f ()) s := by
  cases path with
  | raw => exact answer_of_check_passed (by simpa [State.canRead] using h)
  | ep => exact answer_of_decoding (by simpa [State.canRead] using h)
  | ctx => exact answer_of_decoding (by simpa [State.canRead] using h)

end

theorem rdReady_of_canRead (h : s.canRead path = true) (hc : path ≠ .ctx) : rdReady s path 0 := by
  cases path with
  | raw => simpa [State.canRead, rdReady] using h
  | ep => simpa [State.canRead, rdReady] using h
  | ctx => exact absurd rfl hc

/-- A command returns what its pseudocode returns, in the state that leaves, responses apart. -/
theorem returns_of_ok {m : Cmd Word} (hm : exec i s = answer i.op m s) (e : m s = .ok d t) (r : Option Response) :
    returns i s d (t.withRsp r) := hm.trans (answer_ok (t := t) e)

/-! The next bits on a path (44_syntax.md R221). -/

theorem take_raw_of_avail (h : s.ReadOk) (hav : s.Avail 1) (j : Nat) :
    ∃ b : Bool, take .raw j s = .ok b (s.advance 1) ∧ b.toNat = s.store.readBits s.rdPos.toNat 1 := by
  refine ⟨s.store.readBits s.rdPos.toNat 1 == 1, ?_, ?_⟩
  · exact bind_of_ok (m := getBits 1) (f := fun v => pure (v == 1)) (getBits_of_avail h hav)
  · have hlt := Memory.readBits_lt s.store s.rdPos.toNat 1
    generalize s.store.readBits s.rdPos.toNat 1 = b at hlt
    interval_cases b <;> rfl

theorem take_raw_of_not_avail (h : s.ReadOk) (hav : ¬ s.Avail 1) (j : Nat) :
    take .raw j s = .error (.raise .exhausted) s :=
  bind_of_error (m := getBits 1) (f := fun v => pure (v == 1)) (getBits_of_not_avail h hav)

theorem rdFlc_raw_of_avail (h : s.ReadOk) (hav : s.Avail n) :
    rdFlc .raw n v s = .ok (v * 2 ^ n + s.store.readBits s.rdPos.toNat n) (s.advance n) := by
  induction n generalizing s v with
  | zero => simp [rdFlc, Memory.readBits]
  | succ n ih =>
    have hone : s.Avail 1 := by unfold State.Avail at *; omega
    obtain ⟨b, e, hb⟩ := take_raw_of_avail h hone 0
    have hrest : (s.advance 1).Avail n := (h.avail_advance hone).2 (by rwa [Nat.add_comm])
    rw [rdFlc, bind_of_ok e, ih (h.advance 1) hrest, h.rdPos_advance hone, State.advance_store, State.advance_advance,
      Memory.readBits_one_add, hb, Nat.add_comm 1 n, pow_succ]
    congr 1
    ring

theorem rdFlc_raw_of_not_avail (h : s.ReadOk) (hzero : s.Avail 0) (hav : ¬ s.Avail n) :
    ∃ t, rdFlc .raw n v s = .error (.raise .exhausted) t := by
  induction n generalizing s v with
  | zero => exact absurd hzero hav
  | succ n ih =>
    by_cases hone : s.Avail 1
    · obtain ⟨b, e, -⟩ := take_raw_of_avail h hone 0
      rw [rdFlc, bind_of_ok e]
      exact ih (h.advance 1) ((h.avail_advance hone).2 hone) fun hrest =>
        hav (by rw [Nat.add_comm]; exact (h.avail_advance hone).1 hrest)
    · exact ⟨s, by rw [rdFlc, bind_of_error (take_raw_of_not_avail h hone 0)]⟩

/-- `RdFlc` from nothing takes the next bits on its path, and fails where they run out. -/
theorem rdFlc_takeBits (h : s.Live) (hr : rdReady s path 0) (hc : path ≠ .ctx) (n : Nat) :
    match takeBits path n s with
    | some (x, t) => ∃ u r, rdFlc path n 0 s = .ok x u ∧ t = u.withRsp r
    | none => ∃ u, rdFlc path n 0 s = .error (.raise .exhausted) u := by
  cases path with
  | ctx => exact absurd rfl hc
  | raw =>
    have hread := h.readOk hr.2
    unfold takeBits
    by_cases hav : s.Avail n
    · rw [if_pos hav]
      refine ⟨s.advance n, s.rsp, ?_, rfl⟩
      rw [rdFlc_raw_of_avail hread hav, Nat.zero_mul, Nat.zero_add]
    · rw [if_neg hav]
      exact rdFlc_raw_of_not_avail hread h.rdPos_le hav
  | ep =>
    have hruns := runData_decodeCommands (path := .ep) (is := List.replicate n 0) (nomatch ·) ⟨h, fun _ _ => hr⟩
    rw [List.map_replicate] at hruns
    have hbits : takeBits .ep n s = (runData (List.replicate n .decBinEp) s).map fun r => (bitsValue r.1, r.2) := rfl
    rw [hbits]
    rw [rdFlc_eq_takeAll]
    cases hrun : takeAll .ep (List.replicate n 0) s with
    | ok ds t =>
      rw [hrun] at hruns
      obtain ⟨r, hruns⟩ := hruns
      have hruns : runData (List.replicate n .decBinEp) s = _ := hruns
      rw [hruns, bind_of_ok hrun, pushBits_eq, Nat.zero_mul, Nat.zero_add]
      exact ⟨t, r, rfl, rfl⟩
    | error e t =>
      rw [hrun] at hruns
      obtain ⟨rfl, hruns⟩ := hruns
      have hruns : runData (List.replicate n .decBinEp) s = _ := hruns
      rw [hruns, bind_of_error hrun]
      exact ⟨t, rfl⟩

theorem rdFlc_of_takeBits_some (h : s.Live) (hr : rdReady s path 0) (hc : path ≠ .ctx)
    (e : takeBits path n s = some (x, t)) : ∃ u r, rdFlc path n 0 s = .ok x u ∧ t = u.withRsp r := by
  have := rdFlc_takeBits h hr hc n
  rwa [e] at this

theorem rdFlc_of_takeBits_none (h : s.Live) (hr : rdReady s path 0) (hc : path ≠ .ctx)
    (e : takeBits path n s = none) : ∃ u, rdFlc path n 0 s = .error (.raise .exhausted) u := by
  have := rdFlc_takeBits h hr hc n
  rwa [e] at this

/-- With a byte for each of them the bits do not run out. -/
theorem takeBits_of_avail (h : s.Live) (hr : rdReady s path 0) (hc : path ≠ .ctx) (hav : s.Avail (8 * n)) :
    ∃ r, takeBits path n s = some r := by
  cases e : takeBits path n s with
  | some r => exact ⟨r, rfl⟩
  | none =>
    obtain ⟨u, hrun⟩ := rdFlc_of_takeBits_none h hr hc e
    have hready : TakeReady path (List.replicate n 0) s := ⟨h, fun j hj => (List.eq_of_mem_replicate hj) ▸ hr⟩
    rw [rdFlc_eq_takeAll] at hrun
    obtain ⟨-, hnot⟩ := (takeAll_sat hready).of_raise (error_of_bind_pure hrun)
    rw [List.length_replicate] at hnot
    exact absurd hav hnot

/-- Settles O49: the two checks, then `rdFlc_takeBits`. -/
theorem seRdFlc : Obligations.SeRdFlc := by
  intro s n path h hc
  by_cases hn : 32 < n.toNat
  · rw [if_pos hn]
    exact (answer_of_form hc).trans (answer_of_check_failed (decide_eq_true hn))
  rw [if_neg hn]
  have hm : exec (.seRdFlc n path) s = answer 0x60 (do
      checkRd path
      return BitVec.ofNat 32 (← rdFlc path n.toNat 0)) s :=
    (answer_of_form hc).trans (answer_of_check_passed (decide_eq_false hn))
  cases hs : s.canRead path with
  | false => exact hm.trans (answer_of_checkRd_failed hs)
  | true =>
    have hr := rdReady_of_canRead hs hc
    have hm := hm.trans (answer_of_checkRd_passed hs)
    refine ⟨takeBits_of_avail h hr hc, ?_⟩
    cases e : takeBits path n.toNat s with
    | some r =>
      obtain ⟨u, r', hrun, ht⟩ := rdFlc_of_takeBits_some h hr hc (x := r.1) (t := r.2) e
      simp only [ht]
      exact returns_of_ok (i := .seRdFlc n path) hm (bind_of_ok hrun) r'
    | none =>
      obtain ⟨u, hrun⟩ := rdFlc_of_takeBits_none h hr hc e
      exact raises_of_error (nomatch ·) hm (bind_of_error hrun)

/-! Exp-Golomb codes (44_syntax.md R235). -/

theorem rdFlc_lt (e : rdFlc path n v s = .ok x t) : x < (v + 1) * 2 ^ n := by
  induction n generalizing s v with
  | zero =>
    cases e
    omega
  | succ n ih =>
    obtain ⟨b, u, -, e⟩ := bind_eq_ok e
    have hb := b.toNat_le
    calc x < (2 * v + b.toNat + 1) * 2 ^ n := ih e
      _ ≤ ((v + 1) * 2) * 2 ^ n := Nat.mul_le_mul_right _ (by omega)
      _ = (v + 1) * 2 ^ (n + 1) := by rw [pow_succ]; ring

theorem rdFlc_parts (e : rdFlc path (n + k) 0 s = .ok x t) :
    ∃ y z u, rdFlc path n 0 s = .ok y u ∧ rdFlc path k 0 u = .ok z t ∧ z < 2 ^ k ∧ x = y * 2 ^ k + z := by
  rw [rdFlc_add] at e
  obtain ⟨y, u, hy, e⟩ := bind_eq_ok e
  rw [rdFlc_eq_add] at e
  obtain ⟨z, u', hz, e⟩ := bind_eq_ok e
  cases e
  exact ⟨y, z, u, hy, hz, by simpa using rdFlc_lt hz, rfl⟩

/-- What fails behind bits that were there fails from the state they leave. -/
theorem rdFlc_rest_error {z : Stop} (e : rdFlc path n 0 s = .ok y u) (e' : rdFlc path (n + k) 0 s = .error z t) :
    rdFlc path k 0 u = .error z t := by
  rw [rdFlc_add, bind_of_ok e, rdFlc_eq_add] at e'
  exact error_of_bind_pure e'

theorem rdFlc_one (path : Path) : rdFlc path 1 0 = (do return (← take path 0).toNat) := by
  simp [rdFlc]

/-- Zeros are counted. -/
theorem rdPrefix_of_zeros (e : rdFlc path n 0 s = .ok 0 t) :
    rdPrefix path (k + n) l s = rdPrefix path k (l + n) t := by
  induction n generalizing s l with
  | zero =>
    cases e
    rfl
  | succ n ih =>
    rw [Nat.add_comm n 1] at e
    obtain ⟨y, z, u, hy, hz, -, hsum⟩ := rdFlc_parts e
    have hy0 : y = 0 := by have := Nat.two_pow_pos n; nlinarith
    have hz0 : z = 0 := by omega
    subst hy0 hz0
    rw [rdFlc_one] at hy
    obtain ⟨b, u', hb, hy⟩ := bind_eq_ok hy
    cases b with
    | true => cases hy
    | false =>
      cases hy
      rw [← Nat.add_assoc, rdPrefix, bind_of_ok hb, if_neg (nomatch ·), ih hz, Nat.add_assoc, Nat.add_comm 1 n]

/-- The prefix of a code is zeros and a one; the suffix is as long (44_syntax.md R235). -/
theorem rdUvlc_of_prefix (hl : l ≤ 31) (e : rdFlc path (l + 1) 0 s = .ok 1 t) :
    rdUvlc path s = (do return 2 ^ l - 1 + (← rdFlc path l 0)) t := by
  obtain ⟨y, z, u, hy, hz, hlt, hsum⟩ := rdFlc_parts e
  obtain ⟨rfl, rfl⟩ : y = 0 ∧ z = 1 := by omega
  rw [rdFlc_one] at hz
  obtain ⟨b, u', hb, hz⟩ := bind_eq_ok hz
  have hprefix : rdPrefix path 32 0 s = .ok l t := by
    rw [show 32 = 31 - l + 1 + l by omega, rdPrefix_of_zeros hy, rdPrefix, bind_of_ok hb, Nat.zero_add]
    cases b with
    | true => cases hz; rfl
    | false => cases hz
  exact bind_of_ok hprefix

/-- A command that, once its check has passed, reads an Exp-Golomb code. -/
theorem readsCode_of_rdUvlc {f : Nat → Word} (h : s.Live) (hreset : i ≠ .sysReset) (hr : rdReady s path 0)
    (hc : path ≠ .ctx) (hm : exec i s = answer i.op (do return f (← rdUvlc path)) s) : ReadsCode i path f s := by
  refine ⟨fun l hl x t e h1 h2 => ?_, fun l hl t e e' => ?_, fun k hk t e e' => ?_, fun t e => ?_⟩
  · obtain ⟨u, r, hrun, rfl⟩ := rdFlc_of_takeBits_some h hr hc e
    rw [show 2 * l + 1 = l + 1 + l by omega] at hrun
    obtain ⟨y, z, v, hy, hz, hlt, rfl⟩ := rdFlc_parts hrun
    obtain rfl : y = 1 := by
      rw [pow_succ] at h2
      have hpos := Nat.two_pow_pos l
      refine Nat.le_antisymm ?_ ?_
      · by_contra hy2
        have := Nat.mul_le_mul_right (2 ^ l) (not_le.1 hy2)
        omega
      · by_contra hy0
        have : y = 0 := by omega
        subst this
        omega
    have hcode : rdUvlc path s = .ok (1 * 2 ^ l + z - 1) u := by
      rw [rdUvlc_of_prefix hl hy, bind_of_ok hz, show 1 * 2 ^ l + z - 1 = 2 ^ l - 1 + z by omega]
      rfl
    exact returns_of_ok hm (bind_of_ok hcode) r
  · obtain ⟨u, r, hrun, -⟩ := rdFlc_of_takeBits_some h hr hc e
    obtain ⟨v, herr⟩ := rdFlc_of_takeBits_none h hr hc e'
    rw [show 2 * l + 1 = l + 1 + l by omega] at herr
    have hcode : rdUvlc path s = .error (.raise .exhausted) v := by
      rw [rdUvlc_of_prefix hl hrun, bind_of_error (rdFlc_rest_error hrun herr)]
    exact raises_of_error hreset hm (bind_of_error hcode)
  · obtain ⟨u, r, hrun, -⟩ := rdFlc_of_takeBits_some h hr hc e
    obtain ⟨v, herr⟩ := rdFlc_of_takeBits_none h hr hc e'
    have hone := rdFlc_rest_error hrun herr
    rw [rdFlc_one] at hone
    have htake : take path 0 u = .error (.raise .exhausted) v := error_of_bind_pure hone
    have hprefix : rdPrefix path 32 0 s = .error (.raise .exhausted) v := by
      rw [show 32 = 31 - k + 1 + k by omega, rdPrefix_of_zeros hrun, rdPrefix, bind_of_error htake]
    exact raises_of_error hreset hm (bind_of_error (bind_of_error hprefix))
  · obtain ⟨u, r, hrun, -⟩ := rdFlc_of_takeBits_some h hr hc e
    have hprefix : rdPrefix path 32 0 s = .error (.raise .pattern) u := rdPrefix_of_zeros (k := 0) hrun
    exact raises_of_error hreset hm (bind_of_error (bind_of_error hprefix))

/-- Settles O50: the check, then `readsCode_of_rdUvlc`. -/
theorem seRdUvlc : Obligations.SeRdUvlc := by
  intro s path h hc
  cases hs : s.canRead path with
  | false => exact (answer_of_form hc).trans (answer_of_checkRd_failed hs)
  | true =>
    have hr := rdReady_of_canRead hs hc
    exact ⟨takeBits_of_avail h hr hc, readsCode_of_rdUvlc h (nomatch ·) hr hc
      ((answer_of_form hc).trans (answer_of_checkRd_passed hs))⟩

/-- Settles O51: the same with the number read as a signed one. -/
theorem seRdSvlc : Obligations.SeRdSvlc := by
  intro s path h hc
  cases hs : s.canRead path with
  | false => exact (answer_of_form hc).trans (answer_of_checkRd_failed hs)
  | true =>
    have hm : exec (.seRdSvlc path) s = answer 0x62 (do return BitVec.ofInt 32 (unzigzag (← rdUvlc path))) s :=
      (answer_of_form hc).trans (answer_of_checkRd_passed hs)
    exact readsCode_of_rdUvlc (f := fun c => BitVec.ofInt 32 (unzigzag c)) h (nomatch ·) (rdReady_of_canRead hs hc) hc hm

end Sys2Proof.Machine
end

section
/-! SUPPORT. The other syntax read commands (44_syntax.md R237 to R239): truncated unary codes, trailing bits and
0xFF-extended bytes. -/

namespace Sys2Proof.Machine

variable {s t u : State} {i : Instr} {path : Path} {n k v w : Nat} {ctx max : Byte} {spanm1 : BitVec 6} {is : List Nat}
  {ds : List Word}

/-! SE_RD_TU (44_syntax.md R237). -/

/-- The contexts of the `n` bins from bin number `k` on (44_syntax.md R227). -/
def tuContexts (ctx : Byte) (spanm1 : BitVec 6) (k n : Nat) : List Nat := (List.range' k n).map (tuCtx ctx spanm1)

theorem tuContexts_succ (ctx : Byte) (spanm1 : BitVec 6) (k n : Nat) :
    tuContexts ctx spanm1 k (n + 1) = tuCtx ctx spanm1 k :: tuContexts ctx spanm1 (k + 1) n := by
  rw [tuContexts, List.range'_succ, List.map_cons, tuContexts]

theorem tuContexts_concat (ctx : Byte) (spanm1 : BitVec 6) (n : Nat) :
    tuContexts ctx spanm1 0 (n + 1) = tuContexts ctx spanm1 0 n ++ [tuCtx ctx spanm1 n] := by
  rw [tuContexts, List.range'_concat, List.map_append, Nat.one_mul, Nat.zero_add]
  rfl

theorem length_tuContexts : (tuContexts ctx spanm1 k n).length = n := by simp [tuContexts]

theorem decodeCommand_tuContexts (path : Path) (ctx : Byte) (spanm1 : BitVec 6) (n : Nat) :
    (tuContexts ctx spanm1 0 n).map (decodeCommand path) = tuReads path ctx spanm1 n := by
  unfold tuContexts tuReads
  rw [List.map_map, List.range_eq_range']
  cases path <;> rfl

theorem binData_eq_one {b : Bool} (h : binData b = 1) : b = true := binData_eq_iff (b := true).1 h

theorem binData_eq_zero {b : Bool} (h : binData b = 0) : b = false := binData_eq_iff (b := false).1 h

/-- Ones are counted. -/
theorem rdOnes_of_ones (e : takeAll path (tuContexts ctx spanm1 k n) s = .ok (List.replicate n 1) t) (room : Nat) :
    rdOnes path ctx spanm1 (room + n) k s = rdOnes path ctx spanm1 room (k + n) t := by
  induction n generalizing s k with
  | zero =>
    cases e
    rfl
  | succ n ih =>
    rw [tuContexts_succ, takeAll_cons] at e
    obtain ⟨b, u, hb, e⟩ := bind_eq_ok e
    obtain ⟨ds, u', hds, e⟩ := bind_eq_ok e
    obtain ⟨hdata, rfl⟩ := EStateM.Result.ok.inj
      (show .ok (binData b :: ds) u' = EStateM.Result.ok (List.replicate (n + 1) 1) t from e)
    obtain ⟨hone, rfl⟩ := List.cons_eq_cons.1 (hdata.trans (List.replicate_succ ..))
    rw [← Nat.add_assoc, rdOnes, bind_of_ok hb, binData_eq_one hone, if_pos rfl, ih hds]
    congr 1
    omega

/-- The last bin of a code. -/
theorem takeAll_concat (path : Path) (is : List Nat) (j : Nat) :
    takeAll path (is ++ [j]) = (do
      let ds ← takeAll path is
      let b ← take path j
      return ds ++ [binData b]) := by
  rw [takeAll_append]
  simp

/-- What the commands of a truncated unary code return, as its pseudocode takes it. -/
theorem takeAll_of_tuReads {o : Option (List Word × State)} (hp : path ≠ .raw)
    (h : TakeReady path (tuContexts ctx spanm1 0 n) s) (e : runData (tuReads path ctx spanm1 n) s = o) :
    match o with
    | some (ds, t) => ∃ u r, takeAll path (tuContexts ctx spanm1 0 n) s = .ok ds u ∧ t = u.withRsp r
    | none => ∃ u, takeAll path (tuContexts ctx spanm1 0 n) s = .error (.raise .exhausted) u := by
  have hruns := runData_decodeCommands hp h
  rw [decodeCommand_tuContexts, e] at hruns
  cases hrun : takeAll path (tuContexts ctx spanm1 0 n) s with
  | ok ds u =>
    rw [hrun] at hruns
    obtain ⟨r, rfl⟩ := hruns
    exact ⟨u, r, rfl, rfl⟩
  | error x u =>
    rw [hrun] at hruns
    obtain ⟨rfl, rfl⟩ := hruns
    exact ⟨u, rfl⟩

/-- A command that, once its checks have passed, reads a truncated unary code, clause by clause (44_syntax.md R237). -/
theorem rdOnes_ends (hp : path ≠ .raw) (h : ∀ n, TakeReady path (tuContexts ctx spanm1 0 n) s)
    (hreset : i ≠ .sysReset)
    (hm : exec i s = answer i.op (do return BitVec.ofNat 32 (← rdOnes path ctx spanm1 max.toNat 0)) s) :
    (∀ k < max.toNat, ∀ t, runData (tuReads path ctx spanm1 (k + 1)) s = some (List.replicate k 1 ++ [0], t) →
        returns i s (BitVec.ofNat 32 k) t) ∧
      (∀ t, runData (tuReads path ctx spanm1 max.toNat) s = some (List.replicate max.toNat 1, t) →
        returns i s (BitVec.ofNat 32 max.toNat) t) ∧
      ∀ k < max.toNat, ∀ t, runData (tuReads path ctx spanm1 k) s = some (List.replicate k 1, t) →
        runData (tuReads path ctx spanm1 (k + 1)) s = none → raises i s .exhausted := by
  have split : ∀ {k}, k < max.toNat → max.toNat = max.toNat - k - 1 + 1 + k := by omega
  refine ⟨fun k hk t e => ?_, fun t e => ?_, fun k hk t e e' => ?_⟩
  · obtain ⟨u, r, hrun, rfl⟩ := takeAll_of_tuReads hp (h _) e
    rw [tuContexts_concat, takeAll_concat] at hrun
    obtain ⟨ds, v, hds, hrun⟩ := bind_eq_ok hrun
    obtain ⟨b, v', hb, hrun⟩ := bind_eq_ok hrun
    obtain ⟨hdata, rfl⟩ := EStateM.Result.ok.inj
      (show .ok (ds ++ [binData b]) v' = EStateM.Result.ok (List.replicate k 1 ++ [0]) u from hrun)
    obtain ⟨rfl, hzero⟩ := List.append_inj' hdata rfl
    have hcode : rdOnes path ctx spanm1 max.toNat 0 s = .ok k v' := by
      rw [split hk, rdOnes_of_ones hds, Nat.zero_add, rdOnes, bind_of_ok hb,
        binData_eq_zero (List.singleton_inj.1 hzero), if_neg (nomatch ·)]
      rfl
    exact returns_of_ok hm (bind_of_ok hcode) r
  · obtain ⟨u, r, hrun, rfl⟩ := takeAll_of_tuReads hp (h _) e
    have hcode : rdOnes path ctx spanm1 max.toNat 0 s = .ok max.toNat u := by
      have hones := rdOnes_of_ones hrun 0
      rw [Nat.zero_add] at hones
      exact hones
    exact returns_of_ok hm (bind_of_ok hcode) r
  · obtain ⟨u, r, hrun, -⟩ := takeAll_of_tuReads hp (h _) e
    obtain ⟨v, herr⟩ := takeAll_of_tuReads hp (h _) e'
    rw [tuContexts_concat, takeAll_concat, bind_of_ok hrun] at herr
    have htake : take path (tuCtx ctx spanm1 k) u = .error (.raise .exhausted) v := error_of_bind_pure herr
    have hcode : rdOnes path ctx spanm1 max.toNat 0 s = .error (.raise .exhausted) v := by
      rw [split hk, rdOnes_of_ones hrun, Nat.zero_add, rdOnes, bind_of_error htake]
    exact raises_of_error hreset hm (bind_of_error hcode)

/-- With a byte for each of them the bins do not run out. -/
theorem tuReads_completes (hp : path ≠ .raw) (h : TakeReady path (tuContexts ctx spanm1 0 n) s)
    (hav : s.Avail (8 * n)) : ∃ r, runData (tuReads path ctx spanm1 n) s = some r := by
  cases e : runData (tuReads path ctx spanm1 n) s with
  | some r => exact ⟨r, rfl⟩
  | none =>
    obtain ⟨u, herr⟩ := takeAll_of_tuReads hp h e
    obtain ⟨-, hnot⟩ := (takeAll_sat h).of_raise herr
    rw [length_tuContexts] at hnot
    exact absurd hav hnot

/-- Settles O52: the checks in their order, then the bins of the code (`rdOnes_ends`). -/
theorem seRdTu : Obligations.SeRdTu := by
  intro s ctx max path spanm1 h hpath
  obtain ⟨hform, hp⟩ := tuLegal_of_path hpath
  have hlegal : (!path.tuLegal ctx spanm1) = false := by rw [hform]; rfl
  by_cases hidx : path = .ctx ∧ s.cfg.nctx ≤ ctx.toNat + spanm1.toNat
  · rw [if_pos hidx]
    exact (answer_of_check_passed hlegal).trans (answer_of_check_failed (tu_check_iff.2 hidx))
  rw [if_neg hidx]
  have hm : exec (.seRdTu ctx max path spanm1) s = answer 0x63 (do
      checkRd path
      return BitVec.ofNat 32 (← rdOnes path ctx spanm1 max.toNat 0)) s :=
    (answer_of_check_passed hlegal).trans (answer_of_check_passed (Bool.eq_false_iff.2 (tu_check_iff.not.2 hidx)))
  have hcan : s.canRead path = true ↔ s.decState = .coding := by
    rcases hpath with ⟨rfl, -⟩ | rfl <;> simp [State.canRead]
  by_cases hd : s.decState = .coding
  · rw [if_neg (not_not.2 hd)]
    have hready : ∀ n, TakeReady path (tuContexts ctx spanm1 0 n) s := fun n => ⟨h, fun j hj => by
      obtain ⟨k, -, rfl⟩ := List.mem_map.1 hj
      have hle := tuCtx_le ctx spanm1 k
      rcases hpath with ⟨rfl, -⟩ | rfl
      · exact hd
      · exact ⟨hd, hle.trans_lt (not_le.1 fun hle => hidx ⟨rfl, hle⟩)⟩⟩
    exact ⟨tuReads_completes hp (hready _), rdOnes_ends hp hready (nomatch ·)
      (hm.trans (answer_of_checkRd_passed (hcan.2 hd)))⟩
  · rw [if_pos hd]
    exact hm.trans (answer_of_checkRd_failed (Bool.eq_false_iff.2 (hcan.not.2 hd)))

/-! SE_RD_TRAIL (44_syntax.md R238). -/

/-- The fault of `n` zeros that are to be taken: a one among those that are there, or too few. -/
def State.zerosFault (s : State) (n : Nat) : Option Cause :=
  let m := min n (s.rdLimit - s.rdPos.toNat)
  if s.store.readBits s.rdPos.toNat m ≠ 0 then some .pattern else if m < n then some .exhausted else none

theorem State.zerosFault_of_not_avail (h : ¬ s.Avail 1) : s.zerosFault (n + 1) = some .exhausted := by
  have hm : min (n + 1) (s.rdLimit - s.rdPos.toNat) = 0 := by unfold State.Avail at h; omega
  simp [State.zerosFault, hm, Memory.readBits]

/-- The first of the bits, then the others. -/
theorem State.ReadOk.zerosFault_succ (h : s.ReadOk) (hav : s.Avail 1) :
    s.zerosFault (n + 1) = if s.store.readBits s.rdPos.toNat 1 ≠ 0 then some .pattern else (s.advance 1).zerosFault n := by
  have hm : min (n + 1) (s.rdLimit - s.rdPos.toNat) = min n (s.rdLimit - (s.rdPos.toNat + 1)) + 1 := by
    unfold State.Avail at hav
    omega
  unfold State.zerosFault
  rw [hm, h.rdPos_advance hav, State.advance_rdLimit, State.advance_store]
  simp only [Memory.readBits_one_add _ _ (min n _)]
  by_cases hone : s.store.readBits s.rdPos.toNat 1 = 0
  · simp [hone]
  · rw [if_pos, if_pos hone]
    have := Nat.mul_pos (Nat.pos_of_ne_zero hone) (Nat.two_pow_pos (min n (s.rdLimit - (s.rdPos.toNat + 1))))
    omega

theorem rdZeros_sat (h : s.ReadOk) :
    Sat (rdZeros n) s (fun c => s.zerosFault n = some c) fun _ t => s.zerosFault n = none ∧ t = s.advance n := by
  induction n generalizing s with
  | zero => exact sat_pure.2 ⟨by simp [State.zerosFault, Memory.readBits], s.advance_zero.symm⟩
  | succ n ih =>
    rw [rdZeros, sat_bind]
    by_cases hav : s.Avail 1
    · refine sat_of_ok (getBits_of_avail h hav) ?_
      rw [sat_bind, sat_raiseIf, h.zerosFault_succ hav, decide_eq_true_eq, decide_eq_false_iff_not]
      refine ⟨fun hone => if_pos hone, fun hzero => ?_⟩
      rw [if_neg hzero, Nat.add_comm n 1, ← State.advance_advance]
      exact ih (h.advance 1)
    · exact sat_of_raise (getBits_of_not_avail h hav) (State.zerosFault_of_not_avail hav)

/-- The fault of the trailing bits: the first of them must be a one, the others zeros (44_syntax.md R238). -/
def State.trailFault (s : State) : Option Cause :=
  if ¬ s.Avail 1 then some .exhausted
  else if s.store.readBits s.rdPos.toNat 1 ≠ 1 then some .pattern
  else (s.advance 1).zerosFault (7 - s.rdPos.toNat % 8)

/-- The fault, told by all the bits that are there. -/
theorem State.ReadOk.trailFault_eq (h : s.ReadOk) :
    let n := 8 - s.rdPos.toNat % 8
    let m := min n (s.rdLimit - s.rdPos.toNat)
    s.trailFault = if 0 < m ∧ s.store.readBits s.rdPos.toNat m ≠ 2 ^ (m - 1) then some .pattern
      else if m < n then some .exhausted else none := by
  intro n m
  unfold State.trailFault
  by_cases hav : s.Avail 1
  · have hm : m = min (7 - s.rdPos.toNat % 8) (s.rdLimit - (s.rdPos.toNat + 1)) + 1 := by
      unfold State.Avail at hav
      omega
    rw [if_neg (not_not.2 hav), State.zerosFault, h.rdPos_advance hav, State.advance_rdLimit, State.advance_store]
    generalize hk : min (7 - s.rdPos.toNat % 8) (s.rdLimit - (s.rdPos.toNat + 1)) = k at hm
    have hrest := Memory.readBits_lt s.store (s.rdPos.toNat + 1) k
    have hone := Memory.readBits_lt s.store s.rdPos.toNat 1
    have hlt : k < 7 - s.rdPos.toNat % 8 ↔ m < n := by omega
    have hpos : 0 < m := by omega
    have hbits : s.store.readBits s.rdPos.toNat m =
        s.store.readBits s.rdPos.toNat 1 * 2 ^ k + s.store.readBits (s.rdPos.toNat + 1) k := by
      rw [hm, Memory.readBits_one_add]
    rw [hbits, show m - 1 = k by omega]
    simp only [hpos, hlt, true_and]
    generalize s.store.readBits s.rdPos.toNat 1 = b at hone
    interval_cases b
    · rw [if_pos (by decide), if_pos (by omega)]
    · simp
  · have hm : m = 0 := by
      unfold State.Avail at hav
      omega
    rw [if_pos hav, if_neg (by omega), if_pos (by omega)]

/-- Settles O53: the check, the one, the zeros. -/
theorem seRdTrail : Obligations.SeRdTrail := by
  intro s h n m bits
  cases hs : s.canRead .raw with
  | false => exact answer_of_checkRd_failed hs
  | true =>
    obtain ⟨-, hcount⟩ := rdReady_of_canRead hs (nomatch ·)
    have hread := h.readOk hcount
    have hends : EndsAs .seRdTrail s s.trailFault (· = (s.advance n).respond 0) := by
      refine endsAs_of_sat (i := .seRdTrail) (nomatch ·) (answer_of_checkRd_passed hs) ?_
      unfold State.trailFault
      by_cases hav : s.Avail 1
      · rw [if_neg (not_not.2 hav), sat_bind]
        refine sat_of_ok (getBits_of_avail hread hav) ?_
        have hcount : alignCount (s.advance 1).rdPos.toNat = 7 - s.rdPos.toNat % 8 := by
          rw [hread.rdPos_advance hav]
          unfold alignCount
          omega
        simp only [sat_bind, sat_raiseIf, sat_get, sat_pure, decide_eq_true_eq, decide_eq_false_iff_not, hcount]
        refine ⟨fun hbad => if_pos hbad, fun hone => ?_⟩
        rw [if_neg hone]
        refine (rdZeros_sat (hread.advance 1)).mono (fun _ => id) ?_
        rintro _ t ⟨hfine, rfl⟩
        refine ⟨hfine, ?_⟩
        rw [State.advance_advance, show 1 + (7 - s.rdPos.toNat % 8) = n by omega]
      · rw [if_pos hav, sat_bind]
        exact sat_of_raise (getBits_of_not_avail hread hav) rfl
    rw [hread.trailFault_eq] at hends
    change if 0 < m ∧ bits ≠ 2 ^ (m - 1) then _ else if m < n then _ else _
    split_ifs at hends ⊢ with h1 h2
    · exact hends
    · exact hends
    · obtain ⟨t, e, rfl⟩ := hends
      exact e

/-- A check that passes. -/
theorem raiseIf_passes {b : Bool} {c : Cause} (h : b = false) : raiseIf b c s = .ok () s := by rw [h]; rfl

/-! SE_RD_FF8 (44_syntax.md R239). -/

/-- Bytes 0xFF are summed up. -/
theorem rdFf8_of_run {q : Nat} (h : s.ReadOk) (hav : s.Avail (8 * q))
    (hrun : s.store.readBits s.rdPos.toNat (8 * q) = 256 ^ q - 1) (hsum : v + 255 * q < 2 ^ 32) (room : Nat) :
    rdFf8 (room + q) v s = rdFf8 room (v + 255 * q) (s.advance (8 * q)) := by
  induction q generalizing s v with
  | zero => simp
  | succ q ih =>
    have hone : s.Avail 8 := by unfold State.Avail at *; omega
    have hpow := Nat.one_le_pow q 256 (by decide)
    have hsplit : s.store.readBits s.rdPos.toNat 8 * 256 ^ q + s.store.readBits (s.rdPos.toNat + 8) (8 * q) =
        256 ^ (q + 1) - 1 := by
      rw [← hrun, show 8 * (q + 1) = 8 + 8 * q by omega, Memory.readBits_append, pow_mul]
      rfl
    have hrest : s.store.readBits (s.rdPos.toNat + 8) (8 * q) < 256 ^ q := by
      have := Memory.readBits_lt s.store (s.rdPos.toNat + 8) (8 * q)
      rwa [pow_mul] at this
    obtain ⟨hbyte, htail⟩ : s.store.readBits s.rdPos.toNat 8 = 255 ∧
        s.store.readBits (s.rdPos.toNat + 8) (8 * q) = 256 ^ q - 1 := by
      refine eq_and_eq_of_mul_add_eq (K := 256 ^ q) (hsplit.trans ?_) hrest (by omega)
      rw [pow_succ]
      omega
    have hstep : rdFf8 (room + q + 1) v s = rdFf8 (room + q) (v + 255) (s.advance 8) := by
      rw [rdFf8, bind_of_ok (getBits_of_avail h hone), hbyte, bind_of_ok (raiseIf_passes (decide_eq_false (by omega)))]
      rfl
    rw [← Nat.add_assoc, hstep, ih (h.advance 8) ((h.avail_advance hone).2 (by rwa [show 8 + 8 * q = 8 * (q + 1) by omega]))
      (by rw [h.rdPos_advance hone]; exact htail) (by omega), State.advance_advance]
    rw [show v + 255 + 255 * q = v + 255 * (q + 1) by omega, show 8 + 8 * q = 8 * (q + 1) by omega]

/-- The byte behind them decides (44_syntax.md R239). -/
theorem rdFf8_of_last {byte room : Nat} (h : s.ReadOk) (hav : s.Avail 8) (hbyte : s.store.readBits s.rdPos.toNat 8 = byte) :
    (2 ^ 32 ≤ v + byte → rdFf8 (room + 1) v s = .error (.raise .pattern) (s.advance 8)) ∧
      (¬ 2 ^ 32 ≤ v + byte → byte ≠ 0xFF → rdFf8 (room + 1) v s = .ok (v + byte) (s.advance 8)) := by
  rw [rdFf8, bind_of_ok (getBits_of_avail h hav), hbyte]
  refine ⟨fun hover => ?_, fun hfit hlast => ?_⟩
  · rw [decide_eq_true hover]
    rfl
  · rw [bind_of_ok (raiseIf_passes (decide_eq_false hfit)), if_pos hlast]
    rfl

/-- Settles O54: the check, the bytes 0xFF (`rdFf8_of_run`), and the byte behind them. -/
theorem seRdFf8 : Obligations.SeRdFf8 := by
  intro s q h
  cases hs : s.canRead .raw with
  | false => exact answer_of_checkRd_failed hs
  | true =>
    intro hav hrun hsum byte
    obtain ⟨-, hcount⟩ := rdReady_of_canRead hs (nomatch ·)
    have hread := h.readOk hcount
    have hm : exec .seRdFf8 s = answer 0x65 (do
        return BitVec.ofNat 32 (← rdFf8 ((s.rdLimit - s.rdPos.toNat) / 8) 0)) s := answer_of_checkRd_passed hs
    have hbytes : ∀ room, rdFf8 (room + q) 0 s = rdFf8 room (255 * q) (s.advance (8 * q)) := fun room => by
      rw [rdFf8_of_run hread hav hrun (by omega), Nat.zero_add]
    by_cases hlast : s.Avail (8 * (q + 1))
    · rw [if_neg (not_not.2 hlast)]
      have hav8 : (s.advance (8 * q)).Avail 8 := (hread.avail_advance hav).2 (by rwa [← Nat.mul_succ])
      have hbyte : (s.advance (8 * q)).store.readBits (s.advance (8 * q)).rdPos.toNat 8 = byte := by
        rw [hread.rdPos_advance hav]
        rfl
      obtain ⟨room, hroom⟩ : ∃ room, (s.rdLimit - s.rdPos.toNat) / 8 = room + 1 + q := by
        unfold State.Avail at hlast
        exact ⟨(s.rdLimit - s.rdPos.toNat) / 8 - q - 1, by omega⟩
      obtain ⟨hover, hfit⟩ := rdFf8_of_last (v := 255 * q) (room := room) (hread.advance (8 * q)) hav8 hbyte
      rw [← hbytes, State.advance_advance, ← hroom] at hover hfit
      split_ifs with hsum'
      · exact raises_of_error (nomatch ·) hm (bind_of_error (hover hsum'))
      · exact or_iff_not_imp_left.2 fun hff =>
          returns_of_ok (i := .seRdFf8) hm (bind_of_ok (hfit hsum' hff)) s.rsp
    · rw [if_pos hlast]
      have hk : (s.rdLimit - s.rdPos.toNat) / 8 = 0 + q := by
        unfold State.Avail at hav hlast
        omega
      exact raises_of_error (nomatch ·) hm (bind_of_error (by rw [hk, hbytes]; rfl))

end Sys2Proof.Machine
end

section
/-! SUPPORT. What a syntax write puts out on RAW the matching read takes in (44_syntax.md R240): the string appended at
the write cursor is the string at the read cursor. -/

namespace Sys2Proof.Machine

variable {s t : State} {i : Instr} {n v : Nat}

/-- `t` is a state in which the `n`-bit string `v` is all that is to be read: nothing but the read limit ends it. -/
structure State.Holds (t : State) (n v : Nat) : Prop where
  live : t.Live
  can : t.canRead .raw = true
  limit : t.rdLimit = t.wrPos.toNat
  pos : t.wrPos.toNat = t.rdPos.toNat + n
  value : t.store.readBits t.rdPos.toNat n = v

theorem not_raises_of_fault_eq_none {c : Cause} (e : exec i s = .next t) (hf : t.fault = none) : ¬ raises i s c := by
  intro hr
  cases hr.symm.trans e
  exact takeFault_fault_ne_none s i.op c hf

/-- A raw write that completes leaves its string to be read. -/
theorem holds_of_writesCode (h : s.Live) (hcount : s.count = false) (hwindow : s.subActive = false)
    (henc : s.encState ≠ .coding) (hdec : s.decState ≠ .coding) (hpos : s.rdPos = s.wrPos)
    (hw : WritesCode i .raw n v s) (e : exec i s = .next t) (hf : t.fault = none) (hreset : i ≠ .sysReset)
    (hv : v < 2 ^ n) : t.Holds n v ∧ t.rdPos = s.wrPos := by
  change if s.encState = .coding then _ else if s.Room n then _ else _ at hw
  rw [if_neg henc] at hw
  split_ifs at hw with hroom
  · obtain ⟨u, eu, hframe, hend, -, -, hbits⟩ := hw
    cases eu.symm.trans e
    have hrsp : t.rsp = some ⟨none, 0⟩ := by rw [hframe]
    have hrd : t.rdPos = s.wrPos := by rw [hframe]; exact hpos
    obtain ⟨-, hbit⟩ := hbits hcount
    refine ⟨⟨live_of_completed h hreset e hrsp, ?_, ?_, by rw [hrd, hend], ?_⟩, hrd⟩
    · rw [hframe]
      simpa [State.canRead, hcount] using hdec
    · have hw : t.subActive = false := by rw [hframe]; exact hwindow
      simp [State.rdLimit, hw]
    · rw [hrd, Memory.readBits_of_bits fun p h1 h2 => (hbit p).trans (if_pos ⟨h1, h2⟩), Nat.mod_eq_of_lt hv]
  · exact absurd hw (not_raises_of_fault_eq_none e hf)

theorem State.Holds.avail (h : t.Holds n v) : t.Avail n := (h.limit.trans h.pos).ge

/-- All of it is taken when the read cursor stands at the write cursor. -/
theorem State.Holds.advance (h : t.Holds n v) : t.advance n = { t with rdPos := t.wrPos } := by
  unfold State.advance
  rw [← h.pos, BitVec.ofNat_toNat, BitVec.setWidth_eq]

theorem State.Holds.takeBits (h : t.Holds n v) : takeBits .raw n t = some (v, { t with rdPos := t.wrPos }) := by
  refine (if_pos h.avail).trans ?_
  rw [h.value]
  exact congrArg (fun u => some (v, u)) h.advance

/-- The Exp-Golomb code of `v` reads as `v` (44_syntax.md R240). -/
theorem State.Holds.returns_of_readsCode {l : Nat} {f : Nat → Word} (h : t.Holds (2 * l + 1) (v + 1)) (hl : 2 ^ l ≤ v + 1)
    (hl' : v + 1 < 2 ^ (l + 1)) (hv : v + 1 < 2 ^ 32) (hr : ReadsCode i .raw f t) :
    returns i t (f v) { t with rdPos := t.wrPos } := by
  have h31 : l ≤ 31 := by
    have := (Nat.pow_lt_pow_iff_right (by decide : 1 < 2)).1 (hl.trans_lt hv)
    omega
  exact hr.1 l h31 _ _ h.takeBits hl hl'

theorem zigzag_lt {value : Word} (h : value ≠ 0x80000000) : zigzag value.toInt + 1 < 2 ^ 32 := by
  have hmin : value.toInt ≠ -2 ^ 31 := fun e => h (BitVec.eq_of_toInt_eq (e.trans (by decide)))
  have hlo := value.le_toInt
  have hhi := value.toInt_lt
  have hz := zigzag_eq value.toInt
  split_ifs at hz <;> omega

theorem unzigzag_zigzag (v : Int) : unzigzag (zigzag v) = v := by
  have h := zigzag_eq v
  unfold unzigzag
  split_ifs at h ⊢ <;> omega

theorem State.Holds.not_refused (h : t.Holds n v) : ¬ t.canRead .raw = false := by simp [h.can]

/-- The trailing bits to the byte boundary (44_syntax.md R238). -/
theorem State.Holds.returns_seRdTrail {r : Nat} (h : t.Holds (8 - r) (2 ^ (7 - r))) (hr : t.rdPos.toNat % 8 = r) :
    returns .seRdTrail t 0 { t with rdPos := t.wrPos } := by
  have hread := seRdTrail t h.live
  have hm : min (8 - r) (t.rdLimit - t.rdPos.toNat) = 8 - r := by rw [h.limit, h.pos]; omega
  simp only [hr, hm, h.value] at hread
  rw [if_neg h.not_refused, if_neg (fun hbad => hbad.2 (by congr 1; omega)), if_neg (lt_irrefl _)] at hread
  refine hread.trans ?_
  rw [← h.advance]
  rfl

/-- The bytes 0xFF and the byte behind them (44_syntax.md R239). -/
theorem State.Holds.returns_seRdFf8 {value : Word}
    (h : t.Holds (8 * (value.toNat / 255 + 1)) ((256 ^ (value.toNat / 255) - 1) * 256 + value.toNat % 255)) :
    returns .seRdFf8 t value { t with rdPos := t.wrPos } := by
  have hdiv := Nat.div_add_mod value.toNat 255
  have hlt := value.isLt
  have hend := h.advance
  have hav := h.avail
  have hvalue := h.value
  generalize value.toNat / 255 = q at *
  have hread := seRdFf8 t q h.live
  rw [show 8 * (q + 1) = 8 * q + 8 by omega, Memory.readBits_append] at hvalue
  have hlast := Memory.readBits_lt t.store (t.rdPos.toNat + 8 * q) 8
  obtain ⟨hrun, hbyte⟩ := eq_and_eq_of_mul_add_eq hvalue hlast (by omega)
  rw [if_neg h.not_refused] at hread
  replace hread := hread (by unfold State.Avail at *; omega) hrun (by omega)
  simp only [hbyte] at hread
  rw [if_neg (not_not.2 hav), if_neg (by omega), hdiv, BitVec.ofNat_toNat, BitVec.setWidth_eq] at hread
  refine (hread.resolve_left (by omega)).trans ?_
  rw [← hend]
  rfl

/-- The bytes 0xFF and the byte behind them fill their string. -/
theorem ff8_lt (v : Nat) : (256 ^ (v / 255) - 1) * 256 + v % 255 < 2 ^ (8 * (v / 255 + 1)) := by
  have hone := Nat.one_le_pow (v / 255) 256 (by decide)
  have hpow : 2 ^ (8 * (v / 255 + 1)) = 256 ^ (v / 255) * 256 := by rw [pow_mul, pow_succ]; rfl
  omega

/-- Settles O55: a raw write leaves its string to be read (`holds_of_writesCode`), and each read takes it. -/
theorem syntaxRoundTrip : Obligations.SyntaxRoundTrip := by
  intro s t n value h hcount hwindow henc hdec hpos back
  have holds {i : Instr} {n v : Nat} := holds_of_writesCode (i := i) (n := n) (v := v) (t := t) h hcount hwindow henc hdec hpos
  refine ⟨fun e hf => ?_, fun e hf => ?_, fun e hf => ?_, fun e hf => ?_, fun e hf => ?_⟩
  · have hw := seWrFlc s n .raw value h (nomatch ·)
    by_cases hn : 32 < n.toNat
    · rw [if_pos hn] at hw
      exact absurd hw (not_raises_of_fault_eq_none e hf)
    · rw [if_neg hn] at hw
      obtain ⟨ht, -⟩ := holds hw e hf (nomatch ·) (Nat.mod_lt _ (by positivity))
      have hread := seRdFlc t n .raw ht.live (nomatch ·)
      rw [if_neg hn, if_neg ht.not_refused, ht.takeBits] at hread
      exact hread.2
  · have hw := seWrUvlc s .raw value h (nomatch ·)
    by_cases hv : value = 0xFFFFFFFF
    · rw [if_pos hv] at hw
      exact absurd hw (not_raises_of_fault_eq_none e hf)
    · rw [if_neg hv] at hw
      obtain ⟨l, hl, hl', hw⟩ := hw
      obtain ⟨ht, -⟩ := holds hw e hf (nomatch ·) (uvlc_lt hl')
      have hread := seRdUvlc t .raw ht.live (nomatch ·)
      rw [if_neg ht.not_refused] at hread
      have hdata := ht.returns_of_readsCode hl hl' (by bv_omega) hread.2
      rwa [BitVec.ofNat_toNat, BitVec.setWidth_eq] at hdata
  · have hw := seWrSvlc s .raw value h (nomatch ·)
    by_cases hv : value = 0x80000000
    · rw [if_pos hv] at hw
      exact absurd hw (not_raises_of_fault_eq_none e hf)
    · rw [if_neg hv] at hw
      obtain ⟨c, l, hc, hl, hl', hw⟩ := hw
      obtain rfl : c = zigzag value.toInt := by
        rw [← zigzag_eq] at hc
        exact_mod_cast hc
      obtain ⟨ht, -⟩ := holds hw e hf (nomatch ·) (uvlc_lt hl')
      have hread := seRdSvlc t .raw ht.live (nomatch ·)
      rw [if_neg ht.not_refused] at hread
      have hdata := ht.returns_of_readsCode (f := fun c => BitVec.ofInt 32 (unzigzag c)) hl hl' (zigzag_lt hv) hread
      rwa [unzigzag_zigzag, BitVec.ofInt_toInt] at hdata
  · obtain ⟨ht, hrd⟩ := holds (seWrTrail s h) e hf (nomatch ·) (Nat.pow_lt_pow_right (by decide) (by omega))
    exact ht.returns_seRdTrail (by rw [hrd])
  · obtain ⟨ht, -⟩ := holds (seWrFf8 s value h) e hf (nomatch ·) (ff8_lt value.toNat)
    exact ht.returns_seRdFf8

end Sys2Proof.Machine
end

section
/-! SUPPORT. The commands with no operand, and NOP (30_encoding.md R96, R102; 45_system.md R260; 60_exceptions.md R283). -/

namespace Sys2Proof.Machine

/-- Where the published rows of an OP fix every bit, as they do for a command without operands, the only word that
decodes with that OP is the pattern (30_encoding.md R96, R102). -/
theorem decode_ne_ok_of_fixed {op : Byte} {v w : CmdWord}
    (hrows : ∀ p ∈ published, p.op = op → p.mask = BitVec.allOnes 64 ∧ p.pattern = v)
    (hop : opByte w = op) (hne : w ≠ v) (i : Instr) : decode w ≠ .ok i := by
  intro hd
  obtain ⟨p, hp, his, -⟩ := decode_eq_ok_iff.1 hd
  obtain ⟨hmask, hpattern⟩ := hrows p hp ((op_of_is hp his).trans hop)
  rw [PublishedRow.is, Bool.and_eq_true, beq_iff_eq, hmask, BitVec.and_allOnes, hpattern] at his
  exact hne his.1

/-- A word not served while a fault is recorded is answered with the recorded code (60_exceptions.md R283). -/
theorem serve_of_refused {s : State} {w : CmdWord} {r : FaultRecord} (hf : s.fault = some r)
    (hw : servedWhileFaulted w = false) : serve w s = .next (s.refuseFaulted r) := by
  simp [serve, hf, hw]

theorem exec_nop (s : State) : exec .nop s = .next (s.respond 0) := rfl

/-- Settles O15: NOP has no operands, so that no other word with its OP decodes (`decode_ne_ok_of_fixed`), and it is not
among the words served while a fault is recorded. -/
theorem nopEffect : Obligations.NopEffect := by
  intro s
  refine ⟨exec_nop s, decode_of_encode rfl (by decide), fun w hop hne hf => ?_, fun r hf => ?_⟩
  · have hillegal := serve_of_illegal hf (decode_ne_ok_of_fixed (by decide) hop hne)
    rwa [show opByte w = 0 from hop] at hillegal
  · exact serve_of_refused hf (by decide)

end Sys2Proof.Machine
end

section
/-! SUPPORT. What FAULT, FAULT_OP and a response say of a recorded fault, and the end of a command that takes one
(60_exceptions.md R270, R281, R282, R286). -/

namespace Sys2Proof.Machine

variable {s : State} {r : FaultRecord}

theorem faultWord_of_recorded (h : s.fault = some r) : s.faultWord = (0 : BitVec 22) ++ (r.cause.cls ++ r.cause.code) := by
  rw [State.faultWord, h]

theorem faultOpWord_of_recorded (h : s.fault = some r) : s.faultOpWord = r.op.setWidth 32 := by
  rw [State.faultOpWord, h]

/-- FAULT[7:0] is the cause (10_state.md R24). -/
theorem faultWord_code (h : s.fault = some r) : s.faultWord.extractLsb' 0 8 = r.cause.code := by
  rw [faultWord_of_recorded h, BitVec.extractLsb'_append_eq_of_add_le (by decide), BitVec.extractLsb'_append_eq_right]

/-- FAULT[9:8] is the class (10_state.md R24). -/
theorem faultWord_class (h : s.fault = some r) : s.faultWord.extractLsb' 8 2 = r.cause.cls := by
  rw [faultWord_of_recorded h, BitVec.extractLsb'_append_eq_of_add_le (by decide), BitVec.extractLsb'_append_eq_left]

/-- FAULT_OP[7:0] is the OP byte (10_state.md R25). -/
theorem faultOpWord_op (h : s.fault = some r) : s.faultOpWord.extractLsb' 0 8 = r.op := by
  rw [faultOpWord_of_recorded h, BitVec.extractLsb'_setWidth_of_le (by decide), BitVec.extractLsb'_eq_self]

/-- Codes 9 to 255 are never produced (60_exceptions.md R270). -/
theorem Cause.code_le (c : Cause) : c.code.toNat ≤ 8 := by cases c <;> decide

/-- Settles O12: FAULT is put together from the class and the code of the cause, which are those of the table. -/
theorem faultCodes : Obligations.FaultCodes := by
  refine ⟨fun s h => ?_, fun s op d => ?_, fun r => ?_⟩
  · rw [State.faultWord, State.faultOpWord, h]
    exact ⟨rfl, rfl⟩
  · have hword {c : Cause} {v : Word} (hv : (0 : BitVec 22) ++ (c.cls ++ c.code) = v) (h : s.fault = some ⟨c, op⟩) :
        s.faultWord = v := (faultWord_of_recorded h).trans hv
    refine ⟨hword (by decide), hword (by decide), hword (by decide), hword (by decide), hword (by decide),
      hword (by decide), hword (by decide), hword (by decide), fun c h => ⟨faultWord_code h, ?_⟩⟩
    rw [faultOpWord_of_recorded h, BitVec.toNat_setWidth_of_le (by decide)]
  · obtain ⟨_ | c, d⟩ := r
    · exact Nat.zero_le 8
    · exact c.code_le

theorem takeFault_recorded (op : Byte) (c : Cause) (h : s.fault = none) : (s.takeFault op c).fault = some ⟨c, op⟩ := by
  rw [State.takeFault_fault, h]
  rfl

/-- STATUS.FAULTED is up while a fault is recorded, and the interrupt line with it (60_exceptions.md R286). -/
theorem faulted_of_recorded (h : s.fault = some r) : s.status.getLsbD 7 = true ∧ s.faultIrq = true := by
  have hirq : s.faultIrq = true := by rw [State.faultIrq, State.faulted, h]; rfl
  obtain ⟨-, -, -, -, -, -, -, heq⟩ := statusRegister s
  exact ⟨heq.symm.trans hirq, hirq⟩

/-- Settles O11: a command ends in a response or in a fault (`exec_cases`), and the fault is the one taken from the state
the command started in (`State.SameOutside.takeFault_eq`). -/
theorem takingAFault : Obligations.TakingAFault := by
  intro s t i hf e
  by_cases hreset : i = .sysReset
  · subst hreset
    cases (exec_sysReset s).symm.trans e
    exact .inl ⟨rfl, 0, rfl⟩
  obtain ⟨u, hsame, ⟨d, rfl⟩ | ⟨c, rfl⟩⟩ := exec_cases hreset e
  · obtain ⟨-, hfault, -⟩ := hsame
    exact .inl ⟨hfault.trans hf, d, rfl⟩
  · rw [hsame.takeFault_eq i.op c]
    have hrec := takeFault_recorded i.op c hf
    obtain ⟨hstatus, hirq⟩ := faulted_of_recorded hrec
    exact .inr ⟨c, hrec, rfl, hstatus, hirq, ⟨faultWord_code hrec, faultWord_class hrec⟩, faultOpWord_op hrec,
      ⟨rfl, rfl, rfl, rfl⟩, rfl⟩

end Sys2Proof.Machine
end

section
/-! SUPPORT. Dispatch while a fault is recorded, and the way out of it (60_exceptions.md R283, R284). -/

namespace Sys2Proof.Machine

variable {s t : State} {r : FaultRecord} {w : CmdWord}

/-- The words served while a fault is recorded are four (60_exceptions.md R283). -/
theorem servedWhileFaulted_iff : servedWhileFaulted w = true ↔
    w = 0x0100000000000000 ∨ w = 0x0200000000000000 ∨ w = 0x0201000000000000 ∨ w = 0x0202000000000000 := by
  constructor
  · intro h
    simp only [← Fields.ofWord_inj]
    unfold servedWhileFaulted at h
    generalize Fields.ofWord w = f at h ⊢
    obtain ⟨op, a, b, c, d⟩ := f
    simp only [Bool.or_eq_true, Bool.and_eq_true, beq_iff_eq] at h
    rcases h with ⟨⟨⟨⟨rfl, rfl⟩, rfl⟩, rfl⟩, rfl⟩ | ⟨⟨⟨⟨rfl, (rfl | rfl) | rfl⟩, rfl⟩, rfl⟩, rfl⟩ <;>
      decide
  · rintro (rfl | rfl | rfl | rfl) <;> decide

/-- A word that R283 lists is run whatever is recorded. -/
theorem serve_of_served {i : Instr} (h : servedWhileFaulted w = true) (hd : decode w = .ok i) :
    serve w s = exec i s := by
  unfold serve execWord
  cases s.fault <;> simp [h, hd]

/-- SYS_RESET with all operand bits 0 is served in every state (45_system.md R261). -/
theorem serve_sysReset (s : State) : serve 0x0100000000000000 s = .next (s.resetCore.respond 0) :=
  serve_of_served (i := .sysReset) (by decide) (by decide)

/-- SYS_RDREG of a register that R283 lists returns it in every state. -/
theorem serve_sysRdreg {n : Byte} {reg : Reg} (h : servedWhileFaulted w = true) (hd : decode w = .ok (.sysRdreg n))
    (hn : regOfNumber n = some reg) : serve w s = .next (s.respond (readReg s reg)) :=
  (serve_of_served h hd).trans (exec_sysRdreg_of_some hn s)

/-- The reset event leaves the values of 10_state.md R47, whatever response is then on offer. -/
theorem atReset_resetCore (h : s.cfg.legal = true) (rsp : Option Response) :
    ({ s.resetCore with rsp := rsp } : State).AtReset where
  ctx := ⟨List.length_replicate .., fun _ hi => List.getElem?_replicate_of_lt hi⟩
  engines := ⟨rfl, rfl, rfl⟩
  encoder := ⟨rfl, rfl, rfl, rfl, rfl⟩
  decoder := ⟨rfl, rfl, rfl⟩
  buffer := ⟨rfl, rfl, rfl, toNat_word (State.cap0_legal h).1⟩
  flags := ⟨rfl, rfl⟩
  fault := ⟨rfl, rfl, rfl⟩
  derived := ⟨(by decide : State.reset.status = 0), (by decide : cursorWord 0 = 0), (by decide : cursorWord 0 = 0),
    (by decide : cursorAvail 0 = 32), (by decide : cursorAvail 0 = 32)⟩

/-- Settles O9: the words that are served are four (`servedWhileFaulted_iff`), of which the three that read a register
change nothing else; any other is refused. -/
theorem faultedDispatch : Obligations.FaultedDispatch := by
  intro s r w rest hinv hready hf hw
  have hstep : step s = serve w { s with cmds := rest } := step_of_ready hready hw
  have hreset (h : w = 0x0100000000000000) :
      ∃ t, step s = .next t ∧ t.AtReset ∧ t.cmds = rest ∧ t.rsp = some ⟨none, 0⟩ := by
    subst h
    exact ⟨_, hstep.trans (serve_sysReset _), atReset_resetCore (s := { s with cmds := rest }) hinv.legal _, rfl, rfl⟩
  have hread {n : Byte} {reg : Reg} (h : servedWhileFaulted w = true) (hd : decode w = .ok (.sysRdreg n))
      (hn : regOfNumber n = some reg) := hstep.trans (serve_sysRdreg h hd hn)
  have hstatus (h : w = 0x0200000000000000) := by
    subst h; exact hread (n := 0x00) (reg := .status) (by decide) (by decide) rfl
  have hfault (h : w = 0x0201000000000000) := by
    subst h; exact hread (n := 0x01) (reg := .fault) (by decide) (by decide) rfl
  have hop (h : w = 0x0202000000000000) := by
    subst h; exact hread (n := 0x02) (reg := .faultOp) (by decide) (by decide) rfl
  have hrefused (h : servedWhileFaulted w = false) := hstep.trans (serve_of_refused hf h)
  refine ⟨hreset, hstatus, hfault, hop, fun h₁ h₂ h₃ h₄ => ?_, fun t e h₁ => ?_⟩
  · refine hrefused (Bool.eq_false_iff.2 fun h => ?_)
    exact (servedWhileFaulted_iff.1 h).elim h₁ fun h => h.elim h₂ fun h => h.elim h₃ h₄
  · cases hs : servedWhileFaulted w with
    | false => cases (hrefused hs).symm.trans e; exact hf
    | true =>
      rcases servedWhileFaulted_iff.1 hs with h | h | h | h
      · exact absurd h h₁
      · cases (hstatus h).symm.trans e; exact hf
      · cases (hfault h).symm.trans e; exact hf
      · cases (hop h).symm.trans e; exact hf

/-- Settles O10: the reset input leads to the reset values, with a response on offer or no word nothing is run, and a
word is dispatched as R283 says (`faultedDispatch`). -/
theorem faultIsFinal : Obligations.FaultIsFinal := by
  intro s t r hinv hf e
  cases hrst : s.rstN with
  | false =>
    cases (step_of_reset hrst).symm.trans e
    exact .inr ⟨atReset_resetCore hinv.legal none, .inl rfl⟩
  | true =>
    cases hrsp : s.rsp with
    | some _ =>
      cases (step_of_response hrst hrsp).symm.trans e
      left
      split
      · exact hf
      · exact hf
    | none =>
      have hready : s.Ready := ⟨hrst, hrsp⟩
      cases hw : s.cmds with
      | nil =>
        cases (step_of_idle hready hw).symm.trans e
        exact .inl hf
      | cons w rest =>
        obtain ⟨hreset, -, -, -, -, hkeeps⟩ := faultedDispatch s r w rest hinv hready hf hw
        by_cases h : w = 0x0100000000000000
        · obtain ⟨u, eu, hu, -⟩ := hreset h
          cases eu.symm.trans e
          exact .inr ⟨hu, .inr ⟨hready, rest, h ▸ rfl⟩⟩
        · exact .inl (hkeeps t e h)

end Sys2Proof.Machine
end

section
/-! SUPPORT. A command raises ERR_ILLEGAL by the check of its form alone (60_exceptions.md R272): `Legal`, for pseudocode
that never raises it. -/

namespace Sys2Proof.Machine

/-- The pseudocode never raises ERR_ILLEGAL. -/
def Legal {α : Type} (m : Cmd α) : Prop := ∀ s t, m s ≠ .error (.raise .illegal) t

section

variable {α β : Type}

@[simp] theorem legal_pure (a : α) : Legal (pure a : Cmd α) := fun _ _ => nofun

@[simp] theorem legal_get : Legal (get : Cmd State) := fun _ _ => nofun

theorem legal_raise {c : Cause} (h : c ≠ .illegal := by decide) : Legal (raise c : Cmd α) := by
  intro s t e
  cases e
  exact h rfl

@[simp] theorem legal_halt (f : Fault) : Legal (halt f : Cmd α) := fun _ _ => nofun

theorem legal_bind {m : Cmd α} {f : α → Cmd β} (h : Legal m) (g : ∀ a, Legal (f a)) :
    Legal (m >>= f) := by
  intro s t e
  rw [bind_run] at e
  split at e
  · exact g _ _ _ e
  · next x u hx =>
    cases e
    exact h s t hx

theorem legal_map {m : Cmd α} {f : α → β} (h : Legal m) : Legal (f <$> m) := by
  rw [map_eq_pure_bind]
  exact legal_bind h fun _ => legal_pure _

theorem legal_ite {p : Prop} [Decidable p] {m n : Cmd α} (h : Legal m) (g : Legal n) :
    Legal (if p then m else n) := by
  split
  · exact h
  · exact g

@[simp] theorem legal_raiseIf {b : Bool} {c : Cause} (h : c ≠ .illegal := by decide) : Legal (raiseIf b c) :=
  legal_ite (legal_raise h) (legal_pure ())

theorem legal_assign {fits : Bool} {upd : State → State} : Legal (assign fits upd) := by
  intro s t
  rw [assign_run]
  cases fits <;> nofun

@[simp] theorem legal_modify {upd : State → State} : Legal (modify upd : Cmd PUnit) := fun _ _ => nofun

@[simp] theorem legal_repeat {body : Cmd Unit} (h : Legal body) (n : Nat) : Legal (repeatCmd body n) := by
  induction n with
  | zero => exact legal_pure ()
  | succ n ih => exact legal_bind h fun _ => ih

end

/-! The shared operations (00_scope.md R10, 20_memory.md R63 to R68). -/

@[simp] theorem legal_readCtx (i : Nat) : Legal (readCtx i) := by
  intro s t
  unfold readCtx
  cases s.ctx[i]? <;> nofun

@[simp] theorem legal_memRead (addr : Int) (n : Nat) : Legal (memRead addr n) := by
  intro s t
  unfold memRead
  split <;> nofun

@[simp] theorem legal_countOf (e : Int) : Legal (countOf e) := legal_ite (legal_pure _) (legal_halt _)

theorem legal_growFor (need : Nat) : Legal (growFor need) := by
  refine legal_bind legal_get fun s => ?_
  cases grownCap need s.cfg.capMax 28 s.bbCap.toNat with
  | none => exact legal_raise
  | some cap => exact legal_assign

@[simp] theorem legal_putBits (v n : Nat) : Legal (putBits v n) := by
  refine legal_bind legal_get fun s => ?_
  have put : Legal (do
      raiseIf (s.wrPos.toNat + n ≥ 2 ^ 32) .overflow
      if s.count = false then
        growFor (s.wrPos.toNat + n)
        modify fun t => { t with store := t.store.writeBits s.wrPos.toNat n v }
      setWrPos (s.wrPos.toNat + n)) :=
    legal_bind legal_raiseIf fun _ => legal_ite
      (legal_bind (legal_growFor _) fun _ => legal_bind legal_modify fun _ => legal_assign) legal_assign
  exact legal_ite (legal_bind (legal_halt _) fun _ => put) put

@[simp] theorem legal_getBits (n : Nat) : Legal (getBits n) :=
  legal_bind legal_get fun _ => legal_bind legal_raiseIf fun _ => legal_bind legal_raiseIf fun _ =>
    legal_bind (legal_memRead _ _) fun _ => legal_bind legal_assign fun _ => legal_pure _

@[simp] theorem legal_emptyBuffer : Legal emptyBuffer :=
  legal_bind legal_assign fun _ => legal_bind legal_assign fun _ => legal_bind legal_modify fun _ => legal_assign

theorem legal_updateMps (i : Nat) : Legal (updateMps i) :=
  legal_bind (legal_readCtx i) fun _ => legal_bind legal_get fun _ => legal_modify

theorem legal_updateLps (i : Nat) : Legal (updateLps i) :=
  legal_bind (legal_readCtx i) fun _ => legal_bind legal_get fun _ => legal_modify

/-! The procedures of the encoder (41_encoder.md). -/

@[simp] theorem legal_releaseRun (v : Nat) : Legal (releaseRun v) :=
  legal_bind legal_get fun _ =>
    legal_repeat (legal_bind (legal_putBits _ _) fun _ => legal_bind legal_get fun _ => legal_assign) _

theorem legal_writeOut : Legal writeOut :=
  legal_bind legal_get fun _ => legal_bind legal_assign fun _ => legal_bind legal_assign fun _ => legal_ite
    (legal_bind legal_raiseIf fun _ => legal_assign)
    (legal_ite
      (legal_bind (legal_putBits _ _) fun _ => legal_bind legal_assign fun _ => legal_releaseRun _)
      (legal_bind legal_assign fun _ => legal_assign))

@[simp] theorem legal_testWriteOut : Legal testWriteOut :=
  legal_bind legal_get fun _ => legal_ite legal_writeOut (legal_pure _)

@[simp] theorem legal_encBin (i : Nat) (b : Bool) : Legal (encBin i b) :=
  legal_bind (legal_readCtx i) fun _ => legal_bind legal_get fun _ => legal_bind legal_assign fun _ =>
    legal_bind legal_get fun _ => legal_ite
      (legal_bind legal_assign fun _ => legal_bind legal_assign fun _ => legal_bind (legal_updateLps i) fun _ =>
        legal_bind legal_assign fun _ => legal_testWriteOut)
      (legal_bind (legal_updateMps i) fun _ => legal_ite
        (legal_bind legal_assign fun _ => legal_bind legal_assign fun _ => legal_bind legal_assign fun _ =>
          legal_testWriteOut)
        (legal_pure _))

@[simp] theorem legal_encEp (b : Bool) : Legal (encEp b) :=
  legal_bind legal_get fun _ => legal_bind legal_assign fun _ => legal_ite
    (legal_bind legal_get fun _ => legal_bind legal_assign fun _ => legal_bind legal_assign fun _ => legal_testWriteOut)
    (legal_bind legal_assign fun _ => legal_testWriteOut)

@[simp] theorem legal_requireEncoding : Legal requireEncoding := legal_bind legal_get fun _ => legal_raiseIf

@[simp] theorem legal_padZeros : Legal padZeros := legal_bind legal_get fun _ => legal_repeat (legal_putBits _ _) _

/-! The procedures of the decoder (42_decoder.md). -/

@[simp] theorem legal_decReadByte : Legal decReadByte := legal_getBits 8

@[simp] theorem legal_decDouble (scaled : Nat) : Legal (decDouble scaled) :=
  legal_bind legal_get fun _ => legal_bind legal_assign fun _ => legal_bind legal_assign fun _ =>
    legal_bind legal_assign fun _ => legal_bind legal_get fun _ => legal_ite
      (legal_bind legal_assign fun _ => legal_bind legal_decReadByte fun _ => legal_bind legal_get fun _ => legal_assign)
      (legal_pure _)

@[simp] theorem legal_decBin (i : Nat) : Legal (decBin i) :=
  legal_bind (legal_readCtx i) fun _ => legal_bind legal_get fun _ => legal_bind legal_assign fun _ =>
    legal_bind legal_get fun _ => legal_ite
      (legal_bind (legal_updateMps i) fun _ =>
        legal_ite (legal_bind (legal_decDouble _) fun _ => legal_pure _) (legal_pure _))
      (legal_bind legal_assign fun _ => legal_bind legal_assign fun _ => legal_bind (legal_updateLps i) fun _ =>
        legal_bind legal_assign fun _ => legal_bind legal_get fun _ => legal_ite
          (legal_bind legal_decReadByte fun _ => legal_bind legal_assign fun _ => legal_bind legal_assign fun _ =>
            legal_pure _)
          (legal_pure _))

@[simp] theorem legal_decEp : Legal decEp := by
  have compare : Legal (do
      let t ← get
      let scaled := t.decRange.toNat * 2 ^ 7
      if t.decValue.toNat ≥ scaled then
        setDecValue ((t.decValue.toNat - scaled : Nat))
        return true
      else
        return false) :=
    legal_bind legal_get fun _ => legal_ite (legal_bind legal_assign fun _ => legal_pure _) (legal_pure _)
  exact legal_bind legal_get fun _ => legal_bind legal_assign fun _ => legal_bind legal_assign fun _ =>
    legal_bind legal_get fun _ => legal_ite
      (legal_bind legal_assign fun _ => legal_bind legal_decReadByte fun _ => legal_bind legal_get fun _ =>
        legal_bind legal_assign fun _ => compare)
      compare

@[simp] theorem legal_requireDecoding : Legal requireDecoding := legal_bind legal_get fun _ => legal_raiseIf

/-! The procedures of the syntax layer (44_syntax.md). -/

section

variable (path : Path)

@[simp] theorem legal_checkWr : Legal (checkWr path) := by
  cases path with
  | raw => exact legal_bind legal_get fun _ => legal_raiseIf
  | ep => exact legal_requireEncoding
  | ctx => exact legal_requireEncoding

@[simp] theorem legal_checkRd : Legal (checkRd path) := by
  cases path with
  | raw => exact legal_bind legal_get fun _ => legal_raiseIf
  | ep => exact legal_requireDecoding
  | ctx => exact legal_requireDecoding

@[simp] theorem legal_emit (b : Bool) (i : Nat) : Legal (emit path b i) := by
  cases path with
  | raw => exact legal_putBits _ _
  | ep => exact legal_encEp b
  | ctx => exact legal_encBin i b

@[simp] theorem legal_wrFlc (v n : Nat) : Legal (wrFlc path v n) := by
  induction n with
  | zero => exact legal_pure _
  | succ n ih => exact legal_bind (legal_emit path _ _) fun _ => ih

@[simp] theorem legal_wrUvlc (v : Nat) : Legal (wrUvlc path v) :=
  legal_bind (legal_repeat (legal_emit path _ _) _) fun _ => legal_bind (legal_emit path _ _) fun _ =>
    legal_wrFlc path _ _

@[simp] theorem legal_wrOnes (ctx : Byte) (spanm1 : BitVec 6) (n k : Nat) : Legal (wrOnes path ctx spanm1 n k) := by
  induction n generalizing k with
  | zero => exact legal_pure _
  | succ n ih => exact legal_bind (legal_emit path _ _) fun _ => ih _

@[simp] theorem legal_take (i : Nat) : Legal (take path i) := by
  cases path with
  | raw => exact legal_map (legal_getBits 1)
  | ep => exact legal_decEp
  | ctx => exact legal_decBin i

@[simp] theorem legal_rdFlc (n v : Nat) : Legal (rdFlc path n v) := by
  induction n generalizing v with
  | zero => exact legal_pure _
  | succ n ih => exact legal_bind (legal_take path _) fun _ => ih _

theorem legal_rdPrefix (n l : Nat) : Legal (rdPrefix path n l) := by
  induction n generalizing l with
  | zero => exact legal_raise
  | succ n ih => exact legal_bind (legal_take path _) fun _ => legal_ite (legal_pure _) (ih _)

@[simp] theorem legal_rdUvlc : Legal (rdUvlc path) :=
  legal_bind (legal_rdPrefix path _ _) fun _ => legal_bind (legal_rdFlc path _ _) fun _ => legal_pure _

@[simp] theorem legal_rdOnes (ctx : Byte) (spanm1 : BitVec 6) (n k : Nat) : Legal (rdOnes path ctx spanm1 n k) := by
  induction n generalizing k with
  | zero => exact legal_pure _
  | succ n ih => exact legal_bind (legal_take path _) fun _ => legal_ite (ih _) (legal_pure _)

end

@[simp] theorem legal_rdZeros (n : Nat) : Legal (rdZeros n) := by
  induction n with
  | zero => exact legal_pure _
  | succ n ih => exact legal_bind (legal_getBits 1) fun _ => legal_bind legal_raiseIf fun _ => ih

@[simp] theorem legal_rdFf8 (k v : Nat) : Legal (rdFf8 k v) := by
  induction k generalizing v with
  | zero => exact legal_raise
  | succ k ih =>
    exact legal_bind (legal_getBits 8) fun _ => legal_bind legal_raiseIf fun _ => legal_ite (legal_pure _) (ih _)

/-! The commands. -/

/-- The check of form lets a well-formed command pass (30_encoding.md R98). -/
theorem legal_form {b : Bool} (h : b = true) : Legal (raiseIf (!b) .illegal) := by
  subst h
  exact legal_pure ()

/-- A well-formed command runs pseudocode that does not raise ERR_ILLEGAL. -/
theorem exec_legal {i : Instr} (s : State) (h : i.wellFormed = true) : ∃ m, exec i s = answer i.op m s ∧ Legal m := by
  cases i with
  | nop => exact ⟨pure 0, rfl, legal_pure _⟩
  | sysReset => exact ⟨do modify State.resetCore; return 0, rfl, legal_bind legal_modify fun _ => legal_pure _⟩
  | sysRdreg reg =>
    refine ⟨_, rfl, ?_⟩
    cases regOfNumber reg with
    | none => exact legal_raise
    | some r => exact legal_bind legal_get fun _ => legal_pure _
  | bbGetWritten => exact ⟨do return (← get).wrPos, rfl, legal_bind legal_get fun _ => legal_pure _⟩
  | seWrFlc _ _ _ | seWrUvlc _ _ | seWrSvlc _ _ | seWrTu _ _ _ _ _ | seRdFlc _ _ | seRdUvlc _ | seRdSvlc _
  | seRdTu _ _ _ _ =>
    refine ⟨_, rfl, legal_bind (legal_form h) fun _ => ?_⟩
    repeat' first
      | with_reducible refine legal_bind ?_ fun _ => ?_ | with_reducible apply legal_ite | simp
  | _ =>
    refine ⟨_, rfl, ?_⟩
    repeat' first
      | with_reducible refine legal_bind ?_ fun _ => ?_ | with_reducible apply legal_ite | simp
      | exact legal_assign | exact legal_modify

end Sys2Proof.Machine
end

section
/-! SUPPORT. Which words are illegal (30_encoding.md R96 to R98, R102; 60_exceptions.md R272): by the published rows, and
that every OP has one. -/

namespace Sys2Proof.Machine

variable {w : CmdWord}

/-- A word decodes to no command exactly where it matches no published row (30_encoding.md R102). -/
theorem decode_ne_ok_iff : (∀ i, decode w ≠ .ok i) ↔ ∀ p ∈ published, p.is w = false := by
  refine ⟨fun h p hp => Bool.eq_false_iff.2 fun his => h _ (decode_eq_ok_iff.2 ⟨p, hp, his, rfl⟩), fun h i hi => ?_⟩
  obtain ⟨p, hp, his, -⟩ := decode_eq_ok_iff.1 hi
  exact absurd his (Bool.eq_false_iff.1 (h p hp))

/-- A word does not match a row exactly where a fixed bit differs or the constraint on its path fails. -/
theorem PublishedRow.is_eq_false_iff {p : PublishedRow} :
    p.is w = false ↔ w &&& p.mask ≠ p.pattern ∨ p.constraint.holds w = false := by
  rw [PublishedRow.is, Bool.and_eq_false_iff, beq_eq_false_iff_ne]

/-- As no two rows have one OP, a word matches no row exactly where none has its OP or the one that has does not match
it. -/
theorem matches_none_iff : (∀ p ∈ published, p.is w = false) ↔
    (∀ p ∈ published, p.op ≠ opByte w) ∨ ∃ p ∈ published, p.op = opByte w ∧ p.is w = false := by
  constructor
  · intro h
    by_cases hop : ∃ p ∈ published, p.op = opByte w
    · obtain ⟨p, hp, hop⟩ := hop
      exact .inr ⟨p, hp, hop, h p hp⟩
    · exact .inl fun p hp hpop => hop ⟨p, hp, hpop⟩
  · rintro (hop | ⟨p, hp, hop, his⟩) q hq <;> refine Bool.eq_false_iff.2 fun hqw => ?_
    · exact hop q hq (op_of_is hq hqw)
    · have hqp : q = p := List.inj_on_of_nodup_map published_op_nodup hq hp ((op_of_is hq hqw).trans hop.symm)
      exact absurd (hqp ▸ hqw) (Bool.eq_false_iff.1 his)

/-- No row allows the value 0xFF of C: the rows that use all its bits name a path there, which may not be 3
(30_encoding.md R96, R98). -/
theorem decode_ne_ok_of_c (hc : (Fields.ofWord w).c = 0xFF) : ∀ i, decode w ≠ .ok i := by
  have hrows : ∀ p ∈ published, (Fields.ofWord p.pattern).c = 0 ∧
      ((Fields.ofWord p.mask).c = 0 → p.constraint = .tu) := by decide
  refine decode_ne_ok_iff.2 fun p hp => PublishedRow.is_eq_false_iff.2 ?_
  obtain ⟨hpattern, htu⟩ := hrows p hp
  by_cases hmask : (Fields.ofWord p.mask).c = 0
  · have hpath : pathField? w = 3 := by
      rw [pathField?, ← extractLsb'_extractLsb' w (i := 0) (j := 32) (l := 8) (by decide)]
      exact congrArg (BitVec.extractLsb' 0 2) hc
    right
    rw [htu hmask, holds_tu, hpath]
    rfl
  · refine .inl fun h => hmask ?_
    have hfields := congrArg (fun v => (Fields.ofWord v).c) h
    rw [Fields.ofWord_and] at hfields
    simpa only [hc, hpattern, show (0xFF : Byte) = BitVec.allOnes 8 from rfl, BitVec.allOnes_and] using hfields

/-- Every OP has an illegal word. -/
theorem exists_illegal_word (op : Byte) : ∃ w : CmdWord, opByte w = op ∧ ∀ i, decode w ≠ .ok i := by
  refine ⟨Fields.toWord ⟨op, 0, 0, 0xFF, 0⟩, ?_, decode_ne_ok_of_c ?_⟩
  · rw [opByte, Fields.ofWord_toWord]
  · rw [Fields.ofWord_toWord]

end Sys2Proof.Machine
end

section
/-! SUPPORT. When ERR_ILLEGAL is the answer (60_exceptions.md R272). -/

namespace Sys2Proof.Machine

variable {s t : State} {w : CmdWord}

/-- A well-formed command does not answer with ERR_ILLEGAL. -/
theorem rsp_ne_illegal_of_exec {i : Instr} {d : Word} (h : i.wellFormed = true) (e : exec i s = .next t) :
    t.rsp ≠ some ⟨some .illegal, d⟩ := by
  obtain ⟨m, hm, hlegal⟩ := exec_legal s h
  rcases answer_cases (hm.symm.trans e) with ⟨d', u, -, rfl⟩ | ⟨c, u, hu, rfl⟩
  · exact nofun
  · rintro ⟨⟩
    exact hlegal s u hu

/-- While no fault is recorded, ERR_ILLEGAL is the answer exactly to a word that decodes to no command. -/
theorem serve_illegal_iff (hf : s.fault = none) :
    (∃ d t, serve w s = .next t ∧ t.rsp = some ⟨some .illegal, d⟩) ↔ ∀ i, decode w ≠ .ok i := by
  constructor
  · rintro ⟨d, t, e, hrsp⟩ i hd
    obtain ⟨hwf, -⟩ := encodeDecodedWord w i hd
    exact rsp_ne_illegal_of_exec hwf ((serve_of_decode hf hd).symm.trans e) hrsp
  · exact fun h => ⟨0, _, serve_of_illegal hf h, rfl⟩

/-- Settles O5: ERR_ILLEGAL is the answer to what does not decode (`serve_illegal_iff`), which is what matches no
published row (`matches_none_iff`), and every OP has such a word. -/
theorem illegalWords : Obligations.IllegalWords := by
  refine ⟨fun w s ⟨_, hf⟩ => ?_, fun op => ?_⟩
  · rw [serve_illegal_iff hf, decode_ne_ok_iff, matches_none_iff]
    simp only [PublishedRow.is_eq_false_iff]
    rfl
  · obtain ⟨w, hop, hw⟩ := exists_illegal_word op
    exact ⟨w, hop, fun s hf => hop ▸ serve_of_illegal hf hw⟩

end Sys2Proof.Machine
end

section
/-! SUPPORT. The reset event (70_reset_and_hazards.md R300), and the words with the OP of SYS_RESET that are not its word
(45_system.md R261; 60_exceptions.md R272, R283). -/

namespace Sys2Proof.Machine

variable {s : State} {w : CmdWord}

/-- No command is accepted while `rst_n` is low (70_reset_and_hazards.md R300). -/
theorem cmdReady_of_reset (h : s.rstN = false) : s.cmdReady = false := by
  rw [State.cmdReady, h, Bool.false_and]

/-- Of the words with the OP of SYS_RESET only its own is served while a fault is recorded (60_exceptions.md R283). -/
theorem servedWhileFaulted_of_resetOp (hop : opByte w = 0x01) (hne : w ≠ 0x0100000000000000) :
    servedWhileFaulted w = false := by
  refine Bool.eq_false_iff.2 fun h => ?_
  rcases servedWhileFaulted_iff.1 h with rfl | rfl | rfl | rfl
  · exact hne rfl
  · exact absurd hop (by decide)
  · exact absurd hop (by decide)
  · exact absurd hop (by decide)

/-- Settles O14: SYS_RESET, run or served, and `rst_n` low all lead to `State.resetCore`, which has the values of R47
(`atReset_resetCore`); SYS_RESET has no operands, so that no other word with its OP decodes (`decode_ne_ok_of_fixed`). -/
theorem resetEvent : Obligations.ResetEvent := by
  intro s hlegal
  refine ⟨⟨s.resetCore.respond 0, exec_sysReset s, serve_sysReset s, atReset_resetCore hlegal _, rfl,
    ⟨rfl, rfl, rfl, rfl⟩, fun hrst => ⟨cmdReady_of_reset hrst, step_of_reset hrst⟩⟩, fun w hop hne => ⟨fun hf => ?_,
    fun r hf => ?_⟩⟩
  · have hillegal := serve_of_illegal hf (decode_ne_ok_of_fixed (by decide) hop hne)
    rwa [show opByte w = 0x01 from hop] at hillegal
  · exact serve_of_refused hf (servedWhileFaulted_of_resetOp hop hne)

end Sys2Proof.Machine
end
